-- ==== Sys2Proof/Word.lean ====
section
/-! DEFINITION. The data widths of the PPC405 (spec R7): 32-bit words, 8-bit bytes, 5-bit register numbers. -/

namespace Sys2Proof

/-- A 32-bit register, instruction word or address (R7). Bit 0 is the most significant bit (R15). -/
abbrev Word := BitVec 32

/-- One byte of storage (R130). -/
abbrev Byte := BitVec 8

/-- The number of a general purpose register, GPR0 to GPR31 (R30). -/
abbrev Reg := BitVec 5

end Sys2Proof
end

