-- ==== Sys2Proof/Machine/Bits.lean ====
section
/-! DEFINITION. Bits, fields, sign extension and byte order: the notation of R15 and R16, and the byte order of R131. -/

namespace Sys2Proof.Machine

/-- Bit `i` of a word, bit 0 the most significant (R15). -/
def bit (w : Word) (i : Nat) : Bool := w.getMsbD i

/-- The weight of bit `i`, 2^(31-i) (R15). -/
def weight (i : Nat) : Word := 1#32 <<< (31 - i)

/-- `w` with bit `i` set to `b`. -/
def setBit (w : Word) (i : Nat) (b : Bool) : Word :=
  if b then w ||| weight i else w &&& ~~~(weight i)

/-- The field `w[a : a+n-1]` (R15). -/
def field (w : Word) (a n : Nat) : BitVec n := w.extractLsb' (32 - a - n) n

/-- `sext_16` (R16): a 16-bit value with its sign copied to the left. -/
def sext16 (d : BitVec 16) : Word := d.signExtend 32

/-- `zext_16` (R16): a 16-bit value with zeros on the left. -/
def zext16 (d : BitVec 16) : Word := d.setWidth 32

/-- One bit as a word: 0 or 1. -/
def bitWord (b : Bool) : Word := if b then 1#32 else 0#32

/-- `ROTL(x, n)` (R16) with the amount taken modulo 32. -/
def rotl (x : Word) (n : Nat) : Word := x.rotateLeft (n % 32)

/-- `MASK(MB, ME)` (R16): ones in bits MB to ME, wrapping past bit 31 when MB > ME. -/
def maskBits (mb me : Nat) : Word :=
  let from_mb : Word := BitVec.allOnes 32 >>> mb
  let upto_me : Word := BitVec.allOnes 32 <<< (31 - me)
  if mb ≤ me then from_mb &&& upto_me else from_mb ||| upto_me

/-- The word whose bytes are `b0 b1 b2 b3`, `b0` the most significant (R131). -/
def wordOfBytes (b0 b1 b2 b3 : Byte) : Word := b0 ++ b1 ++ b2 ++ b3

/-- The four bytes of a word, the most significant first (R131). -/
def wordBytes (w : Word) : List Byte :=
  [w.extractLsb' 24 8, w.extractLsb' 16 8, w.extractLsb' 8 8, w.extractLsb' 0 8]

/-- The two low-order bytes of a word, the more significant first. -/
def halfBytes (w : Word) : List Byte := [w.extractLsb' 8 8, w.extractLsb' 0 8]

/-- The number a list of bytes stands for, the first byte the most significant, cut to a word. -/
def bytesWord (bs : List Byte) : Word :=
  bs.foldl (fun acc b => (acc <<< 8) ||| b.setWidth 32) 0#32

/-- A scalar's bytes in storage order for the E attribute `e` (R131): most significant first in big endian storage, the
reverse in little endian storage. The same placement serves loads and stores. -/
def orderBytes (e : Bool) (bs : List Byte) : List Byte := if e then bs.reverse else bs

/-- An address with its two low-order bits cleared: the word that holds it (R32, R141). -/
def wordAligned (a : Word) : Word := a &&& 0xFFFFFFFC#32

/-- The 32-byte line that holds an address, as a line number (R9). -/
def lineOf (ra : Word) : BitVec 27 := ra.extractLsb' 5 27

/-- The address of the first byte of a line. -/
def lineBase (l : BitVec 27) : Word := l ++ 0#5

/-- The offset of an address in its line, A[27:31] (R181). -/
def lineOffset (ra : Word) : BitVec 5 := ra.extractLsb' 0 5

end Sys2Proof.Machine
end

