-- ==== Sys2Proof/Syntax.lean ====
section
/-! DEFINITION. The instructions: one constructor per row of spec/opcode_table.json, in the table's order.
Operand fields keep the width they have in the encoding (R222); register numbers, immediates and masks are the raw
fields, SPR, DCR and TBR numbers are already unswapped (R223), branch displacements are in bytes (LI or BD with 0b00 on
the right, R451, R452). `x31` is instruction bit 31 of an X-form instruction without a record form (R241, R321). -/

namespace Sys2Proof

/-- One instruction of the PPC405 with its operands. -/
inductive Instr where
  -- Storage reference instructions (file 40)
  /-- `lbz`, D form (R272). -/
  | lbz (rt ra : Reg) (d : BitVec 16)
  /-- `lbzu`, D form (R273). -/
  | lbzu (rt ra : Reg) (d : BitVec 16)
  /-- `lha`, D form (R276). -/
  | lha (rt ra : Reg) (d : BitVec 16)
  /-- `lhau`, D form (R277). -/
  | lhau (rt ra : Reg) (d : BitVec 16)
  /-- `lhz`, D form (R280). -/
  | lhz (rt ra : Reg) (d : BitVec 16)
  /-- `lhzu`, D form (R281). -/
  | lhzu (rt ra : Reg) (d : BitVec 16)
  /-- `lwz`, D form (R284). -/
  | lwz (rt ra : Reg) (d : BitVec 16)
  /-- `lwzu`, D form (R285). -/
  | lwzu (rt ra : Reg) (d : BitVec 16)
  /-- `lmw`, D form (R291). -/
  | lmw (rt ra : Reg) (d : BitVec 16)
  /-- `stb`, D form (R300). -/
  | stb (rs ra : Reg) (d : BitVec 16)
  /-- `stbu`, D form (R301). -/
  | stbu (rs ra : Reg) (d : BitVec 16)
  /-- `sth`, D form (R304). -/
  | sth (rs ra : Reg) (d : BitVec 16)
  /-- `sthu`, D form (R305). -/
  | sthu (rs ra : Reg) (d : BitVec 16)
  /-- `stw`, D form (R308). -/
  | stw (rs ra : Reg) (d : BitVec 16)
  /-- `stwu`, D form (R309). -/
  | stwu (rs ra : Reg) (d : BitVec 16)
  /-- `stmw`, D form (R314). -/
  | stmw (rs ra : Reg) (d : BitVec 16)
  /-- `lbzx`, X form (R274). -/
  | lbzx (rt ra rb : Reg) (x31 : Bool)
  /-- `lbzux`, X form (R275). -/
  | lbzux (rt ra rb : Reg) (x31 : Bool)
  /-- `lhax`, X form (R278). -/
  | lhax (rt ra rb : Reg) (x31 : Bool)
  /-- `lhaux`, X form (R279). -/
  | lhaux (rt ra rb : Reg) (x31 : Bool)
  /-- `lhzx`, X form (R282). -/
  | lhzx (rt ra rb : Reg) (x31 : Bool)
  /-- `lhzux`, X form (R283). -/
  | lhzux (rt ra rb : Reg) (x31 : Bool)
  /-- `lwzx`, X form (R286). -/
  | lwzx (rt ra rb : Reg) (x31 : Bool)
  /-- `lwzux`, X form (R287). -/
  | lwzux (rt ra rb : Reg) (x31 : Bool)
  /-- `lwarx`, X form (R288). -/
  | lwarx (rt ra rb : Reg) (x31 : Bool)
  /-- `lhbrx`, X form (R289). -/
  | lhbrx (rt ra rb : Reg) (x31 : Bool)
  /-- `lwbrx`, X form (R290). -/
  | lwbrx (rt ra rb : Reg) (x31 : Bool)
  /-- `lswx`, X form (R293). -/
  | lswx (rt ra rb : Reg) (x31 : Bool)
  /-- `lswi`, X form (R292). -/
  | lswi (rt ra : Reg) (nb : BitVec 5) (x31 : Bool)
  /-- `stbx`, X form (R302). -/
  | stbx (rs ra rb : Reg) (x31 : Bool)
  /-- `stbux`, X form (R303). -/
  | stbux (rs ra rb : Reg) (x31 : Bool)
  /-- `sthx`, X form (R306). -/
  | sthx (rs ra rb : Reg) (x31 : Bool)
  /-- `sthux`, X form (R307). -/
  | sthux (rs ra rb : Reg) (x31 : Bool)
  /-- `stwx`, X form (R310). -/
  | stwx (rs ra rb : Reg) (x31 : Bool)
  /-- `stwux`, X form (R311). -/
  | stwux (rs ra rb : Reg) (x31 : Bool)
  /-- `sthbrx`, X form (R312). -/
  | sthbrx (rs ra rb : Reg) (x31 : Bool)
  /-- `stwbrx`, X form (R313). -/
  | stwbrx (rs ra rb : Reg) (x31 : Bool)
  /-- `stswx`, X form (R316). -/
  | stswx (rs ra rb : Reg) (x31 : Bool)
  /-- `stswi`, X form (R315). -/
  | stswi (rs ra : Reg) (nb : BitVec 5) (x31 : Bool)
  /-- `stwcx.`, X form (R318). -/
  | stwcxRc (rs ra rb : Reg)
  -- Arithmetic (file 41)
  /-- `add`, XO form (R331). -/
  | add (rt ra rb : Reg) (oe rc : Bool)
  /-- `addc`, XO form (R332). -/
  | addc (rt ra rb : Reg) (oe rc : Bool)
  /-- `adde`, XO form (R333). -/
  | adde (rt ra rb : Reg) (oe rc : Bool)
  /-- `subf`, XO form (R340). -/
  | subf (rt ra rb : Reg) (oe rc : Bool)
  /-- `subfc`, XO form (R341). -/
  | subfc (rt ra rb : Reg) (oe rc : Bool)
  /-- `subfe`, XO form (R342). -/
  | subfe (rt ra rb : Reg) (oe rc : Bool)
  /-- `mullw`, XO form (R348). -/
  | mullw (rt ra rb : Reg) (oe rc : Bool)
  /-- `divw`, XO form (R351). -/
  | divw (rt ra rb : Reg) (oe rc : Bool)
  /-- `divwu`, XO form (R352). -/
  | divwu (rt ra rb : Reg) (oe rc : Bool)
  /-- `addme`, XO form (R338). -/
  | addme (rt ra : Reg) (oe rc : Bool)
  /-- `addze`, XO form (R339). -/
  | addze (rt ra : Reg) (oe rc : Bool)
  /-- `subfme`, XO form (R344). -/
  | subfme (rt ra : Reg) (oe rc : Bool)
  /-- `subfze`, XO form (R345). -/
  | subfze (rt ra : Reg) (oe rc : Bool)
  /-- `neg`, XO form (R346). -/
  | neg (rt ra : Reg) (oe rc : Bool)
  /-- `mulhw`, XO form (R349). -/
  | mulhw (rt ra rb : Reg) (rc : Bool)
  /-- `mulhwu`, XO form (R350). -/
  | mulhwu (rt ra rb : Reg) (rc : Bool)
  /-- `addi`, D form (R334). -/
  | addi (rt ra : Reg) (im : BitVec 16)
  /-- `addic`, D form (R335). -/
  | addic (rt ra : Reg) (im : BitVec 16)
  /-- `addic.`, D form (R336). -/
  | addicRc (rt ra : Reg) (im : BitVec 16)
  /-- `addis`, D form (R337). -/
  | addis (rt ra : Reg) (im : BitVec 16)
  /-- `subfic`, D form (R343). -/
  | subfic (rt ra : Reg) (im : BitVec 16)
  /-- `mulli`, D form (R347). -/
  | mulli (rt ra : Reg) (im : BitVec 16)
  -- Multiply-accumulate and halfword multiply (file 42)
  /-- `macchw`, XO form (R371). -/
  | macchw (rt ra rb : Reg) (oe rc : Bool)
  /-- `macchws`, XO form (R372). -/
  | macchws (rt ra rb : Reg) (oe rc : Bool)
  /-- `macchwsu`, XO form (R373). -/
  | macchwsu (rt ra rb : Reg) (oe rc : Bool)
  /-- `macchwu`, XO form (R374). -/
  | macchwu (rt ra rb : Reg) (oe rc : Bool)
  /-- `machhw`, XO form (R375). -/
  | machhw (rt ra rb : Reg) (oe rc : Bool)
  /-- `machhws`, XO form (R376). -/
  | machhws (rt ra rb : Reg) (oe rc : Bool)
  /-- `machhwsu`, XO form (R377). -/
  | machhwsu (rt ra rb : Reg) (oe rc : Bool)
  /-- `machhwu`, XO form (R378). -/
  | machhwu (rt ra rb : Reg) (oe rc : Bool)
  /-- `maclhw`, XO form (R379). -/
  | maclhw (rt ra rb : Reg) (oe rc : Bool)
  /-- `maclhws`, XO form (R380). -/
  | maclhws (rt ra rb : Reg) (oe rc : Bool)
  /-- `maclhwsu`, XO form (R381). -/
  | maclhwsu (rt ra rb : Reg) (oe rc : Bool)
  /-- `maclhwu`, XO form (R382). -/
  | maclhwu (rt ra rb : Reg) (oe rc : Bool)
  /-- `nmacchw`, XO form (R383). -/
  | nmacchw (rt ra rb : Reg) (oe rc : Bool)
  /-- `nmacchws`, XO form (R384). -/
  | nmacchws (rt ra rb : Reg) (oe rc : Bool)
  /-- `nmachhw`, XO form (R385). -/
  | nmachhw (rt ra rb : Reg) (oe rc : Bool)
  /-- `nmachhws`, XO form (R386). -/
  | nmachhws (rt ra rb : Reg) (oe rc : Bool)
  /-- `nmaclhw`, XO form (R387). -/
  | nmaclhw (rt ra rb : Reg) (oe rc : Bool)
  /-- `nmaclhws`, XO form (R388). -/
  | nmaclhws (rt ra rb : Reg) (oe rc : Bool)
  /-- `mulchw`, X form (R389). -/
  | mulchw (rt ra rb : Reg) (rc : Bool)
  /-- `mulchwu`, X form (R390). -/
  | mulchwu (rt ra rb : Reg) (rc : Bool)
  /-- `mulhhw`, X form (R391). -/
  | mulhhw (rt ra rb : Reg) (rc : Bool)
  /-- `mulhhwu`, X form (R392). -/
  | mulhhwu (rt ra rb : Reg) (rc : Bool)
  /-- `mullhw`, X form (R393). -/
  | mullhw (rt ra rb : Reg) (rc : Bool)
  /-- `mullhwu`, X form (R394). -/
  | mullhwu (rt ra rb : Reg) (rc : Bool)
  -- Logical (file 43)
  /-- `and`, X form (R411). -/
  | and (rs ra rb : Reg) (rc : Bool)
  /-- `andc`, X form (R412). -/
  | andc (rs ra rb : Reg) (rc : Bool)
  /-- `eqv`, X form (R416). -/
  | eqv (rs ra rb : Reg) (rc : Bool)
  /-- `nand`, X form (R419). -/
  | nand (rs ra rb : Reg) (rc : Bool)
  /-- `nor`, X form (R420). -/
  | nor (rs ra rb : Reg) (rc : Bool)
  /-- `or`, X form (R421). -/
  | or (rs ra rb : Reg) (rc : Bool)
  /-- `orc`, X form (R422). -/
  | orc (rs ra rb : Reg) (rc : Bool)
  /-- `xor`, X form (R425). -/
  | xor (rs ra rb : Reg) (rc : Bool)
  /-- `cntlzw`, X form (R415). -/
  | cntlzw (rs ra : Reg) (rc : Bool)
  /-- `extsb`, X form (R417). -/
  | extsb (rs ra : Reg) (rc : Bool)
  /-- `extsh`, X form (R418). -/
  | extsh (rs ra : Reg) (rc : Bool)
  /-- `andi.`, D form (R413). -/
  | andiRc (rs ra : Reg) (im : BitVec 16)
  /-- `andis.`, D form (R414). -/
  | andisRc (rs ra : Reg) (im : BitVec 16)
  /-- `ori`, D form (R423). -/
  | ori (rs ra : Reg) (im : BitVec 16)
  /-- `oris`, D form (R424). -/
  | oris (rs ra : Reg) (im : BitVec 16)
  /-- `xori`, D form (R426). -/
  | xori (rs ra : Reg) (im : BitVec 16)
  /-- `xoris`, D form (R427). -/
  | xoris (rs ra : Reg) (im : BitVec 16)
  -- Compare (file 44)
  /-- `cmp`, X form (R441). -/
  | cmp (bf : BitVec 3) (ra rb : Reg) (x31 : Bool)
  /-- `cmpi`, D form (R442). -/
  | cmpi (bf : BitVec 3) (ra : Reg) (im : BitVec 16)
  /-- `cmpl`, X form (R443). -/
  | cmpl (bf : BitVec 3) (ra rb : Reg) (x31 : Bool)
  /-- `cmpli`, D form (R444). -/
  | cmpli (bf : BitVec 3) (ra : Reg) (im : BitVec 16)
  -- Branch and CR logical (file 45)
  /-- `b`, I form (R451). -/
  | b (disp : BitVec 26) (aa lk : Bool)
  /-- `bc`, B form (R452). -/
  | bc (bo bi : BitVec 5) (disp : BitVec 16) (aa lk : Bool)
  /-- `bcctr`, XL form (R453). -/
  | bcctr (bo bi : BitVec 5) (lk : Bool)
  /-- `bclr`, XL form (R454). -/
  | bclr (bo bi : BitVec 5) (lk : Bool)
  /-- `crand`, XL form (R461). -/
  | crand (bt ba bb : BitVec 5)
  /-- `crandc`, XL form (R462). -/
  | crandc (bt ba bb : BitVec 5)
  /-- `creqv`, XL form (R463). -/
  | creqv (bt ba bb : BitVec 5)
  /-- `crnand`, XL form (R464). -/
  | crnand (bt ba bb : BitVec 5)
  /-- `crnor`, XL form (R465). -/
  | crnor (bt ba bb : BitVec 5)
  /-- `cror`, XL form (R466). -/
  | cror (bt ba bb : BitVec 5)
  /-- `crorc`, XL form (R467). -/
  | crorc (bt ba bb : BitVec 5)
  /-- `crxor`, XL form (R468). -/
  | crxor (bt ba bb : BitVec 5)
  /-- `mcrf`, XL form (R469). -/
  | mcrf (bf bfa : BitVec 3)
  -- Rotate and shift (file 46)
  /-- `rlwimi`, M form (R481). -/
  | rlwimi (rs ra : Reg) (sh mb me : BitVec 5) (rc : Bool)
  /-- `rlwinm`, M form (R482). -/
  | rlwinm (rs ra : Reg) (sh mb me : BitVec 5) (rc : Bool)
  /-- `rlwnm`, M form (R483). -/
  | rlwnm (rs ra rb : Reg) (mb me : BitVec 5) (rc : Bool)
  /-- `slw`, X form (R484). -/
  | slw (rs ra rb : Reg) (rc : Bool)
  /-- `srw`, X form (R485). -/
  | srw (rs ra rb : Reg) (rc : Bool)
  /-- `sraw`, X form (R486). -/
  | sraw (rs ra rb : Reg) (rc : Bool)
  /-- `srawi`, X form (R487). -/
  | srawi (rs ra : Reg) (sh : BitVec 5) (rc : Bool)
  -- Cache control (file 47)
  /-- `dcba`, X form (R501). -/
  | dcba (ra rb : Reg) (x31 : Bool)
  /-- `dcbf`, X form (R502). -/
  | dcbf (ra rb : Reg) (x31 : Bool)
  /-- `dcbi`, X form (R503). -/
  | dcbi (ra rb : Reg) (x31 : Bool)
  /-- `dcbst`, X form (R504). -/
  | dcbst (ra rb : Reg) (x31 : Bool)
  /-- `dcbt`, X form (R505). -/
  | dcbt (ra rb : Reg) (x31 : Bool)
  /-- `dcbtst`, X form (R506). -/
  | dcbtst (ra rb : Reg) (x31 : Bool)
  /-- `dcbz`, X form (R507). -/
  | dcbz (ra rb : Reg) (x31 : Bool)
  /-- `dccci`, X form (R508). -/
  | dccci (ra rb : Reg) (x31 : Bool)
  /-- `icbi`, X form (R510). -/
  | icbi (ra rb : Reg) (x31 : Bool)
  /-- `icbt`, X form (R511). -/
  | icbt (ra rb : Reg) (x31 : Bool)
  /-- `iccci`, X form (R512). -/
  | iccci (ra rb : Reg) (x31 : Bool)
  /-- `icread`, X form (R513). -/
  | icread (ra rb : Reg) (x31 : Bool)
  /-- `dcread`, X form (R509). -/
  | dcread (rt ra rb : Reg) (x31 : Bool)
  -- Interrupt control and TLB (file 48)
  /-- `mfmsr`, X form (R530). -/
  | mfmsr (rt : Reg) (x31 : Bool)
  /-- `mtmsr`, X form (R531). -/
  | mtmsr (rs : Reg) (x31 : Bool)
  /-- `rfi`, XL form (R532). -/
  | rfi (x31 : Bool)
  /-- `rfci`, XL form (R533). -/
  | rfci (x31 : Bool)
  /-- `wrtee`, X form (R534). -/
  | wrtee (rs : Reg) (x31 : Bool)
  /-- `wrteei`, X form (R535). -/
  | wrteei (e x31 : Bool)
  /-- `tlbia`, X form (R540). -/
  | tlbia (x31 : Bool)
  /-- `tlbre`, X form (R541). -/
  | tlbre (rt ra : Reg) (ws x31 : Bool)
  /-- `tlbsx`, X form (R542). -/
  | tlbsx (rt ra rb : Reg) (rc : Bool)
  /-- `tlbsync`, X form (R543). -/
  | tlbsync (x31 : Bool)
  /-- `tlbwe`, X form (R544). -/
  | tlbwe (rs ra : Reg) (ws x31 : Bool)
  -- Processor management (file 49)
  /-- `eieio`, X form (R560). -/
  | eieio (x31 : Bool)
  /-- `isync`, XL form (R561). -/
  | isync (x31 : Bool)
  /-- `sync`, X form (R562). -/
  | sync (x31 : Bool)
  /-- `mcrxr`, X form (R563). -/
  | mcrxr (bf : BitVec 3) (x31 : Bool)
  /-- `mfcr`, X form (R564). -/
  | mfcr (rt : Reg) (x31 : Bool)
  /-- `mtcrf`, XFX form (R565). -/
  | mtcrf (rs : Reg) (fxm : BitVec 8)
  /-- `mfdcr`, XFX form (R566). -/
  | mfdcr (rt : Reg) (dcrn : BitVec 10)
  /-- `mtdcr`, XFX form (R567). -/
  | mtdcr (rs : Reg) (dcrn : BitVec 10)
  /-- `mfspr`, XFX form (R568). -/
  | mfspr (rt : Reg) (sprn : BitVec 10)
  /-- `mtspr`, XFX form (R569). -/
  | mtspr (rs : Reg) (sprn : BitVec 10)
  /-- `mftb`, XFX form (R570). -/
  | mftb (rt : Reg) (tbrn : BitVec 10)
  /-- `sc`, SC form (R571). -/
  | sc
  /-- `tw`, X form (R572). -/
  | tw (tos : BitVec 5) (ra rb : Reg) (x31 : Bool)
  /-- `twi`, D form (R573). -/
  | twi (tos : BitVec 5) (ra : Reg) (im : BitVec 16)
deriving DecidableEq, Repr

end Sys2Proof
end

