-- ==== Sys2Proof/WellFormed.lean ====
section
/-! DEFINITION. The instruction terms that an encoding can hold. Every operand field has exactly its encoding's width, so
only the branch displacements carry a condition: they are a field followed by 0b00 (R222 LI and BD). -/

namespace Sys2Proof

/-- The term stands for an instruction word: a branch displacement is a multiple of 4 (R451, R452). -/
def Instr.wellFormed : Instr → Bool
  | .b disp _ _ => disp.extractLsb' 0 2 = 0#2
  | .bc _ _ disp _ _ => disp.extractLsb' 0 2 = 0#2
  | _ => true

end Sys2Proof
end

