-- ==== Sys2Proof/Decode.lean ====
section
/-! DEFINITION. The decoder, total on every word and every list of bytes, and the encoder, both from the encoding tables
R222 to R230. Reserved bits take no part in decoding (R226, R241). -/

namespace Sys2Proof

open Machine

/-- Why a word is no instruction of this core (R226, R240); the machine takes the program interrupt on each. Safe. -/
inductive DecodeError where
  /-- No row of R227 has this primary opcode. -/
  | illegalPrimary (opcd : Nat)
  /-- No row of R228, R229 or R230 has this extended opcode under the primary one. -/
  | illegalExtended (opcd xo : Nat)
  /-- Fewer than four bytes were given. -/
  | tooShort
deriving DecidableEq, Repr

/-! ### Fields (R222) -/

/-- OPCD, bits 0:5. -/
def fOPCD (w : Word) : BitVec 6 := field w 0 6
/-- RT, RS, BT, BO or TO, bits 6:10. -/
def fRT (w : Word) : BitVec 5 := field w 6 5
/-- RA, BA or BI, bits 11:15. -/
def fRA (w : Word) : BitVec 5 := field w 11 5
/-- RB, BB, NB or SH, bits 16:20. -/
def fRB (w : Word) : BitVec 5 := field w 16 5
/-- MB, bits 21:25. -/
def fMB (w : Word) : BitVec 5 := field w 21 5
/-- ME, bits 26:30. -/
def fME (w : Word) : BitVec 5 := field w 26 5
/-- BF, bits 6:8. -/
def fBF (w : Word) : BitVec 3 := field w 6 3
/-- BFA, bits 11:13. -/
def fBFA (w : Word) : BitVec 3 := field w 11 3
/-- D or IM, bits 16:31. -/
def fIM (w : Word) : BitVec 16 := field w 16 16
/-- FXM, bits 12:19. -/
def fFXM (w : Word) : BitVec 8 := field w 12 8
/-- The extended opcode of X, XL and XFX forms, bits 21:30. -/
def fXO10 (w : Word) : BitVec 10 := field w 21 10
/-- The extended opcode of XO forms, bits 22:30. -/
def fXO9 (w : Word) : BitVec 9 := field w 22 9
/-- OE, bit 21. -/
def fOE (w : Word) : Bool := bit w 21
/-- AA, bit 30. -/
def fAA (w : Word) : Bool := bit w 30
/-- Rc, LK, or the reserved bit 31. -/
def fBit31 (w : Word) : Bool := bit w 31
/-- E of `wrteei`, bit 16. -/
def fE (w : Word) : Bool := bit w 16
/-- WS of `tlbre` and `tlbwe`: only its low bit, bit 20, is used (R541, D20). -/
def fWS (w : Word) : Bool := bit w 20
/-- LI || 0b00, the byte displacement of `b` (bits 6:29). -/
def fLI (w : Word) : BitVec 26 := field w 6 24 ++ 0#2
/-- BD || 0b00, the byte displacement of `bc` (bits 16:29). -/
def fBD (w : Word) : BitVec 16 := field w 16 14 ++ 0#2
/-- SPRN, DCRN or TBRN: the field 11:20 with its halves exchanged (R223). -/
def fNum (w : Word) : BitVec 10 := field w 16 5 ++ field w 11 5

/-! ### Decoding (R226) -/

/-- Primary opcode 4, XO-form rows of R230. -/
def decode4xo (w : Word) : Except DecodeError Instr :=
  match (fXO9 w).toNat with
  | 12 => .ok (.machhwu (fRT w) (fRA w) (fRB w) (fOE w) (fBit31 w))
  | 44 => .ok (.machhw (fRT w) (fRA w) (fRB w) (fOE w) (fBit31 w))
  | 46 => .ok (.nmachhw (fRT w) (fRA w) (fRB w) (fOE w) (fBit31 w))
  | 76 => .ok (.machhwsu (fRT w) (fRA w) (fRB w) (fOE w) (fBit31 w))
  | 108 => .ok (.machhws (fRT w) (fRA w) (fRB w) (fOE w) (fBit31 w))
  | 110 => .ok (.nmachhws (fRT w) (fRA w) (fRB w) (fOE w) (fBit31 w))
  | 140 => .ok (.macchwu (fRT w) (fRA w) (fRB w) (fOE w) (fBit31 w))
  | 172 => .ok (.macchw (fRT w) (fRA w) (fRB w) (fOE w) (fBit31 w))
  | 174 => .ok (.nmacchw (fRT w) (fRA w) (fRB w) (fOE w) (fBit31 w))
  | 204 => .ok (.macchwsu (fRT w) (fRA w) (fRB w) (fOE w) (fBit31 w))
  | 236 => .ok (.macchws (fRT w) (fRA w) (fRB w) (fOE w) (fBit31 w))
  | 238 => .ok (.nmacchws (fRT w) (fRA w) (fRB w) (fOE w) (fBit31 w))
  | 396 => .ok (.maclhwu (fRT w) (fRA w) (fRB w) (fOE w) (fBit31 w))
  | 428 => .ok (.maclhw (fRT w) (fRA w) (fRB w) (fOE w) (fBit31 w))
  | 430 => .ok (.nmaclhw (fRT w) (fRA w) (fRB w) (fOE w) (fBit31 w))
  | 460 => .ok (.maclhwsu (fRT w) (fRA w) (fRB w) (fOE w) (fBit31 w))
  | 492 => .ok (.maclhws (fRT w) (fRA w) (fRB w) (fOE w) (fBit31 w))
  | 494 => .ok (.nmaclhws (fRT w) (fRA w) (fRB w) (fOE w) (fBit31 w))
  | xo => .error (.illegalExtended 4 xo)

/-- Primary opcode 4 (R230): the halfword multiplies by bits 21:30, else the multiply-accumulate rows. -/
def decode4 (w : Word) : Except DecodeError Instr :=
  match (fXO10 w).toNat with
  | 8 => .ok (.mulhhwu (fRT w) (fRA w) (fRB w) (fBit31 w))
  | 40 => .ok (.mulhhw (fRT w) (fRA w) (fRB w) (fBit31 w))
  | 136 => .ok (.mulchwu (fRT w) (fRA w) (fRB w) (fBit31 w))
  | 168 => .ok (.mulchw (fRT w) (fRA w) (fRB w) (fBit31 w))
  | 392 => .ok (.mullhwu (fRT w) (fRA w) (fRB w) (fBit31 w))
  | 424 => .ok (.mullhw (fRT w) (fRA w) (fRB w) (fBit31 w))
  | _ => decode4xo w

/-- Primary opcode 19 (R229). -/
def decode19 (w : Word) : Except DecodeError Instr :=
  match (fXO10 w).toNat with
  | 0 => .ok (.mcrf (fBF w) (fBFA w))
  | 16 => .ok (.bclr (fRT w) (fRA w) (fBit31 w))
  | 33 => .ok (.crnor (fRT w) (fRA w) (fRB w))
  | 50 => .ok (.rfi (fBit31 w))
  | 51 => .ok (.rfci (fBit31 w))
  | 129 => .ok (.crandc (fRT w) (fRA w) (fRB w))
  | 150 => .ok (.isync (fBit31 w))
  | 193 => .ok (.crxor (fRT w) (fRA w) (fRB w))
  | 225 => .ok (.crnand (fRT w) (fRA w) (fRB w))
  | 257 => .ok (.crand (fRT w) (fRA w) (fRB w))
  | 289 => .ok (.creqv (fRT w) (fRA w) (fRB w))
  | 417 => .ok (.crorc (fRT w) (fRA w) (fRB w))
  | 449 => .ok (.cror (fRT w) (fRA w) (fRB w))
  | 528 => .ok (.bcctr (fRT w) (fRA w) (fBit31 w))
  | xo => .error (.illegalExtended 19 xo)

/-- Primary opcode 31, XO-form rows of R228. -/
def decode31xo (w : Word) : Except DecodeError Instr :=
  match (fXO9 w).toNat with
  | 8 => .ok (.subfc (fRT w) (fRA w) (fRB w) (fOE w) (fBit31 w))
  | 10 => .ok (.addc (fRT w) (fRA w) (fRB w) (fOE w) (fBit31 w))
  | 11 => .ok (.mulhwu (fRT w) (fRA w) (fRB w) (fBit31 w))
  | 40 => .ok (.subf (fRT w) (fRA w) (fRB w) (fOE w) (fBit31 w))
  | 75 => .ok (.mulhw (fRT w) (fRA w) (fRB w) (fBit31 w))
  | 104 => .ok (.neg (fRT w) (fRA w) (fOE w) (fBit31 w))
  | 136 => .ok (.subfe (fRT w) (fRA w) (fRB w) (fOE w) (fBit31 w))
  | 138 => .ok (.adde (fRT w) (fRA w) (fRB w) (fOE w) (fBit31 w))
  | 200 => .ok (.subfze (fRT w) (fRA w) (fOE w) (fBit31 w))
  | 202 => .ok (.addze (fRT w) (fRA w) (fOE w) (fBit31 w))
  | 232 => .ok (.subfme (fRT w) (fRA w) (fOE w) (fBit31 w))
  | 234 => .ok (.addme (fRT w) (fRA w) (fOE w) (fBit31 w))
  | 235 => .ok (.mullw (fRT w) (fRA w) (fRB w) (fOE w) (fBit31 w))
  | 266 => .ok (.add (fRT w) (fRA w) (fRB w) (fOE w) (fBit31 w))
  | 459 => .ok (.divwu (fRT w) (fRA w) (fRB w) (fOE w) (fBit31 w))
  | 491 => .ok (.divw (fRT w) (fRA w) (fRB w) (fOE w) (fBit31 w))
  | xo => .error (.illegalExtended 31 xo)

/-- Primary opcode 31 (R228): the X-form rows by bits 21:30, else the XO-form rows by bits 22:30. -/
def decode31 (w : Word) : Except DecodeError Instr :=
  match (fXO10 w).toNat with
  | 0 => .ok (.cmp (fBF w) (fRA w) (fRB w) (fBit31 w))
  | 4 => .ok (.tw (fRT w) (fRA w) (fRB w) (fBit31 w))
  | 19 => .ok (.mfcr (fRT w) (fBit31 w))
  | 20 => .ok (.lwarx (fRT w) (fRA w) (fRB w) (fBit31 w))
  | 23 => .ok (.lwzx (fRT w) (fRA w) (fRB w) (fBit31 w))
  | 24 => .ok (.slw (fRT w) (fRA w) (fRB w) (fBit31 w))
  | 26 => .ok (.cntlzw (fRT w) (fRA w) (fBit31 w))
  | 28 => .ok (.and (fRT w) (fRA w) (fRB w) (fBit31 w))
  | 32 => .ok (.cmpl (fBF w) (fRA w) (fRB w) (fBit31 w))
  | 54 => .ok (.dcbst (fRA w) (fRB w) (fBit31 w))
  | 55 => .ok (.lwzux (fRT w) (fRA w) (fRB w) (fBit31 w))
  | 60 => .ok (.andc (fRT w) (fRA w) (fRB w) (fBit31 w))
  | 83 => .ok (.mfmsr (fRT w) (fBit31 w))
  | 86 => .ok (.dcbf (fRA w) (fRB w) (fBit31 w))
  | 87 => .ok (.lbzx (fRT w) (fRA w) (fRB w) (fBit31 w))
  | 119 => .ok (.lbzux (fRT w) (fRA w) (fRB w) (fBit31 w))
  | 124 => .ok (.nor (fRT w) (fRA w) (fRB w) (fBit31 w))
  | 131 => .ok (.wrtee (fRT w) (fBit31 w))
  | 144 => .ok (.mtcrf (fRT w) (fFXM w))
  | 146 => .ok (.mtmsr (fRT w) (fBit31 w))
  | 150 => .ok (.stwcxRc (fRT w) (fRA w) (fRB w))
  | 151 => .ok (.stwx (fRT w) (fRA w) (fRB w) (fBit31 w))
  | 163 => .ok (.wrteei (fE w) (fBit31 w))
  | 183 => .ok (.stwux (fRT w) (fRA w) (fRB w) (fBit31 w))
  | 215 => .ok (.stbx (fRT w) (fRA w) (fRB w) (fBit31 w))
  | 246 => .ok (.dcbtst (fRA w) (fRB w) (fBit31 w))
  | 247 => .ok (.stbux (fRT w) (fRA w) (fRB w) (fBit31 w))
  | 262 => .ok (.icbt (fRA w) (fRB w) (fBit31 w))
  | 278 => .ok (.dcbt (fRA w) (fRB w) (fBit31 w))
  | 279 => .ok (.lhzx (fRT w) (fRA w) (fRB w) (fBit31 w))
  | 284 => .ok (.eqv (fRT w) (fRA w) (fRB w) (fBit31 w))
  | 311 => .ok (.lhzux (fRT w) (fRA w) (fRB w) (fBit31 w))
  | 316 => .ok (.xor (fRT w) (fRA w) (fRB w) (fBit31 w))
  | 323 => .ok (.mfdcr (fRT w) (fNum w))
  | 339 => .ok (.mfspr (fRT w) (fNum w))
  | 343 => .ok (.lhax (fRT w) (fRA w) (fRB w) (fBit31 w))
  | 370 => .ok (.tlbia (fBit31 w))
  | 371 => .ok (.mftb (fRT w) (fNum w))
  | 375 => .ok (.lhaux (fRT w) (fRA w) (fRB w) (fBit31 w))
  | 407 => .ok (.sthx (fRT w) (fRA w) (fRB w) (fBit31 w))
  | 412 => .ok (.orc (fRT w) (fRA w) (fRB w) (fBit31 w))
  | 439 => .ok (.sthux (fRT w) (fRA w) (fRB w) (fBit31 w))
  | 444 => .ok (.or (fRT w) (fRA w) (fRB w) (fBit31 w))
  | 451 => .ok (.mtdcr (fRT w) (fNum w))
  | 454 => .ok (.dccci (fRA w) (fRB w) (fBit31 w))
  | 467 => .ok (.mtspr (fRT w) (fNum w))
  | 470 => .ok (.dcbi (fRA w) (fRB w) (fBit31 w))
  | 476 => .ok (.nand (fRT w) (fRA w) (fRB w) (fBit31 w))
  | 486 => .ok (.dcread (fRT w) (fRA w) (fRB w) (fBit31 w))
  | 512 => .ok (.mcrxr (fBF w) (fBit31 w))
  | 533 => .ok (.lswx (fRT w) (fRA w) (fRB w) (fBit31 w))
  | 534 => .ok (.lwbrx (fRT w) (fRA w) (fRB w) (fBit31 w))
  | 536 => .ok (.srw (fRT w) (fRA w) (fRB w) (fBit31 w))
  | 566 => .ok (.tlbsync (fBit31 w))
  | 597 => .ok (.lswi (fRT w) (fRA w) (fRB w) (fBit31 w))
  | 598 => .ok (.sync (fBit31 w))
  | 661 => .ok (.stswx (fRT w) (fRA w) (fRB w) (fBit31 w))
  | 662 => .ok (.stwbrx (fRT w) (fRA w) (fRB w) (fBit31 w))
  | 725 => .ok (.stswi (fRT w) (fRA w) (fRB w) (fBit31 w))
  | 758 => .ok (.dcba (fRA w) (fRB w) (fBit31 w))
  | 790 => .ok (.lhbrx (fRT w) (fRA w) (fRB w) (fBit31 w))
  | 792 => .ok (.sraw (fRT w) (fRA w) (fRB w) (fBit31 w))
  | 824 => .ok (.srawi (fRT w) (fRA w) (fRB w) (fBit31 w))
  | 854 => .ok (.eieio (fBit31 w))
  | 914 => .ok (.tlbsx (fRT w) (fRA w) (fRB w) (fBit31 w))
  | 918 => .ok (.sthbrx (fRT w) (fRA w) (fRB w) (fBit31 w))
  | 922 => .ok (.extsh (fRT w) (fRA w) (fBit31 w))
  | 946 => .ok (.tlbre (fRT w) (fRA w) (fWS w) (fBit31 w))
  | 954 => .ok (.extsb (fRT w) (fRA w) (fBit31 w))
  | 966 => .ok (.iccci (fRA w) (fRB w) (fBit31 w))
  | 978 => .ok (.tlbwe (fRT w) (fRA w) (fWS w) (fBit31 w))
  | 982 => .ok (.icbi (fRA w) (fRB w) (fBit31 w))
  | 998 => .ok (.icread (fRA w) (fRB w) (fBit31 w))
  | 1014 => .ok (.dcbz (fRA w) (fRB w) (fBit31 w))
  | _ => decode31xo w

/-- The instruction a word holds, or why it is none (R226). -/
def decode (w : Word) : Except DecodeError Instr :=
  match (fOPCD w).toNat with
  | 3 => .ok (.twi (fRT w) (fRA w) (fIM w))
  | 4 => decode4 w
  | 7 => .ok (.mulli (fRT w) (fRA w) (fIM w))
  | 8 => .ok (.subfic (fRT w) (fRA w) (fIM w))
  | 10 => .ok (.cmpli (fBF w) (fRA w) (fIM w))
  | 11 => .ok (.cmpi (fBF w) (fRA w) (fIM w))
  | 12 => .ok (.addic (fRT w) (fRA w) (fIM w))
  | 13 => .ok (.addicRc (fRT w) (fRA w) (fIM w))
  | 14 => .ok (.addi (fRT w) (fRA w) (fIM w))
  | 15 => .ok (.addis (fRT w) (fRA w) (fIM w))
  | 16 => .ok (.bc (fRT w) (fRA w) (fBD w) (fAA w) (fBit31 w))
  | 17 => if fAA w then .ok .sc else .error (.illegalExtended 17 0)
  | 18 => .ok (.b (fLI w) (fAA w) (fBit31 w))
  | 19 => decode19 w
  | 20 => .ok (.rlwimi (fRT w) (fRA w) (fRB w) (fMB w) (fME w) (fBit31 w))
  | 21 => .ok (.rlwinm (fRT w) (fRA w) (fRB w) (fMB w) (fME w) (fBit31 w))
  | 23 => .ok (.rlwnm (fRT w) (fRA w) (fRB w) (fMB w) (fME w) (fBit31 w))
  | 24 => .ok (.ori (fRT w) (fRA w) (fIM w))
  | 25 => .ok (.oris (fRT w) (fRA w) (fIM w))
  | 26 => .ok (.xori (fRT w) (fRA w) (fIM w))
  | 27 => .ok (.xoris (fRT w) (fRA w) (fIM w))
  | 28 => .ok (.andiRc (fRT w) (fRA w) (fIM w))
  | 29 => .ok (.andisRc (fRT w) (fRA w) (fIM w))
  | 31 => decode31 w
  | 32 => .ok (.lwz (fRT w) (fRA w) (fIM w))
  | 33 => .ok (.lwzu (fRT w) (fRA w) (fIM w))
  | 34 => .ok (.lbz (fRT w) (fRA w) (fIM w))
  | 35 => .ok (.lbzu (fRT w) (fRA w) (fIM w))
  | 36 => .ok (.stw (fRT w) (fRA w) (fIM w))
  | 37 => .ok (.stwu (fRT w) (fRA w) (fIM w))
  | 38 => .ok (.stb (fRT w) (fRA w) (fIM w))
  | 39 => .ok (.stbu (fRT w) (fRA w) (fIM w))
  | 40 => .ok (.lhz (fRT w) (fRA w) (fIM w))
  | 41 => .ok (.lhzu (fRT w) (fRA w) (fIM w))
  | 42 => .ok (.lha (fRT w) (fRA w) (fIM w))
  | 43 => .ok (.lhau (fRT w) (fRA w) (fIM w))
  | 44 => .ok (.sth (fRT w) (fRA w) (fIM w))
  | 45 => .ok (.sthu (fRT w) (fRA w) (fIM w))
  | 46 => .ok (.lmw (fRT w) (fRA w) (fIM w))
  | 47 => .ok (.stmw (fRT w) (fRA w) (fIM w))
  | op => .error (.illegalPrimary op)

/-- The instruction at the front of a list of bytes in big endian order, and the bytes after it (R220). -/
def decodeBytes : List Byte → Except DecodeError (Instr × List Byte)
  | b0 :: b1 :: b2 :: b3 :: rest =>
    match decode (wordOfBytes b0 b1 b2 b3) with
    | .ok i => .ok (i, rest)
    | .error e => .error e
  | _ => .error .tooShort

/-- The instruction of a table word: instructions are one 32-bit word, whose bytes are handed to the decoder in storage
order, the most significant first (R220). -/
def decodeTableWord (nbits w : Nat) : Option Instr :=
  if nbits ≤ 32 then
    match decodeBytes (wordBytes (BitVec.ofNat 32 w)) with
    | .ok (i, _) => some i
    | .error _ => none
  else none

/-! ### Encoding (R224): one function per form, the fields side by side -/

/-- D form. -/
def encD (op : BitVec 6) (rt ra : BitVec 5) (im : BitVec 16) : Word := op ++ rt ++ ra ++ im
/-- X form, XL form, and XFX forms other than the numbered registers. -/
def encX (op : BitVec 6) (rt ra rb : BitVec 5) (xo : BitVec 10) (b31 : Bool) : Word :=
  op ++ rt ++ ra ++ rb ++ xo ++ BitVec.ofBool b31
/-- XO form. -/
def encXO (op : BitVec 6) (rt ra rb : BitVec 5) (oe : Bool) (xo : BitVec 9) (rc : Bool) : Word :=
  op ++ rt ++ ra ++ rb ++ BitVec.ofBool oe ++ xo ++ BitVec.ofBool rc
/-- M form. -/
def encM (op : BitVec 6) (rs ra sh mb me : BitVec 5) (rc : Bool) : Word :=
  op ++ rs ++ ra ++ sh ++ mb ++ me ++ BitVec.ofBool rc
/-- XFX form with a numbered register: the low half of the number first (R223). -/
def encXFX (rt : BitVec 5) (num xo : BitVec 10) : Word :=
  31#6 ++ rt ++ num.extractLsb' 0 5 ++ num.extractLsb' 5 5 ++ xo ++ 0#1
/-- I form. -/
def encI (disp : BitVec 26) (aa lk : Bool) : Word :=
  18#6 ++ disp.extractLsb' 2 24 ++ BitVec.ofBool aa ++ BitVec.ofBool lk
/-- B form. -/
def encB (bo bi : BitVec 5) (disp : BitVec 16) (aa lk : Bool) : Word :=
  16#6 ++ bo ++ bi ++ disp.extractLsb' 2 14 ++ BitVec.ofBool aa ++ BitVec.ofBool lk

/-- The word of an instruction, every reserved bit 0 (R221). -/
def encode : Instr → Word
  | .lbz rt ra d => encD 34 rt ra d
  | .lbzu rt ra d => encD 35 rt ra d
  | .lha rt ra d => encD 42 rt ra d
  | .lhau rt ra d => encD 43 rt ra d
  | .lhz rt ra d => encD 40 rt ra d
  | .lhzu rt ra d => encD 41 rt ra d
  | .lwz rt ra d => encD 32 rt ra d
  | .lwzu rt ra d => encD 33 rt ra d
  | .lmw rt ra d => encD 46 rt ra d
  | .stb rs ra d => encD 38 rs ra d
  | .stbu rs ra d => encD 39 rs ra d
  | .sth rs ra d => encD 44 rs ra d
  | .sthu rs ra d => encD 45 rs ra d
  | .stw rs ra d => encD 36 rs ra d
  | .stwu rs ra d => encD 37 rs ra d
  | .stmw rs ra d => encD 47 rs ra d
  | .lbzx rt ra rb x31 => encX 31 rt ra rb 87 x31
  | .lbzux rt ra rb x31 => encX 31 rt ra rb 119 x31
  | .lhax rt ra rb x31 => encX 31 rt ra rb 343 x31
  | .lhaux rt ra rb x31 => encX 31 rt ra rb 375 x31
  | .lhzx rt ra rb x31 => encX 31 rt ra rb 279 x31
  | .lhzux rt ra rb x31 => encX 31 rt ra rb 311 x31
  | .lwzx rt ra rb x31 => encX 31 rt ra rb 23 x31
  | .lwzux rt ra rb x31 => encX 31 rt ra rb 55 x31
  | .lwarx rt ra rb x31 => encX 31 rt ra rb 20 x31
  | .lhbrx rt ra rb x31 => encX 31 rt ra rb 790 x31
  | .lwbrx rt ra rb x31 => encX 31 rt ra rb 534 x31
  | .lswx rt ra rb x31 => encX 31 rt ra rb 533 x31
  | .lswi rt ra nb x31 => encX 31 rt ra nb 597 x31
  | .stbx rs ra rb x31 => encX 31 rs ra rb 215 x31
  | .stbux rs ra rb x31 => encX 31 rs ra rb 247 x31
  | .sthx rs ra rb x31 => encX 31 rs ra rb 407 x31
  | .sthux rs ra rb x31 => encX 31 rs ra rb 439 x31
  | .stwx rs ra rb x31 => encX 31 rs ra rb 151 x31
  | .stwux rs ra rb x31 => encX 31 rs ra rb 183 x31
  | .sthbrx rs ra rb x31 => encX 31 rs ra rb 918 x31
  | .stwbrx rs ra rb x31 => encX 31 rs ra rb 662 x31
  | .stswx rs ra rb x31 => encX 31 rs ra rb 661 x31
  | .stswi rs ra nb x31 => encX 31 rs ra nb 725 x31
  | .stwcxRc rs ra rb => encX 31 rs ra rb 150 true
  | .add rt ra rb oe rc => encXO 31 rt ra rb oe 266 rc
  | .addc rt ra rb oe rc => encXO 31 rt ra rb oe 10 rc
  | .adde rt ra rb oe rc => encXO 31 rt ra rb oe 138 rc
  | .subf rt ra rb oe rc => encXO 31 rt ra rb oe 40 rc
  | .subfc rt ra rb oe rc => encXO 31 rt ra rb oe 8 rc
  | .subfe rt ra rb oe rc => encXO 31 rt ra rb oe 136 rc
  | .mullw rt ra rb oe rc => encXO 31 rt ra rb oe 235 rc
  | .divw rt ra rb oe rc => encXO 31 rt ra rb oe 491 rc
  | .divwu rt ra rb oe rc => encXO 31 rt ra rb oe 459 rc
  | .addme rt ra oe rc => encXO 31 rt ra 0#5 oe 234 rc
  | .addze rt ra oe rc => encXO 31 rt ra 0#5 oe 202 rc
  | .subfme rt ra oe rc => encXO 31 rt ra 0#5 oe 232 rc
  | .subfze rt ra oe rc => encXO 31 rt ra 0#5 oe 200 rc
  | .neg rt ra oe rc => encXO 31 rt ra 0#5 oe 104 rc
  | .mulhw rt ra rb rc => encXO 31 rt ra rb false 75 rc
  | .mulhwu rt ra rb rc => encXO 31 rt ra rb false 11 rc
  | .addi rt ra im => encD 14 rt ra im
  | .addic rt ra im => encD 12 rt ra im
  | .addicRc rt ra im => encD 13 rt ra im
  | .addis rt ra im => encD 15 rt ra im
  | .subfic rt ra im => encD 8 rt ra im
  | .mulli rt ra im => encD 7 rt ra im
  | .macchw rt ra rb oe rc => encXO 4 rt ra rb oe 172 rc
  | .macchws rt ra rb oe rc => encXO 4 rt ra rb oe 236 rc
  | .macchwsu rt ra rb oe rc => encXO 4 rt ra rb oe 204 rc
  | .macchwu rt ra rb oe rc => encXO 4 rt ra rb oe 140 rc
  | .machhw rt ra rb oe rc => encXO 4 rt ra rb oe 44 rc
  | .machhws rt ra rb oe rc => encXO 4 rt ra rb oe 108 rc
  | .machhwsu rt ra rb oe rc => encXO 4 rt ra rb oe 76 rc
  | .machhwu rt ra rb oe rc => encXO 4 rt ra rb oe 12 rc
  | .maclhw rt ra rb oe rc => encXO 4 rt ra rb oe 428 rc
  | .maclhws rt ra rb oe rc => encXO 4 rt ra rb oe 492 rc
  | .maclhwsu rt ra rb oe rc => encXO 4 rt ra rb oe 460 rc
  | .maclhwu rt ra rb oe rc => encXO 4 rt ra rb oe 396 rc
  | .nmacchw rt ra rb oe rc => encXO 4 rt ra rb oe 174 rc
  | .nmacchws rt ra rb oe rc => encXO 4 rt ra rb oe 238 rc
  | .nmachhw rt ra rb oe rc => encXO 4 rt ra rb oe 46 rc
  | .nmachhws rt ra rb oe rc => encXO 4 rt ra rb oe 110 rc
  | .nmaclhw rt ra rb oe rc => encXO 4 rt ra rb oe 430 rc
  | .nmaclhws rt ra rb oe rc => encXO 4 rt ra rb oe 494 rc
  | .mulchw rt ra rb rc => encX 4 rt ra rb 168 rc
  | .mulchwu rt ra rb rc => encX 4 rt ra rb 136 rc
  | .mulhhw rt ra rb rc => encX 4 rt ra rb 40 rc
  | .mulhhwu rt ra rb rc => encX 4 rt ra rb 8 rc
  | .mullhw rt ra rb rc => encX 4 rt ra rb 424 rc
  | .mullhwu rt ra rb rc => encX 4 rt ra rb 392 rc
  | .and rs ra rb rc => encX 31 rs ra rb 28 rc
  | .andc rs ra rb rc => encX 31 rs ra rb 60 rc
  | .eqv rs ra rb rc => encX 31 rs ra rb 284 rc
  | .nand rs ra rb rc => encX 31 rs ra rb 476 rc
  | .nor rs ra rb rc => encX 31 rs ra rb 124 rc
  | .or rs ra rb rc => encX 31 rs ra rb 444 rc
  | .orc rs ra rb rc => encX 31 rs ra rb 412 rc
  | .xor rs ra rb rc => encX 31 rs ra rb 316 rc
  | .cntlzw rs ra rc => encX 31 rs ra 0#5 26 rc
  | .extsb rs ra rc => encX 31 rs ra 0#5 954 rc
  | .extsh rs ra rc => encX 31 rs ra 0#5 922 rc
  | .andiRc rs ra im => encD 28 rs ra im
  | .andisRc rs ra im => encD 29 rs ra im
  | .ori rs ra im => encD 24 rs ra im
  | .oris rs ra im => encD 25 rs ra im
  | .xori rs ra im => encD 26 rs ra im
  | .xoris rs ra im => encD 27 rs ra im
  | .cmp bf ra rb x31 => encX 31 (bf ++ 0#2) ra rb 0 x31
  | .cmpi bf ra im => encD 11 (bf ++ 0#2) ra im
  | .cmpl bf ra rb x31 => encX 31 (bf ++ 0#2) ra rb 32 x31
  | .cmpli bf ra im => encD 10 (bf ++ 0#2) ra im
  | .b disp aa lk => encI disp aa lk
  | .bc bo bi disp aa lk => encB bo bi disp aa lk
  | .bcctr bo bi lk => encX 19 bo bi 0#5 528 lk
  | .bclr bo bi lk => encX 19 bo bi 0#5 16 lk
  | .crand bt ba bb => encX 19 bt ba bb 257 false
  | .crandc bt ba bb => encX 19 bt ba bb 129 false
  | .creqv bt ba bb => encX 19 bt ba bb 289 false
  | .crnand bt ba bb => encX 19 bt ba bb 225 false
  | .crnor bt ba bb => encX 19 bt ba bb 33 false
  | .cror bt ba bb => encX 19 bt ba bb 449 false
  | .crorc bt ba bb => encX 19 bt ba bb 417 false
  | .crxor bt ba bb => encX 19 bt ba bb 193 false
  | .mcrf bf bfa => encX 19 (bf ++ 0#2) (bfa ++ 0#2) 0#5 0 false
  | .rlwimi rs ra sh mb me rc => encM 20 rs ra sh mb me rc
  | .rlwinm rs ra sh mb me rc => encM 21 rs ra sh mb me rc
  | .rlwnm rs ra rb mb me rc => encM 23 rs ra rb mb me rc
  | .slw rs ra rb rc => encX 31 rs ra rb 24 rc
  | .srw rs ra rb rc => encX 31 rs ra rb 536 rc
  | .sraw rs ra rb rc => encX 31 rs ra rb 792 rc
  | .srawi rs ra sh rc => encX 31 rs ra sh 824 rc
  | .dcba ra rb x31 => encX 31 0#5 ra rb 758 x31
  | .dcbf ra rb x31 => encX 31 0#5 ra rb 86 x31
  | .dcbi ra rb x31 => encX 31 0#5 ra rb 470 x31
  | .dcbst ra rb x31 => encX 31 0#5 ra rb 54 x31
  | .dcbt ra rb x31 => encX 31 0#5 ra rb 278 x31
  | .dcbtst ra rb x31 => encX 31 0#5 ra rb 246 x31
  | .dcbz ra rb x31 => encX 31 0#5 ra rb 1014 x31
  | .dccci ra rb x31 => encX 31 0#5 ra rb 454 x31
  | .icbi ra rb x31 => encX 31 0#5 ra rb 982 x31
  | .icbt ra rb x31 => encX 31 0#5 ra rb 262 x31
  | .iccci ra rb x31 => encX 31 0#5 ra rb 966 x31
  | .icread ra rb x31 => encX 31 0#5 ra rb 998 x31
  | .dcread rt ra rb x31 => encX 31 rt ra rb 486 x31
  | .mfmsr rt x31 => encX 31 rt 0#5 0#5 83 x31
  | .mtmsr rs x31 => encX 31 rs 0#5 0#5 146 x31
  | .rfi x31 => encX 19 0#5 0#5 0#5 50 x31
  | .rfci x31 => encX 19 0#5 0#5 0#5 51 x31
  | .wrtee rs x31 => encX 31 rs 0#5 0#5 131 x31
  | .wrteei e x31 => encX 31 0#5 0#5 (BitVec.ofBool e ++ 0#4) 163 x31
  | .tlbia x31 => encX 31 0#5 0#5 0#5 370 x31
  | .tlbre rt ra ws x31 => encX 31 rt ra (0#4 ++ BitVec.ofBool ws) 946 x31
  | .tlbsx rt ra rb rc => encX 31 rt ra rb 914 rc
  | .tlbsync x31 => encX 31 0#5 0#5 0#5 566 x31
  | .tlbwe rs ra ws x31 => encX 31 rs ra (0#4 ++ BitVec.ofBool ws) 978 x31
  | .eieio x31 => encX 31 0#5 0#5 0#5 854 x31
  | .isync x31 => encX 19 0#5 0#5 0#5 150 x31
  | .sync x31 => encX 31 0#5 0#5 0#5 598 x31
  | .mcrxr bf x31 => encX 31 (bf ++ 0#2) 0#5 0#5 512 x31
  | .mfcr rt x31 => encX 31 rt 0#5 0#5 19 x31
  | .mtcrf rs fxm => encX 31 rs (0#1 ++ fxm.extractLsb' 4 4) (fxm.extractLsb' 0 4 ++ 0#1) 144 false
  | .mfdcr rt dcrn => encXFX rt dcrn 323
  | .mtdcr rs dcrn => encXFX rs dcrn 451
  | .mfspr rt sprn => encXFX rt sprn 339
  | .mtspr rs sprn => encXFX rs sprn 467
  | .mftb rt tbrn => encXFX rt tbrn 371
  | .sc => 0x44000002#32
  | .tw tos ra rb x31 => encX 31 tos ra rb 4 x31
  | .twi tos ra im => encD 3 tos ra im

end Sys2Proof
end

