-- ==== Sys2Proof/Machine/Assoc.lean ====
section
/-! DEFINITION. Sparse maps from numbers to data as lists in one canonical form: keys strictly rising, no entry equal to
what an unlisted key reads as. Equal maps are equal lists. Storage, the two caches and the DCR space are such maps. -/

namespace Sys2Proof.Machine

variable {α : Type}

/-- What key `k` holds; an unlisted key holds `d`. -/
def mapGet (d : α) : List (Nat × α) → Nat → α
  | [], _ => d
  | (k', v) :: m, k => if k = k' then v else mapGet d m k

/-- The map with key `k` holding `v`; writing the default removes the entry. -/
def mapSet [DecidableEq α] (d : α) : List (Nat × α) → Nat → α → List (Nat × α)
  | [], k, v => if v = d then [] else [(k, v)]
  | (k', v') :: m, k, v =>
    if k < k' then (if v = d then (k', v') :: m else (k, v) :: (k', v') :: m)
    else if k = k' then (if v = d then m else (k, v) :: m)
    else (k', v') :: mapSet d m k v

/-- Every key of the map is above `k`. -/
def mapAbove (k : Nat) : List (Nat × α) → Bool
  | [] => true
  | (k', _) :: m => decide (k < k') && mapAbove k m

/-- The canonical form holds: keys strictly rising, no default entry. -/
def mapWf [DecidableEq α] (d : α) : List (Nat × α) → Bool
  | [] => true
  | (k, v) :: m => decide (v ≠ d) && mapAbove k m && mapWf d m

end Sys2Proof.Machine
end

