-- ==== Sys2Proof/Config.lean ====
section
/-! DEFINITION. What an implementation fixes and the spec does not: the free values and the behaviour of the chip's devices.
None of them has a body, so nothing can be proved of the value itself. -/

namespace Sys2Proof

/-- The value the PVR holds, parameter `PVR_VALUE` (R10, R52). The spec gives no number. -/
opaque Config.pvrValue : Word

/-- The `n`th value the spec leaves open (an "undefined" result, notes/assumptions/8.md). The machine's counter
`State.free` says which one is next; each use takes a fresh one. -/
opaque Config.freeWord : Nat → Word

/-- What a reset during a run leaves in a place that reset does not define (R113, R114, U6): the first argument is the
counter at the reset, the second numbers the place (notes/assumptions/9.md). -/
opaque Config.resetWord : Nat → Nat → Word

/-- What answers a number of the DCR space: a device of the chip, with read and write behaviour of its own (R14). The three
kinds with a fixed rule are the model's; any other device is a number with a state of its own, and its behaviour is
`Config.dcrRead`, `Config.dcrAfterRead` and `Config.dcrAfterWrite` (notes/assumptions/26.md). -/
inductive DcrDevice where
  /-- A word that reads as it was last written. -/
  | word (w : Word)
  /-- A word that ignores writes. -/
  | readOnly (w : Word)
  /-- Status bits: a write clears the bits that are 1 in the word written. -/
  | clearOnes (w : Word)
  /-- Any other device. -/
  | device (id state : Nat)
deriving DecidableEq, Repr, Inhabited

/-- The DCR space: the devices by number (R14, R82). A number that is not listed is not mapped. -/
abbrev DcrSpace := List (Nat × DcrDevice)

/-- `DCR_SPACE.read` (R566) of the device `id` at number `n`: the word it answers with. -/
opaque Config.dcrRead (id n : Nat) (space : DcrSpace) : Word

/-- The DCR space after a read of the device `id` at number `n`: a read may have side effects (R566). -/
opaque Config.dcrAfterRead (id n : Nat) (space : DcrSpace) : DcrSpace

/-- `DCR_SPACE.write` (R567) of the device `id` at number `n`: the DCR space after it. -/
opaque Config.dcrAfterWrite (id n : Nat) (v : Word) (space : DcrSpace) : DcrSpace

end Sys2Proof
end

