-- ==== Sys2Proof/Machine/State.lean ====
section
/-! DEFINITION. The machine's state as plain data: every register, the TLB, the two caches, storage, the hidden state of
R102 to R105, what the fetch side holds (R204), the inputs from outside the core and the implementation parameters; and the
state after reset (R110 to R115). INVENTORY.md lists every field with its rule and its reset value. -/

namespace Sys2Proof.Machine

/-- Why a step stops the machine. -/
inductive Fault where
  /-- The core is in the debug stop of external debug mode, or in debug wait, and no input is left that could end it
  (R722, R723, D12: a stuck state). Raised by `step` alone. Safe: the hardware does nothing either. -/
  | debugStop
deriving DecidableEq, Repr

/-- Why the model has no step for an instruction. -/
inductive Refusal where
  /-- The instruction has no meaning yet. Raised by no arm of `exec` today. Safe. -/
  | notModelled (mnemonic : String)
deriving DecidableEq, Repr

/-- The three kinds of reset (R760). -/
inductive ResetKind where
  | core
  | chip
  | system
deriving DecidableEq, Repr

/-- A cache array size, parameters `ICACHE_SIZE` and `DCACHE_SIZE` (R9). -/
inductive CacheSize where
  | kb0
  | kb4
  | kb8
  | kb16
  | kb32
deriving DecidableEq, Repr

/-- One entry of the unified TLB: the tag part EPN, SIZE, V, E, U0, TID (R91, R93) and the data part RPN, EX, WR, ZSEL, W,
I, M, G (R92). -/
structure TlbEntry where
  epn  : BitVec 22
  size : BitVec 3
  v    : Bool
  e    : Bool
  u0   : Bool
  tid  : BitVec 8
  rpn  : BitVec 22
  ex   : Bool
  wr   : Bool
  zsel : BitVec 4
  w    : Bool
  i    : Bool
  m    : Bool
  g    : Bool
deriving DecidableEq, Repr

/-- A data cache line (R95): valid, dirty, the real line address it holds (its tag with the index), its 32 bytes; `undef`
marks what a reset left there, until a cachable access uses it (R114, R199). -/
structure DLine where
  valid : Bool
  dirty : Bool
  line  : BitVec 27
  data  : Vector Byte 32
  undef : Bool
deriving DecidableEq, Repr

/-- A congruence class of the data cache: ways A and B and the LRU bit, true when the B way is LRU (R95, R181). -/
structure DSet where
  a    : DLine
  b    : DLine
  lruB : Bool
deriving DecidableEq, Repr

/-- An instruction cache line (R95): valid, the real line address, eight words in the order they are decoded in (R132);
`undef` as in `DLine`. -/
structure ILine where
  valid : Bool
  line  : BitVec 27
  words : Vector Word 8
  undef : Bool
deriving DecidableEq, Repr

/-- A congruence class of the instruction cache. -/
structure ISet where
  a    : ILine
  b    : ILine
  lruB : Bool
deriving DecidableEq, Repr

/-- The eight words that CCR0[LWL] left in the fill buffer for non-cachable loads (R183). -/
structure LineBuffer where
  line : BitVec 27
  data : Vector Byte 32
deriving DecidableEq, Repr

/-- A write of the core that may not have reached storage yet (R191, R196, R203): the bytes that stood in its places, whether
it is a store of caching inhibited or write-through storage and no copy-back, and whether an `isync` has followed it, after
which a caching inhibited fetch finds such a store (R787). -/
structure LateWrite where
  old     : List (Word × Byte)
  direct  : Bool
  settled : Bool
deriving DecidableEq, Repr

/-- Storage and what the core keeps of it: the bytes behind the bus (R130), the two caches by congruence class (R95), the
non-cachable line buffer (R183), and the writes that may not have reached storage yet, newest first (R191, R196, R203).
`mem`, `dcache` and `icache` are sorted by key and list no default entry. -/
structure Storage where
  mem    : List Host.Cell
  dcache : List (Nat × DSet)
  icache : List (Nat × ISet)
  buffer : Option LineBuffer
  late   : List LateWrite
deriving DecidableEq, Repr

/-- What a fetch of an instruction word gave (R132, R165). -/
inductive Fetched where
  /-- No entry translates the address (R657). -/
  | miss
  /-- The word may not be executed; the flag is the zone fault (R635). -/
  | refused (zone : Bool)
  /-- A word, and whether the bus answered with an error (R621). -/
  | word (w : Word) (err : Bool)
deriving DecidableEq, Repr

/-- The interrupt registers (R53 to R59). -/
structure ExcRegs where
  srr0 : Word
  srr1 : Word
  srr2 : Word
  srr3 : Word
  evpr : Word
  esr  : Word
  dear : Word
deriving DecidableEq, Repr

/-- The timer registers (R60 to R64) and the hidden PIT reload value (R704). -/
structure TimerRegs where
  tbu       : Word
  tbl       : Word
  pit       : Word
  pitReload : Word
  tsr       : Word
  tcr       : Word
deriving DecidableEq, Repr

/-- Memory management: PID, ZPR and the 64 entries of the unified TLB (R65, R66, R90). -/
structure MmuRegs where
  pid : Word
  zpr : Word
  tlb : Vector TlbEntry 64
deriving DecidableEq, Repr

/-- The real-mode storage attribute registers and CCR0 (R67 to R74). -/
structure AttrRegs where
  dccr : Word
  dcwr : Word
  iccr : Word
  sgr  : Word
  sler : Word
  su0r : Word
  ccr0 : Word
deriving DecidableEq, Repr

/-- The state that a fetch is translated, checked and compared with (R186, R195, R780): MSR[IR] and MSR[PR], the MMU
registers, the attribute registers, and what arms the instruction address events. -/
structure FetchContext where
  relocate : Bool
  problem  : Bool
  mmu      : MmuRegs
  attr     : AttrRegs
  dbcr0    : Word
  iac1     : Word
  iac2     : Word
  iac3     : Word
  iac4     : Word
deriving DecidableEq, Repr

/-- What the fetch side still holds of an earlier state (R186, R195, R203, R204): the words in the prefetch queue, each with
its address, and the fetch contexts that were in force since the last context synchronising event and no longer are. -/
structure Pipe where
  queue    : List (Word × Fetched)
  contexts : List FetchContext
deriving DecidableEq, Repr

/-- Whether the core runs, is stopped by external debug mode, or is in debug wait or running a handler out of it (R105,
R722, R723). -/
inductive DebugRun where
  | running
  | stopped
  | debugWait
  | servicing
deriving DecidableEq, Repr

/-- The debug registers (R76 to R81) and the debug run state. -/
structure DebugRegs where
  dbcr0 : Word
  dbcr1 : Word
  dbsr  : Word
  iac1  : Word
  iac2  : Word
  iac3  : Word
  iac4  : Word
  dac1  : Word
  dac2  : Word
  dvc1  : Word
  dvc2  : Word
  run   : DebugRun
deriving DecidableEq, Repr

/-- What stands at the core's inputs: the two interrupt levels (R625, R650), a data-side bus error not yet taken (R622), and
the bytes that other bus masters write in the course of the next instruction, one list before each of its storage accesses
(R190). -/
structure Inputs where
  critical         : Bool
  external         : Bool
  dataMachineCheck : Bool
  bus              : List (List (Word × Byte))
deriving DecidableEq, Repr

/-- Something the outside or the fetcher does at an instruction boundary (R104, R176, R190, R712, R741). -/
inductive EnvInput where
  /-- Timer clocks elapse (R712). -/
  | clocks (n : Nat)
  /-- The critical interrupt input goes active or inactive (R625). -/
  | criticalInput (active : Bool)
  /-- The external interrupt input goes active or inactive (R650). -/
  | externalInput (active : Bool)
  /-- The unconditional debug event (R730). -/
  | unconditionalEvent
  /-- A reset from outside the core (R760, sources 1 and 4). -/
  | resetRequest (kind : ResetKind)
  /-- A debug tool clears MSR[WE] (R690, R741). -/
  | clearWaitEnable
  /-- The halt signal or a debug tool stops the core (R741). -/
  | debugHalt
  /-- A debug tool lets a stopped core run again (R741). -/
  | debugRelease
  /-- Other bus masters write bytes of storage (R190, R192). -/
  | busWrite (bytes : List (Word × Byte))
  /-- Other bus masters will write bytes of storage inside the next instruction: one list before each of its storage
  accesses, what is left over at the next boundary (R190). -/
  | busInside (turns : List (List (Word × Byte)))
  /-- A device of the DCR space changes by itself (R14). -/
  | dcrChange (n : Nat) (d : DcrDevice)
  /-- The fetcher reads a word that the program need not execute (R176). -/
  | speculativeFetch (ea : Word)
deriving DecidableEq, Repr

/-- A range of real addresses that answers with a bus error, by access kind: the platform predicate `BUS_ERROR` (D7). -/
structure BusErrorRange where
  lo      : Word
  hi      : Word
  onFetch : Bool
  onLoad  : Bool
  onStore : Bool
deriving DecidableEq, Repr

/-- The implementation parameters (R9 to R14, 92_eei_decisions.md section 2). No step changes them. -/
structure Params where
  pvr             : Word
  mmuEnabled      : Bool
  icacheSize      : CacheSize
  dcacheSize      : CacheSize
  dtlbMissSetsDst : Bool
  jtagDebugWait   : Bool
  busErrors       : List BusErrorRange
deriving DecidableEq, Repr

/-- The whole machine. `icdbdrOpen` says that an `icread` has written ICDBDR and no `isync` has followed (R513, U24). -/
structure State where
  gpr     : Vector Word 32
  pc      : Word
  cr      : Word
  xer     : Word
  lr      : Word
  ctr     : Word
  msr     : Word
  usprg0  : Word
  sprg    : Vector Word 8
  exc     : ExcRegs
  tmr     : TimerRegs
  mmu     : MmuRegs
  attr    : AttrRegs
  icdbdr  : Word
  icdbdrOpen : Bool
  dbg     : DebugRegs
  reserve : Bool
  sto     : Storage
  pipe    : Pipe
  dcr     : DcrSpace
  inp     : Inputs
  env     : List (List EnvInput)
  params  : Params
  free    : Nat
deriving DecidableEq, Repr

/-- A TLB entry that matches nothing. -/
def TlbEntry.invalid : TlbEntry :=
  { epn := 0, size := 0, v := false, e := false, u0 := false, tid := 0, rpn := 0, ex := false, wr := false, zsel := 0,
    w := false, i := false, m := false, g := false }

/-- A data cache line that holds nothing. -/
def DLine.empty : DLine := { valid := false, dirty := false, line := 0, data := Vector.replicate 32 0, undef := false }

/-- A data cache class that holds nothing: what an unlisted class is. -/
def DSet.empty : DSet := { a := DLine.empty, b := DLine.empty, lruB := false }

/-- An instruction cache line that holds nothing. -/
def ILine.empty : ILine := { valid := false, line := 0, words := Vector.replicate 8 0, undef := false }

/-- An instruction cache class that holds nothing: what an unlisted class is. -/
def ISet.empty : ISet := { a := ILine.empty, b := ILine.empty, lruB := false }

/-- A fetch side that holds nothing of an earlier state. -/
def Pipe.empty : Pipe := { queue := [], contexts := [] }

/-- The parameters of a stand-alone model (92_eei_decisions.md section 2; notes/assumptions/5.md). -/
def Params.standAlone : Params :=
  { pvr := Config.pvrValue, mmuEnabled := true, icacheSize := .kb16, dcacheSize := .kb16, dtlbMissSetsDst := false,
    jtagDebugWait := false, busErrors := [] }

/-- The machine right after a power-on (system) reset. The fields that R110 to R112 name hold the value given there; every
other one is 0, invalid or empty: DESIGN CHOICE, unsafe, notes/assumptions/1.md to 3.md. -/
def State.reset : State :=
  { gpr := Vector.replicate 32 0
    pc := 0xFFFFFFFC#32
    cr := 0, xer := 0, lr := 0, ctr := 0
    msr := 0
    usprg0 := 0
    sprg := Vector.replicate 8 0
    exc := { srr0 := 0, srr1 := 0, srr2 := 0, srr3 := 0, evpr := 0, esr := 0, dear := 0 }
    tmr := { tbu := 0, tbl := 0, pit := 0, pitReload := 0, tsr := 0, tcr := 0 }
    mmu := { pid := 0, zpr := 0, tlb := Vector.replicate 64 TlbEntry.invalid }
    attr :=
      { dccr := 0, dcwr := 0, iccr := 0, sgr := 0xFFFFFFFF#32, sler := 0, su0r := 0, ccr0 := 0x00700000#32 }
    icdbdr := 0
    icdbdrOpen := false
    dbg :=
      { dbcr0 := 0, dbcr1 := 0, dbsr := 0x00000300#32, iac1 := 0, iac2 := 0, iac3 := 0, iac4 := 0, dac1 := 0, dac2 := 0,
        dvc1 := 0, dvc2 := 0, run := .running }
    reserve := false
    sto := { mem := [], dcache := [], icache := [], buffer := none, late := [] }
    pipe := Pipe.empty
    dcr := []
    inp := { critical := false, external := false, dataMachineCheck := false, bus := [] }
    env := []
    params := Params.standAlone
    free := 0 }

end Sys2Proof.Machine
end

