-- ==== Sys2Proof/Machine/Fields.lean ====
section
/-! DEFINITION. The named bits and fields of the registers: MSR (R42), XER (R37), CCR0 (R74), TCR and TSR (R709, R710),
DBCR0, DBCR1 and DBSR (R717 to R719), ESR (R614). -/

namespace Sys2Proof.Machine

/-! ### MSR (R42) -/

/-- MSR[WE], wait state enable. -/
def msrWE (s : State) : Bool := bit s.msr 13
/-- MSR[CE], critical interrupt enable. -/
def msrCE (s : State) : Bool := bit s.msr 14
/-- MSR[EE], external interrupt enable. -/
def msrEE (s : State) : Bool := bit s.msr 16
/-- MSR[PR], problem state: true in user mode. -/
def msrPR (s : State) : Bool := bit s.msr 17
/-- MSR[ME], machine check enable. -/
def msrME (s : State) : Bool := bit s.msr 19
/-- MSR[DWE], debug wait enable. -/
def msrDWE (s : State) : Bool := bit s.msr 21
/-- MSR[DE], debug interrupts enable. -/
def msrDE (s : State) : Bool := bit s.msr 22
/-- MSR[IR], instruction relocate. -/
def msrIR (s : State) : Bool := bit s.msr 26
/-- MSR[DR], data relocate. -/
def msrDR (s : State) : Bool := bit s.msr 27

/-! ### XER (R37) -/

/-- XER[SO], summary overflow. -/
def xerSO (s : State) : Bool := bit s.xer 0
/-- XER[CA], carry. -/
def xerCA (s : State) : Bool := bit s.xer 2
/-- XER[TBC], transfer byte count. -/
def xerTBC (s : State) : BitVec 7 := field s.xer 25 7

/-! ### CCR0 (R74) -/

/-- CCR0[LWL], load word as line. -/
def ccrLWL (s : State) : Bool := bit s.attr.ccr0 6
/-- CCR0[LWOA], load without allocate. -/
def ccrLWOA (s : State) : Bool := bit s.attr.ccr0 7
/-- CCR0[SWOA], store without allocate. -/
def ccrSWOA (s : State) : Bool := bit s.attr.ccr0 8
/-- CCR0[U0XE], enable U0 exception. -/
def ccrU0XE (s : State) : Bool := bit s.attr.ccr0 14
/-- CCR0[FWOA], fetch without allocate. -/
def ccrFWOA (s : State) : Bool := bit s.attr.ccr0 23
/-- CCR0[CIS], cache information select. -/
def ccrCIS (s : State) : Bool := bit s.attr.ccr0 27
/-- CCR0[CWS], cache way select. -/
def ccrCWS (s : State) : Bool := bit s.attr.ccr0 31

/-! ### DBCR0 (R717) -/

/-- DBCR0[EDM], external debug mode. -/
def dbEDM (s : State) : Bool := bit s.dbg.dbcr0 0
/-- DBCR0[IDM], internal debug mode. -/
def dbIDM (s : State) : Bool := bit s.dbg.dbcr0 1
/-- DBCR0[IC], instruction completion event enable. -/
def dbIC (s : State) : Bool := bit s.dbg.dbcr0 4
/-- DBCR0[BT], branch taken event enable. -/
def dbBT (s : State) : Bool := bit s.dbg.dbcr0 5
/-- DBCR0[EDE], exception event enable. -/
def dbEDE (s : State) : Bool := bit s.dbg.dbcr0 6
/-- DBCR0[TDE], trap event enable. -/
def dbTDE (s : State) : Bool := bit s.dbg.dbcr0 7
/-- DBCR0[FT], freeze timers on a debug event. -/
def dbFT (s : State) : Bool := bit s.dbg.dbcr0 31

/-! ### DBSR event bits (R719) -/

/-- DBSR[IC]. -/
def dbsrIC : Word := weight 0
/-- DBSR[BT]. -/
def dbsrBT : Word := weight 1
/-- DBSR[EDE]. -/
def dbsrEDE : Word := weight 2
/-- DBSR[TIE]. -/
def dbsrTIE : Word := weight 3
/-- DBSR[UDE]. -/
def dbsrUDE : Word := weight 4
/-- DBSR[IA1]. -/
def dbsrIA1 : Word := weight 5
/-- DBSR[IA2]. -/
def dbsrIA2 : Word := weight 6
/-- DBSR[DR1]. -/
def dbsrDR1 : Word := weight 7
/-- DBSR[DW1]. -/
def dbsrDW1 : Word := weight 8
/-- DBSR[DR2]. -/
def dbsrDR2 : Word := weight 9
/-- DBSR[DW2]. -/
def dbsrDW2 : Word := weight 10
/-- DBSR[IDE]. -/
def dbsrIDE : Word := weight 11
/-- DBSR[IA3]. -/
def dbsrIA3 : Word := weight 12
/-- DBSR[IA4]. -/
def dbsrIA4 : Word := weight 13
/-- The event bits, 0:10 and 12:13 (R742). -/
def dbsrEvents : Word := 0xFFEC0000#32

/-! ### ESR (R614) -/

/-- ESR[MCI]. -/
def esrMCI : Word := weight 0
/-- ESR[PIL]. -/
def esrPIL : Word := weight 4
/-- ESR[PPR]. -/
def esrPPR : Word := weight 5
/-- ESR[PTR]. -/
def esrPTR : Word := weight 6
/-- ESR[DST]. -/
def esrDST : Word := weight 8
/-- ESR[DIZ]. -/
def esrDIZ : Word := weight 9
/-- ESR[U0F]. -/
def esrU0F : Word := weight 16

/-! ### TSR and TCR (R709, R710) -/

/-- TSR[ENW], enable next watchdog. -/
def tsrENW : Word := weight 0
/-- TSR[WIS], watchdog interrupt status. -/
def tsrWIS : Word := weight 1
/-- TSR[PIS], PIT interrupt status. -/
def tsrPIS : Word := weight 4
/-- TSR[FIS], FIT interrupt status. -/
def tsrFIS : Word := weight 5

/-- The code of a reset kind in TCR[WRC], DBCR0[RST], DBSR[MRR] and TSR[WRS] (R760). -/
def ResetKind.code : ResetKind → Word
  | .core => 1
  | .chip => 2
  | .system => 3

/-- The reset a two-bit code asks for; 00 asks for none (R760). -/
def resetKindOf (c : BitVec 2) : Option ResetKind :=
  if c = 1#2 then some .core else if c = 2#2 then some .chip else if c = 3#2 then some .system else none

end Sys2Proof.Machine
end

