-- ==== Sys2Proof/Machine/Mmu.lean ====
section
/-! DEFINITION. Address translation, zone protection and storage attributes (R150 to R178), and the words that `tlbre` and
`tlbwe` move (R91, R92). -/

namespace Sys2Proof.Machine

/-- The storage attributes of an access (R170). M has no effect (R175) and is left out. -/
structure Attrs where
  w  : Bool
  i  : Bool
  g  : Bool
  u0 : Bool
  e  : Bool
deriving DecidableEq, Repr

/-- An address after translation: the real address, the attributes, and what protection looks at. `real` is real mode,
where everything is permitted (R150). -/
structure Xlate where
  ra    : Word
  attrs : Attrs
  real  : Bool
  zone  : BitVec 2
  ex    : Bool
  wr    : Bool
deriving DecidableEq, Repr

/-! ### TLB match (R151 to R154) -/

/-- The number of address bits below the page number of a page size: 10 + 2 SIZE (Table 7-1). -/
def pageShift (size : BitVec 3) : Nat := 10 + 2 * size.toNat

/-- The entry matches an effective address under a process identifier (R151). -/
def tlbMatches (pid : Word) (ea : Word) (t : TlbEntry) : Bool :=
  t.v && (t.tid == 0#8 || t.tid == field pid 24 8) &&
    (t.epn >>> (2 * t.size.toNat) == field ea 0 22 >>> (2 * t.size.toNat))

/-- The matching entry of lowest index, with its index (R154, D16). -/
def tlbSearch (pid : Word) (ea : Word) : List TlbEntry → Nat → Option (Nat × TlbEntry)
  | [], _ => none
  | t :: ts, n => if tlbMatches pid ea t then some (n, t) else tlbSearch pid ea ts (n + 1)

/-- The entry that translates an effective address now. -/
def tlbLookup (s : State) (ea : Word) : Option (Nat × TlbEntry) :=
  tlbSearch s.mmu.pid ea s.mmu.tlb.toList 0

/-- The real address through an entry: RPN[0:n-1] and the page offset of the effective address (R152, U1). -/
def realAddress (t : TlbEntry) (ea : Word) : Word :=
  ((t.rpn.setWidth 32 <<< 10) >>> pageShift t.size <<< pageShift t.size) |||
    (ea &&& ~~~(BitVec.allOnes 32 <<< pageShift t.size))

/-- The zone field Z of an entry: ZPR[2n : 2n+1] for n = ZSEL (R66, R160). -/
def zoneField (zpr : Word) (zsel : BitVec 4) : BitVec 2 := field zpr (2 * zsel.toNat) 2

/-- Bit n of a real-mode attribute register, n = EA[0:4] (R67, R170). -/
def regionBit (r : Word) (ea : Word) : Bool := bit r (field ea 0 5).toNat

/-- An address in virtual mode, through the entry that matches it. -/
def xlateTlb (s : State) (t : TlbEntry) (ea : Word) : Xlate :=
  { ra := realAddress t ea
    attrs := { w := t.w, i := t.i, g := t.g, u0 := t.u0, e := t.e }
    real := false
    zone := zoneField s.mmu.zpr t.zsel
    ex := t.ex
    wr := t.wr }

/-- An address in real mode; `cachable` is the DCCR, or the ICCR for fetches and instruction cache operations (R170). -/
def xlateReal (s : State) (cachable : Word) (ea : Word) : Xlate :=
  { ra := ea
    attrs :=
      { w := regionBit s.attr.dcwr ea, i := !regionBit cachable ea, g := regionBit s.attr.sgr ea,
        u0 := regionBit s.attr.su0r ea, e := regionBit s.attr.sler ea }
    real := true
    zone := 0
    ex := true
    wr := true }

/-- Translation when it is on or off; none is a TLB miss (R150, R153). -/
def xlate (s : State) (on : Bool) (cachable : Word) (ea : Word) : Option Xlate :=
  if on then (tlbLookup s ea).map (fun nt => xlateTlb s nt.2 ea) else some (xlateReal s cachable ea)

/-- Translation of a data access (R150). -/
def xlateData (s : State) (ea : Word) : Option Xlate := xlate s (msrDR s) s.attr.dccr ea

/-- Translation of an instruction cache operation: MSR[DR], with the ICCR in real mode (R150, R170). -/
def xlateIcacheOp (s : State) (ea : Word) : Option Xlate := xlate s (msrDR s) s.attr.iccr ea

/-- Translation of an instruction fetch (R150). W does not apply to fetches (R171). -/
def xlateFetch (s : State) (ea : Word) : Option Xlate := xlate s (msrIR s) s.attr.iccr ea

/-! ### Protection (R160 to R163) -/

/-- The zone denies all access: Z = 00 in problem state (R160). -/
def zoneDenied (s : State) (x : Xlate) : Bool := !x.real && (msrPR s && x.zone == 0#2)

/-- The zone grants full access, EX and WR treated as 1 (R160). -/
def zoneFull (s : State) (x : Xlate) : Bool := x.zone == 3#2 || (!msrPR s && x.zone == 2#2)

/-- `read_ok` of R161. -/
def readOk (s : State) (x : Xlate) : Bool := !zoneDenied s x

/-- `write_ok` of R161. -/
def writeOk (s : State) (x : Xlate) : Bool := x.real || (readOk s x && (x.wr || zoneFull s x))

/-- `exec_ok` of R162. -/
def execOk (s : State) (x : Xlate) : Bool :=
  x.real || (!x.attrs.g && !zoneDenied s x && (x.ex || zoneFull s x))

/-- The U0 fault condition of a store, in either mode (R177, R630 case (a)). -/
def u0Fault (s : State) (x : Xlate) : Bool := ccrU0XE s && x.attrs.u0

/-- Why a data access is refused: a TLB miss, or a data storage interrupt with the ESR bits of R631. -/
inductive DataFault where
  | tlbMiss
  | storage (dst diz u0f : Bool)
deriving DecidableEq, Repr

/-- The translated address of a load, or its fault: match, then `read_ok` (R165). -/
def loadXlate (s : State) (ea : Word) : Except DataFault Xlate :=
  match xlateData s ea with
  | none => .error .tlbMiss
  | some x => if readOk s x then .ok x else .error (.storage false true false)

/-- The translated address of a store, or its fault: match, then `write_ok` and the U0 test; every syndrome bit whose
condition holds is set (R161, R165, R631, D8). -/
def storeXlate (s : State) (ea : Word) : Except DataFault Xlate :=
  match xlateData s ea with
  | none => .error .tlbMiss
  | some x =>
    if writeOk s x && !u0Fault s x then .ok x else .error (.storage true (zoneDenied s x) (u0Fault s x))

/-! ### The words of an entry -/

/-- TLBHI as a word: EPN 0:21, SIZE 22:24, V 25, E 26, U0 27 (R91; PRESUMED, notes/assumptions/44.md). -/
def tlbHi (t : TlbEntry) : Word :=
  t.epn ++ t.size ++ BitVec.ofBool t.v ++ BitVec.ofBool t.e ++ BitVec.ofBool t.u0 ++ 0#4

/-- TLBLO as a word: RPN 0:21, EX 22, WR 23, ZSEL 24:27, W 28, I 29, M 30, G 31 (R92; PRESUMED,
notes/assumptions/44.md). -/
def tlbLo (t : TlbEntry) : Word :=
  t.rpn ++ BitVec.ofBool t.ex ++ BitVec.ofBool t.wr ++ t.zsel ++ BitVec.ofBool t.w ++ BitVec.ofBool t.i ++
    BitVec.ofBool t.m ++ BitVec.ofBool t.g

/-- An entry with its tag part taken from a word and its TID from PID[24:31] (R93, R544). -/
def tlbSetHi (t : TlbEntry) (w pid : Word) : TlbEntry :=
  { t with epn := field w 0 22, size := field w 22 3, v := bit w 25, e := bit w 26, u0 := bit w 27, tid := field pid 24 8 }

/-- An entry with its data part taken from a word (R544). -/
def tlbSetLo (t : TlbEntry) (w : Word) : TlbEntry :=
  { t with rpn := field w 0 22, ex := bit w 22, wr := bit w 23, zsel := field w 24 4, w := bit w 28, i := bit w 29,
           m := bit w 30, g := bit w 31 }

end Sys2Proof.Machine
end

