-- ==== Sys2Proof/Machine/Caches.lean ====
section
/-! DEFINITION. Storage behind the bus, the data cache and the line buffer: what one access of at most one aligned word
does to them (R130, R141, R171 to R174, R180 to R185), and what other bus masters do (R190). -/

namespace Sys2Proof.Machine

/-! ### Free values (notes/assumptions/8.md) -/

/-- The next free word. -/
def freeNow (s : State) : Word := Config.freeWord s.free

/-- Past `n` free values. -/
def drawn (n : Nat) (s : State) : State := { s with free := s.free + n }

/-- The `k`th free byte from now on. -/
def freeByteAt (s : State) (k : Nat) : Byte := (Config.freeWord (s.free + k)).setWidth 8

/-- `n` free bytes from now on. -/
def freeBytes (s : State) (n : Nat) : List Byte := (List.range n).map (freeByteAt s)

/-- A list without its repetitions. -/
def distinct {α : Type} [DecidableEq α] : List α → List α
  | [] => []
  | a :: as => a :: (distinct as).filter (fun b => decide (b ≠ a))

/-- One of the distinct values of a list: where there are several a free value says which (notes/assumptions/11.md). -/
def pick {α : Type} [DecidableEq α] (d : α) (l : List α) (s : State) : α × State :=
  match distinct l with
  | [] => (d, s)
  | [a] => (a, s)
  | as => (as.getD ((freeNow s).toNat % as.length) d, drawn 1 s)

/-! ### Bytes of storage (R130) -/

/-- What a byte of storage reads as before anything is written to it: 0 (DESIGN CHOICE, unsafe,
notes/assumptions/4.md). -/
def memDefault : Byte := 0#8

/-- The form of storage as data: addresses strictly rising, no byte equal to what an unlisted address reads as. -/
def Memory.wf (m : List Host.Cell) : Bool := mapWf memDefault m

/-- The byte of storage at a real address. -/
def memByte (s : State) (ra : Word) : Byte := mapGet memDefault s.sto.mem ra.toNat

/-- Storage with one byte written. -/
def setMemByte (ra : Word) (b : Byte) (s : State) : State :=
  { s with sto := { s.sto with mem := mapSet memDefault s.sto.mem ra.toNat b } }

/-- Storage with consecutive bytes written, addresses modulo 2^32 (R134). -/
def setMemBytes (ra : Word) (bs : List Byte) (s : State) : State :=
  match bs with
  | [] => s
  | b :: rest => setMemBytes (ra + 1) rest (setMemByte ra b s)

/-! ### Bus errors (D7, R620 to R622) -/

/-- The kinds of bus access `BUS_ERROR` tells apart. -/
inductive BusKind where
  | fetch
  | load
  | store
deriving DecidableEq, Repr

/-- One range answers an access at a real address with a bus error. -/
def BusErrorRange.hits (r : BusErrorRange) (k : BusKind) (ra : Word) : Bool :=
  decide (r.lo.toNat ≤ ra.toNat) && decide (ra.toNat ≤ r.hi.toNat) &&
    (match k with
     | .fetch => r.onFetch
     | .load => r.onLoad
     | .store => r.onStore)

/-- `BUS_ERROR` of a byte (D7). -/
def busError (s : State) (k : BusKind) (ra : Word) : Bool := s.params.busErrors.any (fun r => r.hits k ra)

/-- `BUS_ERROR` of some byte of an access. -/
def busErrorIn (s : State) (k : BusKind) (ra : Word) (n : Nat) : Bool :=
  (List.range n).any (fun j => busError s k (ra + BitVec.ofNat 32 j))

/-- A data-side bus error: pending while MSR[ME] = 1; with MSR[ME] = 0 whether it is kept is open (R622, U10). -/
def reportDataError (s : State) : State :=
  if msrME s then { s with inp := { s.inp with dataMachineCheck := true } }
  else drawn 1 { s with inp := { s.inp with dataMachineCheck := s.inp.dataMachineCheck || bit (freeNow s) 31 } }

/-- Bytes read over the bus: storage's, or free where the access meets a bus error, which is reported (R622, U10). -/
def busRead (ra : Word) (n : Nat) (s : State) : List Byte × State :=
  if busErrorIn s .load ra n then (freeBytes s n, reportDataError (drawn n s))
  else ((List.range n).map (fun j => memByte s (ra + BitVec.ofNat 32 j)), s)

/-- The line buffer holds this address's line. -/
def bufferHas (s : State) (ra : Word) : Bool :=
  match s.sto.buffer with
  | some b => b.line == lineOf ra
  | none => false

/-- The line buffer emptied (R183, R196). -/
def clearBuffer (s : State) : State := { s with sto := { s.sto with buffer := none } }

/-- The line buffer emptied if it holds this address's line: a store, `dcbi` or `dccci` to it (R183). -/
def dropBuffer (ra : Word) (s : State) : State := if bufferHas s ra then clearBuffer s else s

/-- The bytes of storage from a real address on, each with its place. -/
def placedBytes (s : State) (ra : Word) (n : Nat) : List (Word × Byte) :=
  (List.range n).map (fun j => (ra + BitVec.ofNat 32 j, memByte s (ra + BitVec.ofNat 32 j)))

/-- A write to some places noted as one that may not have reached storage yet: at most three stores and two flushes are
under way (R191, R203, R796; notes/assumptions/54.md). -/
def noteLate (direct : Bool) (ra : Word) (n : Nat) (s : State) : State :=
  { s with sto := { s.sto with
      late := ({ old := placedBytes s ra n, direct := direct, settled := false } :: s.sto.late).take 5 } }

/-- Every write has reached storage (R196). -/
def allPerformed (s : State) : State := { s with sto := { s.sto with late := [] } }

/-- An `isync` comes after every earlier store: those of caching inhibited and write-through storage are now found by a
caching inhibited fetch (R787; `isync` alone, notes/assumptions/54.md). -/
def settleStores (s : State) : State :=
  { s with sto := { s.sto with late := s.sto.late.map (fun w => { w with settled := w.settled || w.direct }) } }

/-- Bytes written over the bus (R622 for a bus error); `direct` for a store of caching inhibited or write-through storage.
The core's own accesses find them at once; a fetch may still find what stood there (R191, R203). -/
def busWrite (direct : Bool) (ra : Word) (bs : List Byte) (s : State) : State :=
  let s1 := setMemBytes ra bs (noteLate direct ra bs.length s)
  if busErrorIn s .store ra bs.length then reportDataError s1 else s1

/-- A byte that another bus master writes: storage holds it, whether or not an earlier write of the core is still under
way (R190, R192; notes/assumptions/54.md). -/
def outsideByte (ra : Word) (b : Byte) (s : State) : State :=
  let s1 := setMemByte ra b s
  { s1 with sto := { s1.sto with
      late := s1.sto.late.map (fun w =>
        { w with old := w.old.map (fun o => if o.1 = ra then (o.1, b) else o) }) } }

/-- Bytes that other bus masters write (R190). -/
def outsideBytes (bs : List (Word × Byte)) (s : State) : State := bs.foldl (fun s o => outsideByte o.1 o.2 s) s

/-- Before a storage access of an instruction: what other bus masters write just then (R190). -/
def busTurn (s : State) : State :=
  match s.inp.bus with
  | [] => s
  | bs :: rest => outsideBytes bs { s with inp := { s.inp with bus := rest } }

/-- What other bus masters were to write inside an instruction and have not yet written (R190). -/
def busLeftOver (s : State) : State :=
  match s.inp.bus with
  | [] => s
  | turns => outsideBytes turns.flatten { s with inp := { s.inp with bus := [] } }

/-! ### The data cache (R95, R180 to R182) -/

/-- Congruence classes of an array: lines per way (R9, Table C-1). -/
def CacheSize.classes : CacheSize → Nat
  | .kb0 => 0
  | .kb4 => 64
  | .kb8 => 128
  | .kb16 => 256
  | .kb32 => 512

/-- The congruence class of a real address: A[m:26] (R9, R181, D22). -/
def classOf (c : CacheSize) (ra : Word) : Nat := (ra.toNat / 32) % c.classes

/-- A class of the data cache. -/
def dSet (s : State) (k : Nat) : DSet := mapGet DSet.empty s.sto.dcache k

/-- The data cache with one class replaced. -/
def setDSet (k : Nat) (d : DSet) (s : State) : State :=
  { s with sto := { s.sto with dcache := mapSet DSet.empty s.sto.dcache k d } }

/-- The data cache class of an address. -/
def dClass (s : State) (ra : Word) : Nat := classOf s.params.dcacheSize ra

/-- The way of a class that holds a line, true for B. -/
def DSet.way (d : DSet) (l : BitVec 27) : Option Bool :=
  if d.a.valid && d.a.line == l then some false else if d.b.valid && d.b.line == l then some true else none

/-- One way of a class. -/
def DSet.get (d : DSet) (way : Bool) : DLine := if way then d.b else d.a

/-- A class with one way replaced. -/
def DSet.put (d : DSet) (way : Bool) (l : DLine) : DSet := if way then { d with b := l } else { d with a := l }

/-- The way of the data cache that holds an address's line; with no array there is none (R180). -/
def dWay (s : State) (ra : Word) : Option Bool :=
  if s.params.dcacheSize.classes = 0 then none else (dSet s (dClass s ra)).way (lineOf ra)

/-- Byte `j` of a line, `j` modulo 32. -/
def lineByte (v : Vector Byte 32) (j : Nat) : Byte := v[j % 32]'(Nat.mod_lt _ (by decide))

/-- `n` bytes of a line from an address's offset on. -/
def lineBytes (v : Vector Byte 32) (ra : Word) (n : Nat) : List Byte :=
  (List.range n).map (fun j => lineByte v ((lineOffset ra).toNat + j))

/-- A line with consecutive bytes written from offset `j` on. -/
def lineSet (v : Vector Byte 32) (j : Nat) : List Byte → Vector Byte 32
  | [] => v
  | b :: rest => lineSet (v.set (j % 32) b (Nat.mod_lt _ (by decide))) (j + 1) rest

/-- A line made of a list's first 32 bytes. -/
def lineOfBytes (bs : List Byte) : Vector Byte 32 := lineSet (Vector.replicate 32 0#8) 0 (bs.take 32)

/-- The way just used by a cachable access is most recently used: the LRU bit names the other (R182); what reset left in
it is now in use (R199). -/
def touchWay (k : Nat) (way : Bool) (s : State) : State :=
  setDSet k { (dSet s k).put way { (dSet s k).get way with undef := false } with lruB := !way } s

/-- The way that an access with given attributes finds: what reset left in the array is no copy of caching inhibited
storage (R114, R199). -/
def dSeen (s : State) (x : Attrs) (ra : Word) : Option Bool :=
  (dWay s ra).filter (fun way => !(x.i && ((dSet s (dClass s ra)).get way).undef))

/-- The LRU way of a class written to storage if it is valid and dirty (R182). -/
def castOut (k : Nat) (s : State) : State :=
  let v := (dSet s k).get (dSet s k).lruB
  if v.valid && v.dirty then busWrite false (lineBase v.line) v.data.toList s else s

/-- A line put into the LRU way of its class, the old one cast out first; the other way becomes LRU (R182). -/
def installLine (ra : Word) (data : Vector Byte 32) (dirty : Bool) (s : State) : State :=
  let k := dClass s ra
  let s1 := castOut k s
  let d := dSet s1 k
  setDSet k
    { d.put d.lruB { valid := true, dirty := dirty, line := lineOf ra, data := data, undef := false } with
      lruB := !d.lruB } s1

/-- A line fill: the 32 bytes read from storage and installed clean; it takes the fill buffer (R182, R183). -/
def fillLine (ra : Word) (s : State) : State :=
  let (bs, s1) := busRead (lineBase (lineOf ra)) 32 (clearBuffer s)
  installLine ra (lineOfBytes bs) false s1

/-- Bytes of a line that is in the data cache. -/
def cachedBytes (s : State) (ra : Word) (way : Bool) (n : Nat) : List Byte :=
  lineBytes ((dSet s (dClass s ra)).get way).data ra n

/-- Bytes written into a line that is in the data cache; `dirty` marks it (R182). -/
def writeCached (ra : Word) (way : Bool) (bs : List Byte) (dirty : Bool) (s : State) : State :=
  let k := dClass s ra
  let l := (dSet s k).get way
  setDSet k
    ((dSet s k).put way
      { l with data := lineSet l.data (lineOffset ra).toNat bs, dirty := l.dirty || dirty }) s

/-! ### One load or store of at most one aligned word -/

/-- A load that goes to storage: through the line buffer for storage that is not guarded, else over the bus (R183). -/
def uncachedRead (ra : Word) (x : Attrs) (n : Nat) (s : State) : List Byte × State :=
  if x.g then busRead ra n s
  else match s.sto.buffer with
    | some b =>
      if b.line = lineOf ra then (lineBytes b.data ra n, s)
      else if ccrLWL s then
        let (bs, s1) := busRead (lineBase (lineOf ra)) 32 (clearBuffer s)
        let v := lineOfBytes bs
        (lineBytes v ra n, { s1 with sto := { s1.sto with buffer := some { line := lineOf ra, data := v } } })
      else busRead ra n s
    | none =>
      if ccrLWL s then
        let (bs, s1) := busRead (lineBase (lineOf ra)) 32 s
        let v := lineOfBytes bs
        (lineBytes v ra n, { s1 with sto := { s1.sto with buffer := some { line := lineOf ra, data := v } } })
      else busRead ra n s

/-- Byte by byte the cached or the stored value, as a free value chooses (R174, U4). -/
def mixBytes (choice : Word) : Nat → List Byte → List Byte → List Byte
  | j, c :: cs, m :: ms => (if choice.getLsbD j then c else m) :: mixBytes choice (j + 1) cs ms
  | _, _, _ => []

/-- The bytes a load takes, with what the access does to caches and storage: W with I gives free bytes (R173, U3); caching
inhibited storage is read over the bus, a cached copy making each byte a free choice (R172, R174, U4); cachable storage
hits, fills, or with LWOA goes to storage (R182). -/
def dataRead (ra : Word) (x : Attrs) (n : Nat) (s : State) : List Byte × State :=
  if x.w && x.i then (freeBytes s n, drawn n s)
  else match dSeen s x ra with
    | some way =>
      if x.i then
        let (bs, s1) := uncachedRead ra x n (drawn 1 s)
        (mixBytes (freeNow s) 0 (cachedBytes s ra way n) bs, s1)
      else (cachedBytes s ra way n, touchWay (dClass s ra) way s)
    | none =>
      if x.i || ccrLWOA s || s.params.dcacheSize.classes = 0 then uncachedRead ra x n s
      else
        let s1 := fillLine ra s
        match dWay s1 ra with
        | some way => (cachedBytes s1 ra way n, s1)
        | none => uncachedRead ra x n s1

/-- A store that hits: the line is updated, and storage with it when write-through, in which case the line does not become
dirty (R171, R182). -/
def storeHit (ra : Word) (x : Attrs) (way : Bool) (bs : List Byte) (s : State) : State :=
  let s1 := touchWay (dClass s ra) way (writeCached ra way bs (!x.w) s)
  if x.w then busWrite true ra bs s1 else s1

/-- What a store of bytes does to the data cache and storage: W with I stores free bytes (R173, U3); caching inhibited
storage is written over the bus, a cached copy leaving open which of the two is updated (R172, R174, U4); cachable storage
hits, fills and then hits, or with SWOA goes to storage (R182). A store of cachable write-back storage that goes straight to
storage (SWOA, or no array) counts as "write-back cached" in the sense of R787, so that a fetch needs a `sync` to be sure
to find it: it is direct only with I or W (DESIGN CHOICE, notes/assumptions/54.md). -/
def storeThrough (ra : Word) (x : Attrs) (bs : List Byte) (s : State) : State :=
  if x.w && x.i then busWrite true ra (freeBytes s bs.length) (drawn bs.length s)
  else match dSeen s x ra with
    | some way =>
      if x.i then
        let c := freeNow s
        let s1 := drawn 1 s
        if bit c 31 then
          -- the cached copy alone, or both
          let s2 := writeCached ra way bs (bit c 29) s1
          if bit c 30 then busWrite true ra bs s2 else s2
        else busWrite true ra bs s1
      else storeHit ra x way bs s
    | none =>
      if x.i || ccrSWOA s || s.params.dcacheSize.classes = 0 then busWrite (x.i || x.w) ra bs s
      else
        let s1 := fillLine ra s
        match dWay s1 ra with
        | some way => storeHit ra x way bs s1
        | none => busWrite (x.i || x.w) ra bs s1

/-- A store of bytes of at most one aligned word; it empties the line buffer of its line first (R183). -/
def dataWrite (ra : Word) (x : Attrs) (bs : List Byte) (s : State) : State := storeThrough ra x bs (dropBuffer ra s)

/-- The byte a data access of this core finds at a real address: the data cache's if the line is there, else storage's
(R191). -/
def dataByte (s : State) (ra : Word) : Byte :=
  match dWay s ra with
  | some way => lineByte ((dSet s (dClass s ra)).get way).data (lineOffset ra).toNat
  | none => memByte s ra

/-! ### Cache lines by name (R185, R501 to R509) -/

/-- A line written to storage if it is present and dirty (`dcbst`, first half of `dcbf`); it stays valid and is clean. The LRU
bit stays (DESIGN CHOICE, notes/assumptions/10.md). -/
def cleanLine (ra : Word) (s : State) : State :=
  match dWay s ra with
  | some way =>
    let k := dClass s ra
    let l := (dSet s k).get way
    if l.dirty then
      let s1 := busWrite false (lineBase l.line) l.data.toList s
      setDSet k ((dSet s1 k).put way { l with dirty := false }) s1
    else s
  | none => s

/-- A line invalidated if it is present; dirty data is discarded (`dcbi`, second half of `dcbf`). The LRU bit stays (DESIGN
CHOICE, notes/assumptions/10.md). -/
def dropLine (ra : Word) (s : State) : State :=
  match dWay s ra with
  | some way =>
    let k := dClass s ra
    let l := (dSet s k).get way
    setDSet k ((dSet s k).put way { l with valid := false, dirty := false }) s
  | none => s

/-- Both lines of a congruence class invalidated, whatever their tags (`dccci`, R508). The LRU bit stays (DESIGN CHOICE,
notes/assumptions/10.md). -/
def dropClass (ra : Word) (s : State) : State :=
  if s.params.dcacheSize.classes = 0 then s
  else
    let k := dClass s ra
    let d := dSet s k
    setDSet k { d with a := { d.a with valid := false, dirty := false }, b := { d.b with valid := false, dirty := false } } s

/-- A line of given bytes established without reading storage, dirty (`dcbz`; R185). A line already present becomes the most
recently used (DESIGN CHOICE, notes/assumptions/10.md). -/
def establishLine (ra : Word) (data : Vector Byte 32) (s : State) : State :=
  match dWay s ra with
  | some way =>
    let k := dClass s ra
    let d := dSet s k
    setDSet k
      { d.put way { valid := true, dirty := true, line := lineOf ra, data := data, undef := false } with lruB := !way } s
  | none => installLine ra data true s

end Sys2Proof.Machine
end

