-- ==== Sys2Proof/Machine/Fetch.lean ====
section
/-! DEFINITION. The instruction cache, and fetching an instruction word: what a fetch may give where an instruction has
changed storage or the fetch state and no barrier has followed (R132, R184, R186, R195, R203, R204; D17, D24). -/

namespace Sys2Proof.Machine

/-! ### The instruction cache (R184) -/

/-- A class of the instruction cache. -/
def iSet (s : State) (k : Nat) : ISet := mapGet ISet.empty s.sto.icache k

/-- The instruction cache with one class replaced. -/
def setISet (k : Nat) (d : ISet) (s : State) : State :=
  { s with sto := { s.sto with icache := mapSet ISet.empty s.sto.icache k d } }

/-- The instruction cache class of an address. -/
def iClass (s : State) (ra : Word) : Nat := classOf s.params.icacheSize ra

/-- The way of a class that holds a line, true for B. -/
def ISet.way (d : ISet) (l : BitVec 27) : Option Bool :=
  if d.a.valid && d.a.line == l then some false else if d.b.valid && d.b.line == l then some true else none

/-- One way of a class. -/
def ISet.get (d : ISet) (way : Bool) : ILine := if way then d.b else d.a

/-- A class with one way replaced. -/
def ISet.put (d : ISet) (way : Bool) (l : ILine) : ISet := if way then { d with b := l } else { d with a := l }

/-- The way of the instruction cache that holds an address's line; with no array there is none (R180). -/
def iWay (s : State) (ra : Word) : Option Bool :=
  if s.params.icacheSize.classes = 0 then none else (iSet s (iClass s ra)).way (lineOf ra)

/-- The instruction word at an address in a line. -/
def lineWord (v : Vector Word 8) (ra : Word) : Word := v[(lineOffset ra).toNat / 4 % 8]'(Nat.mod_lt _ (by decide))

/-- The instruction word in storage at a word-aligned real address under the byte order `e` (R132). -/
def memWord (s : State) (ra : Word) (e : Bool) : Word :=
  bytesWord (orderBytes e [memByte s ra, memByte s (ra + 1), memByte s (ra + 2), memByte s (ra + 3)])

/-- The eight instruction words of a line in storage under the byte order `e` (R132, R184). -/
def memLine (s : State) (l : BitVec 27) (e : Bool) : Vector Word 8 :=
  ⟨#[memWord s (lineBase l) e, memWord s (lineBase l + 4) e, memWord s (lineBase l + 8) e, memWord s (lineBase l + 12) e,
     memWord s (lineBase l + 16) e, memWord s (lineBase l + 20) e, memWord s (lineBase l + 24) e,
     memWord s (lineBase l + 28) e], rfl⟩

/-- A line put into the LRU way of its class of the instruction cache; the other way becomes LRU (R184). -/
def installInstrLine (ra : Word) (words : Vector Word 8) (s : State) : State :=
  let k := iClass s ra
  let d := iSet s k
  setISet k
    { d.put d.lruB { valid := true, line := lineOf ra, words := words, undef := false } with lruB := !d.lruB } s

/-- The way of the instruction cache just used by a cachable fetch is most recently used (R184), and what reset left in it
is now in use (R199). -/
def touchInstrWay (k : Nat) (way : Bool) (s : State) : State :=
  setISet k { (iSet s k).put way { (iSet s k).get way with undef := false } with lruB := !way } s

/-- The way of the instruction cache that a fetch with given attributes finds, as `dSeen`. -/
def iSeen (s : State) (x : Attrs) (ra : Word) : Option Bool :=
  (iWay s ra).filter (fun way => !(x.i && ((iSet s (iClass s ra)).get way).undef))

/-- Storage with a write undone. -/
def undo (s : State) (w : LateWrite) : State := w.old.foldl (fun s o => setMemByte o.1 o.2 s) s

/-- The states that differ in how many of some writes, newest first, have not reached storage: all but the first of them
with the bytes that stood there before. -/
def undone : List LateWrite → State → List State
  | [], _ => []
  | w :: ws, s => undo s w :: undone ws (undo s w)

/-- The writes to a line that a read by the fetcher may not find in storage, newest first; a caching inhibited fetch finds
those that are settled, and so every one before them (R191, R203, R787). -/
def missable (s : State) (l : BitVec 27) (inhibited : Bool) : List LateWrite :=
  (s.sto.late.filter (fun w => w.old.any (fun o => lineOf o.1 == l))).takeWhile (fun w => !(inhibited && w.settled))

/-- Storage as a read by the fetcher at a real address may find it: as it stands, or without the newest of the writes to
that line that may be under way (R191, R203, R787). -/
def fetchImages (s : State) (ra : Word) (inhibited : Bool) : List State := s :: undone (missable s (lineOf ra) inhibited) s

/-- The line that an instruction cache miss reads from storage; none without an array, or with a word in error, which is
not validated (R184, R621). -/
def instrFill (s : State) (ra : Word) (e : Bool) : Option (Vector Word 8) :=
  if s.params.icacheSize.classes = 0 || busErrorIn s .fetch (lineBase (lineOf ra)) 32 then none
  else some (memLine s (lineOf ra) e)

/-- An instruction line fill from storage as the fetcher finds it (R184, R203). -/
def fillInstrLine (ra : Word) (e : Bool) (s : State) : State :=
  match pick none ((fetchImages s ra false).map (fun m => instrFill m ra e)) s with
  | (some words, s1) => installInstrLine ra words s1
  | (none, s1) => s1

/-- An instruction cache line invalidated if it is present (`icbi`, R510). The LRU bit stays (DESIGN CHOICE,
notes/assumptions/10.md). -/
def dropInstrLine (ra : Word) (s : State) : State :=
  match iWay s ra with
  | some way =>
    let k := iClass s ra
    let d := iSet s k
    setISet k (d.put way { d.get way with valid := false }) s
  | none => s

/-- Every class of the instruction cache with both ways invalid (`iccci`, R512). The LRU bits stay (DESIGN CHOICE,
notes/assumptions/10.md). -/
def dropInstrClasses : List (Nat × ISet) → List (Nat × ISet)
  | [] => []
  | (k, d) :: m =>
    mapSet ISet.empty (dropInstrClasses m) k
      { d with a := { d.a with valid := false }, b := { d.b with valid := false } }

/-- The whole instruction cache invalidated (R512). -/
def dropInstrCache (s : State) : State :=
  { s with sto := { s.sto with icache := dropInstrClasses s.sto.icache } }

/-! ### Fetching (R132, R184, R203, R204) -/

/-- A read by the fetcher: what it gives, and from cachable storage the real address whose line of the instruction cache it
uses and the line that a miss fills (R184). -/
structure Fetch where
  gives    : Fetched
  ra       : Word
  cachable : Bool
  fill     : Option (Vector Word 8)
deriving DecidableEq, Repr

/-- A read that comes to no storage. -/
def Fetch.stopped (f : Fetched) : Fetch := { gives := f, ra := 0, cachable := false, fill := none }

/-- The reads that a fetch from a real address may be: the instruction cache's word on a hit; else storage's as the fetcher
finds it, with the line that a miss fills unless FWOA is 1 (R184); of caching inhibited storage with a cached copy either
word (R174). The data cache is never read (R203). -/
def fetchWords (ra : Word) (x : Attrs) (s : State) : List Fetch :=
  let images := fetchImages s ra x.i
  match iSeen s x ra with
  | some way =>
    let cached := lineWord ((iSet s (iClass s ra)).get way).words ra
    if x.i then
      images.map (fun m => .stopped (.word (memWord m ra x.e) (busErrorIn s .fetch ra 4))) ++
        [.stopped (.word cached (busErrorIn s .fetch ra 4))]
    else [{ gives := .word cached false, ra := ra, cachable := true, fill := none }]
  | none =>
    images.map (fun m =>
      { gives := .word (memWord m ra x.e) (busErrorIn s .fetch ra 4), ra := ra, cachable := !x.i
        fill := if x.i || ccrFWOA s then none else instrFill m ra x.e })

/-- What a read by the fetcher does to the instruction cache: a cachable one makes its line most recently used if it is
present, else a miss fills it (R184); without an array nothing (R180). -/
def afterFetch (f : Fetch) (s : State) : State :=
  if f.cachable then
    match iWay s f.ra, f.fill with
    | some way, _ => touchInstrWay (iClass s f.ra) way s
    | none, some words => if s.params.icacheSize.classes = 0 then s else installInstrLine f.ra words s
    | none, none => s
  else s

/-- The fetch state in force (R195). -/
def fetchContext (s : State) : FetchContext :=
  { relocate := msrIR s, problem := msrPR s, mmu := s.mmu, attr := s.attr, dbcr0 := s.dbg.dbcr0, iac1 := s.dbg.iac1,
    iac2 := s.dbg.iac2, iac3 := s.dbg.iac3, iac4 := s.dbg.iac4 }

/-- The machine as the fetcher takes it under a fetch context. -/
def inContext (s : State) (c : FetchContext) : State :=
  { s with
    msr := setBit (setBit s.msr 26 c.relocate) 17 c.problem, mmu := c.mmu, attr := c.attr
    dbg := { s.dbg with dbcr0 := c.dbcr0, iac1 := c.iac1, iac2 := c.iac2, iac3 := c.iac3, iac4 := c.iac4 } }

/-- The machine as the fetcher may take it: as it is, and under each fetch context that was in force since the last context
synchronising event (R186, R195, D17, D24). -/
def fetchViews (s : State) : List State := s :: s.pipe.contexts.map (inContext s)

/-- The reads that a fetch at an effective address may be under one view: translation, protection, the word (R132,
R165). -/
def fetchUnder (ea : Word) (s : State) : List Fetch :=
  match xlateFetch s ea with
  | none => [.stopped .miss]
  | some x => if execOk s x then fetchWords x.ra x.attrs s else [.stopped (.refused (zoneDenied s x))]

/-- A read by the fetcher at an effective address under one of some views: what it gives, and the machine after it, whose
instruction cache has taken the line of a miss (R184, R204). -/
def readInstr (views : List State) (ea : Word) (s : State) : Fetched × State :=
  let r := pick (.stopped .miss) (views.flatMap (fetchUnder ea)) s
  (r.1.gives, afterFetch r.1 r.2)

/-- The instruction at the pc: the prefetched one, else a read made now (R203, R204). -/
def fetchAtPc (s : State) : Fetched × State :=
  match s.pipe.queue.find? (fun q => q.1 == s.pc) with
  | some q => (q.2, s)
  | none => readInstr (fetchViews s) s.pc s

/-- The fetcher may read ahead at an address: not from guarded storage in real mode (R176). -/
def mayReadAhead (ea : Word) (s : State) : Bool :=
  match xlateFetch s ea with
  | some x => !(x.real && x.attrs.g)
  | none => true

/-- The views under which the fetcher may read ahead at an address. -/
def aheadViews (ea : Word) (s : State) : List State := (fetchViews s).filter (mayReadAhead ea)

/-- A word put at the end of the prefetch queue. -/
def enqueue (ea : Word) (f : Fetched) (s : State) : State :=
  { s with pipe := { s.pipe with queue := s.pipe.queue ++ [(ea, f)] } }

/-- The prefetch queue filled up with at most `n` words from an address on, in order: where the next one may be read ahead
it is open whether it is read now, and a free value says (R176, R204; notes/assumptions/11.md). -/
def prefetch : Nat → Word → State → State
  | 0, _, s => s
  | n + 1, ea, s =>
    if s.pipe.queue.any (fun q => q.1 == ea) then prefetch n (ea + 4#32) s
    else if (aheadViews ea s).isEmpty then s
    else if bit (freeNow s) 31 then
      let r := readInstr (aheadViews ea s) ea (drawn 1 s)
      prefetch n (ea + 4#32) (enqueue ea r.1 r.2)
    else drawn 1 s

/-- The fetcher reads ahead: the queue holds the words of an address and the two after it alone, those it already held and
those read now; their lines are in the instruction cache from the read on (R184, R204). -/
def readAhead (ea : Word) (s : State) : State :=
  prefetch 3 ea
    { s with pipe := { s.pipe with
        queue := s.pipe.queue.filter (fun q => [ea, ea + 4#32, ea + 8#32].contains q.1) } }

/-- A context synchronising event: nothing of an earlier fetch state is left (R195, R204). -/
def synchronizeContext (s : State) : State := { s with pipe := Pipe.empty }

/-- A taken branch discards the prefetch queue (R204). -/
def discardQueue (s : State) : State := { s with pipe := { s.pipe with queue := [] } }

/-- `t`, with the fetch state of `s` one that later fetches may still be made under (R186, R195, D17, D24). -/
def rememberContext (s t : State) : State :=
  { t with pipe := { t.pipe with contexts := fetchContext s :: t.pipe.contexts } }

end Sys2Proof.Machine
end

