-- ==== Sys2Proof/Machine/Ops.lean ====
section
/-! DEFINITION. The shared operations: registers, taking an exception and returning from one (R600 to R682), debug events
(R720 to R743), how an instruction completes, and the storage accesses of loads and stores (R140 to R165, R734 to R740). -/

namespace Sys2Proof.Machine

/-! ### Registers -/

/-- `GPR[r]` (R30). No register is hard-wired. -/
def gpr (s : State) (r : Reg) : Word := s.gpr[r.toNat]'r.isLt

/-- `GPR[r] <- v` (R30). -/
def setGpr (r : Reg) (v : Word) (s : State) : State := { s with gpr := s.gpr.set r.toNat v r.isLt }

/-- `(RA|0)` (R16): 0 when the field is 0, else the register. -/
def gprOr0 (s : State) (r : Reg) : Word := if r = 0#5 then 0#32 else gpr s r

/-- `MSR <- v`: all 32 bits are storage (R44, D2); with the MMU tied off IR and DR are forced to 0 (R189). -/
def setMsr (v : Word) (s : State) : State :=
  { s with msr := if s.params.mmuEnabled then v else v &&& ~~~(weight 26 ||| weight 27) }

/-- `ESR <- v`. -/
def setEsr (v : Word) (s : State) : State := { s with exc := { s.exc with esr := v } }

/-- `DEAR <- v`. -/
def setDear (v : Word) (s : State) : State := { s with exc := { s.exc with dear := v } }

/-- `DBSR <- DBSR ∨ bits` (R719: hardware only sets). -/
def setDbsrBits (bits : Word) (s : State) : State := { s with dbg := { s.dbg with dbsr := s.dbg.dbsr ||| bits } }

/-- The debug run state changed. -/
def setRun (r : DebugRun) (s : State) : State := { s with dbg := { s.dbg with run := r } }

/-! ### Taking an exception (R604 to R607) -/

/-- The three kinds of entry (R603, R606). -/
inductive IntClass where
  | noncritical
  | critical
  | machineCheck
deriving DecidableEq, Repr

/-- The handler's address, `EVPR[0:15] || offset` (R607). -/
def vectorAddress (s : State) (off : Word) : Word := (s.exc.evpr &&& 0xFFFF0000#32) ||| off

/-- What is left of the MSR on entry (R604, R605, R606; D5; AP and APE cleared by a machine check too, C10). -/
def IntClass.msrKept : IntClass → Word
  | .noncritical => 0x00021200#32
  | .critical => 0x00001000#32
  | .machineCheck => 0#32

/-- Entry to an interrupt (R604 to R606): the address and the MSR saved in SRR0 and SRR1, or in SRR2 and SRR3, the new MSR,
the pc at the vector. It is context synchronising (R195). RESERVE is unchanged. A handler run out of debug wait is marked as
such (R723). -/
def enter (c : IntClass) (off a : Word) (s : State) : State :=
  { s with
    exc :=
      match c with
      | .noncritical => { s.exc with srr0 := wordAligned a, srr1 := s.msr }
      | .critical => { s.exc with srr2 := wordAligned a, srr3 := s.msr }
      | .machineCheck => { s.exc with srr2 := wordAligned a, srr3 := s.msr }
    msr := s.msr &&& c.msrKept
    pc := vectorAddress s off
    pipe := Pipe.empty
    dbg := { s.dbg with run := if s.dbg.run = .debugWait then .servicing else s.dbg.run } }

/-! ### Debug events (R720 to R743) -/

/-- Internal debug mode alone: IDM = 1, EDM = 0 (R721). -/
def internalDebug (s : State) : Bool := dbIDM s && !dbEDM s

/-- Internal debug mode with debug interrupts disabled: events are recorded as imprecise, IC, BT and toggled ranges are
disabled (R725 to R727, R733). -/
def debugMasked (s : State) : Bool := internalDebug s && !msrDE s

/-- Debug wait mode is in force: IDM = EDM = 0, MSR[DWE] = 1, and the debugger has enabled it (R723). -/
def debugWaitMode (s : State) : Bool := !dbIDM s && !dbEDM s && msrDWE s && s.params.jtagDebugWait

/-- A debug event does more than set DBSR bits: it stops the core or takes the debug interrupt (R725). -/
def eventActs (s : State) : Bool := dbEDM s || (dbIDM s && msrDE s) || debugWaitMode s

/-- The DBSR bits of an event recorded; with DBCR0[IDM] = 1 and MSR[DE] = 0 the imprecise bit too (R725, R729), also where
DBCR0[EDM] = 1, which the spec says of TIE alone (R729; DESIGN CHOICE for the other events, notes/assumptions/55.md). -/
def recordEvent (mode : State) (bits : Word) (s : State) : State :=
  setDbsrBits (if dbIDM mode && !msrDE mode then bits ||| dbsrIDE else bits) s

/-- A debug event with some DBSR bits, saving the address `a`, under the debug mode in force in `mode` (R722, R723, R725,
R660): external mode stops the core, internal mode with MSR[DE] takes the debug interrupt, debug wait mode stops it too,
else the bits are recorded and nothing happens. -/
def debugEvent (mode : State) (bits a : Word) (s : State) : State :=
  if bits = 0 then s
  else
    let s1 := recordEvent mode bits s
    if dbEDM mode then setRun .stopped { s1 with pc := a }
    else if dbIDM mode then (if msrDE mode then enter .critical 0x2000#32 a s1 else s1)
    else if debugWaitMode mode then setRun .debugWait { s1 with pc := a }
    else s1

/-- An event before execution (R725): where it acts the instruction does not execute, else it is recorded and the instruction
goes on. It then completes and raises its completion event too, which R743 denies only to an instruction that did not complete
(DESIGN CHOICE, notes/assumptions/34.md). -/
def beforeEvent (bits : Word) (k : State → State) (s : State) : State :=
  if bits = 0 then k s
  else if eventActs s then debugEvent s bits s.pc s
  else k (recordEvent s bits s)

/-- The exception event after an entry (R728): always for noncritical ones, for critical ones unless IDM = 1 and EDM = 0. -/
def exceptionEvent (c : IntClass) (s : State) : State :=
  if dbEDE s && (c == .noncritical || !internalDebug s) then debugEvent s dbsrEDE s.pc s else s

/-- TAKING AN EXCEPTION: the entry and the exception debug event after it (R604 to R607, R728). -/
def takeInterrupt (c : IntClass) (off a : Word) (s : State) : State := exceptionEvent c (enter c off a s)

/-- Program interrupt with one ESR cause bit (R641): ESR[MCI] kept, the other bits cleared; saves the instruction's
address. -/
def programInterrupt (cause : Word) (s : State) : State :=
  takeInterrupt .noncritical 0x0700#32 s.pc (setEsr ((s.exc.esr &&& esrMCI) ||| cause) s)

/-- Alignment interrupt: DEAR takes the address, the ESR is unchanged (R645). -/
def alignmentInterrupt (ea : Word) (s : State) : State := takeInterrupt .noncritical 0x0600#32 s.pc (setDear ea s)

/-- The ESR a data-side fault leaves (R631, R656; DST on a miss only by `DTLB_MISS_SETS_DST`). -/
def dataFaultEsr (store : Bool) (f : DataFault) (s : State) : Word :=
  match f with
  | .tlbMiss =>
    (s.exc.esr &&& esrMCI) ||| (if store && s.params.dtlbMissSetsDst then esrDST else 0#32)
  | .storage dst diz u0f =>
    (s.exc.esr &&& esrMCI) ||| (if dst then esrDST else 0#32) ||| (if diz then esrDIZ else 0#32) |||
      (if u0f then esrU0F else 0#32)

/-- The data TLB miss or data storage interrupt of an access (R631, R656): DEAR takes the failing address. -/
def dataInterrupt (store : Bool) (ea : Word) (f : DataFault) (s : State) : State :=
  takeInterrupt .noncritical (match f with | .tlbMiss => 0x1100#32 | .storage .. => 0x0300#32) s.pc
    (setDear ea (setEsr (dataFaultEsr store f s) s))

/-- The return: pc and MSR from a saved pair (R670); it is context synchronising (R195). Out of a handler run in debug wait it goes back to debug wait when the
restored MSR has DWE = 1 (R723; DESIGN CHOICE, notes/assumptions/33.md). -/
def returnFrom (a m : Word) (s : State) : State :=
  let s1 := setMsr m (synchronizeContext { s with pc := wordAligned a })
  if s1.dbg.run = .servicing && msrDWE s1 then setRun .debugWait s1 else s1

/-! ### Completing an instruction -/

/-- The instruction completion event is live, judged before the instruction (R726). -/
def completionBits (s : State) : Word := if dbIC s && !debugMasked s then dbsrIC else 0#32

/-- An instruction completes with the next instruction at `nia`: the pc moves there and the completion event and the data
value events `dvc` are raised together, saving that address (R660, R726, R739, R743). `mode` is the state before it. -/
def complete (mode : State) (nia dvc : Word) (s : State) : State :=
  debugEvent mode (completionBits mode ||| dvc) nia { s with pc := nia }

/-- An instruction that only changes state and goes on to the next one: `s` before, `t` after. -/
def advance (s t : State) : State := complete s (s.pc + 4#32) 0#32 t

/-- A privileged instruction (R681): in problem state the program interrupt with ESR[PPR], else its effect. -/
def privileged (k : State → State) (s : State) : State := if msrPR s then programInterrupt esrPPR s else k s

/-- Instruction bit 31 set in an X-form instruction without a record form: CR[CR0] is left with a free value (R241, R321,
U11). -/
def undefinedCr0 (x31 : Bool) (s : State) : State :=
  if x31 then drawn 1 { s with cr := (s.cr &&& 0x0FFFFFFF#32) ||| (freeNow s &&& 0xF0000000#32) } else s

/-! ### Data address and value compare (R734 to R740) -/

/-- Byte-enable bits of DVC1 or DVC2 (R718). -/
def dvcEnables (s : State) (two : Bool) : BitVec 4 := if two then field s.dbg.dbcr1 20 4 else field s.dbg.dbcr1 16 4

/-- DVCn is enabled: a direction enable and some byte enable (R739). -/
def dvcEnabled (s : State) (two : Bool) : Bool :=
  (if two then bit s.dbg.dbcr1 1 || bit s.dbg.dbcr1 3 else bit s.dbg.dbcr1 0 || bit s.dbg.dbcr1 2) &&
    dvcEnables s two != 0#4

/-- The address bits that a size code compares (R734). -/
def dacMask (size : BitVec 2) : Word :=
  if size = 0#2 then 0xFFFFFFFF#32 else if size = 1#2 then 0xFFFFFFFE#32
  else if size = 2#2 then 0xFFFFFFFC#32 else 0xFFFFFFE0#32

/-- An address matches DAC1 or DAC2, exactly or as a range (R734, R736). -/
def dacMatches (s : State) (two : Bool) (a : Word) : Bool :=
  if bit s.dbg.dbcr1 8 then
    if bit s.dbg.dbcr1 9 then a.ult s.dbg.dac1 || s.dbg.dac2.ule a else s.dbg.dac1.ule a && a.ult s.dbg.dac2
  else
    let m := dacMask (if two then field s.dbg.dbcr1 6 2 else field s.dbg.dbcr1 4 2)
    (a &&& m) == ((if two then s.dbg.dac2 else s.dbg.dac1) &&& m)

/-- The DBSR bit that DAC1 or DAC2 reports for a direction, if that direction is enabled (R734, R736). -/
def dacBit (s : State) (store two : Bool) : Word :=
  match store, two with
  | false, false => if bit s.dbg.dbcr1 0 then dbsrDR1 else 0#32
  | false, true => if bit s.dbg.dbcr1 1 then dbsrDR2 else 0#32
  | true, false => if bit s.dbg.dbcr1 2 then dbsrDW1 else 0#32
  | true, true => if bit s.dbg.dbcr1 3 then dbsrDW2 else 0#32

/-- The data address compare bits of one of the pair for an instruction's addresses; an enabled DVC supersedes it
(R734, R739). -/
def dacBitsOf (s : State) (store two : Bool) (eas : List Word) : Word :=
  if !dvcEnabled s two && eas.any (dacMatches s two) then dacBit s store two else 0#32

/-- The data address compare bits of an instruction's addresses (R734 to R736). -/
def dacBits (s : State) (store : Bool) (eas : List Word) : Word :=
  dacBitsOf s store false eas ||| dacBitsOf s store true eas

/-- The data address bits of a cache operation; it raises no value event, and an enabled DVC supersedes its address event too
(R737, R739). -/
def cacheDacBits (s : State) (store : Bool) (ea : Word) : Word :=
  (if dacMatches s false ea && !dvcEnabled s false then dacBit s store false else 0#32) |||
    (if dacMatches s true ea && !dvcEnabled s true then dacBit s store true else 0#32)

/-- The data byte in lane `j` (address modulo 4) of a unit that starts at `ea`, if the unit has one (DESIGN CHOICE,
notes/assumptions/32.md). -/
def laneByte (ea : Word) (bs : List Byte) (j : Nat) : Option Byte :=
  let k := ea.toNat % 4
  if k ≤ j then bs[j - k]? else none

/-- Byte `j` of DVCn is selected. -/
def laneSelected (s : State) (two : Bool) (j : Nat) : Bool := (dvcEnables s two).getMsbD j

/-- Byte `j` of DVCn equals the data byte of its lane (R740). -/
def laneMatches (s : State) (two : Bool) (ea : Word) (bs : List Byte) (j : Nat) : Bool :=
  laneByte ea bs j == some (field (if two then s.dbg.dvc2 else s.dbg.dvc1) (8 * j) 8)

/-- The value compare of DVCn for one unit of an access under its mode: 01 all selected bytes, 10 any, 11 both of one
half among those selected, a half without a selected byte never matching (DESIGN CHOICE, notes/assumptions/32.md); the
reserved mode 00 compares as a free value says (R740, U22). -/
def dvcValue (s : State) (two : Bool) (ea : Word) (bs : List Byte) : Bool :=
  let m := if two then field s.dbg.dbcr1 14 2 else field s.dbg.dbcr1 12 2
  let hit := laneMatches s two ea bs
  let sel := laneSelected s two
  let all (js : List Nat) : Bool := js.any sel && js.all (fun j => !sel j || hit j)
  if m = 1#2 then all [0, 1, 2, 3]
  else if m = 2#2 then [0, 1, 2, 3].any (fun j => sel j && hit j)
  else if m = 3#2 then all [0, 1] || all [2, 3]
  else bit (freeNow s) (if two then 30 else 31)

/-- The data value bits of one of the pair for an instruction's units, each with its data bytes in address order (R739):
each access inside an aligned word is compared by itself, and one that matches is enough (DESIGN CHOICE,
notes/assumptions/32.md). -/
def dvcBitsOf (s : State) (store two : Bool) (us : List (Word × List Byte)) : Word :=
  if dvcEnabled s two && us.any (fun u => dacMatches s two u.1 && dvcValue s two u.1 u.2) then dacBit s store two
  else 0#32

/-- The data value bits of an instruction's units (R739, R740). -/
def dvcBits (s : State) (store : Bool) (us : List (Word × List Byte)) : Word :=
  dvcBitsOf s store false us ||| dvcBitsOf s store true us

/-- A reserved value compare mode is in use, so a free value was taken. -/
def dvcDraw (s : State) : Nat :=
  if (dvcEnabled s false && field s.dbg.dbcr1 12 2 == 0#2) || (dvcEnabled s true && field s.dbg.dbcr1 14 2 == 0#2)
  then 1 else 0

/-! ### Loads and stores -/

/-- The accesses inside aligned words that `n` bytes from `ea` on take, each with its byte count, in address order (R141,
R143). `fuel` bounds their number. -/
def splitUnits : Nat → Word → Nat → List (Word × Nat)
  | 0, _, _ => []
  | fuel + 1, ea, n =>
    if n = 0 then []
    else
      let k := min n (4 - ea.toNat % 4)
      (ea, k) :: splitUnits fuel (ea + BitVec.ofNat 32 k) (n - k)

/-- The accesses of an operand of `n` bytes at `ea` (R141). -/
def units (ea : Word) (n : Nat) : List (Word × Nat) := splitUnits n ea n

/-- One access after translation and protection. -/
structure UnitAccess where
  ea : Word
  n  : Nat
  x  : Xlate
deriving DecidableEq, Repr

/-- The check of one access (R165). -/
def unitXlate (s : State) (store : Bool) (ea : Word) : Except DataFault Xlate :=
  if store then storeXlate s ea else loadXlate s ea

/-- The accesses of an instruction that pass their checks before the first that fails, and that failure (R144, R165). -/
def checkUnits (s : State) (store : Bool) : List (Word × Nat) → List UnitAccess × Option (Word × DataFault)
  | [] => ([], none)
  | (ea, n) :: us =>
    match unitXlate s store ea with
    | .error f => ([], some (ea, f))
    | .ok x =>
      let r := checkUnits s store us
      ({ ea := ea, n := n, x := x } :: r.1, r.2)

/-- The bytes that accesses load, in address order, each with the E attribute it was loaded under; other bus masters may
write before each access (R190). -/
def loadUnits : List UnitAccess → State → List (Byte × Bool) × State
  | [], s => ([], s)
  | u :: us, s =>
    let (bs, s1) := dataRead u.x.ra u.x.attrs u.n (busTurn s)
    let (rest, s2) := loadUnits us s1
    (bs.map (fun b => (b, u.x.attrs.e)) ++ rest, s2)

/-- Bytes in address order stored by accesses; other bus masters may write before each access (R190). -/
def storeUnits : List UnitAccess → List Byte → State → State
  | [], _, s => s
  | u :: us, bs, s => storeUnits us (bs.drop u.n) (dataWrite u.x.ra u.x.attrs (bs.take u.n) (busTurn s))

/-- The E attribute of each byte of checked accesses, in address order. -/
def unitOrders (us : List UnitAccess) : List Bool := us.flatMap (fun u => List.replicate u.n u.x.attrs.e)

/-- Bytes in address order dealt out to accesses, for the value compare. -/
def unitBytes : List UnitAccess → List Byte → List (Word × List Byte)
  | [], _ => []
  | u :: us, bs => (u.ea, bs.take u.n) :: unitBytes us (bs.drop u.n)

/-- How many of the accesses before a failing one were performed: open, a free value (R144; notes/assumptions/16.md). -/
def partialCount (s : State) (us : List UnitAccess) : Nat := (freeNow s).toNat % (us.length + 1)

/-- A load whose accesses end in a fault: some of the earlier accesses were performed, `part` writes the registers
loaded by then, and the interrupt is taken at the instruction's own address (R144, R320). -/
def faultedLoad (us : List UnitAccess) (ea : Word) (f : DataFault) (part : List (Byte × Bool) → State → State) (s : State) :
    State :=
  if us.isEmpty then dataInterrupt false ea f s
  else
    let (bs, s1) := loadUnits (us.take (partialCount s us)) (drawn 1 s)
    dataInterrupt false ea f (part bs s1)

/-- A load of `n` bytes from `ea`: checks, data address events, the accesses, then `done` with the bytes in address order
and their E attributes writes the registers. Checks and events go access by access, so the accesses before a failing one
raise theirs before its fault (R141, R144, R165, R320; notes/assumptions/16.md). -/
def loadBytes (ea : Word) (n : Nat) (part done : List (Byte × Bool) → State → State) (s : State) : State :=
  match checkUnits s false (units ea n) with
  | (us, some (fea, f)) => beforeEvent (dacBits s false (us.map (·.ea))) (faultedLoad us fea f part) s
  | (us, none) =>
    beforeEvent (dacBits s false (us.map (·.ea)))
      (fun s =>
        let (bs, s1) := loadUnits us s
        let s2 := done bs s1
        complete s (s.pc + 4#32) (dvcBits s2 false (unitBytes us (bs.map (·.1)))) (drawn (dvcDraw s2) s2)) s

/-- A store whose accesses end in a fault: some of the earlier accesses were performed and stay (R144). -/
def faultedStore (us : List UnitAccess) (bs : List Byte) (ea : Word) (f : DataFault) (s : State) : State :=
  if us.isEmpty then dataInterrupt true ea f s
  else dataInterrupt true ea f (storeUnits (us.take (partialCount s us)) bs (drawn 1 s))

/-- A store of `n` bytes at `ea`; `bytes` gives them in address order from the E attributes of the bytes' places, and
`done` writes the registers afterwards. Checks and events go access by access as in `loadBytes` (R141, R144, R165,
R320). -/
def storeBytes (ea : Word) (n : Nat) (bytes : List Bool → List Byte) (done : State → State) (s : State) : State :=
  match checkUnits s true (units ea n) with
  | (us, some (fea, f)) =>
    beforeEvent (dacBits s true (us.map (·.ea))) (faultedStore us (bytes (unitOrders us)) fea f) s
  | (us, none) =>
    let bs := bytes (unitOrders us)
    beforeEvent (dacBits s true (us.map (·.ea)))
      (fun s =>
        let s1 := done (storeUnits us bs s)
        complete s (s.pc + 4#32) (dvcBits s1 true (unitBytes us bs)) (drawn (dvcDraw s1) s1)) s

/-- A loaded scalar: its bytes put in order by the E attribute of the first (R131, D18). -/
def scalarOf (bs : List (Byte × Bool)) : Word :=
  bytesWord (orderBytes (match bs with | [] => false | b :: _ => b.2) (bs.map (·.1)))

/-- A scalar's bytes, given most significant first, in storage order for the E attribute of the first place (R131, D18). -/
def scalarBytes (msb : List Byte) (orders : List Bool) : List Byte :=
  orderBytes (match orders with | [] => false | e :: _ => e) msb

end Sys2Proof.Machine
end

