-- ==== Sys2Proof/Machine/Flags.lean ====
section
/-! DEFINITION. The flag computations: CR fields and bits (R33 to R36), CR0 by the result (R35), XER[SO, OV, CA] (R37 to
R39), carry and overflow of sums (R353), and the trap condition (R574). -/

namespace Sys2Proof.Machine

/-- CR field n, `CR[4n : 4n+3]` (R33). -/
def crField (cr : Word) (n : BitVec 3) : BitVec 4 := field cr (4 * n.toNat) 4

/-- The CR with field n replaced (R33). -/
def putCrField (cr : Word) (n : BitVec 3) (v : BitVec 4) : Word :=
  (cr &&& ~~~(0xF0000000#32 >>> (4 * n.toNat))) ||| ((v.setWidth 32 <<< 28) >>> (4 * n.toNat))

/-- `CR[CRn] <- v`. -/
def setCrField (n : BitVec 3) (v : BitVec 4) (s : State) : State := { s with cr := putCrField s.cr n v }

/-- Four bits as a CR field, LT first (R34). -/
def crBits (lt gt eq so : Bool) : BitVec 4 :=
  BitVec.ofBool lt ++ BitVec.ofBool gt ++ BitVec.ofBool eq ++ BitVec.ofBool so

/-- LT, GT, EQ of a result and a summary overflow bit (R35). -/
def resultBits (v : Word) (so : Bool) : BitVec 4 := crBits v.msb (v ≠ 0#32 && !v.msb) (v = 0#32) so

/-- `CR[CR0]` set by the result when `rc`; the XER[SO] copied is the one in force then (R35). -/
def recordCr0 (rc : Bool) (v : Word) (s : State) : State :=
  if rc then setCrField 0#3 (resultBits v (xerSO s)) s else s

/-- LT, GT, EQ left free, SO copied: the record form of a divide without a defined quotient (R351, R352, U17). The free
bits are the top three of the free word `v`. -/
def recordCr0Free (rc : Bool) (v : Word) (s : State) : State :=
  if rc then setCrField 0#3 (crBits (bit v 0) (bit v 1) (bit v 2) (xerSO s)) s else s

/-- XER[CA] written (R38). -/
def setCA (c : Bool) (s : State) : State := { s with xer := setBit s.xer 2 c }

/-- With `oe`, `XER[OV] <- ov` and `XER[SO] <- XER[SO] ∨ ov` (R37, R330). -/
def setOv (oe ov : Bool) (s : State) : State :=
  if oe then { s with xer := setBit (setBit s.xer 1 ov) 0 (xerSO s || ov) } else s

/-- The carry of `a + b + c`: the exact unsigned sum does not fit 32 bits (R353). -/
def carryOf (a b : Word) (c : Bool) : Bool := decide (2 ^ 32 ≤ a.toNat + b.toNat + c.toNat)

/-- The sum `a + b + c` cut to 32 bits (R353). -/
def sumOf (a b : Word) (c : Bool) : Word := a + b + bitWord c

/-- The overflow of `a + b + c`: both addends have one sign and the result the other (R353). -/
def overflowOf (a b : Word) (c : Bool) : Bool := a.msb == b.msb && (sumOf a b c).msb != a.msb

/-- The comparison bits of two signed words and XER[SO] (R34, R440). -/
def compareSigned (a b : Word) (so : Bool) : BitVec 4 := crBits (a.slt b) (b.slt a) (a = b) so

/-- The comparison bits of two unsigned words and XER[SO] (R34, R440). -/
def compareUnsigned (a b : Word) (so : Bool) : BitVec 4 := crBits (a.ult b) (b.ult a) (a = b) so

/-- The trap condition of `tw` and `twi`: one of the comparisons that TO selects holds, TO[0] signed less, TO[1] signed
greater, TO[2] equal, TO[3] unsigned less, TO[4] unsigned greater (R574). -/
def trapCondition (tos : BitVec 5) (a b : Word) : Bool :=
  (tos.getMsbD 0 && a.slt b) || (tos.getMsbD 1 && b.slt a) || (tos.getMsbD 2 && a = b) || (tos.getMsbD 3 && a.ult b) ||
    (tos.getMsbD 4 && b.ult a)

/-- The branch condition's count part, from the count after any decrement (R456). -/
def ctrOk (bo : BitVec 5) (ctr : Word) : Bool := bo.getMsbD 2 || ((ctr != 0#32) ^^ bo.getMsbD 3)

/-- The branch condition's CR part (R456). -/
def condOk (bo : BitVec 5) (crbit : Bool) : Bool := bo.getMsbD 0 || crbit == bo.getMsbD 1

end Sys2Proof.Machine
end

