-- ==== Sys2Proof/Machine/Operands.lean ====
section
/-! DEFINITION. The operand forms: effective addresses (R270, R271, R500), halfword operands (R370), shift amounts
(R484 to R487), the branch count (R456), and how an arithmetic result is delivered (R330). -/

namespace Sys2Proof.Machine

/-- `(RA|0) + sext_16(D)` (R270). -/
def eaD (s : State) (ra : Reg) (d : BitVec 16) : Word := gprOr0 s ra + sext16 d

/-- `(RA|0) + GPR[RB]` (R270, R500). -/
def eaX (s : State) (ra rb : Reg) : Word := gprOr0 s ra + gpr s rb

/-- `GPR[RA] + sext_16(D)`, the base of an update form; RA = 0 means GPR0 (R271). -/
def eaUpdateD (s : State) (ra : Reg) (d : BitVec 16) : Word := gpr s ra + sext16 d

/-- `GPR[RA] + GPR[RB]`, the base of an indexed update form (R271). -/
def eaUpdateX (s : State) (ra rb : Reg) : Word := gpr s ra + gpr s rb

/-- The high halfword of a register, bits 0:15 (R370). -/
def highHalf (w : Word) : BitVec 16 := field w 0 16

/-- The low halfword of a register, bits 16:31 (R370). -/
def lowHalf (w : Word) : BitVec 16 := field w 16 16

/-- An arithmetic result delivered: RT, then XER[CA] if the instruction writes it, XER[SO, OV] with OE, CR0 with Rc
(R330, R38, R39). -/
def deliver (rt : Reg) (v : Word) (ca : Option Bool) (ov oe rc : Bool) (s : State) : State :=
  let s1 := setGpr rt v s
  let s2 := match ca with
    | some c => setCA c s1
    | none => s1
  recordCr0 rc v (setOv oe ov s2)

/-- A logical, rotate or shift result delivered to RA, CR0 with Rc. -/
def deliverRa (ra : Reg) (v : Word) (rc : Bool) (s : State) : State := recordCr0 rc v (setGpr ra v s)

/-- The six-bit shift amount `GPR[RB][26:31]` (R484 to R486). -/
def shiftAmount (w : Word) : Nat := (field w 26 6).toNat

/-- `w` shifted right `n` places with copies of its sign; 32 or more places leave only signs (R486, R487). -/
def shiftRightSigned (w : Word) (n : Nat) : Word := w.sshiftRight (min n 31)

/-- The carry of an algebraic right shift: the word is negative and a 1 is shifted out (R486, R487). -/
def shiftCarry (w : Word) (n : Nat) : Bool := w.msb && decide (w.toNat % 2 ^ min n 32 ≠ 0)

/-- The count after the decrement that BO[2] = 0 asks for (R456). -/
def countAfter (bo : BitVec 5) (ctr : Word) : Word := if bo.getMsbD 2 then ctr else ctr - 1#32

/-- A bit of the CR (R460). -/
def crBit (s : State) (n : BitVec 5) : Bool := bit s.cr n.toNat

/-- One bit of the CR written (R460). -/
def setCrBit (n : BitVec 5) (b : Bool) (s : State) : State := { s with cr := setBit s.cr n.toNat b }

end Sys2Proof.Machine
end

