-- ==== Sys2Proof/Machine/Arithmetic.lean ====
section
/-! DEFINITION. Arithmetic instructions (file 41). None of them faults (R330). -/

namespace Sys2Proof.Machine

/-- An add-like instruction: RT takes `a + b + c` (R330, R353); `ca` says whether XER[CA] is written. -/
def sumTo (rt : Reg) (a b : Word) (c ca oe rc : Bool) (s : State) : State :=
  deliver rt (sumOf a b c) (if ca then some (carryOf a b c) else none) (overflowOf a b c) oe rc s

/-- The exact signed product of two words (R347, R348). -/
def signedProduct (a b : Word) : Int := a.toInt * b.toInt

/-- A divide whose quotient the spec leaves undefined: RT free, CR0's LT, GT, EQ free, OV and SO as with an overflow
(R351, R352, U17). -/
def divideUndefined (rt : Reg) (oe rc : Bool) (s : State) : State :=
  drawn 2 (recordCr0Free rc (Config.freeWord (s.free + 1)) (setOv oe true (setGpr rt (freeNow s) s)))

/-- `add` (R331): RT takes RA + RB. -/
def execAdd (rt ra rb : Reg) (oe rc : Bool) (s : State) : Host.Outcome State Fault Refusal :=
  .next (advance s (sumTo rt (gpr s ra) (gpr s rb) false false oe rc s))

/-- `addc` (R332): RT takes RA + RB, CA the carry. -/
def execAddc (rt ra rb : Reg) (oe rc : Bool) (s : State) : Host.Outcome State Fault Refusal :=
  .next (advance s (sumTo rt (gpr s ra) (gpr s rb) false true oe rc s))

/-- `adde` (R333): RT takes RA + RB + CA. -/
def execAdde (rt ra rb : Reg) (oe rc : Bool) (s : State) : Host.Outcome State Fault Refusal :=
  .next (advance s (sumTo rt (gpr s ra) (gpr s rb) (xerCA s) true oe rc s))

/-- `subf` (R340): RT takes RB - RA, as ¬RA + RB + 1. -/
def execSubf (rt ra rb : Reg) (oe rc : Bool) (s : State) : Host.Outcome State Fault Refusal :=
  .next (advance s (sumTo rt (~~~(gpr s ra)) (gpr s rb) true false oe rc s))

/-- `subfc` (R341): RT takes RB - RA, CA set when there is no borrow. -/
def execSubfc (rt ra rb : Reg) (oe rc : Bool) (s : State) : Host.Outcome State Fault Refusal :=
  .next (advance s (sumTo rt (~~~(gpr s ra)) (gpr s rb) true true oe rc s))

/-- `subfe` (R342): RT takes ¬RA + RB + CA. -/
def execSubfe (rt ra rb : Reg) (oe rc : Bool) (s : State) : Host.Outcome State Fault Refusal :=
  .next (advance s (sumTo rt (~~~(gpr s ra)) (gpr s rb) (xerCA s) true oe rc s))

/-- `addme` (R338): RT takes RA + CA - 1. -/
def execAddme (rt ra : Reg) (oe rc : Bool) (s : State) : Host.Outcome State Fault Refusal :=
  .next (advance s (sumTo rt (gpr s ra) 0xFFFFFFFF#32 (xerCA s) true oe rc s))

/-- `addze` (R339): RT takes RA + CA. -/
def execAddze (rt ra : Reg) (oe rc : Bool) (s : State) : Host.Outcome State Fault Refusal :=
  .next (advance s (sumTo rt (gpr s ra) 0#32 (xerCA s) true oe rc s))

/-- `subfme` (R344): RT takes ¬RA + CA - 1. -/
def execSubfme (rt ra : Reg) (oe rc : Bool) (s : State) : Host.Outcome State Fault Refusal :=
  .next (advance s (sumTo rt (~~~(gpr s ra)) 0xFFFFFFFF#32 (xerCA s) true oe rc s))

/-- `subfze` (R345): RT takes ¬RA + CA. -/
def execSubfze (rt ra : Reg) (oe rc : Bool) (s : State) : Host.Outcome State Fault Refusal :=
  .next (advance s (sumTo rt (~~~(gpr s ra)) 0#32 (xerCA s) true oe rc s))

/-- `neg` (R346): RT takes -RA; it overflows on 0x80000000. -/
def execNeg (rt ra : Reg) (oe rc : Bool) (s : State) : Host.Outcome State Fault Refusal :=
  .next (advance s (deliver rt (-(gpr s ra)) none (gpr s ra == 0x80000000#32) oe rc s))

/-- `mullw` (R348): RT takes the low word of the product; it overflows when the signed product does not fit. -/
def execMullw (rt ra rb : Reg) (oe rc : Bool) (s : State) : Host.Outcome State Fault Refusal :=
  let p := signedProduct (gpr s ra) (gpr s rb)
  .next (advance s (deliver rt (BitVec.ofInt 32 p) none (decide (p < -2 ^ 31) || decide (2 ^ 31 ≤ p)) oe rc s))

/-- `mulhw` (R349): RT takes the high word of the signed product. -/
def execMulhw (rt ra rb : Reg) (rc : Bool) (s : State) : Host.Outcome State Fault Refusal :=
  .next (advance s (deliver rt (BitVec.ofInt 32 (signedProduct (gpr s ra) (gpr s rb) / 2 ^ 32)) none false false rc s))

/-- `mulhwu` (R350): RT takes the high word of the unsigned product. -/
def execMulhwu (rt ra rb : Reg) (rc : Bool) (s : State) : Host.Outcome State Fault Refusal :=
  .next (advance s
    (deliver rt (BitVec.ofNat 32 ((gpr s ra).toNat * (gpr s rb).toNat / 2 ^ 32)) none false false rc s))

/-- `divw` (R351): RT takes the signed quotient truncated toward zero; with divisor 0, or 0x80000000 by -1, it is undefined. -/
def execDivw (rt ra rb : Reg) (oe rc : Bool) (s : State) : Host.Outcome State Fault Refusal :=
  if gpr s rb = 0#32 || (gpr s ra = 0x80000000#32 && gpr s rb = 0xFFFFFFFF#32) then
    .next (advance s (divideUndefined rt oe rc s))
  else .next (advance s (deliver rt ((gpr s ra).sdiv (gpr s rb)) none false oe rc s))

/-- `divwu` (R352): RT takes the unsigned quotient; with divisor 0 it is undefined. -/
def execDivwu (rt ra rb : Reg) (oe rc : Bool) (s : State) : Host.Outcome State Fault Refusal :=
  if gpr s rb = 0#32 then .next (advance s (divideUndefined rt oe rc s))
  else .next (advance s (deliver rt (gpr s ra / gpr s rb) none false oe rc s))

/-- `addi` (R334): RT takes (RA|0) + the signed immediate. -/
def execAddi (rt ra : Reg) (im : BitVec 16) (s : State) : Host.Outcome State Fault Refusal :=
  .next (advance s (setGpr rt (gprOr0 s ra + sext16 im) s))

/-- `addis` (R337): RT takes (RA|0) + the immediate in the high halfword. -/
def execAddis (rt ra : Reg) (im : BitVec 16) (s : State) : Host.Outcome State Fault Refusal :=
  .next (advance s (setGpr rt (gprOr0 s ra + (zext16 im <<< 16)) s))

/-- `addic` (R335): RT takes RA + the signed immediate, CA the carry. -/
def execAddic (rt ra : Reg) (im : BitVec 16) (s : State) : Host.Outcome State Fault Refusal :=
  .next (advance s (sumTo rt (gpr s ra) (sext16 im) false true false false s))

/-- `addic.` (R336): as `addic`, recording CR0. -/
def execAddicRc (rt ra : Reg) (im : BitVec 16) (s : State) : Host.Outcome State Fault Refusal :=
  .next (advance s (sumTo rt (gpr s ra) (sext16 im) false true false true s))

/-- `subfic` (R343): RT takes the signed immediate - RA. -/
def execSubfic (rt ra : Reg) (im : BitVec 16) (s : State) : Host.Outcome State Fault Refusal :=
  .next (advance s (sumTo rt (~~~(gpr s ra)) (sext16 im) true true false false s))

/-- `mulli` (R347): RT takes the low word of the signed product with the immediate. -/
def execMulli (rt ra : Reg) (im : BitVec 16) (s : State) : Host.Outcome State Fault Refusal :=
  .next (advance s (setGpr rt (BitVec.ofInt 32 (signedProduct (gpr s ra) (sext16 im))) s))

end Sys2Proof.Machine
end

