-- ==== Sys2Proof/Machine/Branch.lean ====
section
/-! DEFINITION. Branches and CR-logical instructions (file 45). -/

namespace Sys2Proof.Machine

/-- The branch taken event is live (R727). -/
def branchBits (s : State) : Word := if dbBT s && !debugMasked s then dbsrBT else 0#32

/-- A branch (R450): the count `ctr` written back, LR with LK whether taken or not, the pc at the target or after the
branch; the branch taken event comes before a taken branch executes (R727), and a taken branch discards the prefetch queue
(R204). -/
def branchTo (taken : Bool) (target ctr : Word) (lk : Bool) (s : State) : State :=
  beforeEvent (if taken then branchBits s else 0#32)
    (fun s =>
      let s1 := { s with ctr := ctr, lr := if lk then s.pc + 4#32 else s.lr }
      complete s (if taken then target else s.pc + 4#32) 0#32 (if taken then discardQueue s1 else s1)) s

/-- The decision of a conditional branch (R456). -/
def branchTaken (s : State) (bo bi : BitVec 5) : Bool :=
  ctrOk bo (countAfter bo s.ctr) && condOk bo (crBit s bi)

/-- `b` (R451): to the address of the branch plus the displacement, or to the displacement itself. -/
def execB (disp : BitVec 26) (aa lk : Bool) (s : State) : Host.Outcome State Fault Refusal :=
  .next (branchTo true (wordAligned ((if aa then 0#32 else s.pc) + disp.signExtend 32)) s.ctr lk s)

/-- `bc` (R452): to the address of the branch plus the displacement, or to the displacement itself, if the condition holds. -/
def execBc (bo bi : BitVec 5) (disp : BitVec 16) (aa lk : Bool) (s : State) : Host.Outcome State Fault Refusal :=
  .next (branchTo (branchTaken s bo bi) (wordAligned ((if aa then 0#32 else s.pc) + sext16 disp)) (countAfter bo s.ctr) lk s)

/-- `bcctr` with BO[2] = 0: the count and the next address are left free (R453, U25); LR is written with LK. -/
def branchCtrFree (lk : Bool) (s : State) : State :=
  let s1 := drawn 2 { s with ctr := freeNow s, lr := if lk then s.pc + 4#32 else s.lr }
  complete s (wordAligned (Config.freeWord (s.free + 1))) 0#32 s1

/-- `bcctr` (R453): to CTR[0:29] || 0b00 if the condition holds. -/
def execBcctr (bo bi : BitVec 5) (lk : Bool) (s : State) : Host.Outcome State Fault Refusal :=
  if bo.getMsbD 2 then .next (branchTo (branchTaken s bo bi) (wordAligned s.ctr) s.ctr lk s)
  else .next (branchCtrFree lk s)

/-- `bclr` (R454): to the old LR[0:29] || 0b00 if the condition holds. -/
def execBclr (bo bi : BitVec 5) (lk : Bool) (s : State) : Host.Outcome State Fault Refusal :=
  .next (branchTo (branchTaken s bo bi) (wordAligned s.lr) (countAfter bo s.ctr) lk s)

/-- `crand` (R461): CR[BT] from CR[BA] and CR[BB]. -/
def execCrand (bt ba bb : BitVec 5) (s : State) : Host.Outcome State Fault Refusal :=
  .next (advance s (setCrBit bt (crBit s ba && crBit s bb) s))

/-- `crandc` (R462): CR[BT] from CR[BA] and CR[BB]. -/
def execCrandc (bt ba bb : BitVec 5) (s : State) : Host.Outcome State Fault Refusal :=
  .next (advance s (setCrBit bt (crBit s ba && !crBit s bb) s))

/-- `creqv` (R463): CR[BT] from CR[BA] and CR[BB]. -/
def execCreqv (bt ba bb : BitVec 5) (s : State) : Host.Outcome State Fault Refusal :=
  .next (advance s (setCrBit bt (crBit s ba == crBit s bb) s))

/-- `crnand` (R464): CR[BT] from CR[BA] and CR[BB]. -/
def execCrnand (bt ba bb : BitVec 5) (s : State) : Host.Outcome State Fault Refusal :=
  .next (advance s (setCrBit bt (!(crBit s ba && crBit s bb)) s))

/-- `crnor` (R465): CR[BT] from CR[BA] and CR[BB]. -/
def execCrnor (bt ba bb : BitVec 5) (s : State) : Host.Outcome State Fault Refusal :=
  .next (advance s (setCrBit bt (!(crBit s ba || crBit s bb)) s))

/-- `cror` (R466): CR[BT] from CR[BA] and CR[BB]. -/
def execCror (bt ba bb : BitVec 5) (s : State) : Host.Outcome State Fault Refusal :=
  .next (advance s (setCrBit bt (crBit s ba || crBit s bb) s))

/-- `crorc` (R467): CR[BT] from CR[BA] and CR[BB]. -/
def execCrorc (bt ba bb : BitVec 5) (s : State) : Host.Outcome State Fault Refusal :=
  .next (advance s (setCrBit bt (crBit s ba || !crBit s bb) s))

/-- `crxor` (R468): CR[BT] from CR[BA] and CR[BB]. -/
def execCrxor (bt ba bb : BitVec 5) (s : State) : Host.Outcome State Fault Refusal :=
  .next (advance s (setCrBit bt (crBit s ba != crBit s bb) s))

/-- `mcrf` (R469): CR field BF takes CR field BFA. -/
def execMcrf (bf bfa : BitVec 3) (s : State) : Host.Outcome State Fault Refusal :=
  .next (advance s (setCrField bf (crField s.cr bfa) s))

end Sys2Proof.Machine
end

