-- ==== Sys2Proof/Machine/CacheControl.lean ====
section
/-! DEFINITION. Cache control instructions (file 47): checks in the order of R514, then the operation on the caches of Caches.lean. -/

namespace Sys2Proof.Machine

/-! ### Checks (R514, R515) -/

/-- A store-class check without the U0 test, which among cache instructions only `dcbz` has (R514): `dcbi`, `dccci`. -/
def invalidateXlate (s : State) (ea : Word) : Except DataFault Xlate :=
  match xlateData s ea with
  | none => .error .tlbMiss
  | some x => if writeOk s x then .ok x else .error (.storage true (zoneDenied s x) false)

/-- A check for a TLB match alone: `dcread`, `iccci`, `icread` (R163). -/
def matchXlate (s : State) (ea : Word) : Except DataFault Xlate :=
  match xlateIcacheOp s ea with
  | none => .error .tlbMiss
  | some x => .ok x

/-- The load-class check of `icbi`, whose cachability in real mode is the ICCR's (R170, R514). -/
def icbiXlate (s : State) (ea : Word) : Except DataFault Xlate :=
  match xlateIcacheOp s ea with
  | none => .error .tlbMiss
  | some x => if readOk s x then .ok x else .error (.storage false true false)

/-- A cache instruction after its check: the data interrupt of a failed one, or the operation (R514). -/
def afterCheck (store : Bool) (ea : Word) (r : Except DataFault Xlate) (k : Xlate → State → State) (s : State) : State :=
  match r with
  | .error f => dataInterrupt store ea f s
  | .ok x => k x s

/-- The end of a cache instruction: the data address event of its direction, if it has one, then the operation
(R514, R737); other bus masters may write before it (R190). -/
def cacheStep (events : Word) (x31 : Bool) (op : State → State) (s : State) : State :=
  beforeEvent events (fun s => advance s (undefinedCr0 x31 (op (busTurn s)))) s

/-! ### Operations -/

/-- A touch: the line filled if it is cachable and absent (R505, R506); a line that is present keeps its LRU bit (DESIGN CHOICE,
notes/assumptions/10.md). -/
def touchLine (x : Xlate) (s : State) : State :=
  if x.attrs.i || s.params.dcacheSize.classes == 0 || (dWay s x.ra).isSome then s else fillLine x.ra s

/-- `dcbt` and `dcbtst`: nothing where a load would fault (R163, R505). -/
def touchData (ea : Word) (x31 : Bool) (s : State) : State :=
  match loadXlate s ea with
  | .ok x => cacheStep (cacheDacBits s false ea) x31 (touchLine x) s
  | .error _ => advance s (undefinedCr0 x31 s)

/-- `dcba` on a cachable write-back line: open whether it does anything; if so an absent line is established with free
bytes, dirty or clean (R501, U26). -/
def allocateLine (x : Xlate) (s : State) : State :=
  if x.attrs.i || x.attrs.w || s.params.dcacheSize.classes == 0 || (dWay s x.ra).isSome then s
  else if bit (freeNow s) 31 then
    installLine x.ra (lineOfBytes (freeBytes (drawn 1 s) 32)) (bit (freeNow s) 30) (drawn 33 s)
  else drawn 1 s

/-- `dcba`: nothing where a store would fault (R163, R501). Elsewhere its data address event comes before the operation (R514),
also where the operation then does nothing, W or I being 1, without an array, or by choice (DESIGN CHOICE,
notes/assumptions/21.md). -/
def allocateData (ea : Word) (x31 : Bool) (s : State) : State :=
  match invalidateXlate s ea with
  | .ok x => cacheStep (cacheDacBits s true ea) x31 (allocateLine x) s
  | .error _ => advance s (undefinedCr0 x31 s)

/-- `dcbz` after its check: alignment interrupt where the line cannot be written back, and without a cache array (U29,
notes/assumptions/53.md), else 32 zero bytes in the cache, dirty (R507). -/
def zeroLine (ea : Word) (x31 : Bool) (x : Xlate) (s : State) : State :=
  if x.attrs.i || x.attrs.w || s.params.dcacheSize.classes == 0 then alignmentInterrupt ea s
  else
    cacheStep (cacheDacBits s true ea) x31
      (fun s => establishLine x.ra (Vector.replicate 32 0#8) (dropBuffer x.ra s)) s

/-- The tag word of a data cache line: TAG 0:19, D 26, V 27, LRU 31 (R509, D1). -/
def dataTag (d : DSet) (way : Bool) : Word :=
  (lineBase (d.get way).line &&& 0xFFFFF000#32) ||| (if (d.get way).dirty then weight 26 else 0#32) |||
    (if (d.get way).valid then weight 27 else 0#32) ||| (if d.lruB then weight 31 else 0#32)

/-- The data word of a line that an address names, as it stands in the array (R509). -/
def dataWord (l : DLine) (ra : Word) : Word := bytesWord (lineBytes l.data (wordAligned ra) 4)

/-- What `dcread` reads; with no array any value (R509, U24). -/
def readDataArray (rt : Reg) (ra : Word) (s : State) : State :=
  if s.params.dcacheSize.classes = 0 then drawn 1 (setGpr rt (freeNow s) s)
  else
    let d := dSet s (dClass s ra)
    setGpr rt (if ccrCIS s then dataTag d (ccrCWS s) else dataWord (d.get (ccrCWS s)) ra) s

/-- `dcread` after its check: word alignment, then the array (R509). -/
def readData (rt : Reg) (ea : Word) (x31 : Bool) (x : Xlate) (s : State) : State :=
  if ea.extractLsb' 0 2 ≠ 0#2 then alignmentInterrupt ea s
  else cacheStep 0#32 x31 (readDataArray rt x.ra) s

/-- `icbt`: the instruction line filled if it is cachable and absent; nothing on a TLB miss (R511). A line that is present keeps
its LRU bit (DESIGN CHOICE, notes/assumptions/10.md). -/
def touchInstr (ea : Word) (x31 : Bool) (s : State) : State :=
  match xlateIcacheOp s ea with
  | some x =>
    cacheStep (cacheDacBits s false ea) x31
      (fun s => if x.attrs.i || (iWay s x.ra).isSome then s else fillInstrLine x.ra x.attrs.e s) s
  | none => advance s (undefinedCr0 x31 s)

/-- The tag word of an instruction cache line: TAG 0:21, V 27, LRU 31 (R513). -/
def instrTag (d : ISet) (way : Bool) : Word :=
  (lineBase (d.get way).line &&& 0xFFFFFC00#32) ||| (if (d.get way).valid then weight 27 else 0#32) |||
    (if d.lruB then weight 31 else 0#32)

/-- What `icread` puts in ICDBDR; with no array any value. Until an `isync` an `mfspr` of it reads any value (R513, U24). -/
def readInstrArray (ra : Word) (s : State) : State :=
  if s.params.icacheSize.classes = 0 then drawn 1 { s with icdbdr := freeNow s, icdbdrOpen := true }
  else
    let d := iSet s (iClass s ra)
    { s with
      icdbdr := if ccrCIS s then instrTag d (ccrCWS s) else lineWord (d.get (ccrCWS s)).words ra
      icdbdrOpen := true }

/-! ### Meanings -/

/-- `dcba` (R501): establish the line without reading storage, or nothing. -/
def execDcba (ra rb : Reg) (x31 : Bool) (s : State) : Host.Outcome State Fault Refusal :=
  .next (allocateData (eaX s ra rb) x31 s)

/-- `dcbf` (R502): write the line back if dirty and invalidate it. -/
def execDcbf (ra rb : Reg) (x31 : Bool) (s : State) : Host.Outcome State Fault Refusal :=
  .next (afterCheck false (eaX s ra rb) (loadXlate s (eaX s ra rb))
    (fun x => cacheStep (cacheDacBits s true (eaX s ra rb)) x31 (fun s => dropLine x.ra (cleanLine x.ra s))) s)

/-- `dcbi` (R503): invalidate the line, discarding dirty data; it ends the line buffer of its line (R183). -/
def execDcbi (ra rb : Reg) (x31 : Bool) (s : State) : Host.Outcome State Fault Refusal :=
  .next (privileged (fun s => afterCheck true (eaX s ra rb) (invalidateXlate s (eaX s ra rb))
    (fun x => cacheStep (cacheDacBits s true (eaX s ra rb)) x31 (fun s => dropLine x.ra (dropBuffer x.ra s))) s) s)

/-- `dcbst` (R504): write the line back if dirty; it stays, clean. -/
def execDcbst (ra rb : Reg) (x31 : Bool) (s : State) : Host.Outcome State Fault Refusal :=
  .next (afterCheck false (eaX s ra rb) (loadXlate s (eaX s ra rb))
    (fun x => cacheStep (cacheDacBits s true (eaX s ra rb)) x31 (cleanLine x.ra)) s)

/-- `dcbt` (R505): fill the line if cachable and absent. -/
def execDcbt (ra rb : Reg) (x31 : Bool) (s : State) : Host.Outcome State Fault Refusal :=
  .next (touchData (eaX s ra rb) x31 s)

/-- `dcbtst` (R506): as `dcbt`. -/
def execDcbtst (ra rb : Reg) (x31 : Bool) (s : State) : Host.Outcome State Fault Refusal :=
  .next (touchData (eaX s ra rb) x31 s)

/-- `dcbz` (R507): set the 32 bytes of the line to 0 in the cache. -/
def execDcbz (ra rb : Reg) (x31 : Bool) (s : State) : Host.Outcome State Fault Refusal :=
  .next (afterCheck true (eaX s ra rb) (storeXlate s (eaX s ra rb)) (zeroLine (eaX s ra rb) x31) s)

/-- `dccci` (R508): invalidate both lines of the congruence class; it ends the line buffer of its line (R183). -/
def execDccci (ra rb : Reg) (x31 : Bool) (s : State) : Host.Outcome State Fault Refusal :=
  .next (privileged (fun s => afterCheck true (eaX s ra rb) (invalidateXlate s (eaX s ra rb))
    (fun x => cacheStep 0#32 x31 (fun s => dropClass x.ra (dropBuffer x.ra s))) s) s)

/-- `icbi` (R510): invalidate the instruction cache line. -/
def execIcbi (ra rb : Reg) (x31 : Bool) (s : State) : Host.Outcome State Fault Refusal :=
  .next (afterCheck false (eaX s ra rb) (icbiXlate s (eaX s ra rb))
    (fun x => cacheStep (cacheDacBits s false (eaX s ra rb)) x31 (dropInstrLine x.ra)) s)

/-- `icbt` (R511): fill the instruction cache line if cachable and absent. -/
def execIcbt (ra rb : Reg) (x31 : Bool) (s : State) : Host.Outcome State Fault Refusal :=
  .next (privileged (touchInstr (eaX s ra rb) x31) s)

/-- `iccci` (R512): invalidate the whole instruction cache. -/
def execIccci (ra rb : Reg) (x31 : Bool) (s : State) : Host.Outcome State Fault Refusal :=
  .next (privileged (fun s => afterCheck false (eaX s ra rb) (matchXlate s (eaX s ra rb))
    (fun _ => cacheStep 0#32 x31 dropInstrCache) s) s)

/-- `icread` (R513): ICDBDR takes an instruction word or tag of the class. -/
def execIcread (ra rb : Reg) (x31 : Bool) (s : State) : Host.Outcome State Fault Refusal :=
  .next (privileged (fun s => afterCheck false (eaX s ra rb) (matchXlate s (eaX s ra rb))
    (fun x => cacheStep 0#32 x31 (readInstrArray x.ra)) s) s)

/-- `dcread` (R509): RT takes a data word or tag of the class. -/
def execDcread (rt ra rb : Reg) (x31 : Bool) (s : State) : Host.Outcome State Fault Refusal :=
  .next (privileged (fun s => afterCheck false (eaX s ra rb) (matchXlate s (eaX s ra rb))
    (readData rt (eaX s ra rb) x31) s) s)

end Sys2Proof.Machine
end

