-- ==== Sys2Proof/Machine/Compare.lean ====
section
/-! DEFINITION. Compare instructions (file 44): each writes one CR field and nothing else (R440). -/

namespace Sys2Proof.Machine

/-- `cmp` (R441): signed RA against RB. -/
def execCmp (bf : BitVec 3) (ra rb : Reg) (x31 : Bool) (s : State) : Host.Outcome State Fault Refusal :=
  .next (advance s (undefinedCr0 x31 (setCrField bf (compareSigned (gpr s ra) (gpr s rb) (xerSO s)) s)))

/-- `cmpi` (R442): signed RA against the immediate sign extended. -/
def execCmpi (bf : BitVec 3) (ra : Reg) (im : BitVec 16) (s : State) : Host.Outcome State Fault Refusal :=
  .next (advance s (setCrField bf (compareSigned (gpr s ra) (sext16 im) (xerSO s)) s))

/-- `cmpl` (R443): unsigned RA against RB. -/
def execCmpl (bf : BitVec 3) (ra rb : Reg) (x31 : Bool) (s : State) : Host.Outcome State Fault Refusal :=
  .next (advance s (undefinedCr0 x31 (setCrField bf (compareUnsigned (gpr s ra) (gpr s rb) (xerSO s)) s)))

/-- `cmpli` (R444): unsigned RA against the immediate zero extended. -/
def execCmpli (bf : BitVec 3) (ra : Reg) (im : BitVec 16) (s : State) : Host.Outcome State Fault Refusal :=
  .next (advance s (setCrField bf (compareUnsigned (gpr s ra) (zext16 im) (xerSO s)) s))

end Sys2Proof.Machine
end

