-- ==== Sys2Proof/Machine/Logical.lean ====
section
/-! DEFINITION. Logical instructions (file 43). The target is RA (R225); none touches the XER. -/

namespace Sys2Proof.Machine

/-- `and` (R411): RS and RB. -/
def execAnd (rs ra rb : Reg) (rc : Bool) (s : State) : Host.Outcome State Fault Refusal :=
  .next (advance s (deliverRa ra (gpr s rs &&& gpr s rb) rc s))

/-- `andc` (R412): RS and not RB. -/
def execAndc (rs ra rb : Reg) (rc : Bool) (s : State) : Host.Outcome State Fault Refusal :=
  .next (advance s (deliverRa ra (gpr s rs &&& ~~~(gpr s rb)) rc s))

/-- `eqv` (R416): not (RS xor RB). -/
def execEqv (rs ra rb : Reg) (rc : Bool) (s : State) : Host.Outcome State Fault Refusal :=
  .next (advance s (deliverRa ra (~~~(gpr s rs ^^^ gpr s rb)) rc s))

/-- `nand` (R419): not (RS and RB). -/
def execNand (rs ra rb : Reg) (rc : Bool) (s : State) : Host.Outcome State Fault Refusal :=
  .next (advance s (deliverRa ra (~~~(gpr s rs &&& gpr s rb)) rc s))

/-- `nor` (R420): not (RS or RB). -/
def execNor (rs ra rb : Reg) (rc : Bool) (s : State) : Host.Outcome State Fault Refusal :=
  .next (advance s (deliverRa ra (~~~(gpr s rs ||| gpr s rb)) rc s))

/-- `or` (R421): RS or RB. -/
def execOr (rs ra rb : Reg) (rc : Bool) (s : State) : Host.Outcome State Fault Refusal :=
  .next (advance s (deliverRa ra (gpr s rs ||| gpr s rb) rc s))

/-- `orc` (R422): RS or not RB. -/
def execOrc (rs ra rb : Reg) (rc : Bool) (s : State) : Host.Outcome State Fault Refusal :=
  .next (advance s (deliverRa ra (gpr s rs ||| ~~~(gpr s rb)) rc s))

/-- `xor` (R425): RS xor RB. -/
def execXor (rs ra rb : Reg) (rc : Bool) (s : State) : Host.Outcome State Fault Refusal :=
  .next (advance s (deliverRa ra (gpr s rs ^^^ gpr s rb) rc s))

/-- The number of zero bits before the first one among the bits `n-1` down to 0 (R415). -/
def leadingZeros (w : Word) : Nat → Nat
  | 0 => 0
  | n + 1 => if w.getLsbD n then 0 else 1 + leadingZeros w n

/-- `cntlzw` (R415): the number of leading zeros of RS, 32 for zero. -/
def execCntlzw (rs ra : Reg) (rc : Bool) (s : State) : Host.Outcome State Fault Refusal :=
  .next (advance s (deliverRa ra (BitVec.ofNat 32 (leadingZeros (gpr s rs) 32)) rc s))

/-- `extsb` (R417): the low byte of RS with its sign extended. -/
def execExtsb (rs ra : Reg) (rc : Bool) (s : State) : Host.Outcome State Fault Refusal :=
  .next (advance s (deliverRa ra (((gpr s rs).extractLsb' 0 8).signExtend 32) rc s))

/-- `extsh` (R418): the low halfword of RS with its sign extended. -/
def execExtsh (rs ra : Reg) (rc : Bool) (s : State) : Host.Outcome State Fault Refusal :=
  .next (advance s (deliverRa ra (sext16 (lowHalf (gpr s rs))) rc s))

/-- `andi.` (R413): RS and the immediate zero extended, recording CR0. -/
def execAndiRc (rs ra : Reg) (im : BitVec 16) (s : State) : Host.Outcome State Fault Refusal :=
  .next (advance s (deliverRa ra (gpr s rs &&& zext16 im) true s))

/-- `andis.` (R414): RS and the immediate in the high halfword, recording CR0. -/
def execAndisRc (rs ra : Reg) (im : BitVec 16) (s : State) : Host.Outcome State Fault Refusal :=
  .next (advance s (deliverRa ra (gpr s rs &&& (zext16 im <<< 16)) true s))

/-- `ori` (R423): RS or the immediate zero extended. -/
def execOri (rs ra : Reg) (im : BitVec 16) (s : State) : Host.Outcome State Fault Refusal :=
  .next (advance s (deliverRa ra (gpr s rs ||| zext16 im) false s))

/-- `oris` (R424): RS or the immediate in the high halfword. -/
def execOris (rs ra : Reg) (im : BitVec 16) (s : State) : Host.Outcome State Fault Refusal :=
  .next (advance s (deliverRa ra (gpr s rs ||| (zext16 im <<< 16)) false s))

/-- `xori` (R426): RS xor the immediate zero extended. -/
def execXori (rs ra : Reg) (im : BitVec 16) (s : State) : Host.Outcome State Fault Refusal :=
  .next (advance s (deliverRa ra (gpr s rs ^^^ zext16 im) false s))

/-- `xoris` (R427): RS xor the immediate in the high halfword. -/
def execXoris (rs ra : Reg) (im : BitVec 16) (s : State) : Host.Outcome State Fault Refusal :=
  .next (advance s (deliverRa ra (gpr s rs ^^^ (zext16 im <<< 16)) false s))

end Sys2Proof.Machine
end

