-- ==== Sys2Proof/Machine/MulAcc.lean ====
section
/-! DEFINITION. Multiply-accumulate and halfword multiply instructions (file 42). They accumulate into RT (R370). -/

namespace Sys2Proof.Machine

/-- The exact product of two halfwords, signed or unsigned, as a word; it always fits (R370). -/
def halfProduct (signed : Bool) (a b : BitVec 16) : Word :=
  if signed then BitVec.ofInt 32 (a.toInt * b.toInt) else BitVec.ofNat 32 (a.toNat * b.toNat)

/-- The saturated value of a signed accumulate that overflows: the largest value of the accumulator's sign (R395). -/
def saturatedSigned (acc : Word) : Word := if acc.msb then 0x80000000#32 else 0x7FFFFFFF#32

/-- A signed accumulate of a product: it overflows when both addends have one sign and the sum the other (R370, R395). -/
def accumulateSigned (rt : Reg) (prod : Word) (saturate oe rc : Bool) (s : State) : State :=
  let acc := gpr s rt
  let ov := overflowOf prod acc false
  deliver rt (if saturate && ov then saturatedSigned acc else prod + acc) none ov oe rc s

/-- An unsigned accumulate of a product: it overflows when the 33-bit sum has a carry (R370, R395). -/
def accumulateUnsigned (rt : Reg) (prod : Word) (saturate oe rc : Bool) (s : State) : State :=
  let acc := gpr s rt
  let ov := carryOf prod acc false
  deliver rt (if saturate && ov then 0xFFFFFFFF#32 else prod + acc) none ov oe rc s

/-- `macchw` (R371): RT plus the low half of RA times high half of RB, signed, modulo 2^32. -/
def execMacchw (rt ra rb : Reg) (oe rc : Bool) (s : State) : Host.Outcome State Fault Refusal :=
  .next (advance s (accumulateSigned rt (halfProduct true (lowHalf (gpr s ra)) (highHalf (gpr s rb))) false oe rc s))

/-- `macchws` (R372): RT plus the low half of RA times high half of RB, signed, saturating. -/
def execMacchws (rt ra rb : Reg) (oe rc : Bool) (s : State) : Host.Outcome State Fault Refusal :=
  .next (advance s (accumulateSigned rt (halfProduct true (lowHalf (gpr s ra)) (highHalf (gpr s rb))) true oe rc s))

/-- `macchwsu` (R373): RT plus the low half of RA times high half of RB, unsigned, saturating. -/
def execMacchwsu (rt ra rb : Reg) (oe rc : Bool) (s : State) : Host.Outcome State Fault Refusal :=
  .next (advance s
    (accumulateUnsigned rt (halfProduct false (lowHalf (gpr s ra)) (highHalf (gpr s rb))) true oe rc s))

/-- `macchwu` (R374): RT plus the low half of RA times high half of RB, unsigned, modulo 2^32. -/
def execMacchwu (rt ra rb : Reg) (oe rc : Bool) (s : State) : Host.Outcome State Fault Refusal :=
  .next (advance s
    (accumulateUnsigned rt (halfProduct false (lowHalf (gpr s ra)) (highHalf (gpr s rb))) false oe rc s))

/-- `machhw` (R375): RT plus the high half of RA times high half of RB, signed, modulo 2^32. -/
def execMachhw (rt ra rb : Reg) (oe rc : Bool) (s : State) : Host.Outcome State Fault Refusal :=
  .next (advance s (accumulateSigned rt (halfProduct true (highHalf (gpr s ra)) (highHalf (gpr s rb))) false oe rc s))

/-- `machhws` (R376): RT plus the high half of RA times high half of RB, signed, saturating. -/
def execMachhws (rt ra rb : Reg) (oe rc : Bool) (s : State) : Host.Outcome State Fault Refusal :=
  .next (advance s (accumulateSigned rt (halfProduct true (highHalf (gpr s ra)) (highHalf (gpr s rb))) true oe rc s))

/-- `machhwsu` (R377): RT plus the high half of RA times high half of RB, unsigned, saturating. -/
def execMachhwsu (rt ra rb : Reg) (oe rc : Bool) (s : State) : Host.Outcome State Fault Refusal :=
  .next (advance s
    (accumulateUnsigned rt (halfProduct false (highHalf (gpr s ra)) (highHalf (gpr s rb))) true oe rc s))

/-- `machhwu` (R378): RT plus the high half of RA times high half of RB, unsigned, modulo 2^32. -/
def execMachhwu (rt ra rb : Reg) (oe rc : Bool) (s : State) : Host.Outcome State Fault Refusal :=
  .next (advance s
    (accumulateUnsigned rt (halfProduct false (highHalf (gpr s ra)) (highHalf (gpr s rb))) false oe rc s))

/-- `maclhw` (R379): RT plus the low half of RA times low half of RB, signed, modulo 2^32. -/
def execMaclhw (rt ra rb : Reg) (oe rc : Bool) (s : State) : Host.Outcome State Fault Refusal :=
  .next (advance s (accumulateSigned rt (halfProduct true (lowHalf (gpr s ra)) (lowHalf (gpr s rb))) false oe rc s))

/-- `maclhws` (R380): RT plus the low half of RA times low half of RB, signed, saturating. -/
def execMaclhws (rt ra rb : Reg) (oe rc : Bool) (s : State) : Host.Outcome State Fault Refusal :=
  .next (advance s (accumulateSigned rt (halfProduct true (lowHalf (gpr s ra)) (lowHalf (gpr s rb))) true oe rc s))

/-- `maclhwsu` (R381): RT plus the low half of RA times low half of RB, unsigned, saturating. -/
def execMaclhwsu (rt ra rb : Reg) (oe rc : Bool) (s : State) : Host.Outcome State Fault Refusal :=
  .next (advance s (accumulateUnsigned rt (halfProduct false (lowHalf (gpr s ra)) (lowHalf (gpr s rb))) true oe rc s))

/-- `maclhwu` (R382): RT plus the low half of RA times low half of RB, unsigned, modulo 2^32. -/
def execMaclhwu (rt ra rb : Reg) (oe rc : Bool) (s : State) : Host.Outcome State Fault Refusal :=
  .next (advance s
    (accumulateUnsigned rt (halfProduct false (lowHalf (gpr s ra)) (lowHalf (gpr s rb))) false oe rc s))

/-- `nmacchw` (R383): RT minus the low half of RA times high half of RB, signed, modulo 2^32. -/
def execNmacchw (rt ra rb : Reg) (oe rc : Bool) (s : State) : Host.Outcome State Fault Refusal :=
  .next (advance s
    (accumulateSigned rt (-(halfProduct true (lowHalf (gpr s ra)) (highHalf (gpr s rb)))) false oe rc s))

/-- `nmacchws` (R384): RT minus the low half of RA times high half of RB, signed, saturating. -/
def execNmacchws (rt ra rb : Reg) (oe rc : Bool) (s : State) : Host.Outcome State Fault Refusal :=
  .next (advance s
    (accumulateSigned rt (-(halfProduct true (lowHalf (gpr s ra)) (highHalf (gpr s rb)))) true oe rc s))

/-- `nmachhw` (R385): RT minus the high half of RA times high half of RB, signed, modulo 2^32. -/
def execNmachhw (rt ra rb : Reg) (oe rc : Bool) (s : State) : Host.Outcome State Fault Refusal :=
  .next (advance s
    (accumulateSigned rt (-(halfProduct true (highHalf (gpr s ra)) (highHalf (gpr s rb)))) false oe rc s))

/-- `nmachhws` (R386): RT minus the high half of RA times high half of RB, signed, saturating. -/
def execNmachhws (rt ra rb : Reg) (oe rc : Bool) (s : State) : Host.Outcome State Fault Refusal :=
  .next (advance s
    (accumulateSigned rt (-(halfProduct true (highHalf (gpr s ra)) (highHalf (gpr s rb)))) true oe rc s))

/-- `nmaclhw` (R387): RT minus the low half of RA times low half of RB, signed, modulo 2^32. -/
def execNmaclhw (rt ra rb : Reg) (oe rc : Bool) (s : State) : Host.Outcome State Fault Refusal :=
  .next (advance s
    (accumulateSigned rt (-(halfProduct true (lowHalf (gpr s ra)) (lowHalf (gpr s rb)))) false oe rc s))

/-- `nmaclhws` (R388): RT minus the low half of RA times low half of RB, signed, saturating. -/
def execNmaclhws (rt ra rb : Reg) (oe rc : Bool) (s : State) : Host.Outcome State Fault Refusal :=
  .next (advance s (accumulateSigned rt (-(halfProduct true (lowHalf (gpr s ra)) (lowHalf (gpr s rb)))) true oe rc s))

/-- `mulchw` (R389): RT takes the low half of RA times high half of RB, signed. -/
def execMulchw (rt ra rb : Reg) (rc : Bool) (s : State) : Host.Outcome State Fault Refusal :=
  .next (advance s (deliver rt (halfProduct true (lowHalf (gpr s ra)) (highHalf (gpr s rb))) none false false rc s))

/-- `mulchwu` (R390): RT takes the low half of RA times high half of RB, unsigned. -/
def execMulchwu (rt ra rb : Reg) (rc : Bool) (s : State) : Host.Outcome State Fault Refusal :=
  .next (advance s (deliver rt (halfProduct false (lowHalf (gpr s ra)) (highHalf (gpr s rb))) none false false rc s))

/-- `mulhhw` (R391): RT takes the high half of RA times high half of RB, signed. -/
def execMulhhw (rt ra rb : Reg) (rc : Bool) (s : State) : Host.Outcome State Fault Refusal :=
  .next (advance s (deliver rt (halfProduct true (highHalf (gpr s ra)) (highHalf (gpr s rb))) none false false rc s))

/-- `mulhhwu` (R392): RT takes the high half of RA times high half of RB, unsigned. -/
def execMulhhwu (rt ra rb : Reg) (rc : Bool) (s : State) : Host.Outcome State Fault Refusal :=
  .next (advance s (deliver rt (halfProduct false (highHalf (gpr s ra)) (highHalf (gpr s rb))) none false false rc s))

/-- `mullhw` (R393): RT takes the low half of RA times low half of RB, signed. -/
def execMullhw (rt ra rb : Reg) (rc : Bool) (s : State) : Host.Outcome State Fault Refusal :=
  .next (advance s (deliver rt (halfProduct true (lowHalf (gpr s ra)) (lowHalf (gpr s rb))) none false false rc s))

/-- `mullhwu` (R394): RT takes the low half of RA times low half of RB, unsigned. -/
def execMullhwu (rt ra rb : Reg) (rc : Bool) (s : State) : Host.Outcome State Fault Refusal :=
  .next (advance s (deliver rt (halfProduct false (lowHalf (gpr s ra)) (lowHalf (gpr s rb))) none false false rc s))

end Sys2Proof.Machine
end

