-- ==== Sys2Proof/Machine/Reset.lean ====
section
/-! DEFINITION. The reset transition of a running machine (R760, R761): what the spec names takes its value, everything it
leaves undefined takes a free value drawn at the reset (R113, R114, U6; notes/assumptions/9.md). The state right after
power-on is `State.reset`. -/

namespace Sys2Proof.Machine

/-- The registers of a list of free words. -/
def vectorOf (n : Nat) (f : Nat → Word) : Vector Word n := ⟨((List.range n).map f).toArray, by simp⟩

/-- An undefined TLB entry (R114). -/
def freeTlbEntry (r : Nat → Word) (k : Nat) : TlbEntry :=
  tlbSetLo (tlbSetHi TlbEntry.invalid (r k) (r (k + 1))) (r (k + 2))

/-- The line number of class `c` that a free word names, in an array of `n` classes. -/
def freeLineNumber (n c : Nat) (w : Word) : BitVec 27 := BitVec.ofNat 27 (w.toNat / (n + 1) * n + c)

/-- An undefined data cache line of class `c` (R114). -/
def freeDLine (n c : Nat) (r : Nat → Word) (k : Nat) : DLine :=
  { valid := bit (r k) 31, dirty := bit (r k) 30, line := freeLineNumber n c (r (k + 1)),
    data := lineOfBytes ((List.range 32).map (fun j => (r (k + 2 + j)).setWidth 8)), undef := true }

/-- An undefined data cache class (R114); its ways do not hold one line twice (notes/assumptions/9.md). -/
def freeDSet (n : Nat) (r : Nat → Word) (c : Nat) : DSet :=
  let a := freeDLine n c r (1000 + 100 * c)
  let b := freeDLine n c r (1040 + 100 * c)
  { a := a, b := { b with valid := b.valid && !(a.valid && a.line == b.line) }, lruB := bit (r (1080 + 100 * c)) 31 }

/-- An undefined instruction cache line of class `c` (R114). -/
def freeILine (n c : Nat) (r : Nat → Word) (k : Nat) : ILine :=
  { valid := bit (r k) 31, line := freeLineNumber n c (r (k + 1)), words := vectorOf 8 (fun j => r (k + 2 + j)),
    undef := true }

/-- An undefined instruction cache class (R114); its ways do not hold one line twice (notes/assumptions/9.md). -/
def freeISet (n : Nat) (r : Nat → Word) (c : Nat) : ISet :=
  let a := freeILine n c r (100000 + 100 * c)
  let b := freeILine n c r (100040 + 100 * c)
  { a := a, b := { b with valid := b.valid && !(a.valid && a.line == b.line) }, lruB := bit (r (100080 + 100 * c)) 31 }

/-- The registers that reset leaves undefined, and MSR, pc and CR: everything but the sub-structures. -/
def resetRegisters (r : Nat → Word) (s : State) : State :=
  { s with
    gpr := vectorOf 32 r
    pc := 0xFFFFFFFC#32
    msr := 0#32
    cr := r 32
    xer := r 33 &&& 0xE000007F#32
    lr := r 34
    ctr := r 35
    usprg0 := r 36
    sprg := vectorOf 8 (fun j => r (40 + j))
    icdbdr := r 37
    icdbdrOpen := false
    reserve := bit (r 38) 31 }

/-- The interrupt registers after a reset: ESR is 0, the others undefined (R112, R113), their reserved bits 0 (D1). -/
def resetExc (r : Nat → Word) : ExcRegs :=
  { srr0 := r 50 &&& 0xFFFFFFFC#32, srr1 := r 51, srr2 := r 52 &&& 0xFFFFFFFC#32, srr3 := r 53, evpr := r 54 &&& 0xFFFF0000#32,
    esr := 0#32, dear := r 55 }

/-- The timer registers after a reset: TCR[WRC, ARE] are 0, TSR[WRS] is `wrs`, the rest undefined (R112, D14). -/
def resetTimers (r : Nat → Word) (wrs : Word) : TimerRegs :=
  { tbu := r 60, tbl := r 61, pit := r 62, pitReload := r 63, tsr := (r 64 &&& 0xCC000000#32) ||| wrs,
    tcr := r 65 &&& 0xCF800000#32 }

/-- The attribute registers and CCR0 after a reset (R112). -/
def resetAttr : AttrRegs :=
  { dccr := 0, dcwr := 0, iccr := 0, sgr := 0xFFFFFFFF#32, sler := 0, su0r := 0, ccr0 := 0x00700000#32 }

/-- The debug registers after a reset: EDM and RST are 0, DBCR1 is 0, MRR tells the kind, the rest undefined; the core
runs (R112, R761). -/
def resetDebug (r : Nat → Word) (kind : ResetKind) : DebugRegs :=
  { dbcr0 := r 70 &&& 0x4FFFC001#32, dbcr1 := 0, dbsr := (r 71 &&& 0xFFFC0000#32) ||| (kind.code <<< 8), iac1 := r 72,
    iac2 := r 73, iac3 := r 74, iac4 := r 75, dac1 := r 76, dac2 := r 77, dvc1 := r 78, dvc2 := r 79, run := .running }

/-- Storage after a reset: the cache arrays undefined, the line buffer empty (R114, R761); its bytes as they were whatever the
kind of reset, writes under way performed: what the platform does to them is its own (R115; DESIGN CHOICE,
notes/assumptions/51.md). -/
def resetStorage (r : Nat → Word) (s : State) : Storage :=
  { mem := s.sto.mem
    dcache :=
      let n := s.params.dcacheSize.classes
      (List.range n).foldl (fun m c => mapSet DSet.empty m c (freeDSet n r c)) []
    icache :=
      let n := s.params.icacheSize.classes
      (List.range n).foldl (fun m c => mapSet ISet.empty m c (freeISet n r c)) []
    buffer := none
    late := [] }

/-- A reset of some kind; `wrs` is what TSR[WRS] becomes: TCR[WRC] for the watchdog, else the old TSR[WRS] (R112, R761,
D14). The input levels and the parameters are outside the core and stay, and so do the devices of the DCR space (DESIGN
CHOICE, notes/assumptions/51.md); a bus error not yet taken is the core's and is dropped (R761). -/
def coreReset (kind : ResetKind) (wrs : Word) (s : State) : State :=
  let r := Config.resetWord s.free
  { resetRegisters r s with
    exc := resetExc r
    tmr := resetTimers r wrs
    mmu :=
      { pid := r 80 &&& 0x000000FF#32, zpr := r 81
        tlb := ⟨((List.range 64).map (fun j => freeTlbEntry r (500 + 3 * j))).toArray, by simp⟩ }
    attr := resetAttr
    dbg := resetDebug r kind
    sto := resetStorage r s
    pipe := Pipe.empty
    inp := { s.inp with dataMachineCheck := false }
    free := s.free + 1 }

/-- TSR[WRS] as it stands (R112: unchanged by a reset that the watchdog did not cause). -/
def keptWrs (s : State) : Word := s.tmr.tsr &&& 0x30000000#32

end Sys2Proof.Machine
end

