-- ==== Sys2Proof/Machine/Timers.lean ====
section
/-! DEFINITION. The time base, the PIT, the FIT and the watchdog (R700 to R712). The flag beside a state says that a reset
took place. -/

namespace Sys2Proof.Machine

/-- `TSR <- TSR ∨ bits` (R709). -/
def setTsrBits (bits : Word) (s : State) : State := { s with tmr := { s.tmr with tsr := s.tmr.tsr ||| bits } }

/-- Bit `i` goes from 0 to 1 (R702). -/
def bitRises (i : Nat) (old new : Word) : Bool := !bit old i && bit new i

/-- The TBL bit whose rises are FIT time-outs, by TCR[FP] (R705). -/
def fitBit (tcr : Word) : Nat := 23 - 4 * (field tcr 6 2).toNat

/-- The TBL bit whose rises are watchdog time-outs, by TCR[WP] (R706). -/
def watchdogBit (tcr : Word) : Nat := 15 - 4 * (field tcr 0 2).toNat

/-- A FIT time-out if the selected bit rises (R705). -/
def fitStep (old new : Word) (s : State) : State := if bitRises (fitBit s.tmr.tcr) old new then setTsrBits tsrFIS s else s

/-- A watchdog time-out: ENW, then WIS, then the reset TCR[WRC] asks for (R707, R708). -/
def watchdogTimeout (s : State) : State × Bool :=
  if !bit s.tmr.tsr 0 then (setTsrBits tsrENW s, false)
  else if !bit s.tmr.tsr 1 then (setTsrBits tsrWIS s, false)
  else match resetKindOf (field s.tmr.tcr 2 2) with
    | some kind => (coreReset kind (s.tmr.tcr &&& 0x30000000#32) s, true)
    | none => (s, false)

/-- What a change of TBL does to the FIT and the watchdog, by counting or by software (R702). -/
def tblChanged (old new : Word) (s : State) : State × Bool :=
  let s1 := fitStep old new s
  if bitRises (watchdogBit s1.tmr.tcr) old new then watchdogTimeout s1 else (s1, false)

/-- One PIT step (R704). -/
def pitStep (s : State) : State :=
  if s.tmr.pit = 0#32 then s
  else if s.tmr.pit = 1#32 then
    setTsrBits tsrPIS
      { s with tmr := { s.tmr with pit := if bit s.tmr.tcr 9 then s.tmr.pitReload else 0#32 } }
  else { s with tmr := { s.tmr with pit := s.tmr.pit - 1#32 } }

/-- The timers are frozen: DBCR0[FT] = 1 while a debug event bit is set (R711); DBSR[IDE] alone and DBSR[MRR] do not freeze
them (DESIGN CHOICE for IDE, notes/assumptions/36.md). -/
def timersFrozen (s : State) : Bool := dbFT s && (s.dbg.dbsr &&& dbsrEvents) != 0#32

/-- One timer clock: the time base counts, carrying from TBL to TBU, then the PIT, the FIT and the watchdog (R700 to
R707). -/
def timerClock (s : State) : State × Bool :=
  if timersFrozen s then (s, false)
  else
    let new := s.tmr.tbl + 1#32
    let s1 := pitStep
      { s with tmr := { s.tmr with tbl := new, tbu := if new = 0#32 then s.tmr.tbu + 1#32 else s.tmr.tbu } }
    tblChanged s.tmr.tbl new s1

/-- A number of timer clocks (R712). -/
def timerClocks : Nat → State → State × Bool
  | 0, s => (s, false)
  | n + 1, s =>
    let (s1, r1) := timerClock s
    let (s2, r2) := timerClocks n s1
    (s2, r1 || r2)

end Sys2Proof.Machine
end

