-- ==== Sys2Proof/Machine/SystemTlb.lean ====
section
/-! DEFINITION. Interrupt control and TLB instructions (file 48). All are privileged (R529). -/

namespace Sys2Proof.Machine

/-- A privileged instruction that changes state and goes on, with the bit 31 rule (R529). -/
def privilegedStep (x31 : Bool) (op : State → State) (s : State) : State :=
  privileged (fun s => advance s (undefinedCr0 x31 (op s))) s

/-- A TLB instruction: illegal when the MMU is tied off, in either mode, else privileged (R189, R529, D6). -/
def tlbStep (x31 : Bool) (op : State → State) (s : State) : State :=
  if s.params.mmuEnabled then privilegedStep x31 op s else programInterrupt esrPIL s

/-- A return from interrupt: pc and MSR from a saved pair, then it completes (R532, R533, R670). -/
def returnStep (a m : Word) (x31 : Bool) (s : State) : State :=
  let t := returnFrom a m s
  complete s t.pc 0#32 (undefinedCr0 x31 t)

/-- MSR[EE] alone written (R534). -/
def setEE (b : Bool) (s : State) : State := { s with msr := setBit s.msr 16 b }

/-- The TLB entry index of a register, its low six bits (R541). -/
def tlbIndex (w : Word) : BitVec 6 := field w 26 6

/-- A TLB entry by index. -/
def tlbEntry (s : State) (n : BitVec 6) : TlbEntry := s.mmu.tlb[n.toNat]'n.isLt

/-- The TLB with one entry replaced. -/
def setTlbEntry (n : BitVec 6) (t : TlbEntry) (s : State) : State :=
  { s with mmu := { s.mmu with tlb := s.mmu.tlb.set n.toNat t n.isLt } }

/-- `tlbia`: V cleared in every entry, nothing else (R540); later fetches may still use the old ones (R186). -/
def invalidateTlb (s : State) : State :=
  rememberContext s { s with mmu := { s.mmu with tlb := s.mmu.tlb.map (fun t => { t with v := false }) } }

/-- `tlbre`: the tag word, the PID taking the TID, which later fetches need not see yet (R186), or the data word (R541). -/
def readTlb (rt : Reg) (n : BitVec 6) (ws : Bool) (s : State) : State :=
  let t := tlbEntry s n
  if ws then setGpr rt (tlbLo t) s
  else rememberContext s { setGpr rt (tlbHi t) s with mmu := { s.mmu with pid := t.tid.setWidth 32 } }

/-- `tlbwe`: the tag part with the TID from the PID, or the data part (R544); later fetches may still use the old entry
(R186). -/
def writeTlb (n : BitVec 6) (w : Word) (ws : Bool) (s : State) : State :=
  rememberContext s (setTlbEntry n (if ws then tlbSetLo (tlbEntry s n) w else tlbSetHi (tlbEntry s n) w s.mmu.pid) s)

/-- `tlbsx`: the index of the matching entry, or a free value; CR0[EQ] tells which with Rc (R542, U19). -/
def searchTlb (rt : Reg) (ea : Word) (rc : Bool) (s : State) : State :=
  match tlbLookup s ea with
  | some (n, _) =>
    let s1 := setGpr rt (BitVec.ofNat 32 n) s
    if rc then setCrField 0#3 (crBits false false true (xerSO s)) s1 else s1
  | none =>
    let s1 := drawn 1 (setGpr rt (freeNow s) s)
    if rc then setCrField 0#3 (crBits false false false (xerSO s)) s1 else s1

/-- `mfmsr` (R530): RT takes the MSR. -/
def execMfmsr (rt : Reg) (x31 : Bool) (s : State) : Host.Outcome State Fault Refusal :=
  .next (privilegedStep x31 (fun s => setGpr rt s.msr s) s)

/-- `mtmsr` (R531): the MSR takes RS, all 32 bits; later fetches may still be made under the old one (R186). -/
def execMtmsr (rs : Reg) (x31 : Bool) (s : State) : Host.Outcome State Fault Refusal :=
  .next (privilegedStep x31 (fun s => rememberContext s (setMsr (gpr s rs) s)) s)

/-- `rfi` (R532): pc and MSR from SRR0 and SRR1. -/
def execRfi (x31 : Bool) (s : State) : Host.Outcome State Fault Refusal :=
  .next (privileged (fun s => returnStep s.exc.srr0 s.exc.srr1 x31 s) s)

/-- `rfci` (R533): pc and MSR from SRR2 and SRR3. -/
def execRfci (x31 : Bool) (s : State) : Host.Outcome State Fault Refusal :=
  .next (privileged (fun s => returnStep s.exc.srr2 s.exc.srr3 x31 s) s)

/-- `wrtee` (R534): MSR[EE] takes bit 16 of RS. -/
def execWrtee (rs : Reg) (x31 : Bool) (s : State) : Host.Outcome State Fault Refusal :=
  .next (privilegedStep x31 (fun s => setEE (bit (gpr s rs) 16) s) s)

/-- `wrteei` (R535): MSR[EE] takes E. -/
def execWrteei (e x31 : Bool) (s : State) : Host.Outcome State Fault Refusal :=
  .next (privilegedStep x31 (setEE e) s)

/-- `tlbia` (R540): every entry invalid. -/
def execTlbia (x31 : Bool) (s : State) : Host.Outcome State Fault Refusal :=
  .next (tlbStep x31 invalidateTlb s)

/-- `tlbre` (R541): read the entry that RA names; RA = 0 is GPR0. -/
def execTlbre (rt ra : Reg) (ws x31 : Bool) (s : State) : Host.Outcome State Fault Refusal :=
  .next (tlbStep x31 (fun s => readTlb rt (tlbIndex (gpr s ra)) ws s) s)

/-- `tlbsx` (R542): search for the entry that translates (RA|0) + RB. -/
def execTlbsx (rt ra rb : Reg) (rc : Bool) (s : State) : Host.Outcome State Fault Refusal :=
  .next (tlbStep false (fun s => searchTlb rt (eaX s ra rb) rc s) s)

/-- `tlbsync` (R543): no operation. -/
def execTlbsync (x31 : Bool) (s : State) : Host.Outcome State Fault Refusal :=
  .next (tlbStep x31 (fun s => s) s)

/-- `tlbwe` (R544): write the entry that RA names; RA = 0 is GPR0. -/
def execTlbwe (rs ra : Reg) (ws x31 : Bool) (s : State) : Host.Outcome State Fault Refusal :=
  .next (tlbStep x31 (fun s => writeTlb (tlbIndex (gpr s ra)) (gpr s rs) ws s) s)

end Sys2Proof.Machine
end

