-- ==== Sys2Proof/Machine/Processor.lean ====
section
/-! DEFINITION. Processor management instructions (file 49): barriers, CR and XER moves, DCRs, SPRs, the time base, system
call and traps. -/

namespace Sys2Proof.Machine

/-! ### SPRs (R575) -/

/-- The registers an SPR number names (R46). `none` is a reserved number. -/
inductive Spr where
  | xer | lr | ctr | srr0 | srr1 | srr2 | srr3 | usprg0
  /-- SPRG0 to SPRG7 through 0x110 to 0x117. -/
  | sprg (n : Fin 8)
  /-- SPRG4 to SPRG7 through the read numbers 0x104 to 0x107. -/
  | sprgRead (n : Fin 8)
  | tblWrite | tbuWrite | pvr | zpr | pid | ccr0 | iac1 | iac2 | iac3 | iac4 | dvc1 | dvc2 | dac1 | dac2
  | sgr | dcwr | sler | su0r | dccr | iccr | dbcr0 | dbcr1 | dbsr | icdbdr | esr | dear | evpr | tsr | tcr | pit
deriving DecidableEq, Repr

/-- The register of an SPR number (R46). -/
def sprOf (n : BitVec 10) : Option Spr :=
  match n.toNat with
  | 0x001 => some .xer
  | 0x008 => some .lr
  | 0x009 => some .ctr
  | 0x01A => some .srr0
  | 0x01B => some .srr1
  | 0x100 => some .usprg0
  | 0x104 => some (.sprgRead 4)
  | 0x105 => some (.sprgRead 5)
  | 0x106 => some (.sprgRead 6)
  | 0x107 => some (.sprgRead 7)
  | 0x110 => some (.sprg 0)
  | 0x111 => some (.sprg 1)
  | 0x112 => some (.sprg 2)
  | 0x113 => some (.sprg 3)
  | 0x114 => some (.sprg 4)
  | 0x115 => some (.sprg 5)
  | 0x116 => some (.sprg 6)
  | 0x117 => some (.sprg 7)
  | 0x11C => some .tblWrite
  | 0x11D => some .tbuWrite
  | 0x11F => some .pvr
  | 0x3B0 => some .zpr
  | 0x3B1 => some .pid
  | 0x3B3 => some .ccr0
  | 0x3B4 => some .iac3
  | 0x3B5 => some .iac4
  | 0x3B6 => some .dvc1
  | 0x3B7 => some .dvc2
  | 0x3B9 => some .sgr
  | 0x3BA => some .dcwr
  | 0x3BB => some .sler
  | 0x3BC => some .su0r
  | 0x3BD => some .dbcr1
  | 0x3D3 => some .icdbdr
  | 0x3D4 => some .esr
  | 0x3D5 => some .dear
  | 0x3D6 => some .evpr
  | 0x3D8 => some .tsr
  | 0x3DA => some .tcr
  | 0x3DB => some .pit
  | 0x3DE => some .srr2
  | 0x3DF => some .srr3
  | 0x3F0 => some .dbsr
  | 0x3F2 => some .dbcr0
  | 0x3F4 => some .iac1
  | 0x3F5 => some .iac2
  | 0x3F6 => some .dac1
  | 0x3F7 => some .dac2
  | 0x3FA => some .dccr
  | 0x3FB => some .iccr
  | _ => none

/-- SPR numbers a user-mode `mfspr` may name (R47, R568). -/
def userReadable (n : BitVec 10) : Bool :=
  [1#10, 8#10, 9#10, 0x100#10, 0x104#10, 0x105#10, 0x106#10, 0x107#10].contains n

/-- SPR numbers a user-mode `mtspr` may name (R47, R569). -/
def userWritable (n : BitVec 10) : Bool := [1#10, 8#10, 9#10, 0x100#10].contains n

/-- `read_spr`: what a register reads as, reserved bits 0; none for the write-only time base numbers (R575, D1). -/
def readSpr (s : State) (r : Spr) : Option Word :=
  match r with
  | .xer => some (s.xer &&& 0xE000007F#32)
  | .lr => some s.lr
  | .ctr => some s.ctr
  | .srr0 => some (s.exc.srr0 &&& 0xFFFFFFFC#32)
  | .srr1 => some s.exc.srr1
  | .srr2 => some (s.exc.srr2 &&& 0xFFFFFFFC#32)
  | .srr3 => some s.exc.srr3
  | .usprg0 => some s.usprg0
  | .sprg n => some s.sprg[n]
  | .sprgRead n => some s.sprg[n]
  | .tblWrite => none
  | .tbuWrite => none
  | .pvr => some s.params.pvr
  | .zpr => some s.mmu.zpr
  | .pid => some (s.mmu.pid &&& 0x000000FF#32)
  | .ccr0 => some (s.attr.ccr0 &&& 0x03F30F11#32)
  | .iac1 => some s.dbg.iac1
  | .iac2 => some s.dbg.iac2
  | .iac3 => some s.dbg.iac3
  | .iac4 => some s.dbg.iac4
  | .dvc1 => some s.dbg.dvc1
  | .dvc2 => some s.dbg.dvc2
  | .dac1 => some s.dbg.dac1
  | .dac2 => some s.dbg.dac2
  | .sgr => some s.attr.sgr
  | .dcwr => some s.attr.dcwr
  | .sler => some s.attr.sler
  | .su0r => some s.attr.su0r
  | .dccr => some s.attr.dccr
  | .iccr => some s.attr.iccr
  | .dbcr0 => some (s.dbg.dbcr0 &&& 0xFFFFC001#32)
  | .dbcr1 => some (s.dbg.dbcr1 &&& 0xFFCFFF00#32)
  | .dbsr => some (s.dbg.dbsr &&& 0xFFFC0300#32)
  | .icdbdr => some s.icdbdr
  | .esr => some (s.exc.esr &&& 0x8FCC8000#32)
  | .dear => some s.exc.dear
  | .evpr => some (s.exc.evpr &&& 0xFFFF0000#32)
  | .tsr => some (s.tmr.tsr &&& 0xFC000000#32)
  | .tcr => some (s.tmr.tcr &&& 0xFFC00000#32)
  | .pit => some s.tmr.pit

/-- `mtspr DBCR0`: every field written, a non-zero RST resets at once (R717, R744, D13). -/
def writeDbcr0 (v : Word) (s : State) : State × Bool :=
  match resetKindOf (field v 2 2) with
  | some kind => (coreReset kind (keptWrs s) s, true)
  | none => ({ s with dbg := { s.dbg with dbcr0 := v &&& 0xFFFFC001#32 } }, false)

/-- `write_spr`: the register's own rule, reserved bits ignored; read-only numbers change nothing. The flag says that a
reset took place (R575, D1, D3). -/
def writeSpr (r : Spr) (v : Word) (s : State) : State × Bool :=
  match r with
  | .xer => ({ s with xer := v &&& 0xE000007F#32 }, false)
  | .lr => ({ s with lr := v }, false)
  | .ctr => ({ s with ctr := v }, false)
  | .srr0 => ({ s with exc := { s.exc with srr0 := v &&& 0xFFFFFFFC#32 } }, false)
  | .srr1 => ({ s with exc := { s.exc with srr1 := v } }, false)
  | .srr2 => ({ s with exc := { s.exc with srr2 := v &&& 0xFFFFFFFC#32 } }, false)
  | .srr3 => ({ s with exc := { s.exc with srr3 := v } }, false)
  | .usprg0 => ({ s with usprg0 := v }, false)
  | .sprg n => ({ s with sprg := s.sprg.set n.val v n.isLt }, false)
  | .sprgRead _ => (s, false)
  | .tblWrite => tblChanged s.tmr.tbl v { s with tmr := { s.tmr with tbl := v } }
  | .tbuWrite => ({ s with tmr := { s.tmr with tbu := v } }, false)
  | .pvr => (s, false)
  | .zpr => ({ s with mmu := { s.mmu with zpr := v } }, false)
  | .pid => ({ s with mmu := { s.mmu with pid := v &&& 0x000000FF#32 } }, false)
  | .ccr0 => ({ s with attr := { s.attr with ccr0 := v &&& 0x03F30F11#32 } }, false)
  | .iac1 => ({ s with dbg := { s.dbg with iac1 := v } }, false)
  | .iac2 => ({ s with dbg := { s.dbg with iac2 := v } }, false)
  | .iac3 => ({ s with dbg := { s.dbg with iac3 := v } }, false)
  | .iac4 => ({ s with dbg := { s.dbg with iac4 := v } }, false)
  | .dvc1 => ({ s with dbg := { s.dbg with dvc1 := v } }, false)
  | .dvc2 => ({ s with dbg := { s.dbg with dvc2 := v } }, false)
  | .dac1 => ({ s with dbg := { s.dbg with dac1 := v } }, false)
  | .dac2 => ({ s with dbg := { s.dbg with dac2 := v } }, false)
  | .sgr => ({ s with attr := { s.attr with sgr := v } }, false)
  | .dcwr => ({ s with attr := { s.attr with dcwr := v } }, false)
  | .sler => ({ s with attr := { s.attr with sler := v } }, false)
  | .su0r => ({ s with attr := { s.attr with su0r := v } }, false)
  | .dccr => ({ s with attr := { s.attr with dccr := v } }, false)
  | .iccr => ({ s with attr := { s.attr with iccr := v } }, false)
  | .dbcr0 => writeDbcr0 v s
  | .dbcr1 => ({ s with dbg := { s.dbg with dbcr1 := v &&& 0xFFCFFF00#32 } }, false)
  | .dbsr => ({ s with dbg := { s.dbg with dbsr := s.dbg.dbsr &&& ~~~v } }, false)
  | .icdbdr => (s, false)
  | .esr => ({ s with exc := { s.exc with esr := v &&& 0x8FCC8000#32 } }, false)
  | .dear => ({ s with exc := { s.exc with dear := v } }, false)
  | .evpr => ({ s with exc := { s.exc with evpr := v &&& 0xFFFF0000#32 } }, false)
  | .tsr => ({ s with tmr := { s.tmr with tsr := s.tmr.tsr &&& ~~~v } }, false)
  | .tcr =>
    ({ s with tmr := { s.tmr with tcr := (v &&& 0xFFC00000#32) ||| (s.tmr.tcr &&& 0x30000000#32) } }, false)
  | .pit => ({ s with tmr := { s.tmr with pit := v, pitReload := v } }, false)

/-- RT takes a free value (U23, U27). -/
def freeGpr (rt : Reg) (s : State) : State := drawn 1 (setGpr rt (freeNow s) s)

/-- What an `mfspr` finds: nothing in ICDBDR between an `icread` and the next `isync` (R513, R781, U24). -/
def settledSpr (s : State) (r : Spr) : Option Word := if r = .icdbdr ∧ s.icdbdrOpen then none else readSpr s r

/-- `mfspr` past its privilege check; a reserved or write-only number, or a register that is not settled, gives a free value
(R568, R575, U23, U24). -/
def moveFromSpr (rt : Reg) (n : BitVec 10) (s : State) : State :=
  match (sprOf n).bind (settledSpr s) with
  | some v => setGpr rt v s
  | none => freeGpr rt s

/-- A register of the fetch state: later fetches may still be made under its old value (R186, R195, R780, D17, D24). -/
def Spr.fetchSide (r : Spr) : Bool :=
  [.zpr, .pid, .ccr0, .iac1, .iac2, .iac3, .iac4, .sgr, .sler, .su0r, .iccr, .dbcr0].contains r

/-- `mtspr` past its privilege check: the write, then the next instruction unless it reset the core (R569, R575, D13). -/
def moveToSpr (n : BitVec 10) (v : Word) (s : State) : State :=
  match sprOf n with
  | some r =>
    let w := writeSpr r v s
    if w.2 then w.1 else advance s (if r.fetchSide then rememberContext s w.1 else w.1)
  | none => advance s s

/-! ### DCRs (R566, R567) -/

/-- The device that a number of the DCR space names, if the platform maps it (R14). -/
def dcrFind (n : Nat) : DcrSpace → Option DcrDevice
  | [] => none
  | (k, d) :: m => if k = n then some d else dcrFind n m

/-- The DCR space with the device at a mapped number replaced. -/
def dcrPut (n : Nat) (d : DcrDevice) : DcrSpace → DcrSpace
  | [] => []
  | (k, e) :: m => if k = n then (k, d) :: m else (k, e) :: dcrPut n d m

/-- `DCR_SPACE.read(DCRN)`: the word a device answers with, and the space after it (R14, R566). -/
def dcrAnswer (d : DcrDevice) (n : Nat) (space : DcrSpace) : Word × DcrSpace :=
  match d with
  | .word w => (w, space)
  | .readOnly w => (w, space)
  | .clearOnes w => (w, space)
  | .device id _ => (Config.dcrRead id n space, Config.dcrAfterRead id n space)

/-- `DCR_SPACE.write(DCRN, v)`: the space after it (R14, R567). -/
def dcrTakes (d : DcrDevice) (n : Nat) (v : Word) (space : DcrSpace) : DcrSpace :=
  match d with
  | .word _ => dcrPut n (.word v) space
  | .readOnly _ => space
  | .clearOnes w => dcrPut n (.clearOnes (w &&& ~~~v)) space
  | .device id _ => Config.dcrAfterWrite id n v space

/-- `mfdcr`: what the device answers, else a free value (R566, U27). -/
def moveFromDcr (rt : Reg) (n : BitVec 10) (s : State) : State :=
  match dcrFind n.toNat s.dcr with
  | some d => { setGpr rt (dcrAnswer d n.toNat s.dcr).1 s with dcr := (dcrAnswer d n.toNat s.dcr).2 }
  | none => freeGpr rt s

/-- `mtdcr`: the device takes the word; an unmapped number changes nothing (R567, U27). -/
def moveToDcr (n : BitVec 10) (v : Word) (s : State) : State :=
  match dcrFind n.toNat s.dcr with
  | some d => { s with dcr := dcrTakes d n.toNat v s.dcr }
  | none => s

/-! ### Traps (R574) -/

/-- TRAP (R574, R729): a trap event that acts stops the core or takes the debug interrupt; else the program interrupt with
ESR[PTR], an event masked by MSR[DE] = 0 being recorded first. -/
def trap (s : State) : State :=
  if dbTDE s && eventActs s then debugEvent s dbsrTIE s.pc s
  else if dbTDE s && dbIDM s then programInterrupt esrPTR (recordEvent s dbsrTIE s)
  else programInterrupt esrPTR s

/-- The mask of `mtcrf`: four ones for each one of FXM (R565). -/
def fieldMask (fxm : BitVec 8) : Word :=
  (List.range 8).foldl (fun m j => if fxm.getMsbD j then m ||| (0xF0000000#32 >>> (4 * j)) else m) 0#32

/-! ### Meanings -/

/-- The barrier of `sync` and `eieio`: every earlier access has been performed, the line buffer is emptied (R196, R562). -/
def storageBarrier (s : State) : State := allPerformed (clearBuffer s)

/-- `eieio` (R560): as `sync`. -/
def execEieio (x31 : Bool) (s : State) : Host.Outcome State Fault Refusal :=
  .next (advance s (undefinedCr0 x31 (storageBarrier s)))

/-- The barrier of `isync`: the prefetch queue discarded, later fetches under the state now in force (R195); stores that need
no `sync` are found by them (R787), and ICDBDR may be read (R513, U24). -/
def contextBarrier (s : State) : State := { settleStores (synchronizeContext s) with icdbdrOpen := false }

/-- `isync` (R561): the barrier. -/
def execIsync (x31 : Bool) (s : State) : Host.Outcome State Fault Refusal :=
  .next (advance s (undefinedCr0 x31 (contextBarrier s)))

/-- `sync` (R562): every earlier access has been performed; the line buffer is emptied. -/
def execSync (x31 : Bool) (s : State) : Host.Outcome State Fault Refusal :=
  .next (advance s (undefinedCr0 x31 (storageBarrier s)))

/-- `mcrxr` (R563): CR field BF takes SO, OV, CA, 0; they are cleared. -/
def execMcrxr (bf : BitVec 3) (x31 : Bool) (s : State) : Host.Outcome State Fault Refusal :=
  .next (advance s (undefinedCr0 x31
    { setCrField bf (crBits (xerSO s) (bit s.xer 1) (xerCA s) false) s with xer := s.xer &&& 0x1FFFFFFF#32 }))

/-- `mfcr` (R564): RT takes the CR. -/
def execMfcr (rt : Reg) (x31 : Bool) (s : State) : Host.Outcome State Fault Refusal :=
  .next (advance s (undefinedCr0 x31 (setGpr rt s.cr s)))

/-- `mtcrf` (R565): the CR fields that FXM selects take those of RS. -/
def execMtcrf (rs : Reg) (fxm : BitVec 8) (s : State) : Host.Outcome State Fault Refusal :=
  .next (advance s { s with cr := (gpr s rs &&& fieldMask fxm) ||| (s.cr &&& ~~~(fieldMask fxm)) })

/-- `mfdcr` (R566): RT takes the DCR; privileged for every number. -/
def execMfdcr (rt : Reg) (dcrn : BitVec 10) (s : State) : Host.Outcome State Fault Refusal :=
  .next (privileged (fun s => advance s (moveFromDcr rt dcrn s)) s)

/-- `mtdcr` (R567): the DCR takes RS; privileged for every number. -/
def execMtdcr (rs : Reg) (dcrn : BitVec 10) (s : State) : Host.Outcome State Fault Refusal :=
  .next (privileged (fun s => advance s (moveToDcr dcrn (gpr s rs) s)) s)

/-- `mfspr` (R568): RT takes the SPR; privileged but for the user numbers. -/
def execMfspr (rt : Reg) (sprn : BitVec 10) (s : State) : Host.Outcome State Fault Refusal :=
  if msrPR s && !userReadable sprn then .next (programInterrupt esrPPR s)
  else .next (advance s (moveFromSpr rt sprn s))

/-- `mtspr` (R569): the SPR takes RS; privileged but for the user numbers. -/
def execMtspr (rs : Reg) (sprn : BitVec 10) (s : State) : Host.Outcome State Fault Refusal :=
  if msrPR s && !userWritable sprn then .next (programInterrupt esrPPR s)
  else .next (moveToSpr sprn (gpr s rs) s)

/-- `mftb` (R570): RT takes TBL or TBU; another number gives a free value. -/
def execMftb (rt : Reg) (tbrn : BitVec 10) (s : State) : Host.Outcome State Fault Refusal :=
  .next (advance s
    (if tbrn = 0x10C#10 then setGpr rt s.tmr.tbl s else if tbrn = 0x10D#10 then setGpr rt s.tmr.tbu s else freeGpr rt s))

/-- The system call entry with the events that follow it: it counts as completed, and the exception event comes with it
(R571, R647, R726, R728). DBCR0[IC] and the mask of the completion event are those before the entry; what both events do is
judged after it, where MSR[DWE] is 0 and debug wait mode is off (DESIGN CHOICE, notes/assumptions/31.md). -/
def systemCall (s : State) : State :=
  let t := enter .noncritical 0x0C00#32 (s.pc + 4#32) s
  debugEvent t (completionBits s ||| (if dbEDE t then dbsrEDE else 0#32)) t.pc t

/-- `sc` (R571): the system call interrupt, saving the address after it. -/
def execSc (s : State) : Host.Outcome State Fault Refusal :=
  .next (systemCall s)

/-- `tw` (R572): trap if the comparison of RA with RB that TO asks for holds. -/
def execTw (tos : BitVec 5) (ra rb : Reg) (x31 : Bool) (s : State) : Host.Outcome State Fault Refusal :=
  if trapCondition tos (gpr s ra) (gpr s rb) then .next (trap s) else .next (advance s (undefinedCr0 x31 s))

/-- `twi` (R573): trap if the comparison of RA with the signed immediate that TO asks for holds. -/
def execTwi (tos : BitVec 5) (ra : Reg) (im : BitVec 16) (s : State) : Host.Outcome State Fault Refusal :=
  if trapCondition tos (gpr s ra) (sext16 im) then .next (trap s) else .next (advance s s)

end Sys2Proof.Machine
end

