-- ==== Sys2Proof/Machine/Rotate.lean ====
section
/-! DEFINITION. Rotate and shift instructions (file 46). The target is RA (R225). -/

namespace Sys2Proof.Machine

/-- `rlwimi` (R481): RS rotated left, inserted into RA under the mask. -/
def execRlwimi (rs ra : Reg) (sh mb me : BitVec 5) (rc : Bool) (s : State) : Host.Outcome State Fault Refusal :=
  let m := maskBits mb.toNat me.toNat
  .next (advance s (deliverRa ra ((rotl (gpr s rs) sh.toNat &&& m) ||| (gpr s ra &&& ~~~m)) rc s))

/-- `rlwinm` (R482): RS rotated left and masked. -/
def execRlwinm (rs ra : Reg) (sh mb me : BitVec 5) (rc : Bool) (s : State) : Host.Outcome State Fault Refusal :=
  .next (advance s (deliverRa ra (rotl (gpr s rs) sh.toNat &&& maskBits mb.toNat me.toNat) rc s))

/-- `rlwnm` (R483): RS rotated left by RB[27:31] and masked. -/
def execRlwnm (rs ra rb : Reg) (mb me : BitVec 5) (rc : Bool) (s : State) : Host.Outcome State Fault Refusal :=
  .next (advance s
    (deliverRa ra (rotl (gpr s rs) (field (gpr s rb) 27 5).toNat &&& maskBits mb.toNat me.toNat) rc s))

/-- `slw` (R484): RS shifted left, zeros entering; 32 places or more give 0. -/
def execSlw (rs ra rb : Reg) (rc : Bool) (s : State) : Host.Outcome State Fault Refusal :=
  .next (advance s (deliverRa ra (gpr s rs <<< shiftAmount (gpr s rb)) rc s))

/-- `srw` (R485): RS shifted right, zeros entering; 32 places or more give 0. -/
def execSrw (rs ra rb : Reg) (rc : Bool) (s : State) : Host.Outcome State Fault Refusal :=
  .next (advance s (deliverRa ra (gpr s rs >>> shiftAmount (gpr s rb)) rc s))

/-- `sraw` (R486): RS shifted right with its sign; CA when a negative value loses a 1. -/
def execSraw (rs ra rb : Reg) (rc : Bool) (s : State) : Host.Outcome State Fault Refusal :=
  let n := shiftAmount (gpr s rb)
  .next (advance s (deliverRa ra (shiftRightSigned (gpr s rs) n) rc (setCA (shiftCarry (gpr s rs) n) s)))

/-- `srawi` (R487): RS shifted right with its sign by SH; CA when a negative value loses a 1. -/
def execSrawi (rs ra : Reg) (sh : BitVec 5) (rc : Bool) (s : State) : Host.Outcome State Fault Refusal :=
  .next (advance s
    (deliverRa ra (shiftRightSigned (gpr s rs) sh.toNat) rc (setCA (shiftCarry (gpr s rs) sh.toNat) s)))

end Sys2Proof.Machine
end

