-- ==== Sys2Proof/Machine/StorageRef.lean ====
section
/-! DEFINITION. Storage reference instructions (file 40): loads, stores, byte-reverse, multiple, string and conditional forms. -/

namespace Sys2Proof.Machine

/-! ### Scalar loads -/

/-- A loaded value as the instruction leaves it in RT. -/
inductive LoadForm where
  /-- Zeros on the left. -/
  | zero
  /-- A halfword's sign on the left. -/
  | algebraic
  /-- The halfword's bytes exchanged. -/
  | halfReversed
  /-- The word's bytes reversed. -/
  | wordReversed
deriving DecidableEq, Repr

/-- A loaded scalar extended or reversed (R276, R289, R290). -/
def LoadForm.apply (f : LoadForm) (w : Word) : Word :=
  match f with
  | .zero => w
  | .algebraic => sext16 (lowHalf w)
  | .halfReversed => bytesWord (halfBytes w).reverse
  | .wordReversed => bytesWord (wordBytes w).reverse

/-- A load of a scalar of `n` bytes at `ea` into RT, without update (R270, R320). -/
def loadScalar (rt : Reg) (ea : Word) (n : Nat) (f : LoadForm) (x31 : Bool) (s : State) : State :=
  loadBytes ea n (fun _ t => t) (fun bs t => undefinedCr0 x31 (setGpr rt (f.apply (scalarOf bs)) t)) s

/-- RT and the updated RA written: where they are one register its value is EA or the data, a free choice (R271, U13). -/
def loadUpdateWrite (rt ra : Reg) (ea v : Word) (s : State) : State :=
  if rt = ra then drawn 1 (setGpr rt (if bit (freeNow s) 31 then ea else v) s) else setGpr ra ea (setGpr rt v s)

/-- A load of a scalar with update: RA takes EA when the access succeeds (R271). -/
def loadScalarUpdate (rt ra : Reg) (ea : Word) (n : Nat) (f : LoadForm) (x31 : Bool) (s : State) : State :=
  loadBytes ea n (fun _ t => t) (fun bs t => undefinedCr0 x31 (loadUpdateWrite rt ra ea (f.apply (scalarOf bs)) t)) s

/-- `lbz` (R272): load the byte at (RA|0) + D. -/
def execLbz (rt ra : Reg) (d : BitVec 16) (s : State) : Host.Outcome State Fault Refusal :=
  .next (loadScalar rt (eaD s ra d) 1 .zero false s)

/-- `lbzu` (R273): load the byte at RA + D, which RA takes. -/
def execLbzu (rt ra : Reg) (d : BitVec 16) (s : State) : Host.Outcome State Fault Refusal :=
  .next (loadScalarUpdate rt ra (eaUpdateD s ra d) 1 .zero false s)

/-- `lbzx` (R274): load the byte at (RA|0) + RB. -/
def execLbzx (rt ra rb : Reg) (x31 : Bool) (s : State) : Host.Outcome State Fault Refusal :=
  .next (loadScalar rt (eaX s ra rb) 1 .zero x31 s)

/-- `lbzux` (R275): load the byte at RA + RB, which RA takes. -/
def execLbzux (rt ra rb : Reg) (x31 : Bool) (s : State) : Host.Outcome State Fault Refusal :=
  .next (loadScalarUpdate rt ra (eaUpdateX s ra rb) 1 .zero x31 s)

/-- `lha` (R276): load the halfword, sign extended at (RA|0) + D. -/
def execLha (rt ra : Reg) (d : BitVec 16) (s : State) : Host.Outcome State Fault Refusal :=
  .next (loadScalar rt (eaD s ra d) 2 .algebraic false s)

/-- `lhau` (R277): load the halfword, sign extended at RA + D, which RA takes. -/
def execLhau (rt ra : Reg) (d : BitVec 16) (s : State) : Host.Outcome State Fault Refusal :=
  .next (loadScalarUpdate rt ra (eaUpdateD s ra d) 2 .algebraic false s)

/-- `lhax` (R278): load the halfword, sign extended at (RA|0) + RB. -/
def execLhax (rt ra rb : Reg) (x31 : Bool) (s : State) : Host.Outcome State Fault Refusal :=
  .next (loadScalar rt (eaX s ra rb) 2 .algebraic x31 s)

/-- `lhaux` (R279): load the halfword, sign extended at RA + RB, which RA takes. -/
def execLhaux (rt ra rb : Reg) (x31 : Bool) (s : State) : Host.Outcome State Fault Refusal :=
  .next (loadScalarUpdate rt ra (eaUpdateX s ra rb) 2 .algebraic x31 s)

/-- `lhz` (R280): load the halfword at (RA|0) + D. -/
def execLhz (rt ra : Reg) (d : BitVec 16) (s : State) : Host.Outcome State Fault Refusal :=
  .next (loadScalar rt (eaD s ra d) 2 .zero false s)

/-- `lhzu` (R281): load the halfword at RA + D, which RA takes. -/
def execLhzu (rt ra : Reg) (d : BitVec 16) (s : State) : Host.Outcome State Fault Refusal :=
  .next (loadScalarUpdate rt ra (eaUpdateD s ra d) 2 .zero false s)

/-- `lhzx` (R282): load the halfword at (RA|0) + RB. -/
def execLhzx (rt ra rb : Reg) (x31 : Bool) (s : State) : Host.Outcome State Fault Refusal :=
  .next (loadScalar rt (eaX s ra rb) 2 .zero x31 s)

/-- `lhzux` (R283): load the halfword at RA + RB, which RA takes. -/
def execLhzux (rt ra rb : Reg) (x31 : Bool) (s : State) : Host.Outcome State Fault Refusal :=
  .next (loadScalarUpdate rt ra (eaUpdateX s ra rb) 2 .zero x31 s)

/-- `lwz` (R284): load the word at (RA|0) + D. -/
def execLwz (rt ra : Reg) (d : BitVec 16) (s : State) : Host.Outcome State Fault Refusal :=
  .next (loadScalar rt (eaD s ra d) 4 .zero false s)

/-- `lwzu` (R285): load the word at RA + D, which RA takes. -/
def execLwzu (rt ra : Reg) (d : BitVec 16) (s : State) : Host.Outcome State Fault Refusal :=
  .next (loadScalarUpdate rt ra (eaUpdateD s ra d) 4 .zero false s)

/-- `lwzx` (R286): load the word at (RA|0) + RB. -/
def execLwzx (rt ra rb : Reg) (x31 : Bool) (s : State) : Host.Outcome State Fault Refusal :=
  .next (loadScalar rt (eaX s ra rb) 4 .zero x31 s)

/-- `lwzux` (R287): load the word at RA + RB, which RA takes. -/
def execLwzux (rt ra rb : Reg) (x31 : Bool) (s : State) : Host.Outcome State Fault Refusal :=
  .next (loadScalarUpdate rt ra (eaUpdateX s ra rb) 4 .zero x31 s)

/-- `lhbrx` (R289): load the halfword at (RA|0) + RB with its bytes exchanged. -/
def execLhbrx (rt ra rb : Reg) (x31 : Bool) (s : State) : Host.Outcome State Fault Refusal :=
  .next (loadScalar rt (eaX s ra rb) 2 .halfReversed x31 s)

/-- `lwbrx` (R290): load the word at (RA|0) + RB with its bytes reversed. -/
def execLwbrx (rt ra rb : Reg) (x31 : Bool) (s : State) : Host.Outcome State Fault Refusal :=
  .next (loadScalar rt (eaX s ra rb) 4 .wordReversed x31 s)

/-! ### Reservation (R200, R288) -/

/-- `lwarx`: checked as a load, then for alignment; it sets RESERVE and loads the word. -/
def loadReserve (rt : Reg) (ea : Word) (x31 : Bool) (s : State) : State :=
  match loadXlate s ea with
  | .error f => dataInterrupt false ea f s
  | .ok _ =>
    if ea.extractLsb' 0 2 ≠ 0#2 then alignmentInterrupt ea s
    else
      loadBytes ea 4 (fun _ t => t)
        (fun bs t => undefinedCr0 x31 (setGpr rt (scalarOf bs) { t with reserve := true })) s

/-- `lwarx` (R288): load the word at (RA|0) + RB and set the reservation. -/
def execLwarx (rt ra rb : Reg) (x31 : Bool) (s : State) : Host.Outcome State Fault Refusal :=
  .next (loadReserve rt (eaX s ra rb) x31 s)

/-! ### Multiple and string loads -/

/-- Registers loaded from consecutive words, from register `r` to 31, a word short of bytes stopping it; `skip` names the
register whose word is discarded (R291). -/
def loadWords : Nat → Nat → (Nat → Bool) → List (Byte × Bool) → State → State
  | 0, _, _, _, s => s
  | fuel + 1, r, skip, bs, s =>
    if bs.length < 4 then s
    else
      loadWords fuel (r + 1) skip (bs.drop 4)
        (if skip r then s else setGpr (BitVec.ofNat 5 r) (scalarOf (bs.take 4)) s)

/-- The word for RA is discarded, unless RA is 31; the base of a zero RA field is no register (R291). Discarded means that
it is checked and read like the others (DESIGN CHOICE, notes/assumptions/52.md). -/
def skipMultiple (ra : Reg) (r : Nat) : Bool := ra != 0#5 && (r == ra.toNat && r != 31)

/-- `lmw` (R291): load the words from (RA|0) + D on into RT to GPR31, each a scalar of its own. The word that would go to RA
is checked and read too, and discarded (DESIGN CHOICE, notes/assumptions/52.md). -/
def execLmw (rt ra : Reg) (d : BitVec 16) (s : State) : Host.Outcome State Fault Refusal :=
  .next (loadBytes (eaD s ra d) (4 * (32 - rt.toNat))
    (fun bs t => loadWords 32 rt.toNat (fun r => ra != 0#5 && r == ra.toNat) bs t)
    (fun bs t => loadWords 32 rt.toNat (skipMultiple ra) bs t) s)

/-- The word a string load stacks: up to four bytes, the first most significant, zeros on the right (R294). -/
def stackedWord (bs : List Byte) : Word := bytesWord ((bs ++ [0#8, 0#8, 0#8]).take 4)

/-- Registers loaded from consecutive bytes, four to a register, from register `r` on, GPR0 after GPR31; `skip` names the
registers whose bytes are discarded (R294). -/
def loadString : Nat → Reg → (Reg → Bool) → List Byte → State → State
  | 0, _, _, _, s => s
  | fuel + 1, r, skip, bs, s =>
    if bs.isEmpty then s
    else loadString fuel (r + 1#5) skip (bs.drop 4) (if skip r then s else setGpr r (stackedWord (bs.take 4)) s)

/-- The last register a string of `n` bytes loads, `(RT + CEIL(n/4) - 1) mod 32` (R294). -/
def stringFinal (rt : Reg) (n : Nat) : Reg := BitVec.ofNat 5 (rt.toNat + (n + 3) / 4 + 31)

/-- The byte count of `lswi` and `stswi`: 0 means 32 (R292, R315). -/
def stringCount (nb : BitVec 5) : Nat := if nb = 0#5 then 32 else nb.toNat

/-- A string load of `n` bytes: `base` names the address registers, which are not altered unless they are the last register
loaded, and never when a fault cuts the load short (R144, R294). The bytes of a register that is not altered are checked and
read too, and discarded (DESIGN CHOICE, notes/assumptions/52.md). -/
def loadStringBytes (rt : Reg) (ea : Word) (n : Nat) (base : Reg → Bool) (x31 : Bool) (s : State) : State :=
  loadBytes ea n (fun bs t => loadString 32 rt base (bs.map (·.1)) t)
    (fun bs t =>
      undefinedCr0 x31 (loadString 32 rt (fun r => base r && r != stringFinal rt n) (bs.map (·.1)) t)) s

/-- `lswi` (R292): load NB bytes from (RA|0) on into RT and the registers after it; with RA = 0 GPR0 is an ordinary target. -/
def execLswi (rt ra : Reg) (nb : BitVec 5) (x31 : Bool) (s : State) : Host.Outcome State Fault Refusal :=
  .next (loadStringBytes rt (gprOr0 s ra) (stringCount nb) (fun r => ra != 0#5 && r == ra) x31 s)

/-- `lswx` with XER[TBC] = 0: no register, no translation; it can only report the bus error of the line fill its address
would cause (R164, R293). -/
def loadNothing (ea : Word) (s : State) : State :=
  match loadXlate s ea with
  | .ok x =>
    if !x.attrs.i && (dWay s x.ra).isNone && !ccrLWOA s && s.params.dcacheSize.classes != 0 &&
        busErrorIn s .load (lineBase (lineOf x.ra)) 32 then reportDataError s
    else s
  | .error _ => s

/-- `lswx` (R293): load XER[TBC] bytes from (RA|0) + RB on into RT and the registers after it. -/
def execLswx (rt ra rb : Reg) (x31 : Bool) (s : State) : Host.Outcome State Fault Refusal :=
  if xerTBC s = 0#7 then .next (advance s (undefinedCr0 x31 (loadNothing (eaX s ra rb) s)))
  else .next (loadStringBytes rt (eaX s ra rb) (xerTBC s).toNat (fun r => r == ra || r == rb) x31 s)

/-! ### Scalar stores -/

/-- A store of a scalar given most significant byte first, without update (R270, R320). -/
def storeScalar (ea : Word) (msb : List Byte) (x31 : Bool) (s : State) : State :=
  storeBytes ea msb.length (scalarBytes msb) (undefinedCr0 x31) s

/-- A store of a scalar with update: RA takes EA when the access succeeds; RS = RA stores the old value (R271). -/
def storeScalarUpdate (ra : Reg) (ea : Word) (msb : List Byte) (x31 : Bool) (s : State) : State :=
  storeBytes ea msb.length (scalarBytes msb) (fun t => undefinedCr0 x31 (setGpr ra ea t)) s

/-- The low byte of a register, as a store gives it. -/
def byteOf (w : Word) : List Byte := [w.extractLsb' 0 8]

/-- `stb` (R300): store the low byte of RS at (RA|0) + D. -/
def execStb (rs ra : Reg) (d : BitVec 16) (s : State) : Host.Outcome State Fault Refusal :=
  .next (storeScalar (eaD s ra d) (byteOf (gpr s rs)) false s)

/-- `stbu` (R301): store the low byte of RS at RA + D, which RA takes. -/
def execStbu (rs ra : Reg) (d : BitVec 16) (s : State) : Host.Outcome State Fault Refusal :=
  .next (storeScalarUpdate ra (eaUpdateD s ra d) (byteOf (gpr s rs)) false s)

/-- `stbx` (R302): store the low byte of RS at (RA|0) + RB. -/
def execStbx (rs ra rb : Reg) (x31 : Bool) (s : State) : Host.Outcome State Fault Refusal :=
  .next (storeScalar (eaX s ra rb) (byteOf (gpr s rs)) x31 s)

/-- `stbux` (R303): store the low byte of RS at RA + RB, which RA takes. -/
def execStbux (rs ra rb : Reg) (x31 : Bool) (s : State) : Host.Outcome State Fault Refusal :=
  .next (storeScalarUpdate ra (eaUpdateX s ra rb) (byteOf (gpr s rs)) x31 s)

/-- `sth` (R304): store the low halfword of RS at (RA|0) + D. -/
def execSth (rs ra : Reg) (d : BitVec 16) (s : State) : Host.Outcome State Fault Refusal :=
  .next (storeScalar (eaD s ra d) (halfBytes (gpr s rs)) false s)

/-- `sthu` (R305): store the low halfword of RS at RA + D, which RA takes. -/
def execSthu (rs ra : Reg) (d : BitVec 16) (s : State) : Host.Outcome State Fault Refusal :=
  .next (storeScalarUpdate ra (eaUpdateD s ra d) (halfBytes (gpr s rs)) false s)

/-- `sthx` (R306): store the low halfword of RS at (RA|0) + RB. -/
def execSthx (rs ra rb : Reg) (x31 : Bool) (s : State) : Host.Outcome State Fault Refusal :=
  .next (storeScalar (eaX s ra rb) (halfBytes (gpr s rs)) x31 s)

/-- `sthux` (R307): store the low halfword of RS at RA + RB, which RA takes. -/
def execSthux (rs ra rb : Reg) (x31 : Bool) (s : State) : Host.Outcome State Fault Refusal :=
  .next (storeScalarUpdate ra (eaUpdateX s ra rb) (halfBytes (gpr s rs)) x31 s)

/-- `stw` (R308): store RS at (RA|0) + D. -/
def execStw (rs ra : Reg) (d : BitVec 16) (s : State) : Host.Outcome State Fault Refusal :=
  .next (storeScalar (eaD s ra d) (wordBytes (gpr s rs)) false s)

/-- `stwu` (R309): store RS at RA + D, which RA takes. -/
def execStwu (rs ra : Reg) (d : BitVec 16) (s : State) : Host.Outcome State Fault Refusal :=
  .next (storeScalarUpdate ra (eaUpdateD s ra d) (wordBytes (gpr s rs)) false s)

/-- `stwx` (R310): store RS at (RA|0) + RB. -/
def execStwx (rs ra rb : Reg) (x31 : Bool) (s : State) : Host.Outcome State Fault Refusal :=
  .next (storeScalar (eaX s ra rb) (wordBytes (gpr s rs)) x31 s)

/-- `stwux` (R311): store RS at RA + RB, which RA takes. -/
def execStwux (rs ra rb : Reg) (x31 : Bool) (s : State) : Host.Outcome State Fault Refusal :=
  .next (storeScalarUpdate ra (eaUpdateX s ra rb) (wordBytes (gpr s rs)) x31 s)

/-- `sthbrx` (R312): store the low halfword of RS with its bytes exchanged at (RA|0) + RB. -/
def execSthbrx (rs ra rb : Reg) (x31 : Bool) (s : State) : Host.Outcome State Fault Refusal :=
  .next (storeScalar (eaX s ra rb) (halfBytes (gpr s rs)).reverse x31 s)

/-- `stwbrx` (R313): store RS with its bytes reversed at (RA|0) + RB. -/
def execStwbrx (rs ra rb : Reg) (x31 : Bool) (s : State) : Host.Outcome State Fault Refusal :=
  .next (storeScalar (eaX s ra rb) (wordBytes (gpr s rs)).reverse x31 s)

/-! ### Multiple, string and conditional stores -/

/-- The bytes `stmw` stores: the words of the registers from `r` to 31, each ordered by the E attribute of its first byte's
place (R131, R314). -/
def multipleBytes (s : State) : Nat → Nat → List Bool → List Byte
  | 0, _, _ => []
  | fuel + 1, r, orders =>
    if 31 < r then []
    else
      scalarBytes (wordBytes (gpr s (BitVec.ofNat 5 r))) orders ++ multipleBytes s fuel (r + 1) (orders.drop 4)

/-- `stmw` (R314): store the words of RS to GPR31 from (RA|0) + D on, each a scalar of its own. -/
def execStmw (rs ra : Reg) (d : BitVec 16) (s : State) : Host.Outcome State Fault Refusal :=
  .next (storeBytes (eaD s ra d) (4 * (32 - rs.toNat)) (multipleBytes s 32 rs.toNat) (fun t => t) s)

/-- `n` bytes unstacked from register `r` on, the most significant first, GPR0 after GPR31 (R315, R316). -/
def stringBytes (s : State) : Nat → Reg → Nat → List Byte
  | 0, _, _ => []
  | fuel + 1, r, n =>
    if n = 0 then [] else (wordBytes (gpr s r)).take n ++ stringBytes s fuel (r + 1#5) (n - 4)

/-- `stswi` (R315): store NB bytes of RS and the registers after it from (RA|0) on. -/
def execStswi (rs ra : Reg) (nb : BitVec 5) (x31 : Bool) (s : State) : Host.Outcome State Fault Refusal :=
  .next (storeBytes (gprOr0 s ra) (stringCount nb) (fun _ => stringBytes s 32 rs (stringCount nb)) (undefinedCr0 x31) s)

/-- `stswx` (R316): store XER[TBC] bytes of RS and the registers after it from (RA|0) + RB on; none is a no-op. -/
def execStswx (rs ra rb : Reg) (x31 : Bool) (s : State) : Host.Outcome State Fault Refusal :=
  if xerTBC s = 0#7 then .next (advance s (undefinedCr0 x31 s))
  else
    .next (storeBytes (eaX s ra rb) (xerTBC s).toNat (fun _ => stringBytes s 32 rs (xerTBC s).toNat) (undefinedCr0 x31) s)

/-- `stwcx.` with the reservation held: checked as a store, then for alignment; it stores, clears RESERVE and sets CR0[EQ]
(R200, R318). -/
def storeConditional (ea : Word) (v : Word) (s : State) : State :=
  match storeXlate s ea with
  | .error f => dataInterrupt true ea f s
  | .ok _ =>
    if ea.extractLsb' 0 2 ≠ 0#2 then alignmentInterrupt ea s
    else
      storeBytes ea 4 (scalarBytes (wordBytes v))
        (fun t => setCrField 0#3 (crBits false false true (xerSO t)) { t with reserve := false }) s

/-- `stwcx.` without the reservation: only the alignment is checked; nothing is stored (R200, R318, D19). -/
def storeRefused (ea : Word) (s : State) : State :=
  if ea.extractLsb' 0 2 ≠ 0#2 then alignmentInterrupt ea s
  else advance s (setCrField 0#3 (crBits false false false (xerSO s)) s)

/-- `stwcx.` (R318): store RS at (RA|0) + RB if the reservation is held, and say so in CR0. -/
def execStwcxRc (rs ra rb : Reg) (s : State) : Host.Outcome State Fault Refusal :=
  if s.reserve then .next (storeConditional (eaX s ra rb) (gpr s rs) s)
  else .next (storeRefused (eaX s ra rb) s)

end Sys2Proof.Machine
end

