-- ==== Sys2Proof/Machine/Dispatch.lean ====
section
/-! DEFINITION. The one table from instructions to their meanings. -/

namespace Sys2Proof.Machine

/-- What an instruction does: one call of its meaning per arm. -/
def exec (i : Instr) (s : State) : Host.Outcome State Fault Refusal :=
  match i with
  | .lbz rt ra d => Sys2Proof.Machine.execLbz rt ra d s
  | .lbzu rt ra d => Sys2Proof.Machine.execLbzu rt ra d s
  | .lha rt ra d => Sys2Proof.Machine.execLha rt ra d s
  | .lhau rt ra d => Sys2Proof.Machine.execLhau rt ra d s
  | .lhz rt ra d => Sys2Proof.Machine.execLhz rt ra d s
  | .lhzu rt ra d => Sys2Proof.Machine.execLhzu rt ra d s
  | .lwz rt ra d => Sys2Proof.Machine.execLwz rt ra d s
  | .lwzu rt ra d => Sys2Proof.Machine.execLwzu rt ra d s
  | .lmw rt ra d => Sys2Proof.Machine.execLmw rt ra d s
  | .stb rs ra d => Sys2Proof.Machine.execStb rs ra d s
  | .stbu rs ra d => Sys2Proof.Machine.execStbu rs ra d s
  | .sth rs ra d => Sys2Proof.Machine.execSth rs ra d s
  | .sthu rs ra d => Sys2Proof.Machine.execSthu rs ra d s
  | .stw rs ra d => Sys2Proof.Machine.execStw rs ra d s
  | .stwu rs ra d => Sys2Proof.Machine.execStwu rs ra d s
  | .stmw rs ra d => Sys2Proof.Machine.execStmw rs ra d s
  | .lbzx rt ra rb x31 => Sys2Proof.Machine.execLbzx rt ra rb x31 s
  | .lbzux rt ra rb x31 => Sys2Proof.Machine.execLbzux rt ra rb x31 s
  | .lhax rt ra rb x31 => Sys2Proof.Machine.execLhax rt ra rb x31 s
  | .lhaux rt ra rb x31 => Sys2Proof.Machine.execLhaux rt ra rb x31 s
  | .lhzx rt ra rb x31 => Sys2Proof.Machine.execLhzx rt ra rb x31 s
  | .lhzux rt ra rb x31 => Sys2Proof.Machine.execLhzux rt ra rb x31 s
  | .lwzx rt ra rb x31 => Sys2Proof.Machine.execLwzx rt ra rb x31 s
  | .lwzux rt ra rb x31 => Sys2Proof.Machine.execLwzux rt ra rb x31 s
  | .lwarx rt ra rb x31 => Sys2Proof.Machine.execLwarx rt ra rb x31 s
  | .lhbrx rt ra rb x31 => Sys2Proof.Machine.execLhbrx rt ra rb x31 s
  | .lwbrx rt ra rb x31 => Sys2Proof.Machine.execLwbrx rt ra rb x31 s
  | .lswx rt ra rb x31 => Sys2Proof.Machine.execLswx rt ra rb x31 s
  | .lswi rt ra nb x31 => Sys2Proof.Machine.execLswi rt ra nb x31 s
  | .stbx rs ra rb x31 => Sys2Proof.Machine.execStbx rs ra rb x31 s
  | .stbux rs ra rb x31 => Sys2Proof.Machine.execStbux rs ra rb x31 s
  | .sthx rs ra rb x31 => Sys2Proof.Machine.execSthx rs ra rb x31 s
  | .sthux rs ra rb x31 => Sys2Proof.Machine.execSthux rs ra rb x31 s
  | .stwx rs ra rb x31 => Sys2Proof.Machine.execStwx rs ra rb x31 s
  | .stwux rs ra rb x31 => Sys2Proof.Machine.execStwux rs ra rb x31 s
  | .sthbrx rs ra rb x31 => Sys2Proof.Machine.execSthbrx rs ra rb x31 s
  | .stwbrx rs ra rb x31 => Sys2Proof.Machine.execStwbrx rs ra rb x31 s
  | .stswx rs ra rb x31 => Sys2Proof.Machine.execStswx rs ra rb x31 s
  | .stswi rs ra nb x31 => Sys2Proof.Machine.execStswi rs ra nb x31 s
  | .stwcxRc rs ra rb => Sys2Proof.Machine.execStwcxRc rs ra rb s
  | .add rt ra rb oe rc => Sys2Proof.Machine.execAdd rt ra rb oe rc s
  | .addc rt ra rb oe rc => Sys2Proof.Machine.execAddc rt ra rb oe rc s
  | .adde rt ra rb oe rc => Sys2Proof.Machine.execAdde rt ra rb oe rc s
  | .subf rt ra rb oe rc => Sys2Proof.Machine.execSubf rt ra rb oe rc s
  | .subfc rt ra rb oe rc => Sys2Proof.Machine.execSubfc rt ra rb oe rc s
  | .subfe rt ra rb oe rc => Sys2Proof.Machine.execSubfe rt ra rb oe rc s
  | .mullw rt ra rb oe rc => Sys2Proof.Machine.execMullw rt ra rb oe rc s
  | .divw rt ra rb oe rc => Sys2Proof.Machine.execDivw rt ra rb oe rc s
  | .divwu rt ra rb oe rc => Sys2Proof.Machine.execDivwu rt ra rb oe rc s
  | .addme rt ra oe rc => Sys2Proof.Machine.execAddme rt ra oe rc s
  | .addze rt ra oe rc => Sys2Proof.Machine.execAddze rt ra oe rc s
  | .subfme rt ra oe rc => Sys2Proof.Machine.execSubfme rt ra oe rc s
  | .subfze rt ra oe rc => Sys2Proof.Machine.execSubfze rt ra oe rc s
  | .neg rt ra oe rc => Sys2Proof.Machine.execNeg rt ra oe rc s
  | .mulhw rt ra rb rc => Sys2Proof.Machine.execMulhw rt ra rb rc s
  | .mulhwu rt ra rb rc => Sys2Proof.Machine.execMulhwu rt ra rb rc s
  | .addi rt ra im => Sys2Proof.Machine.execAddi rt ra im s
  | .addic rt ra im => Sys2Proof.Machine.execAddic rt ra im s
  | .addicRc rt ra im => Sys2Proof.Machine.execAddicRc rt ra im s
  | .addis rt ra im => Sys2Proof.Machine.execAddis rt ra im s
  | .subfic rt ra im => Sys2Proof.Machine.execSubfic rt ra im s
  | .mulli rt ra im => Sys2Proof.Machine.execMulli rt ra im s
  | .macchw rt ra rb oe rc => Sys2Proof.Machine.execMacchw rt ra rb oe rc s
  | .macchws rt ra rb oe rc => Sys2Proof.Machine.execMacchws rt ra rb oe rc s
  | .macchwsu rt ra rb oe rc => Sys2Proof.Machine.execMacchwsu rt ra rb oe rc s
  | .macchwu rt ra rb oe rc => Sys2Proof.Machine.execMacchwu rt ra rb oe rc s
  | .machhw rt ra rb oe rc => Sys2Proof.Machine.execMachhw rt ra rb oe rc s
  | .machhws rt ra rb oe rc => Sys2Proof.Machine.execMachhws rt ra rb oe rc s
  | .machhwsu rt ra rb oe rc => Sys2Proof.Machine.execMachhwsu rt ra rb oe rc s
  | .machhwu rt ra rb oe rc => Sys2Proof.Machine.execMachhwu rt ra rb oe rc s
  | .maclhw rt ra rb oe rc => Sys2Proof.Machine.execMaclhw rt ra rb oe rc s
  | .maclhws rt ra rb oe rc => Sys2Proof.Machine.execMaclhws rt ra rb oe rc s
  | .maclhwsu rt ra rb oe rc => Sys2Proof.Machine.execMaclhwsu rt ra rb oe rc s
  | .maclhwu rt ra rb oe rc => Sys2Proof.Machine.execMaclhwu rt ra rb oe rc s
  | .nmacchw rt ra rb oe rc => Sys2Proof.Machine.execNmacchw rt ra rb oe rc s
  | .nmacchws rt ra rb oe rc => Sys2Proof.Machine.execNmacchws rt ra rb oe rc s
  | .nmachhw rt ra rb oe rc => Sys2Proof.Machine.execNmachhw rt ra rb oe rc s
  | .nmachhws rt ra rb oe rc => Sys2Proof.Machine.execNmachhws rt ra rb oe rc s
  | .nmaclhw rt ra rb oe rc => Sys2Proof.Machine.execNmaclhw rt ra rb oe rc s
  | .nmaclhws rt ra rb oe rc => Sys2Proof.Machine.execNmaclhws rt ra rb oe rc s
  | .mulchw rt ra rb rc => Sys2Proof.Machine.execMulchw rt ra rb rc s
  | .mulchwu rt ra rb rc => Sys2Proof.Machine.execMulchwu rt ra rb rc s
  | .mulhhw rt ra rb rc => Sys2Proof.Machine.execMulhhw rt ra rb rc s
  | .mulhhwu rt ra rb rc => Sys2Proof.Machine.execMulhhwu rt ra rb rc s
  | .mullhw rt ra rb rc => Sys2Proof.Machine.execMullhw rt ra rb rc s
  | .mullhwu rt ra rb rc => Sys2Proof.Machine.execMullhwu rt ra rb rc s
  | .and rs ra rb rc => Sys2Proof.Machine.execAnd rs ra rb rc s
  | .andc rs ra rb rc => Sys2Proof.Machine.execAndc rs ra rb rc s
  | .eqv rs ra rb rc => Sys2Proof.Machine.execEqv rs ra rb rc s
  | .nand rs ra rb rc => Sys2Proof.Machine.execNand rs ra rb rc s
  | .nor rs ra rb rc => Sys2Proof.Machine.execNor rs ra rb rc s
  | .or rs ra rb rc => Sys2Proof.Machine.execOr rs ra rb rc s
  | .orc rs ra rb rc => Sys2Proof.Machine.execOrc rs ra rb rc s
  | .xor rs ra rb rc => Sys2Proof.Machine.execXor rs ra rb rc s
  | .cntlzw rs ra rc => Sys2Proof.Machine.execCntlzw rs ra rc s
  | .extsb rs ra rc => Sys2Proof.Machine.execExtsb rs ra rc s
  | .extsh rs ra rc => Sys2Proof.Machine.execExtsh rs ra rc s
  | .andiRc rs ra im => Sys2Proof.Machine.execAndiRc rs ra im s
  | .andisRc rs ra im => Sys2Proof.Machine.execAndisRc rs ra im s
  | .ori rs ra im => Sys2Proof.Machine.execOri rs ra im s
  | .oris rs ra im => Sys2Proof.Machine.execOris rs ra im s
  | .xori rs ra im => Sys2Proof.Machine.execXori rs ra im s
  | .xoris rs ra im => Sys2Proof.Machine.execXoris rs ra im s
  | .cmp bf ra rb x31 => Sys2Proof.Machine.execCmp bf ra rb x31 s
  | .cmpi bf ra im => Sys2Proof.Machine.execCmpi bf ra im s
  | .cmpl bf ra rb x31 => Sys2Proof.Machine.execCmpl bf ra rb x31 s
  | .cmpli bf ra im => Sys2Proof.Machine.execCmpli bf ra im s
  | .b disp aa lk => Sys2Proof.Machine.execB disp aa lk s
  | .bc bo bi disp aa lk => Sys2Proof.Machine.execBc bo bi disp aa lk s
  | .bcctr bo bi lk => Sys2Proof.Machine.execBcctr bo bi lk s
  | .bclr bo bi lk => Sys2Proof.Machine.execBclr bo bi lk s
  | .crand bt ba bb => Sys2Proof.Machine.execCrand bt ba bb s
  | .crandc bt ba bb => Sys2Proof.Machine.execCrandc bt ba bb s
  | .creqv bt ba bb => Sys2Proof.Machine.execCreqv bt ba bb s
  | .crnand bt ba bb => Sys2Proof.Machine.execCrnand bt ba bb s
  | .crnor bt ba bb => Sys2Proof.Machine.execCrnor bt ba bb s
  | .cror bt ba bb => Sys2Proof.Machine.execCror bt ba bb s
  | .crorc bt ba bb => Sys2Proof.Machine.execCrorc bt ba bb s
  | .crxor bt ba bb => Sys2Proof.Machine.execCrxor bt ba bb s
  | .mcrf bf bfa => Sys2Proof.Machine.execMcrf bf bfa s
  | .rlwimi rs ra sh mb me rc => Sys2Proof.Machine.execRlwimi rs ra sh mb me rc s
  | .rlwinm rs ra sh mb me rc => Sys2Proof.Machine.execRlwinm rs ra sh mb me rc s
  | .rlwnm rs ra rb mb me rc => Sys2Proof.Machine.execRlwnm rs ra rb mb me rc s
  | .slw rs ra rb rc => Sys2Proof.Machine.execSlw rs ra rb rc s
  | .srw rs ra rb rc => Sys2Proof.Machine.execSrw rs ra rb rc s
  | .sraw rs ra rb rc => Sys2Proof.Machine.execSraw rs ra rb rc s
  | .srawi rs ra sh rc => Sys2Proof.Machine.execSrawi rs ra sh rc s
  | .dcba ra rb x31 => Sys2Proof.Machine.execDcba ra rb x31 s
  | .dcbf ra rb x31 => Sys2Proof.Machine.execDcbf ra rb x31 s
  | .dcbi ra rb x31 => Sys2Proof.Machine.execDcbi ra rb x31 s
  | .dcbst ra rb x31 => Sys2Proof.Machine.execDcbst ra rb x31 s
  | .dcbt ra rb x31 => Sys2Proof.Machine.execDcbt ra rb x31 s
  | .dcbtst ra rb x31 => Sys2Proof.Machine.execDcbtst ra rb x31 s
  | .dcbz ra rb x31 => Sys2Proof.Machine.execDcbz ra rb x31 s
  | .dccci ra rb x31 => Sys2Proof.Machine.execDccci ra rb x31 s
  | .icbi ra rb x31 => Sys2Proof.Machine.execIcbi ra rb x31 s
  | .icbt ra rb x31 => Sys2Proof.Machine.execIcbt ra rb x31 s
  | .iccci ra rb x31 => Sys2Proof.Machine.execIccci ra rb x31 s
  | .icread ra rb x31 => Sys2Proof.Machine.execIcread ra rb x31 s
  | .dcread rt ra rb x31 => Sys2Proof.Machine.execDcread rt ra rb x31 s
  | .mfmsr rt x31 => Sys2Proof.Machine.execMfmsr rt x31 s
  | .mtmsr rs x31 => Sys2Proof.Machine.execMtmsr rs x31 s
  | .rfi x31 => Sys2Proof.Machine.execRfi x31 s
  | .rfci x31 => Sys2Proof.Machine.execRfci x31 s
  | .wrtee rs x31 => Sys2Proof.Machine.execWrtee rs x31 s
  | .wrteei e x31 => Sys2Proof.Machine.execWrteei e x31 s
  | .tlbia x31 => Sys2Proof.Machine.execTlbia x31 s
  | .tlbre rt ra ws x31 => Sys2Proof.Machine.execTlbre rt ra ws x31 s
  | .tlbsx rt ra rb rc => Sys2Proof.Machine.execTlbsx rt ra rb rc s
  | .tlbsync x31 => Sys2Proof.Machine.execTlbsync x31 s
  | .tlbwe rs ra ws x31 => Sys2Proof.Machine.execTlbwe rs ra ws x31 s
  | .eieio x31 => Sys2Proof.Machine.execEieio x31 s
  | .isync x31 => Sys2Proof.Machine.execIsync x31 s
  | .sync x31 => Sys2Proof.Machine.execSync x31 s
  | .mcrxr bf x31 => Sys2Proof.Machine.execMcrxr bf x31 s
  | .mfcr rt x31 => Sys2Proof.Machine.execMfcr rt x31 s
  | .mtcrf rs fxm => Sys2Proof.Machine.execMtcrf rs fxm s
  | .mfdcr rt dcrn => Sys2Proof.Machine.execMfdcr rt dcrn s
  | .mtdcr rs dcrn => Sys2Proof.Machine.execMtdcr rs dcrn s
  | .mfspr rt sprn => Sys2Proof.Machine.execMfspr rt sprn s
  | .mtspr rs sprn => Sys2Proof.Machine.execMtspr rs sprn s
  | .mftb rt tbrn => Sys2Proof.Machine.execMftb rt tbrn s
  | .sc => Sys2Proof.Machine.execSc s
  | .tw tos ra rb x31 => Sys2Proof.Machine.execTw tos ra rb x31 s
  | .twi tos ra im => Sys2Proof.Machine.execTwi tos ra im s

end Sys2Proof.Machine
end

