-- ==== Sys2Proof/Machine/Cycle.lean ====
section
/-! DEFINITION. One step of the machine in the order of R611: an input from outside, the debug stop, the asynchronous
interrupts, the wait state, the instruction address events, the fetch, and the instruction. -/

namespace Sys2Proof.Machine

/-! ### Inputs from outside (R104, R712, R730, R741) -/

/-- The fetcher reads at an effective address ahead of the program, which may fill or use a line of the instruction cache;
not from guarded storage in real mode (R176). -/
def speculate (ea : Word) (s : State) : State := (readInstr (aheadViews ea s) ea s).2

/-- What one input does at an instruction boundary; the flag says that it reset the core. -/
def applyInput (e : EnvInput) (s : State) : State × Bool :=
  match e with
  | .clocks n => timerClocks n s
  | .criticalInput active => ({ s with inp := { s.inp with critical := active } }, false)
  | .externalInput active => ({ s with inp := { s.inp with external := active } }, false)
  | .unconditionalEvent =>
    -- in internal mode the event is pending in the DBSR and taken with the asynchronous interrupts below
    (if dbEDM s || debugWaitMode s then debugEvent s dbsrUDE s.pc s else recordEvent s dbsrUDE s, false)
  | .resetRequest kind => (coreReset kind (keptWrs s) s, true)
  | .clearWaitEnable => ({ s with msr := setBit s.msr 13 false }, false)
  | .debugHalt => (setRun .stopped s, false)
  | .debugRelease => (setRun .running s, false)
  | .busWrite bytes => (outsideBytes bytes s, false)
  | .busInside turns => ({ s with inp := { s.inp with bus := turns } }, false)
  | .dcrChange n d => ({ s with dcr := dcrPut n d s.dcr }, false)
  | .speculativeFetch ea => (speculate ea s, false)

/-- What the inputs of one boundary do, in their order; the flag says that one of them reset the core. -/
def applyInputs : List EnvInput → State → State × Bool
  | [], s => (s, false)
  | e :: es, s =>
    let (s1, r1) := applyInput e s
    let (s2, r2) := applyInputs es s1
    (s2, r1 || r2)

/-! ### Asynchronous interrupts (R611 steps 3 and 8, R622 to R654, R742) -/

/-- A data-side machine check is pending and enabled (R622). -/
def dataCheckDue (s : State) : Bool := s.inp.dataMachineCheck && msrME s

/-- A debug interrupt is pending and enabled: internal mode, MSR[DE] = 1, some event bit set (R742). -/
def debugDue (s : State) : Bool := internalDebug s && msrDE s && (s.dbg.dbsr &&& dbsrEvents) != 0#32

/-- The critical input is active and enabled (R625). -/
def criticalDue (s : State) : Bool := s.inp.critical && msrCE s

/-- The watchdog interrupt is pending and enabled (R654). -/
def watchdogDue (s : State) : Bool := bit s.tmr.tcr 4 && msrCE s && bit s.tmr.tsr 1

/-- The external input is active and enabled (R650). -/
def externalDue (s : State) : Bool := s.inp.external && msrEE s

/-- The FIT interrupt is pending and enabled (R653). -/
def fitDue (s : State) : Bool := bit s.tmr.tcr 8 && msrEE s && bit s.tmr.tsr 5

/-- The PIT interrupt is pending and enabled (R652). -/
def pitDue (s : State) : Bool := bit s.tmr.tcr 5 && msrEE s && bit s.tmr.tsr 4

/-- The asynchronous interrupt taken at this boundary, of highest priority first, saving the next instruction's address
(R602, R610; the noncritical ones are tested before the instruction, notes/assumptions/30.md). -/
def asyncInterrupt (s : State) : Option State :=
  if dataCheckDue s then
    some (takeInterrupt .machineCheck 0x0200#32 s.pc { s with inp := { s.inp with dataMachineCheck := false } })
  else if debugDue s then some (enter .critical 0x2000#32 s.pc s)
  else if criticalDue s then some (takeInterrupt .critical 0x0100#32 s.pc s)
  else if watchdogDue s then some (takeInterrupt .critical 0x1020#32 s.pc s)
  else if externalDue s then some (takeInterrupt .noncritical 0x0500#32 s.pc s)
  else if fitDue s then some (takeInterrupt .noncritical 0x1010#32 s.pc s)
  else if pitDue s then some (takeInterrupt .noncritical 0x1000#32 s.pc s)
  else none

/-! ### Instruction address events (R731 to R733) -/

/-- One exact compare is enabled and matches; `range` is its pair's range enable (R731). -/
def iacExact (s : State) (enable range : Nat) (iac : Word) : Bool :=
  bit s.dbg.dbcr0 enable && !bit s.dbg.dbcr0 range && wordAligned s.pc == wordAligned iac

/-- One range is enabled and matches: enables `e1`, `e2`, range bit, exclusive bit, toggle bit (R732, R733). -/
def iacRange (s : State) (e1 e2 range excl toggle : Nat) (lo hi : Word) : Bool :=
  bit s.dbg.dbcr0 range && (bit s.dbg.dbcr0 e1 || bit s.dbg.dbcr0 e2) &&
    !(bit s.dbg.dbcr0 toggle && debugMasked s) &&
    (if bit s.dbg.dbcr0 excl then
       (wordAligned s.pc).ult (wordAligned lo) || (wordAligned hi).ule (wordAligned s.pc)
     else (wordAligned lo).ule (wordAligned s.pc) && (wordAligned s.pc).ult (wordAligned hi))

/-- Range 1:2 matches the pc. -/
def iacRange12 (s : State) : Bool := iacRange s 8 9 10 11 16 s.dbg.iac1 s.dbg.iac2

/-- Range 3:4 matches the pc. -/
def iacRange34 (s : State) : Bool := iacRange s 12 13 14 15 17 s.dbg.iac3 s.dbg.iac4

/-- A DBSR bit if a condition holds. -/
def eventBit (b : Bool) (w : Word) : Word := if b then w else 0#32

/-- The DBSR bits of the instruction address events at the pc (R731, R732). -/
def iacBits (s : State) : Word :=
  eventBit (iacExact s 8 10 s.dbg.iac1 || (iacRange12 s && bit s.dbg.dbcr0 8)) dbsrIA1 |||
    eventBit (iacExact s 9 10 s.dbg.iac2 || (iacRange12 s && bit s.dbg.dbcr0 9)) dbsrIA2 |||
    eventBit (iacExact s 12 14 s.dbg.iac3 || (iacRange34 s && bit s.dbg.dbcr0 12)) dbsrIA3 |||
    eventBit (iacExact s 13 14 s.dbg.iac4 || (iacRange34 s && bit s.dbg.dbcr0 13)) dbsrIA4

/-- The instruction address events at the pc, and the ranges that a match toggles (R731 to R733). -/
structure IacEvents where
  bits     : Word
  toggle12 : Bool
  toggle34 : Bool
deriving DecidableEq, Repr

/-- The instruction address events at the pc under one view. -/
def iacEvents (s : State) : IacEvents :=
  { bits := iacBits s, toggle12 := iacRange12 s && bit s.dbg.dbcr0 16, toggle34 := iacRange34 s && bit s.dbg.dbcr0 17 }

/-- DBCR0 with the exclusive bits of the toggled ranges inverted (R733). -/
def IacEvents.toggled (e : IacEvents) (w : Word) : Word :=
  w ^^^ ((if e.toggle12 then weight 11 else 0#32) ||| (if e.toggle34 then weight 15 else 0#32))

/-- The toggles of the instruction address ranges that match (R733), in the earlier fetch states too. -/
def toggleRanges (e : IacEvents) (s : State) : State :=
  { s with
    dbg := { s.dbg with dbcr0 := e.toggled s.dbg.dbcr0 }
    pipe := { s.pipe with contexts := s.pipe.contexts.map (fun c => { c with dbcr0 := e.toggled c.dbcr0 }) } }

/-! ### Fetch and execution (R132, R165, R226, R621, R635, R657) -/

/-- A decoded word is run; a word that is no instruction takes the program interrupt (R226, R240). -/
def runWord (w : Word) (s : State) : Host.Outcome State Fault Refusal :=
  match decode w with
  | .ok i => exec i s
  | .error _ => .next (programInterrupt esrPIL s)

/-- A fetched word is run once the fetcher has read ahead: a bus error gives the instruction machine check when it is enabled,
else ESR[MCI] and a free word (R204, R621, U9). -/
def runFetched (w : Word) (err : Bool) (s : State) : Host.Outcome State Fault Refusal :=
  if err then
    if msrME s then .next (takeInterrupt .machineCheck 0x0200#32 s.pc (setEsr esrMCI s))
    else runWord (freeNow s) (readAhead (s.pc + 4#32) (drawn 1 (setEsr (s.exc.esr ||| esrMCI) s)))
  else runWord w (readAhead (s.pc + 4#32) s)

/-- The instruction storage interrupt; `zone` is a zone fault (R636). -/
def fetchRefused (zone : Bool) (s : State) : State :=
  takeInterrupt .noncritical 0x0400#32 s.pc (setEsr ((s.exc.esr &&& esrMCI) ||| (if zone then esrDIZ else 0#32)) s)

/-- What a fetch leads to: its interrupt, or the word run (R165, R611 steps 6 and 7). -/
def runFetch (f : Fetched) (s : State) : Host.Outcome State Fault Refusal :=
  match f with
  | .miss => .next (takeInterrupt .noncritical 0x1200#32 s.pc s)
  | .refused zone => .next (fetchRefused zone s)
  | .word w err => runFetched w err s

/-- The instruction at the pc is fetched and run (R203, R204). -/
def runAtPc (s : State) : Host.Outcome State Fault Refusal := runFetch (fetchAtPc s).1 (fetchAtPc s).2

/-- One instruction: the address events first, where they act nothing is executed (R611 step 5, R731); which fetch state
arms them is open until a context synchronising event (R780, D24). An event that is only recorded leaves the instruction to
complete, with its completion event (R743; DESIGN CHOICE, notes/assumptions/34.md). -/
def runInstruction (s : State) : Host.Outcome State Fault Refusal :=
  let r := pick (iacEvents s) ((fetchViews s).map iacEvents) s
  if r.1.bits = 0#32 then runAtPc r.2
  else if eventActs s then .next (debugEvent r.2 r.1.bits s.pc (toggleRanges r.1 r.2))
  else runAtPc (recordEvent r.2 r.1.bits (toggleRanges r.1 r.2))

/-- One step once the outside has had its turn; `idle` says that it had nothing to say, so that a stopped core is stuck
(R611, R690, R722, R723, D12). An asynchronous interrupt comes before an instruction, never part-way through one (R144, R608,
U14; DESIGN CHOICE, notes/assumptions/57.md). -/
def runCore (idle : Bool) (s : State) : Host.Outcome State Fault Refusal :=
  if s.dbg.run = .stopped then (if idle then .fault .debugStop else .next s)
  else match asyncInterrupt s with
    | some t => .next t
    | none =>
      if s.dbg.run = .debugWait then (if idle then .fault .debugStop else .next s)
      else if msrWE s then .next s
      else runInstruction s

/-- A step: the next inputs from outside, if there are any, then the core (R611, R712). What other bus masters were to write
inside the last instruction has landed by now, and the fetcher may read ahead before the inputs (R190, R204). A reset is
the whole step. -/
def runStep (s : State) : Host.Outcome State Fault Refusal :=
  let s0 := busLeftOver s
  match s0.env with
  | [] => runCore true s0
  | es :: rest =>
    let r := applyInputs es { readAhead s0.pc s0 with env := rest }
    if r.2 then .next r.1 else runCore false r.1

/-- A word stored where the next instruction is fetched, in the byte order of that place; a copy of its line in the
instruction cache is dropped, and no earlier write or fetch state is left for the fetch to find. -/
def placeWord (w : Word) (s : State) : State :=
  match xlateFetch s s.pc with
  | some x =>
    synchronizeContext (allPerformed (setMemBytes x.ra (orderBytes x.attrs.e (wordBytes w)) (dropInstrLine x.ra s)))
  | none => s

end Sys2Proof.Machine
end

