-- ==== Sys2Proof/Machine/Step.lean ====
section
/-! DEFINITION. The step of the machine, and the placing of an instruction where it is fetched next. -/

namespace Sys2Proof.Machine

/-- One step of the machine (R611): Machine/Cycle.lean. -/
def step (s : State) : Host.Outcome State Fault Refusal := runStep s

/-- The state with the instruction word `w` stored where the next step fetches (one 32-bit word, R220). -/
def State.withFetchWord (s : State) (nbits w : Nat) : State :=
  if nbits ≤ 32 then placeWord (BitVec.ofNat 32 w) s else s

end Sys2Proof.Machine
end

