-- ==== Sys2Proof/Safety.lean ====
section
/-! DEFINITION. What the statements about the machine are phrased in: the invariant of every step, the states in which no
debug event is armed, and the data accesses whose outcome the spec fixes. -/

namespace Sys2Proof.Machine

/-! ### The invariant -/

/-- The two low-order bits of an address are 0. -/
def aligned (a : Word) : Bool := (a &&& 3#32) == 0#32

/-- A class of the data cache, number `k` of `n`: its valid lines belong to it, and it holds no line twice (R181). -/
def DSet.ok (n k : Nat) (d : DSet) : Bool :=
  (!d.a.valid || d.a.line.toNat % n == k) && (!d.b.valid || d.b.line.toNat % n == k) &&
    !(d.a.valid && d.b.valid && d.a.line == d.b.line)

/-- A class of the instruction cache, as `DSet.ok` (R181). -/
def ISet.ok (n k : Nat) (d : ISet) : Bool :=
  (!d.a.valid || d.a.line.toNat % n == k) && (!d.b.valid || d.b.line.toNat % n == k) &&
    !(d.a.valid && d.b.valid && d.a.line == d.b.line)

/-- Storage is in canonical form and inside the 4GB address space (R130). -/
def memOk (s : State) : Bool := Memory.wf s.sto.mem && s.sto.mem.all (fun c => decide (c.1 < 2 ^ 32))

/-- The data cache is in canonical form and every class is right. -/
def dcacheOk (s : State) : Bool :=
  mapWf DSet.empty s.sto.dcache &&
    s.sto.dcache.all (fun kd =>
      decide (kd.1 < s.params.dcacheSize.classes) && kd.2.ok s.params.dcacheSize.classes kd.1)

/-- The instruction cache is in canonical form and every class is right. -/
def icacheOk (s : State) : Bool :=
  mapWf ISet.empty s.sto.icache &&
    s.sto.icache.all (fun kd =>
      decide (kd.1 < s.params.icacheSize.classes) && kd.2.ok s.params.icacheSize.classes kd.1)

/-- The reserved bits of the registers are 0 (D1, D11). -/
def reservedZero (s : State) : Bool :=
  s.xer &&& 0x1FFFFF80#32 == 0#32 && s.exc.srr0 &&& 0x00000003#32 == 0#32 && s.exc.srr2 &&& 0x00000003#32 == 0#32 &&
    s.exc.evpr &&& 0x0000FFFF#32 == 0#32 && s.exc.esr &&& 0x70337FFF#32 == 0#32 &&
    s.tmr.tsr &&& 0x03FFFFFF#32 == 0#32 && s.tmr.tcr &&& 0x003FFFFF#32 == 0#32 &&
    s.mmu.pid &&& 0xFFFFFF00#32 == 0#32 && s.attr.ccr0 &&& 0xFC0CF0EE#32 == 0#32 &&
    s.dbg.dbcr0 &&& 0x00003FFE#32 == 0#32 && s.dbg.dbcr1 &&& 0x003000FF#32 == 0#32 &&
    s.dbg.dbsr &&& 0x0003FCFF#32 == 0#32

/-- With the MMU tied off MSR[IR, DR] are 0 (R11, R189). -/
def tiedOff (s : State) : Bool := s.params.mmuEnabled || (!msrIR s && !msrDR s)

/-- At most three stores and two flushes are under way (R191, R796). -/
def lateOk (s : State) : Bool := decide (s.sto.late.length ≤ 5)

/-- THE INVARIANT: the pc is word aligned (R32), the reserved bits are 0, the MMU tie-off holds, storage and both caches are in
canonical form, and the writes under way are no more than the core can have. -/
def inv (s : State) : Bool :=
  aligned s.pc && reservedZero s && tiedOff s && memOk s && dcacheOk s && icacheOk s && lateOk s

/-! ### Debug events that are not armed -/

/-- No completion, branch, exception or trap event and no data address or value event is enabled (R717, R718). -/
def quiet (s : State) : Bool :=
  !dbIC s && !dbBT s && !dbEDE s && !dbTDE s && field s.dbg.dbcr1 0 4 == 0#4

/-! ### The machine before an instruction -/

/-- Nothing from outside is waiting and nothing stops the core from running the instruction at the pc: it runs, is not in
the wait state, no asynchronous interrupt is due, and no instruction address event matches (R611). -/
def ready (s : State) : Bool :=
  s.env.isEmpty && s.inp.bus.isEmpty && s.dbg.run == .running && (asyncInterrupt s).isNone && !msrWE s && iacBits s == 0#32

/-- Nothing of an earlier state is left for the fetch of the instruction at the pc: no change of the fetch state since the last
context synchronising event, no prefetched word for it, and every write of the core performed (R195, R196, R203, R204). -/
def fresh (s : State) : Bool :=
  s.pipe.contexts.isEmpty && s.pipe.queue.all (fun q => q.1 != s.pc) && s.sto.late.isEmpty

/-- The word that the instruction cache holds for a real address, if it holds its line (R184). -/
def instrCopy (s : State) (ra : Word) : Option Word :=
  (iWay s ra).map (fun way => lineWord ((iSet s (iClass s ra)).get way).words ra)

/-- Storage without the newest `k` of the writes to a real address's line that may be under way: an instruction fetch finds one
of these; a caching inhibited one finds the settled stores (R191, R203, R787). -/
def withoutWrites (s : State) (ra : Word) (inhibited : Bool) (k : Nat) : State :=
  let near := s.sto.late.filter (fun w => w.old.any (fun o => decide (lineOf o.1 = lineOf ra)))
  let missing := (near.takeWhile (fun w => !inhibited || !w.settled)).take k
  missing.foldl (fun u w => w.old.foldl (fun u o => setMemByte o.1 o.2 u) u) s

/-- `t` is `s` once the fetcher has read ahead from an address on (R176, R184, R204): only the prefetch queue, the instruction
cache and the counter of free values differ; the queue holds words of that address and the two after it alone; and each line
of the instruction cache is as it was, or displaced, or, unless FWOA is 1 or there is no array, filled by such a read. From
guarded storage in real mode nothing is read, and then nothing but the queue differs. -/
def ReadsAhead (s t : State) (ea : Word) : Prop :=
  let window : List Word := [ea, ea + 4#32, ea + 8#32]
  t = { s with pipe := { s.pipe with queue := t.pipe.queue }, sto := { s.sto with icache := t.sto.icache }, free := t.free } ∧
    (∀ q ∈ t.pipe.queue, q.1 ∈ window) ∧
    (∀ a, instrCopy t a = instrCopy s a ∨ instrCopy t a = none ∨
      (bit s.attr.ccr0 23 = false ∧ s.params.icacheSize.classes ≠ 0 ∧
        ∃ b ∈ window, ∃ y k, xlateFetch s b = some y ∧ execOk s y = true ∧ y.attrs.i = false ∧ lineOf y.ra = lineOf a ∧
          instrCopy t a = some (memWord (withoutWrites s a false k) (wordAligned a) y.attrs.e))) ∧
    (bit s.msr 26 = false → (∀ b ∈ window, bit s.attr.sgr (b.toNat / 2 ^ 27) = true) →
      t = { s with pipe := { s.pipe with queue := t.pipe.queue } })

/-- No other bus master writes inside the instruction (R190). -/
def undisturbed (s : State) : Bool := s.inp.bus.isEmpty

/-! ### Data accesses whose outcome the spec fixes -/

/-- The accesses of an instruction are plain: no bus error, no line buffer, no other bus master writing between them, and
either all to cachable storage, or all to caching inhibited storage that is not write-through and has no cached copy (R173,
R174, R183, R190). -/
def plain (s : State) (us : List UnitAccess) : Bool :=
  s.params.busErrors.isEmpty && !ccrLWL s && s.sto.buffer.isNone && undisturbed s &&
    (us.all (fun u => !u.x.attrs.i) || us.all (fun u => u.x.attrs.i && !u.x.attrs.w && (dWay s u.x.ra).isNone))

/-- Every clean line of the data cache holds what storage holds (R182; R192 says when it may not). -/
def CleanAgrees (s : State) : Prop :=
  ∀ ra way, dWay s ra = some way → ((dSet s (dClass s ra)).get way).dirty = false → dataByte s ra = memByte s ra

/-- Storage and the data cache are right, and clean lines agree with storage. -/
structure Cached (s : State) : Prop where
  mem   : memOk s = true
  dc    : dcacheOk s = true
  clean : CleanAgrees s

/-- The bytes that accesses find, in address order, each with its E attribute. -/
def viewUnits (s : State) (us : List UnitAccess) : List (Byte × Bool) :=
  us.flatMap (fun u => (List.range u.n).map (fun j => (dataByte s (u.x.ra + BitVec.ofNat 32 j), u.x.attrs.e)))

/-- What an address reads as once bytes are stored from a real address on. -/
def storeView (m : Word → Byte) (ra : Word) : List Byte → Word → Byte
  | [] => m
  | b :: bs => storeView (fun a => if a = ra then b else m a) (ra + 1#32) bs

/-- What an address reads as once bytes in address order are stored by accesses. -/
def storeUnitsView (m : Word → Byte) : List UnitAccess → List Byte → Word → Byte
  | [], _ => m
  | u :: us, bs => storeUnitsView (storeView m u.x.ra (bs.take u.n)) us (bs.drop u.n)

/-- An address is one of the bytes that accesses touch. -/
def touched (us : List UnitAccess) (a : Word) : Bool :=
  us.any (fun u => (List.range u.n).any (fun j => a == u.x.ra + BitVec.ofNat 32 j))

/-! ### What an instruction changes, in the words of the rules -/

/-- At most general registers, pc, CR, XER and the counter of free values differ, and every byte reads as before. -/
def OnlyUser (s t : State) : Prop :=
  t = { s with gpr := t.gpr, pc := t.pc, cr := t.cr, xer := t.xer, free := t.free } ∧ ∀ a, dataByte t a = dataByte s a

/-- At most general registers, pc, CR, the counter of free values, the bytes of storage, the writes under way and the data
cache differ. -/
def OnlyAccess (s t : State) : Prop :=
  t = { s with gpr := t.gpr, pc := t.pc, cr := t.cr, free := t.free,
               sto := { s.sto with mem := t.sto.mem, dcache := t.sto.dcache, late := t.sto.late } }

/-- At most pc, CR, the counter of free values, the bytes of storage, the writes under way, the data cache and the line buffer
differ. -/
def OnlyStorage (s t : State) : Prop :=
  t = { s with pc := t.pc, cr := t.cr, free := t.free,
               sto := { s.sto with mem := t.sto.mem, dcache := t.sto.dcache, buffer := t.sto.buffer, late := t.sto.late } }

/-- At most pc, CR and the counter of free values differ. -/
def OnlyPc (s t : State) : Prop := t = { s with pc := t.pc, cr := t.cr, free := t.free }

/-- One general register takes a value, the others stay. -/
def WritesGpr (s t : State) (r : Reg) (v : Word) : Prop := gpr t r = v ∧ ∀ q, q ≠ r → gpr t q = gpr s q

/-- XER after an arithmetic instruction: CA if it is written, OV and SO with OE, every other bit as before (R37, R330). -/
def WritesXer (s t : State) (ca : Option Bool) (oe ov : Bool) : Prop :=
  bit t.xer 0 = (bit s.xer 0 || (oe && ov)) ∧ bit t.xer 1 = (if oe then ov else bit s.xer 1) ∧
    bit t.xer 2 = ca.getD (bit s.xer 2) ∧ ∀ i, 3 ≤ i → i < 32 → bit t.xer i = bit s.xer i

/-- CR after an instruction that may record: CR0 from the result and the XER[SO] now in force, every other bit as before
(R35). -/
def WritesCr0 (s t : State) (rc : Bool) (v : Word) : Prop :=
  (rc = true →
      bit t.cr 0 = decide (v.toInt < 0) ∧ bit t.cr 1 = decide (0 < v.toInt) ∧ bit t.cr 2 = decide (v.toInt = 0) ∧
        bit t.cr 3 = bit t.xer 0) ∧
    (rc = false → t.cr = s.cr) ∧ ∀ i, 4 ≤ i → i < 32 → bit t.cr i = bit s.cr i

/-- The whole effect of an instruction that computes a register: RT, XER, CR0, the next instruction, nothing else. -/
def Computes (s t : State) (rt : Reg) (v : Word) (ca : Option Bool) (ov oe rc : Bool) : Prop :=
  WritesGpr s t rt v ∧ WritesXer s t ca oe ov ∧ WritesCr0 s t rc v ∧ t.pc = s.pc + 4#32 ∧ OnlyUser s t

/-- Bit 31 of an X-form without a record form: at most CR0 changes, and only when the bit is 1 (R241). -/
def Bit31 (s t : State) (x31 : Bool) : Prop :=
  (x31 = false → t.cr = s.cr) ∧ ∀ i, 4 ≤ i → i < 32 → bit t.cr i = bit s.cr i

/-- CR field `bf` takes four bits, every other CR bit stays (R33). -/
def WritesCrField (s t : State) (bf : BitVec 3) (lt gt eq so : Bool) : Prop :=
  bit t.cr (4 * bf.toNat) = lt ∧ bit t.cr (4 * bf.toNat + 1) = gt ∧ bit t.cr (4 * bf.toNat + 2) = eq ∧
    bit t.cr (4 * bf.toNat + 3) = so ∧
    ∀ i, i < 32 → (i < 4 * bf.toNat ∨ 4 * bf.toNat + 4 ≤ i) → bit t.cr i = bit s.cr i

/-- The number that bytes in address order stand for under a byte order: the first byte the most significant in big endian
storage, the least significant in little endian storage (R131). -/
def scalarNat (e : Bool) (bs : List Byte) : Nat :=
  (if e then bs.reverse else bs).foldl (fun n b => 256 * n + b.toNat) 0

/-- The byte order of an access: the E attribute of its first byte's place (R131, D18). -/
def firstOrder (bs : List (Byte × Bool)) : Bool := (bs.head?.map (·.2)).getD false

/-- The byte order of a store: the E attribute of its first byte's place (R131, D18). -/
def storeOrder (us : List UnitAccess) : Bool := (us.head?.map (·.x.attrs.e)).getD false

/-- A noncritical interrupt has been entered from `s` with a saved address (R604): nothing but the interrupt registers, the
MSR and the pc differs, and no prefetched word and no earlier fetch state is left (R195). -/
def EntersNoncritical (s t : State) (off a : Word) : Prop :=
  t.exc.srr0 = a ∧ t.exc.srr1 = s.msr ∧ t.exc.srr2 = s.exc.srr2 ∧ t.exc.srr3 = s.exc.srr3 ∧ t.exc.evpr = s.exc.evpr ∧
    t.msr = s.msr &&& 0x00021200#32 ∧ t.pc = (s.exc.evpr &&& 0xFFFF0000#32) ||| off ∧
    t = { s with exc := t.exc, msr := t.msr, pc := t.pc, pipe := Pipe.empty }

/-- What the fetch side holds after an instruction that changes the fetch state: the state before it is one that later fetches
may still be made under (R186, R195, D17, D24). -/
def pipeRemembering (s : State) : Pipe :=
  { s.pipe with contexts :=
      { relocate := bit s.msr 26, problem := bit s.msr 17, mmu := s.mmu, attr := s.attr, dbcr0 := s.dbg.dbcr0,
        iac1 := s.dbg.iac1, iac2 := s.dbg.iac2, iac3 := s.dbg.iac3, iac4 := s.dbg.iac4 } :: s.pipe.contexts }

/-- The state with the debug interrupt entered from it, some DBSR bits recorded and an address saved (R605, R660). -/
def debugEntered (s : State) (bits a : Word) : State :=
  { s with exc := { s.exc with srr2 := wordAligned a, srr3 := s.msr }, msr := s.msr &&& 0x00001000#32,
           pc := (s.exc.evpr &&& 0xFFFF0000#32) ||| 0x2000#32, pipe := Pipe.empty,
           dbg := { s.dbg with dbsr := s.dbg.dbsr ||| bits } }

/-- The state `t` once a debug event with some DBSR bits has been raised under the debug modes of `s`, `a` being the address that
it saves (R721 to R725): external mode stops the core there, internal mode with MSR[DE] = 1 takes the debug interrupt, debug
wait mode stops the core too, and else the bits are only recorded. While DBCR0[IDM] = 1 and MSR[DE] = 0 DBSR[IDE] is set as
well, also where DBCR0[EDM] = 1 (that is the model's choice but for a trap, notes/assumptions/55.md). -/
def afterEvent (s t : State) (bits a : Word) : State :=
  let edm := bit s.dbg.dbcr0 0; let idm := bit s.dbg.dbcr0 1; let de := bit s.msr 22
  let recorded : State :=
    { t with dbg := { t.dbg with dbsr := t.dbg.dbsr ||| bits ||| (if idm && !de then 0x00100000#32 else 0#32) } }
  if bits = 0#32 then t
  else if edm then { recorded with pc := a, dbg := { recorded.dbg with run := .stopped } }
  else if idm then (if de then debugEntered t bits a else recorded)
  else if bit s.msr 21 && s.params.jtagDebugWait then { recorded with pc := a, dbg := { recorded.dbg with run := .debugWait } }
  else recorded

/-- The entry of the TLB with index `m` matches an effective address: it is valid, its TID is 0 or the PID's, and its page
holds the address (R151, R153). -/
def Matches (s : State) (ea : Word) (m : Fin 64) : Prop :=
  let e := s.mmu.tlb[m]
  let page := 1024 * 4 ^ e.size.toNat
  e.v = true ∧ (e.tid = 0#8 ∨ e.tid.toNat = s.mmu.pid.toNat % 256) ∧ e.epn.toNat * 1024 / page = ea.toNat / page

/-- The entry with index `n` is the matching one of lowest index (R154, D16). -/
def FirstMatch (s : State) (ea : Word) (n : Fin 64) : Prop := Matches s ea n ∧ ∀ m, m < n → ¬ Matches s ea m

/-- The zone field that an entry names: two bits of the ZPR, zone 0 the most significant (R66, R160). -/
def zoneNat (s : State) (e : TlbEntry) : Nat := s.mmu.zpr.toNat / 4 ^ (15 - e.zsel.toNat) % 4

/-- Some byte of `n` from a real address on answers an access of one kind with a bus error (D7). -/
def MeetsBusError (s : State) (k : BusErrorRange → Bool) (ra : Word) (n : Nat) : Prop :=
  ∃ r ∈ s.params.busErrors, k r = true ∧ ∃ j, j < n ∧
    r.lo.toNat ≤ (ra + BitVec.ofNat 32 j).toNat ∧ (ra + BitVec.ofNat 32 j).toNat ≤ r.hi.toNat

/-- The instruction cache of `t` is that of `s` once the fetcher has read at an address ahead of the program (R176, R184): a
cachable line that it may read, is absent and meets no bus error is filled from storage as the fetcher finds it, each other line
staying or being displaced; every other read leaves each line as it was. -/
def ReadsLine (s t : State) (ea : Word) : Prop :=
  let fills (y : Xlate) : Prop :=
    xlateFetch s ea = some y ∧ execOk s y = true ∧ y.attrs.i = false ∧ (y.real && y.attrs.g) = false ∧
      instrCopy s y.ra = none ∧ bit s.attr.ccr0 23 = false ∧ s.params.icacheSize.classes ≠ 0 ∧
      ¬ MeetsBusError s (·.onFetch) (lineBase (lineOf y.ra)) 32
  (∀ y, fills y → ∃ k, ∀ a,
    if lineOf a = lineOf y.ra then instrCopy t a = some (memWord (withoutWrites s a false k) (wordAligned a) y.attrs.e)
    else instrCopy t a = instrCopy s a ∨ instrCopy t a = none) ∧
  ((∀ y, ¬ fills y) → ∀ a, instrCopy t a = instrCopy s a)

/-- The vectors of R607. -/
def vectors : List Word :=
  [0x0100#32, 0x0200#32, 0x0300#32, 0x0400#32, 0x0500#32, 0x0600#32, 0x0700#32, 0x0800#32, 0x0C00#32, 0x0F20#32, 0x1000#32,
   0x1010#32, 0x1020#32, 0x1100#32, 0x1200#32, 0x2000#32]

/-- Bit `i` is under the mask MB to ME, which wraps when MB > ME (R16). -/
def underMask (mb me i : Nat) : Bool := if mb ≤ me then decide (mb ≤ i ∧ i ≤ me) else decide (mb ≤ i ∨ i ≤ me)

end Sys2Proof.Machine
end

