-- ==== Sys2Proof/Certificates/Slice0/Obligations.lean ====
section
/-! DEFINITION. The statements about the machine that provers are asked for. A list of instructions stands for one
statement about each of them. `quiet` says that no completion, branch, exception, trap or data address event is armed;
the statements about those events are in the debug section. -/

open Sys2Proof Sys2Proof.Machine

/-! ### Encoding -/

/-- Decoding what the encoder writes gives the instruction back, for every well-formed instruction and every operand
(R222 to R230). Choices and presumptions it rests on: notes/assumptions/43.md. -/
def Obligations.EncodeDecode : Prop := ∀ i : Instr, i.wellFormed = true → decode (encode i) = .ok i

/-- Every word the decoder accepts names a well-formed instruction. The word agrees with that instruction's own
encoding, which has the reserved bits 0, on the primary opcode, on the extended opcode where there is one, and on every
bit that is 1 in the encoding but for bit 31 of `stwcx.`, which also stands for the invalid form with that bit 0; and
the encoding decodes to the instruction too; so no word of another row or of a reserved opcode is accepted in its place
(R222, R226, R240 to R242, R318, D20). Choices and presumptions it rests on: notes/assumptions/14.md. -/
def Obligations.DecodeWellFormed : Prop :=
  ∀ (w : Word) (i : Instr), decode w = .ok i →
    i.wellFormed = true ∧ decode (encode i) = .ok i ∧ field w 0 6 = field (encode i) 0 6 ∧
      (field w 0 6 ∈ [4#6, 19#6, 31#6] →
        field w 22 9 = field (encode i) 22 9 ∧
          -- bit 21 belongs to the extended opcode or is OE, but for two XO-form rows that reserve it
          ((∀ rt ra rb rc, i ≠ .mulhw rt ra rb rc ∧ i ≠ .mulhwu rt ra rb rc) → bit w 21 = bit (encode i) 21)) ∧
      ∀ k, k < 32 → bit (encode i) k = true → bit w k = true ∨ (k = 31 ∧ ∃ rs ra rb, i = .stwcxRc rs ra rb)

/-- Thirteen words written out from the spec's encodings decode to the instructions they stand for (R291, R318, R331,
R347, R411, R441, R451, R461, R484, R507, R569, R570). Choices and presumptions it rests on: notes/assumptions/43.md. -/
def Obligations.DecodeWords : Prop :=
  decode 0x7C642A14#32 = .ok (.add 3 4 5 false false) ∧ decode 0x7C642E15#32 = .ok (.add 3 4 5 true true) ∧
    decode 0x1C64FFFD#32 = .ok (.mulli 3 4 0xFFFD) ∧ decode 0x7C832838#32 = .ok (.and 4 3 5 false) ∧
    decode 0x7F842800#32 = .ok (.cmp 7 4 5 false) ∧ decode 0x4BFFFFF9#32 = .ok (.b 0x3FFFFF8 false true) ∧
    decode 0x4C442A02#32 = .ok (.crand 2 4 5) ∧ decode 0x7C832830#32 = .ok (.slw 4 3 5 false) ∧
    decode 0x7C60292D#32 = .ok (.stwcxRc 3 0 5) ∧ decode 0xBBA10000#32 = .ok (.lmw 29 1 0) ∧
    decode 0x7C002FEC#32 = .ok (.dcbz 0 5 false) ∧ decode 0x7C78F3A6#32 = .ok (.mtspr 3 0x3D8) ∧
    decode 0x7C6D42E6#32 = .ok (.mftb 3 0x10D)

/-! ### Step and reset -/

/-- A step of a ready machine, with no earlier fetch state and no prefetched word for the pc, runs the instruction that
the four bytes at the pc decode to, in the byte order of that storage: where the storage is caching inhibited and holds
no cached copy but what a reset left, and every store still under way is one that an `isync` has settled, on the very
state but for what the fetcher reads ahead, which in guarded real storage is nothing (R132, R165, R176, R204, R611,
R787). Choices and presumptions it rests on: notes/assumptions/9.md, 11.md, 54.md. -/
def Obligations.StepRunsDecoded : Prop :=
  ∀ (s : State) (x : Xlate) (i : Instr) (rest : List Byte),
    ready s = true → icacheOk s = true → s.pipe.contexts = [] → (∀ q ∈ s.pipe.queue, q.1 ≠ s.pc) →
    (∀ w ∈ s.sto.late, w.settled = true) → s.params.busErrors = [] → xlateFetch s s.pc = some x → execOk s x = true →
    x.attrs.i = true → (∀ way, iWay s x.ra = some way → ((iSet s (iClass s x.ra)).get way).undef = true) →
    i.wellFormed = true →
    decodeBytes (orderBytes x.attrs.e [memByte s x.ra, memByte s (x.ra + 1#32), memByte s (x.ra + 2#32),
      memByte s (x.ra + 3#32)]) = .ok (i, rest) →
    ∃ t, step s = exec i t ∧ ReadsAhead s t (s.pc + 4#32)

/-- The fetch of a ready machine. With nothing of an earlier state left, a cachable fetch runs the cached word on a hit
and storage's word on a miss; before anything is read ahead, a hit leaves every line as it was, a miss fills the line
with storage's words unless FWOA is 1 or there is no array, and no other line changes but for one that the fill
displaces (R132, R184). With no earlier fetch state a word that the prefetch queue holds for the pc is the one run, and
the instruction cache keeps what it holds, its line having been filled when the word was read; else the word run is the
cached word, or storage's word as it stands or without the newest of the writes to its line that are under way: the old
or the new one (R174, R184, R203, R204, R787). After the fetch the fetcher reads ahead, which leaves the line just
fetched from as it is. Choices and presumptions it rests on: notes/assumptions/9.md, 10.md, 11.md, 54.md. -/
def Obligations.StepRunsFetched : Prop :=
  ∀ s : State, ready s = true → s.pipe.contexts = [] → s.params.busErrors = [] → icacheOk s = true →
    -- the machine after the fetch alone: the instruction cache and the counter of free values
    let after (c : List (Nat × ISet)) (n : Nat) : State := { s with sto := { s.sto with icache := c }, free := s.free + n }
    (∀ w, (s.pipe.queue.find? (fun q => q.1 == s.pc)).map (·.2) = some (.word w false) →
      ∃ t, step s = runWord w t ∧ ReadsAhead s t (s.pc + 4#32)) ∧
    ∀ x : Xlate, (∀ q ∈ s.pipe.queue, q.1 ≠ s.pc) → xlateFetch s s.pc = some x → execOk s x = true →
      (fresh s = true → x.attrs.i = false →
        let w := (instrCopy s x.ra).getD (memWord s x.ra x.attrs.e)
        ∃ c t, step s = runWord w t ∧ ReadsAhead (after c 0) t (s.pc + 4#32) ∧
          (∀ a, lineOf a = lineOf x.ra → instrCopy t a = instrCopy (after c 0) a) ∧
          (instrCopy s x.ra ≠ none → ∀ a, instrCopy (after c 0) a = instrCopy s a) ∧
          (instrCopy s x.ra = none →
            (ccrFWOA s = true ∨ s.params.icacheSize.classes = 0 → c = s.sto.icache) ∧
            (ccrFWOA s = false → s.params.icacheSize.classes ≠ 0 →
              ∀ a, if lineOf a = lineOf x.ra then instrCopy (after c 0) a = some (memWord s (wordAligned a) x.attrs.e)
                else instrCopy (after c 0) a = instrCopy s a ∨ instrCopy (after c 0) a = none))) ∧
      ∃ w c n t, step s = runWord w t ∧ ReadsAhead (after c n) t (s.pc + 4#32) ∧
        (instrCopy s x.ra = some w ∨ ∃ k, w = memWord (withoutWrites s x.ra x.attrs.i k) x.ra x.attrs.e)

/-- The fetch of a ready machine with nothing of an earlier state left. With MSR[IR] = 1 and no matching entry it takes
the instruction TLB miss, ESR and DEAR as they were; through the matching entry of lowest index, a guarded page, a zone
that denies access to the problem state, or a page without EX in a zone that does not grant all access takes the
instruction storage interrupt with ESR[DIZ] for the zone alone; any other entry, and every address with MSR[IR] = 0, is
fetched from, at the real address of the page. A fetch from storage that answers with a bus error takes the instruction
machine check with ESR = MCI alone while MSR[ME] = 1; with MSR[ME] = 0 it sets ESR[MCI] and runs an open word (R32,
R153, R154, R160, R162, R606, R621, R635, R636, R657, U9; that the lowest index counts is the spec's choice D16,
notes/assumptions/18.md; where the fields of an entry and of the ZPR stand is presumed, notes/assumptions/44.md).
Choices and presumptions it rests on: notes/assumptions/11.md, 13.md, 18.md, 29.md, 39.md, 44.md. -/
def Obligations.FetchFaults : Prop :=
  ∀ s : State, ready s = true → fresh s = true → quiet s = true → aligned s.pc = true →
    let user : Bool := bit s.msr 17
    (bit s.msr 26 = true →
      ((∀ n, ¬ Matches s s.pc n) →
        ∃ t, step s = .next t ∧ EntersNoncritical s t 0x1200#32 (wordAligned s.pc) ∧ t.exc.esr = s.exc.esr ∧
          t.exc.dear = s.exc.dear) ∧
      (∀ n : Fin 64, FirstMatch s s.pc n →
        let e := s.mmu.tlb[n]; let z := zoneNat s e
        let denied : Bool := user && z == 0
        let allowed : Bool := !e.g && !denied && (e.ex || z == 3 || (!user && z == 2))
        (allowed = false →
          ∃ t, step s = .next t ∧ EntersNoncritical s t 0x0400#32 (wordAligned s.pc) ∧ t.exc.dear = s.exc.dear ∧
            t.exc.esr = (s.exc.esr &&& 0x80000000#32) ||| (if denied then 0x00400000#32 else 0#32)) ∧
        let page := 1024 * 4 ^ e.size.toNat
        (allowed = true → ∃ x, xlateFetch s s.pc = some x ∧ execOk s x = true ∧ x.attrs.i = e.i ∧ x.attrs.e = e.e ∧
          x.ra.toNat = e.rpn.toNat * 1024 / page * page + s.pc.toNat % page))) ∧
    (bit s.msr 26 = false → ∃ x, xlateFetch s s.pc = some x ∧ execOk s x = true ∧ x.ra = s.pc) ∧
    (∀ x, xlateFetch s s.pc = some x → execOk s x = true → iWay s x.ra = none → MeetsBusError s (·.onFetch) x.ra 4 →
      (bit s.msr 19 = true →
        step s = .next
          { s with exc := { s.exc with srr2 := wordAligned s.pc, srr3 := s.msr, esr := 0x80000000#32 }, msr := 0#32,
                   pc := (s.exc.evpr &&& 0xFFFF0000#32) ||| 0x0200#32, pipe := Pipe.empty }) ∧
      (bit s.msr 19 = false → icacheOk s = true →
        ∃ w t, step s = runWord w t ∧
          ReadsAhead { s with exc := { s.exc with esr := s.exc.esr ||| 0x80000000#32 }, free := s.free + 1 } t (s.pc + 4#32)))

/-- A word that is no instruction takes the program interrupt with ESR[PIL] alone beside ESR[MCI] (R226, R640, R641).
Choices and presumptions it rests on: notes/assumptions/13.md. -/
def Obligations.IllegalWord : Prop :=
  ∀ (s : State) (w : Word) (e : DecodeError), decode w = .error e → quiet s = true → s.dbg.run ≠ .debugWait →
    ∃ t, runWord w s = .next t ∧ EntersNoncritical s t 0x0700#32 (wordAligned s.pc) ∧
      t.exc.esr = (s.exc.esr &&& 0x80000000#32) ||| 0x08000000#32 ∧ t.exc.dear = s.exc.dear

/-- The values the spec states for reset: pc, MSR, ESR, the cachability, write-through, guarded, endian and U0
registers, CCR0, TCR[WRC, ARE], DBCR0[EDM, RST], DBCR1 (R111, R112). Choices and presumptions it rests on:
notes/assumptions/2.md. -/
def Obligations.ResetValues : Prop :=
  State.reset.pc = 0xFFFFFFFC#32 ∧ State.reset.msr = 0#32 ∧ State.reset.exc.esr = 0#32 ∧ State.reset.attr.dccr = 0#32 ∧
    State.reset.attr.dcwr = 0#32 ∧ State.reset.attr.iccr = 0#32 ∧ State.reset.attr.sgr = 0xFFFFFFFF#32 ∧
    State.reset.attr.sler = 0#32 ∧ State.reset.attr.su0r = 0#32 ∧ State.reset.attr.ccr0 = 0x00700000#32 ∧
    bit State.reset.tmr.tcr 2 = false ∧ bit State.reset.tmr.tcr 3 = false ∧ bit State.reset.tmr.tcr 9 = false ∧
    bit State.reset.dbg.dbcr0 0 = false ∧ bit State.reset.dbg.dbcr0 2 = false ∧ bit State.reset.dbg.dbcr0 3 = false ∧
    State.reset.dbg.dbcr1 = 0#32 ∧ field State.reset.dbg.dbsr 22 2 = 3#2

/-- A `mtspr` to DBCR0 with a reset code resets at once: the values of R112 hold, DBSR[MRR] tells the kind, storage
behind the bus and TSR[WRS] stay, no earlier bus error and nothing fetched earlier is left, and nothing else executes
(R112, R744, R760, R761, D13, D14; that storage stays is the model's, notes/assumptions/51.md). Choices and presumptions
it rests on: notes/assumptions/9.md, 37.md, 51.md. -/
def Obligations.SoftwareReset : Prop :=
  ∀ (s : State) (rs : Reg), bit s.msr 17 = false → field (gpr s rs) 2 2 ≠ 0#2 →
    ∃ t, exec (.mtspr rs 0x3F2#10) s = .next t ∧ t.pc = 0xFFFFFFFC#32 ∧ t.msr = 0#32 ∧ t.exc.esr = 0#32 ∧
      t.attr = State.reset.attr ∧ bit t.tmr.tcr 2 = false ∧ bit t.tmr.tcr 3 = false ∧ bit t.tmr.tcr 9 = false ∧
      field t.tmr.tsr 2 2 = field s.tmr.tsr 2 2 ∧ bit t.dbg.dbcr0 0 = false ∧ field t.dbg.dbcr0 2 2 = 0#2 ∧
      t.dbg.dbcr1 = 0#32 ∧ field t.dbg.dbsr 22 2 = field (gpr s rs) 2 2 ∧ t.inp.dataMachineCheck = false ∧ t.pipe = Pipe.empty ∧
      ∀ a, memByte t a = memByte s a

/-! ### Invariants and whole-machine rules -/

/-- Reset has the invariant. Choices and presumptions it rests on: notes/assumptions/3.md, 4.md, 12.md. -/
def Obligations.ResetInv : Prop := inv State.reset = true

/-- Every step keeps the invariant: pc aligned, reserved bits 0, the MMU tie-off, storage and both caches canonical, at
most five writes under way; and the implementation parameters never change (R32, R44, R130, R181, R189, R191, R796, D1,
D11). Choices and presumptions it rests on: notes/assumptions/10.md, 12.md, 54.md. -/
def Obligations.StepKeepsInv : Prop :=
  ∀ s t : State, inv s = true → step s = .next t → inv t = true ∧ t.params = s.params

/-- User mode is confined: an instruction run in the problem state leaves the MMU, the storage attributes, the timers,
the SPRGs, the debug registers but DBSR, the DCRs and ICDBDR alone, and either the MSR and the interrupt registers stay
as well, or an interrupt has been taken: supervisor state, at a vector (R680 to R682). -/
def Obligations.UserConfined : Prop :=
  ∀ (i : Instr) (s t : State), bit s.msr 17 = true → exec i s = .next t →
    t.mmu = s.mmu ∧ t.attr = s.attr ∧ t.tmr = s.tmr ∧ t.sprg = s.sprg ∧ t.dcr = s.dcr ∧ t.icdbdr = s.icdbdr ∧
      { t.dbg with dbsr := s.dbg.dbsr, run := s.dbg.run } = s.dbg ∧
      ((t.msr = s.msr ∧ t.exc = s.exc) ∨
        (bit t.msr 17 = false ∧ ∃ off ∈ vectors, t.pc = (s.exc.evpr &&& 0xFFFF0000#32) ||| off))

/-- The reservation bit. Only `lwarx` sets it and only `stwcx.` clears it, whatever else is executed, apart from the two
`mtspr` that can reset the core, to DBCR0 and to TBL. A `lwarx` that completes leaves it set and a `stwcx.` that
completes leaves it clear, whatever their addresses; `stwcx.` stores if and only if it is set. A step changes it by the
instruction it executes or by a reset and not otherwise: no interrupt, no other bus master (R103). -/
def Obligations.ReservationRule : Prop :=
  (∀ (i : Instr) (s t : State), exec i s = .next t → (∀ rs, i ≠ .mtspr rs 0x3F2#10) → (∀ rs, i ≠ .mtspr rs 0x11C#10) →
    (s.reserve = false → t.reserve = true → ∃ rt ra rb x, i = .lwarx rt ra rb x) ∧
    (s.reserve = true → t.reserve = false → ∃ rs ra rb, i = .stwcxRc rs ra rb)) ∧
  (∀ (s : State) (r ra rb : Reg) (x31 : Bool), quiet s = true →
    let ea : Word := (if ra = 0#5 then 0#32 else gpr s ra) + gpr s rb
    let w := gpr s r
    let msb := [w.extractLsb' 24 8, w.extractLsb' 16 8, w.extractLsb' 8 8, w.extractLsb' 0 8]
    let us := checkUnits s true (units ea 4)
    ea.toNat % 4 = 0 →
    ((checkUnits s false (units ea 4)).2 = none →
      ∃ t, exec (.lwarx r ra rb x31) s = .next t ∧ t.reserve = true ∧ t.pc = s.pc + 4#32) ∧
    (us.2 = none →
      ∃ t, exec (.stwcxRc r ra rb) s = .next t ∧ t.reserve = false ∧ t.pc = s.pc + 4#32 ∧
        (s.reserve = false → t.sto = s.sto) ∧
        (s.reserve = true → Cached s → plain s us.1 = true →
          ∀ a, dataByte t a = storeUnitsView (dataByte s) us.1 (if storeOrder us.1 then msb.reverse else msb) a))) ∧
  ∀ s t : State, step s = .next t →
    t.reserve = s.reserve ∨ (∃ i u, u.reserve = s.reserve ∧ exec i u = .next t) ∨
      -- an input from outside reset the core
      ∃ es u, s.env.head? = some es ∧ u.reserve = s.reserve ∧ applyInputs es u = (t, true)

/-- No load, store or other instruction but `icbi`, `icbt`, `iccci` and the two `mtspr` that can reset the core, to
DBCR0 and to TBL, changes the instruction cache: stores never reach it (R203). -/
def Obligations.InstructionCacheRule : Prop :=
  ∀ (i : Instr) (s t : State), exec i s = .next t →
    (∀ ra rb x, i ≠ .icbi ra rb x) → (∀ ra rb x, i ≠ .icbt ra rb x) → (∀ ra rb x, i ≠ .iccci ra rb x) →
    (∀ rs, i ≠ .mtspr rs 0x3F2#10) → (∀ rs, i ≠ .mtspr rs 0x11C#10) →
    t.sto.icache = s.sto.icache

/-! ### Arithmetic (R330 to R353) -/

/-- The sums with a register or a 16-bit immediate: RT the exact sum modulo 2^32, CA the carry out, OV the signed sum
not fitting 32 bits; nothing else changes (R330 to R333, R335, R336, R338, R339, R353). Choices and presumptions it
rests on: notes/assumptions/45.md. -/
def Obligations.Sums : Prop :=
  ∀ (s : State) (rt ra rb : Reg) (im : BitVec 16) (oe rc : Bool), quiet s = true →
    let a := gpr s ra; let b := gpr s rb; let m := sext16 im; let c : Nat := (bit s.xer 2).toNat
    ∀ f ∈ ([(.add rt ra rb oe rc, a.toNat + b.toNat, a.toInt + b.toInt, false, oe, rc),
            (.addc rt ra rb oe rc, a.toNat + b.toNat, a.toInt + b.toInt, true, oe, rc),
            (.adde rt ra rb oe rc, a.toNat + b.toNat + c, a.toInt + b.toInt + c, true, oe, rc),
            (.addme rt ra oe rc, a.toNat + c + (2 ^ 32 - 1), a.toInt + c - 1, true, oe, rc),
            (.addze rt ra oe rc, a.toNat + c, a.toInt + c, true, oe, rc),
            (.addic rt ra im, a.toNat + m.toNat, a.toInt + m.toInt, true, false, false),
            (.addicRc rt ra im, a.toNat + m.toNat, a.toInt + m.toInt, true, false, true)] :
          List (Instr × Nat × Int × Bool × Bool × Bool)),
      ∃ t, exec f.1 s = .next t ∧
        Computes s t rt (BitVec.ofNat 32 f.2.1) (if f.2.2.2.1 then some (decide (2 ^ 32 ≤ f.2.1)) else none)
          (decide (f.2.2.1 < -2 ^ 31 ∨ 2 ^ 31 ≤ f.2.2.1)) f.2.2.2.2.1 f.2.2.2.2.2

/-- The differences: RT the exact difference modulo 2^32, CA set when there is no borrow, OV the signed difference not
fitting 32 bits; nothing else changes (R330, R340 to R345, R353). Choices and presumptions it rests on:
notes/assumptions/45.md. -/
def Obligations.Differences : Prop :=
  ∀ (s : State) (rt ra rb : Reg) (im : BitVec 16) (oe rc : Bool), quiet s = true →
    let a := gpr s ra; let b := gpr s rb; let m := sext16 im; let c : Int := (bit s.xer 2).toNat
    ∀ f ∈ ([(.subf rt ra rb oe rc, b.toInt - a.toInt, none, oe, rc),
            (.subfc rt ra rb oe rc, b.toInt - a.toInt, some (decide (a.toNat ≤ b.toNat)), oe, rc),
            (.subfe rt ra rb oe rc, b.toInt - a.toInt - 1 + c, some (decide ((a.toNat : Int) + 1 ≤ b.toNat + c)), oe, rc),
            (.subfme rt ra oe rc, -1 - a.toInt - 1 + c, some (decide ((a.toNat : Int) ≤ 2 ^ 32 - 2 + c)), oe, rc),
            (.subfze rt ra oe rc, 0 - a.toInt - 1 + c, some (decide ((a.toNat : Int) + 1 ≤ c)), oe, rc),
            (.subfic rt ra im, m.toInt - a.toInt, some (decide (a.toNat ≤ m.toNat)), false, false)] :
          List (Instr × Int × Option Bool × Bool × Bool)),
      ∃ t, exec f.1 s = .next t ∧
        Computes s t rt (BitVec.ofInt 32 f.2.1) f.2.2.1 (decide (f.2.1 < -2 ^ 31 ∨ 2 ^ 31 ≤ f.2.1)) f.2.2.2.1 f.2.2.2.2

/-- `addi` and `addis` read a zero RA field as 0, `mulli` as GPR0; RT takes the exact result modulo 2^32 and no flag
changes (R334, R337, R347). Choices and presumptions it rests on: notes/assumptions/45.md. -/
def Obligations.ImmediateArithmetic : Prop :=
  ∀ (s : State) (rt ra : Reg) (im : BitVec 16), quiet s = true →
    let z : Int := if ra = 0#5 then 0 else (gpr s ra).toInt
    ∀ f ∈ ([(.addi rt ra im, z + im.toInt), (.addis rt ra im, z + im.toInt * 2 ^ 16),
            (.mulli rt ra im, (gpr s ra).toInt * im.toInt)] : List (Instr × Int)),
      ∃ t, exec f.1 s = .next t ∧ Computes s t rt (BitVec.ofInt 32 f.2) none false false false

/-- `neg` and the multiplies: RT the low or the high word of the exact result, OV (`neg`, `mullw`) the signed result not
fitting 32 bits (R346, R348 to R350). Choices and presumptions it rests on: notes/assumptions/45.md. -/
def Obligations.Products : Prop :=
  ∀ (s : State) (rt ra rb : Reg) (oe rc : Bool), quiet s = true →
    let p : Int := (gpr s ra).toInt * (gpr s rb).toInt
    ∀ f ∈ ([(.neg rt ra oe rc, BitVec.ofInt 32 (-(gpr s ra).toInt), decide ((gpr s ra).toInt = -2 ^ 31), oe),
            (.mullw rt ra rb oe rc, BitVec.ofInt 32 p, decide (p < -2 ^ 31 ∨ 2 ^ 31 ≤ p), oe),
            (.mulhw rt ra rb rc, BitVec.ofInt 32 (p / 2 ^ 32), false, false),
            (.mulhwu rt ra rb rc, BitVec.ofNat 32 ((gpr s ra).toNat * (gpr s rb).toNat / 2 ^ 32), false, false)] :
          List (Instr × Word × Bool × Bool)),
      ∃ t, exec f.1 s = .next t ∧ Computes s t rt f.2.1 none f.2.2.1 f.2.2.2 rc

/-- A divide with a quotient: RT the quotient truncated toward zero, OV 0 with OE (R351, R352). Choices and presumptions
it rests on: notes/assumptions/45.md. -/
def Obligations.Quotients : Prop :=
  ∀ (s : State) (rt ra rb : Reg) (oe rc : Bool), quiet s = true → gpr s rb ≠ 0#32 →
    (¬ ((gpr s ra).toInt = -2 ^ 31 ∧ (gpr s rb).toInt = -1) →
      ∃ t, exec (.divw rt ra rb oe rc) s = .next t ∧
        Computes s t rt (BitVec.ofInt 32 ((gpr s ra).toInt.tdiv (gpr s rb).toInt)) none false oe rc) ∧
    ∃ t, exec (.divwu rt ra rb oe rc) s = .next t ∧
      Computes s t rt (BitVec.ofNat 32 ((gpr s ra).toNat / (gpr s rb).toNat)) none false oe rc

/-- A divide without a quotient completes: OV and SO set with OE, CR0[SO] the XER[SO] now in force, and beside RT and
CR0[LT, GT, EQ], which are left open, nothing else changes (R351, R352, U17). Choices and presumptions it rests on:
notes/assumptions/22.md. -/
def Obligations.UndefinedQuotients : Prop :=
  ∀ (s : State) (rt ra rb : Reg) (oe rc : Bool), quiet s = true →
    ∀ f ∈ [(Instr.divw rt ra rb oe rc, decide (gpr s rb = 0#32 ∨ ((gpr s ra).toInt = -2 ^ 31 ∧ (gpr s rb).toInt = -1))),
           (Instr.divwu rt ra rb oe rc, decide (gpr s rb = 0#32))],
      f.2 = true → ∃ t, exec f.1 s = .next t ∧ (∀ q, q ≠ rt → gpr t q = gpr s q) ∧ WritesXer s t none oe true ∧
        (rc = true → bit t.cr 3 = bit t.xer 0) ∧ (rc = false → t.cr = s.cr) ∧
        (∀ k, 4 ≤ k → k < 32 → bit t.cr k = bit s.cr k) ∧ t.pc = s.pc + 4#32 ∧ OnlyUser s t

/-! ### Multiply-accumulate (R370 to R395) -/

/-- The signed accumulates: RT plus or minus the exact product of the halfwords, modulo 2^32, or saturated to -2^31 or
2^31 - 1 when it does not fit; OV says that it did not fit (R370 to R372, R375, R376, R379, R380, R383 to R388, R395).
Choices and presumptions it rests on: notes/assumptions/45.md. -/
def Obligations.SignedAccumulates : Prop :=
  ∀ (s : State) (rt ra rb : Reg) (oe rc : Bool), quiet s = true →
    let acc := (gpr s rt).toInt
    let ah := (field (gpr s ra) 0 16).toInt; let al := (field (gpr s ra) 16 16).toInt
    let bh := (field (gpr s rb) 0 16).toInt; let bl := (field (gpr s rb) 16 16).toInt
    ∀ f ∈ ([(.macchw rt ra rb oe rc, acc + al * bh, false), (.macchws rt ra rb oe rc, acc + al * bh, true),
            (.machhw rt ra rb oe rc, acc + ah * bh, false), (.machhws rt ra rb oe rc, acc + ah * bh, true),
            (.maclhw rt ra rb oe rc, acc + al * bl, false), (.maclhws rt ra rb oe rc, acc + al * bl, true),
            (.nmacchw rt ra rb oe rc, acc - al * bh, false), (.nmacchws rt ra rb oe rc, acc - al * bh, true),
            (.nmachhw rt ra rb oe rc, acc - ah * bh, false), (.nmachhws rt ra rb oe rc, acc - ah * bh, true),
            (.nmaclhw rt ra rb oe rc, acc - al * bl, false), (.nmaclhws rt ra rb oe rc, acc - al * bl, true)] :
          List (Instr × Int × Bool)),
      let r := f.2.1
      ∃ t, exec f.1 s = .next t ∧
        Computes s t rt
          (if f.2.2 then BitVec.ofInt 32 (max (-2 ^ 31) (min (2 ^ 31 - 1) r)) else BitVec.ofInt 32 r) none
          (decide (r < -2 ^ 31 ∨ 2 ^ 31 ≤ r)) oe rc

/-- The unsigned accumulates: RT plus the exact product of the halfwords, modulo 2^32, or saturated to 2^32 - 1 (R373,
R374, R377, R378, R381, R382, R395). Choices and presumptions it rests on: notes/assumptions/45.md. -/
def Obligations.UnsignedAccumulates : Prop :=
  ∀ (s : State) (rt ra rb : Reg) (oe rc : Bool), quiet s = true →
    let acc := (gpr s rt).toNat
    let ah := (field (gpr s ra) 0 16).toNat; let al := (field (gpr s ra) 16 16).toNat
    let bh := (field (gpr s rb) 0 16).toNat; let bl := (field (gpr s rb) 16 16).toNat
    ∀ f ∈ ([(.macchwu rt ra rb oe rc, acc + al * bh, false), (.macchwsu rt ra rb oe rc, acc + al * bh, true),
            (.machhwu rt ra rb oe rc, acc + ah * bh, false), (.machhwsu rt ra rb oe rc, acc + ah * bh, true),
            (.maclhwu rt ra rb oe rc, acc + al * bl, false), (.maclhwsu rt ra rb oe rc, acc + al * bl, true)] :
          List (Instr × Nat × Bool)),
      let r := f.2.1
      ∃ t, exec f.1 s = .next t ∧
        Computes s t rt (if f.2.2 then BitVec.ofNat 32 (min (2 ^ 32 - 1) r) else BitVec.ofNat 32 r) none
          (decide (2 ^ 32 ≤ r)) oe rc

/-- The halfword multiplies: RT the exact product of the halfwords (R389 to R394). Choices and presumptions it rests on:
notes/assumptions/45.md. -/
def Obligations.HalfwordProducts : Prop :=
  ∀ (s : State) (rt ra rb : Reg) (rc : Bool), quiet s = true →
    let ah := field (gpr s ra) 0 16; let al := field (gpr s ra) 16 16
    let bh := field (gpr s rb) 0 16; let bl := field (gpr s rb) 16 16
    ∀ f ∈ ([(.mulchw rt ra rb rc, al.toInt * bh.toInt), (.mulchwu rt ra rb rc, al.toNat * bh.toNat),
            (.mulhhw rt ra rb rc, ah.toInt * bh.toInt), (.mulhhwu rt ra rb rc, ah.toNat * bh.toNat),
            (.mullhw rt ra rb rc, al.toInt * bl.toInt), (.mullhwu rt ra rb rc, al.toNat * bl.toNat)] : List (Instr × Int)),
      ∃ t, exec f.1 s = .next t ∧ Computes s t rt (BitVec.ofInt 32 f.2) none false false rc

/-! ### Logical, compare, rotate and shift -/

/-- The logical instructions: each bit of RA from the bits of RS and of RB or the immediate; `cntlzw` counts the zero
bits before the first one (R410 to R416, R419 to R427). Choices and presumptions it rests on: notes/assumptions/45.md.
-/
def Obligations.Logicals : Prop :=
  ∀ (s : State) (ra rs rb : Reg) (im : BitVec 16) (rc : Bool), quiet s = true →
    let lo := im.setWidth 32; let hi := im.setWidth 32 * 65536#32
    (∀ f ∈ ([(.and rs ra rb rc, gpr s rb, (fun a b => a && b), rc), (.andc rs ra rb rc, gpr s rb, (fun a b => a && !b), rc),
             (.eqv rs ra rb rc, gpr s rb, (fun a b => a == b), rc),
             (.nand rs ra rb rc, gpr s rb, (fun a b => !(a && b)), rc),
             (.nor rs ra rb rc, gpr s rb, (fun a b => !(a || b)), rc), (.or rs ra rb rc, gpr s rb, (fun a b => a || b), rc),
             (.orc rs ra rb rc, gpr s rb, (fun a b => a || !b), rc), (.xor rs ra rb rc, gpr s rb, (fun a b => a != b), rc),
             (.andiRc rs ra im, lo, (fun a b => a && b), true), (.andisRc rs ra im, hi, (fun a b => a && b), true),
             (.ori rs ra im, lo, (fun a b => a || b), false), (.oris rs ra im, hi, (fun a b => a || b), false),
             (.xori rs ra im, lo, (fun a b => a != b), false), (.xoris rs ra im, hi, (fun a b => a != b), false)] :
           List (Instr × Word × (Bool → Bool → Bool) × Bool)),
      ∃ t, exec f.1 s = .next t ∧ (∀ k, k < 32 → bit (gpr t ra) k = f.2.2.1 (bit (gpr s rs) k) (bit f.2.1 k)) ∧
        Computes s t ra (gpr t ra) none false false f.2.2.2) ∧
    ∃ (t : State) (n : Nat), exec (.cntlzw rs ra rc) s = .next t ∧ n ≤ 32 ∧ (∀ k, k < n → bit (gpr s rs) k = false) ∧
      (n < 32 → bit (gpr s rs) n = true) ∧ Computes s t ra (BitVec.ofNat 32 n) none false false rc

/-- `extsb` and `extsh` copy the sign of the low byte or halfword of RS into the bits on its left, RA taking the result;
with Rc CR0 is set from it; nothing else changes (R417, R418). -/
def Obligations.SignExtensions : Prop :=
  ∀ (s : State) (ra rs : Reg) (rc : Bool), quiet s = true →
    (∃ t : State, exec (.extsb rs ra rc) s = .next t ∧
      (∀ k, k < 32 → bit (gpr t ra) k = bit (gpr s rs) (max 24 k)) ∧ Computes s t ra (gpr t ra) none false false rc) ∧
    ∃ t : State, exec (.extsh rs ra rc) s = .next t ∧
      (∀ k, k < 32 → bit (gpr t ra) k = bit (gpr s rs) (max 16 k)) ∧ Computes s t ra (gpr t ra) none false false rc

/-- The compares: CR field BF takes less, greater, equal of the two numbers and XER[SO], and nothing else changes; with
bit 31 of an X-form set CR0 is left open (R241, R440 to R444). Choices and presumptions it rests on:
notes/assumptions/14.md, 45.md. -/
def Obligations.Compares : Prop :=
  ∀ (s : State) (bf : BitVec 3) (ra rb : Reg) (im : BitVec 16) (x31 : Bool), quiet s = true →
    ∀ f ∈ ([(.cmp bf ra rb x31, (gpr s ra).toInt, (gpr s rb).toInt, x31),
            (.cmpi bf ra im, (gpr s ra).toInt, im.toInt, false),
            (.cmpl bf ra rb x31, (gpr s ra).toNat, (gpr s rb).toNat, x31),
            (.cmpli bf ra im, (gpr s ra).toNat, im.toNat, false)] : List (Instr × Int × Int × Bool)),
      ∃ t, exec f.1 s = .next t ∧
        (f.2.2.2 = false ∨ bf ≠ 0#3 →
          bit t.cr (4 * bf.toNat) = decide (f.2.1 < f.2.2.1) ∧ bit t.cr (4 * bf.toNat + 1) = decide (f.2.2.1 < f.2.1) ∧
            bit t.cr (4 * bf.toNat + 2) = decide (f.2.1 = f.2.2.1) ∧ bit t.cr (4 * bf.toNat + 3) = bit s.xer 0) ∧
        (∀ k, k < 32 → (k < 4 * bf.toNat ∨ 4 * bf.toNat + 4 ≤ k) → (f.2.2.2 = false ∨ 4 ≤ k) → bit t.cr k = bit s.cr k) ∧
        (∀ a, dataByte t a = dataByte s a) ∧ t = { s with cr := t.cr, pc := s.pc + 4#32, free := t.free }

/-- The rotates: RA's bit k is RS's bit k + n modulo 32 under the mask; outside it 0, or for `rlwimi` RA's old bit (R481
to R483). Choices and presumptions it rests on: notes/assumptions/45.md. -/
def Obligations.Rotates : Prop :=
  ∀ (s : State) (ra rs rb : Reg) (sh mb me : BitVec 5) (rc : Bool), quiet s = true →
    ∀ f ∈ ([(.rlwimi rs ra sh mb me rc, sh.toNat, gpr s ra), (.rlwinm rs ra sh mb me rc, sh.toNat, 0#32),
            (.rlwnm rs ra rb mb me rc, (gpr s rb).toNat % 32, 0#32)] : List (Instr × Nat × Word)),
      ∃ t, exec f.1 s = .next t ∧
        (∀ k, k < 32 → bit (gpr t ra) k =
          if underMask mb.toNat me.toNat k then bit (gpr s rs) ((k + f.2.1) % 32) else bit f.2.2 k) ∧
        Computes s t ra (gpr t ra) none false false rc

/-- The shifts by a six-bit amount n: left and right with zeros, 32 places or more giving 0; right with the sign, the
quotient by 2^n rounded down, CA set when a negative value loses a 1 (R484 to R487). Choices and presumptions it rests
on: notes/assumptions/45.md. -/
def Obligations.Shifts : Prop :=
  ∀ (s : State) (ra rs rb : Reg) (sh : BitVec 5) (rc : Bool), quiet s = true →
    let n := (gpr s rb).toNat % 64; let v := gpr s rs
    ∀ f ∈ ([(.slw rs ra rb rc, BitVec.ofNat 32 (v.toNat * 2 ^ n), none),
            (.srw rs ra rb rc, BitVec.ofNat 32 (v.toNat / 2 ^ n), none),
            (.sraw rs ra rb rc, BitVec.ofInt 32 (v.toInt / 2 ^ n), some (decide (v.toInt < 0 ∧ v.toInt % 2 ^ n ≠ 0))),
            (.srawi rs ra sh rc, BitVec.ofInt 32 (v.toInt / 2 ^ sh.toNat),
              some (decide (v.toInt < 0 ∧ v.toInt % 2 ^ sh.toNat ≠ 0)))] : List (Instr × Word × Option Bool)),
      ∃ t, exec f.1 s = .next t ∧ Computes s t ra f.2.1 f.2.2 false false rc

/-! ### Branches and CR-logical -/

/-- The branches: taken exactly when the count and the CR bit that BO selects say so, to the target of the form; CTR
counted down when BO[2] = 0, taken or not; LR with LK, taken or not; a taken branch discards the prefetch queue; nothing
else changes (R204, R450 to R454, R456). Choices and presumptions it rests on: notes/assumptions/11.md, 45.md. -/
def Obligations.Branches : Prop :=
  ∀ (s : State) (bo bi : BitVec 5) (d26 : BitVec 26) (d16 : BitVec 16) (aa lk : Bool), quiet s = true →
    let base : Word := if aa then 0#32 else s.pc
    let count : Word := if bo.getMsbD 2 then s.ctr else s.ctr - 1#32
    let holds : Bool :=
      decide ((bo.getMsbD 2 = true ∨ (if bo.getMsbD 3 then count = 0#32 else count ≠ 0#32)) ∧
        (bo.getMsbD 0 = true ∨ bit s.cr bi.toNat = bo.getMsbD 1))
    ∀ f ∈ ([(.b d26 aa lk, true, base + d26.signExtend 32, s.ctr),
            (.bc bo bi d16 aa lk, holds, base + d16.signExtend 32, count),
            (.bclr bo bi lk, holds, s.lr, count)] ++
            (if bo.getMsbD 2 then [(.bcctr bo bi lk, holds, s.ctr, s.ctr)] else []) : List (Instr × Bool × Word × Word)),
      ∃ t, exec f.1 s = .next t ∧
        t = { s with ctr := f.2.2.2, lr := if lk then s.pc + 4#32 else s.lr,
                     pc := if f.2.1 then f.2.2.1 &&& 0xFFFFFFFC#32 else s.pc + 4#32,
                     pipe := if f.2.1 then { s.pipe with queue := [] } else s.pipe }

/-- `bcctr` with BO[2] = 0 completes: the count and the next address, which is word aligned, are left open (U25; the
model's reading, notes/assumptions/23.md); LR is written with LK and nothing else changes. Choices and presumptions it
rests on: notes/assumptions/23.md. -/
def Obligations.BranchToDecrementedCount : Prop :=
  ∀ (s : State) (bo bi : BitVec 5) (lk : Bool), quiet s = true → bo.getMsbD 2 = false →
    ∃ t, exec (.bcctr bo bi lk) s = .next t ∧ aligned t.pc = true ∧ t.lr = (if lk then s.pc + 4#32 else s.lr) ∧
      t = { s with ctr := t.ctr, lr := t.lr, pc := t.pc, free := t.free }

/-- The CR-logical instructions write one CR bit from two, `mcrf` one field from another; nothing else changes (R460 to
R469). Choices and presumptions it rests on: notes/assumptions/45.md. -/
def Obligations.CrLogicals : Prop :=
  ∀ (s : State) (bt ba bb : BitVec 5) (bf bfa : BitVec 3), quiet s = true →
    let a := bit s.cr ba.toNat; let b := bit s.cr bb.toNat
    (∀ f ∈ ([(.crand bt ba bb, a && b), (.crandc bt ba bb, a && !b), (.creqv bt ba bb, a == b),
             (.crnand bt ba bb, !(a && b)),
             (.crnor bt ba bb, !(a || b)), (.cror bt ba bb, a || b), (.crorc bt ba bb, a || !b),
             (.crxor bt ba bb, a != b)] :
           List (Instr × Bool)),
      ∃ t, exec f.1 s = .next t ∧ (∀ k, k < 32 → bit t.cr k = if k = bt.toNat then f.2 else bit s.cr k) ∧
        t = { s with cr := t.cr, pc := s.pc + 4#32 }) ∧
    ∃ t, exec (.mcrf bf bfa) s = .next t ∧
      WritesCrField s t bf (bit s.cr (4 * bfa.toNat)) (bit s.cr (4 * bfa.toNat + 1)) (bit s.cr (4 * bfa.toNat + 2))
        (bit s.cr (4 * bfa.toNat + 3)) ∧ t = { s with cr := t.cr, pc := s.pc + 4#32 }

/-! ### Loads (R270 to R294) -/

/-- The loads without update: RT takes the bytes its addresses read as, in the byte order of the storage or, for the
byte-reverse forms, the opposite one, with zeros or the sign on the left; no byte reads otherwise afterwards and nothing
else changes. A load that meets a bus error completes, ESR and DEAR as they were, and with MSR[ME] = 1 leaves the data
machine check pending (R131, R133, R141, R270, R272, R274, R276, R278, R280, R282, R284, R286, R289, R290, R620, R622;
that the error is pending at once is the model's choice, notes/assumptions/28.md). Choices and presumptions it rests on:
notes/assumptions/10.md, 17.md, 28.md, 45.md. -/
def Obligations.ScalarLoads : Prop :=
  ∀ (s : State) (rt ra rb : Reg) (d : BitVec 16) (x31 : Bool), quiet s = true →
    let base : Word := if ra = 0#5 then 0#32 else gpr s ra
    let ed := base + d.signExtend 32; let ex := base + gpr s rb
    -- instruction, address, bytes, sign extended, byte reversed, bit 31
    ∀ f ∈ ([(.lbz rt ra d, ed, 1, false, false, false), (.lbzx rt ra rb x31, ex, 1, false, false, x31),
            (.lha rt ra d, ed, 2, true, false, false), (.lhax rt ra rb x31, ex, 2, true, false, x31),
            (.lhz rt ra d, ed, 2, false, false, false), (.lhzx rt ra rb x31, ex, 2, false, false, x31),
            (.lwz rt ra d, ed, 4, false, false, false), (.lwzx rt ra rb x31, ex, 4, false, false, x31),
            (.lhbrx rt ra rb x31, ex, 2, false, true, x31), (.lwbrx rt ra rb x31, ex, 4, false, true, x31)] :
          List (Instr × Word × Nat × Bool × Bool × Bool)),
      let us := checkUnits s false (units f.2.1 f.2.2.1)
      let bs := viewUnits s us.1
      let v := scalarNat (firstOrder bs != f.2.2.2.2.1) (bs.map (·.1))
      us.2 = none →
      (Cached s → plain s us.1 = true →
        ∃ t, exec f.1 s = .next t ∧
          WritesGpr s t rt (if f.2.2.2.1 then (BitVec.ofNat 16 v).signExtend 32 else BitVec.ofNat 32 v) ∧
          Bit31 s t f.2.2.2.2.2 ∧ t.pc = s.pc + 4#32 ∧ (∀ a, dataByte t a = dataByte s a) ∧ OnlyAccess s t) ∧
      -- a bus error: of an access that goes to storage, or of the line fill of the first access
      ((∃ u ∈ us.1, u.x.attrs.i = true ∧ u.x.attrs.w = false ∧ s.sto.buffer = none ∧ ccrLWL s = false ∧
          MeetsBusError s (·.onLoad) u.x.ra u.n) ∨
        (∃ u, us.1.head? = some u ∧ u.x.attrs.i = false ∧ dWay s u.x.ra = none ∧ ccrLWOA s = false ∧
          s.params.dcacheSize.classes ≠ 0 ∧ MeetsBusError s (·.onLoad) (lineBase (lineOf u.x.ra)) 32) →
        ∃ t, exec f.1 s = .next t ∧ (bit s.msr 19 = true → t.inp.dataMachineCheck = true) ∧ (∀ q, q ≠ rt → gpr t q = gpr s q) ∧
          t.exc = s.exc ∧ t.msr = s.msr ∧ Bit31 s t f.2.2.2.2.2 ∧ t.pc = s.pc + 4#32)

/-- The loads with update, from GPR[RA] also when RA is 0: RT takes the value and RA the address; where they are one
register it takes one of the two; nothing else changes (R271, R273, R275, R277, R279, R281, R283, R285, R287). Choices
and presumptions it rests on: notes/assumptions/10.md, 15.md, 17.md, 45.md. -/
def Obligations.UpdateLoads : Prop :=
  ∀ (s : State) (rt ra rb : Reg) (d : BitVec 16) (x31 : Bool), quiet s = true → Cached s →
    let ed := gpr s ra + d.signExtend 32; let ex := gpr s ra + gpr s rb
    ∀ f ∈ ([(.lbzu rt ra d, ed, 1, false, false), (.lbzux rt ra rb x31, ex, 1, false, x31),
            (.lhau rt ra d, ed, 2, true, false), (.lhaux rt ra rb x31, ex, 2, true, x31),
            (.lhzu rt ra d, ed, 2, false, false), (.lhzux rt ra rb x31, ex, 2, false, x31),
            (.lwzu rt ra d, ed, 4, false, false), (.lwzux rt ra rb x31, ex, 4, false, x31)] :
          List (Instr × Word × Nat × Bool × Bool)),
      let us := checkUnits s false (units f.2.1 f.2.2.1)
      let bs := viewUnits s us.1
      let n := scalarNat (firstOrder bs) (bs.map (·.1))
      let v : Word := if f.2.2.2.1 then (BitVec.ofNat 16 n).signExtend 32 else BitVec.ofNat 32 n
      us.2 = none → plain s us.1 = true →
      ∃ t, exec f.1 s = .next t ∧ (rt ≠ ra → gpr t rt = v ∧ gpr t ra = f.2.1) ∧
        (rt = ra → gpr t rt = v ∨ gpr t rt = f.2.1) ∧ (∀ q, q ≠ rt → q ≠ ra → gpr t q = gpr s q) ∧
        Bit31 s t f.2.2.2.2 ∧ t.pc = s.pc + 4#32 ∧ (∀ a, dataByte t a = dataByte s a) ∧ OnlyAccess s t

/-- `lwarx` from a word-aligned address loads the word and sets the reservation; nothing else changes (R200, R288).
Choices and presumptions it rests on: notes/assumptions/10.md. -/
def Obligations.LoadReserve : Prop :=
  ∀ (s : State) (rt ra rb : Reg) (x31 : Bool), quiet s = true → Cached s →
    let ea : Word := (if ra = 0#5 then 0#32 else gpr s ra) + gpr s rb
    let us := checkUnits s false (units ea 4)
    let bs := viewUnits s us.1
    ea.toNat % 4 = 0 → us.2 = none → plain s us.1 = true →
    ∃ t, exec (.lwarx rt ra rb x31) s = .next t ∧ t.reserve = true ∧
      WritesGpr s t rt (BitVec.ofNat 32 (scalarNat (firstOrder bs) (bs.map (·.1)))) ∧ Bit31 s t x31 ∧ t.pc = s.pc + 4#32 ∧
      (∀ a, dataByte t a = dataByte s a) ∧ OnlyAccess { s with reserve := true } t

/-- `lmw` loads RT to GPR31 from consecutive words, each in its own byte order; RA keeps its value unless it is GPR31 or
the RA field is 0; nothing else changes (R131, R291). Choices and presumptions it rests on: notes/assumptions/10.md,
41.md, 48.md, 52.md. -/
def Obligations.LoadMultiple : Prop :=
  ∀ (s : State) (rt ra : Reg) (d : BitVec 16), quiet s = true → Cached s →
    let ea : Word := (if ra = 0#5 then 0#32 else gpr s ra) + d.signExtend 32
    let us := checkUnits s false (units ea (4 * (32 - rt.toNat)))
    let bs := viewUnits s us.1
    us.2 = none → plain s us.1 = true →
    ∃ t, exec (.lmw rt ra d) s = .next t ∧
      (∀ r : Reg,
        let w := (bs.drop (4 * (r.toNat - rt.toNat))).take 4
        gpr t r = if rt.toNat ≤ r.toNat ∧ ¬ (r = ra ∧ ra ≠ 0#5 ∧ r ≠ 31#5)
          then BitVec.ofNat 32 (scalarNat (firstOrder w) (w.map (·.1))) else gpr s r) ∧
      t.cr = s.cr ∧ t.pc = s.pc + 4#32 ∧ (∀ a, dataByte t a = dataByte s a) ∧ OnlyAccess s t

/-- The string loads put consecutive bytes, four to a register and the first most significant, into RT and the registers
after it, GPR0 after GPR31, zeros after the last byte, whatever the byte order; the address registers keep their values
unless they are the last register loaded; nothing else changes (R131, R292 to R294). Choices and presumptions it rests
on: notes/assumptions/10.md, 41.md, 48.md, 52.md. -/
def Obligations.LoadStrings : Prop :=
  ∀ (s : State) (rt ra rb : Reg) (nb : BitVec 5) (x31 : Bool), quiet s = true → Cached s →
    let base : Word := if ra = 0#5 then 0#32 else gpr s ra
    let tbc := s.xer.toNat % 128
    -- instruction, address, byte count, address registers
    ∀ f ∈ ([(.lswi rt ra nb x31, base, if nb = 0#5 then 32 else nb.toNat, fun r => decide (r = ra ∧ ra ≠ 0#5))] ++
            (if tbc = 0 then [] else [(.lswx rt ra rb x31, base + gpr s rb, tbc, fun r => decide (r = ra ∨ r = rb))]) :
          List (Instr × Word × Nat × (Reg → Bool))),
      let n := f.2.2.1
      let us := checkUnits s false (units f.2.1 n)
      let bs := (viewUnits s us.1).map (·.1)
      let final : Reg := rt + BitVec.ofNat 5 ((n + 3) / 4 - 1)
      us.2 = none → plain s us.1 = true →
      ∃ t, exec f.1 s = .next t ∧
        (∀ r : Reg,
          let k := 4 * (r - rt).toNat
          gpr t r = if k < n ∧ (f.2.2.2 r = false ∨ r = final)
            then BitVec.ofNat 32 (scalarNat false (((bs.drop k).take 4 ++ [0#8, 0#8, 0#8]).take 4)) else gpr s r) ∧
        Bit31 s t x31 ∧ t.pc = s.pc + 4#32 ∧ (∀ a, dataByte t a = dataByte s a) ∧ OnlyAccess s t

/-- String forms with XER[TBC] = 0: `stswx` does nothing, whatever bus errors there are; `lswx` changes no register and
no byte (the resolution of R293, C39; notes/assumptions/41.md), and nothing at all but that, where some address meets a
bus error, it may leave a data machine check pending (R164, R293, R316, R738). Choices and presumptions it rests on:
notes/assumptions/41.md. -/
def Obligations.EmptyStrings : Prop :=
  ∀ (s : State) (rt ra rb : Reg) (x31 : Bool), quiet s = true → s.xer.toNat % 128 = 0 →
    (∃ t, exec (.stswx rt ra rb x31) s = .next t ∧ t.pc = s.pc + 4#32 ∧ Bit31 s t x31 ∧ OnlyPc s t ∧
      ∀ a, dataByte t a = dataByte s a) ∧
    ∃ t, exec (.lswx rt ra rb x31) s = .next t ∧ t.pc = s.pc + 4#32 ∧ Bit31 s t x31 ∧ (s.params.busErrors = [] → OnlyPc s t) ∧
      (∀ a, dataByte t a = dataByte s a) ∧
      t = { s with pc := t.pc, cr := t.cr, free := t.free,
                   inp := { s.inp with dataMachineCheck := t.inp.dataMachineCheck } }

/-! ### Stores (R300 to R318) -/

/-- The stores of a byte, halfword or word: the low bytes of RS are found at the address in the byte order of the
storage or, for the byte-reverse forms, the opposite one, and in storage itself where the access is write-through or
caching inhibited; every byte that no access touches reads as before; the update forms write the address to RA; a store
to caching inhibited storage is under way as one that the next `isync` settles; nothing else changes. A store that meets
a bus error completes too, and with MSR[ME] = 1 leaves the data machine check pending (R131, R133, R141, R171, R172,
R182, R270, R271, R300 to R313, R620, R622, R787; that the error is pending at once is the model's choice,
notes/assumptions/28.md). Choices and presumptions it rests on: notes/assumptions/10.md, 15.md, 17.md, 28.md, 45.md,
54.md. -/
def Obligations.ScalarStores : Prop :=
  ∀ (s : State) (rs ra rb : Reg) (d : BitVec 16) (x31 : Bool), quiet s = true →
    let base : Word := if ra = 0#5 then 0#32 else gpr s ra
    let ed := base + d.signExtend 32; let ex := base + gpr s rb
    let ud := gpr s ra + d.signExtend 32; let ux := gpr s ra + gpr s rb
    let w := gpr s rs
    let b1 := [w.extractLsb' 0 8]; let b2 := w.extractLsb' 8 8 :: b1
    let b4 := w.extractLsb' 24 8 :: w.extractLsb' 16 8 :: b2
    -- instruction, address, bytes the most significant first, byte reversed, update, bit 31
    ∀ f ∈ ([(.stb rs ra d, ed, b1, false, false, false), (.stbx rs ra rb x31, ex, b1, false, false, x31),
            (.stbu rs ra d, ud, b1, false, true, false), (.stbux rs ra rb x31, ux, b1, false, true, x31),
            (.sth rs ra d, ed, b2, false, false, false), (.sthx rs ra rb x31, ex, b2, false, false, x31),
            (.sthu rs ra d, ud, b2, false, true, false), (.sthux rs ra rb x31, ux, b2, false, true, x31),
            (.stw rs ra d, ed, b4, false, false, false), (.stwx rs ra rb x31, ex, b4, false, false, x31),
            (.stwu rs ra d, ud, b4, false, true, false), (.stwux rs ra rb x31, ux, b4, false, true, x31),
            (.sthbrx rs ra rb x31, ex, b2, true, false, x31), (.stwbrx rs ra rb x31, ex, b4, true, false, x31)] :
          List (Instr × Word × List Byte × Bool × Bool × Bool)),
      let us := checkUnits s true (units f.2.1 f.2.2.1.length)
      let bs := if storeOrder us.1 != f.2.2.2.1 then f.2.2.1.reverse else f.2.2.1
      us.2 = none →
      (Cached s → plain s us.1 = true →
        ∃ t, exec f.1 s = .next t ∧ (∀ a, dataByte t a = storeUnitsView (dataByte s) us.1 bs a) ∧
          (∀ a, touched us.1 a = false → dataByte t a = dataByte s a) ∧
          (∀ u ∈ us.1, (u.x.attrs.w || u.x.attrs.i) = true → ∀ j, j < u.n →
            memByte t (u.x.ra + BitVec.ofNat 32 j) = dataByte t (u.x.ra + BitVec.ofNat 32 j)) ∧
          ((∀ u ∈ us.1, u.x.attrs.i = true) → ∀ l ∈ t.sto.late, l ∈ s.sto.late ∨ l.direct = true) ∧
          (∀ q, gpr t q = if f.2.2.2.2.1 = true ∧ q = ra then f.2.1 else gpr s q) ∧ Bit31 s t f.2.2.2.2.2 ∧
          t.pc = s.pc + 4#32 ∧ OnlyAccess s t) ∧
      -- a bus error: of a write-through access, or of the first access where it is caching inhibited with no cached copy
      ((∃ u ∈ us.1, u.x.attrs.w = true ∧ MeetsBusError s (·.onStore) u.x.ra u.n) ∨
        (∃ u, us.1.head? = some u ∧ u.x.attrs.i = true ∧ dWay s u.x.ra = none ∧ MeetsBusError s (·.onStore) u.x.ra u.n) →
        ∃ t, exec f.1 s = .next t ∧ (bit s.msr 19 = true → t.inp.dataMachineCheck = true) ∧
          (∀ q, gpr t q = if f.2.2.2.2.1 = true ∧ q = ra then f.2.1 else gpr s q) ∧ t.exc = s.exc ∧ t.msr = s.msr ∧
          Bit31 s t f.2.2.2.2.2 ∧ t.pc = s.pc + 4#32)

/-- `stmw` stores the words of RS to GPR31, each in the byte order of its own place; the string stores store the bytes
of RS and the registers after it, GPR0 after GPR31, most significant first, whatever the byte order; storage itself
holds them where the access is write-through or caching inhibited; every byte that no access touches reads as before and
nothing else changes (R131, R171, R182, R314 to R316). Choices and presumptions it rests on: notes/assumptions/10.md,
48.md. -/
def Obligations.MultipleStores : Prop :=
  ∀ (s : State) (rs ra rb : Reg) (d : BitVec 16) (nb : BitVec 5) (x31 : Bool), quiet s = true → Cached s →
    let base : Word := if ra = 0#5 then 0#32 else gpr s ra
    let tbc := s.xer.toNat % 128
    let word (r : Reg) : List Byte :=
      [(gpr s r).extractLsb' 24 8, (gpr s r).extractLsb' 16 8, (gpr s r).extractLsb' 8 8, (gpr s r).extractLsb' 0 8]
    let stream := (List.range 32).flatMap (fun k => word (rs + BitVec.ofNat 5 k))
    -- instruction, address, byte count, whether each word has a byte order, bit 31
    ∀ f ∈ ([(.stmw rs ra d, base + d.signExtend 32, 4 * (32 - rs.toNat), true, false),
            (.stswi rs ra nb x31, base, if nb = 0#5 then 32 else nb.toNat, false, x31)] ++
            (if tbc = 0 then [] else [(.stswx rs ra rb x31, base + gpr s rb, tbc, false, x31)]) :
          List (Instr × Word × Nat × Bool × Bool)),
      let us := checkUnits s true (units f.2.1 f.2.2.1)
      let order (k : Nat) : Bool := ((us.1.flatMap (fun u => List.replicate u.n u.x.attrs.e))[4 * k]?).getD false
      let bs := if f.2.2.2.1
        then (List.range (32 - rs.toNat)).flatMap (fun k =>
          let w := word (rs + BitVec.ofNat 5 k)
          if order k then w.reverse else w)
        else stream.take f.2.2.1
      us.2 = none → plain s us.1 = true →
      ∃ t, exec f.1 s = .next t ∧ (∀ a, dataByte t a = storeUnitsView (dataByte s) us.1 bs a) ∧
        (∀ a, touched us.1 a = false → dataByte t a = dataByte s a) ∧
        (∀ u ∈ us.1, (u.x.attrs.w || u.x.attrs.i) = true → ∀ j, j < u.n →
          memByte t (u.x.ra + BitVec.ofNat 32 j) = dataByte t (u.x.ra + BitVec.ofNat 32 j)) ∧
        t.gpr = s.gpr ∧ Bit31 s t f.2.2.2.2 ∧
        t.pc = s.pc + 4#32 ∧ OnlyAccess s t

/-- `stwcx.` to a word-aligned address: with the reservation it stores the word, clears the reservation and sets
CR0[EQ]; without it only CR0 changes, EQ to 0; LT and GT are 0 and SO is XER[SO] (R200, R318). Choices and presumptions
it rests on: notes/assumptions/10.md, 40.md. -/
def Obligations.StoreConditional : Prop :=
  ∀ (s : State) (rs ra rb : Reg), quiet s = true →
    let ea : Word := (if ra = 0#5 then 0#32 else gpr s ra) + gpr s rb
    let w := gpr s rs
    let msb := [w.extractLsb' 24 8, w.extractLsb' 16 8, w.extractLsb' 8 8, w.extractLsb' 0 8]
    let us := checkUnits s true (units ea 4)
    ea.toNat % 4 = 0 →
    (s.reserve = true → Cached s → us.2 = none → plain s us.1 = true →
      ∃ t, exec (.stwcxRc rs ra rb) s = .next t ∧ t.reserve = false ∧
        WritesCrField s t 0#3 false false true (bit s.xer 0) ∧
        (∀ a, dataByte t a =
          storeUnitsView (dataByte s) us.1 (if storeOrder us.1 then msb.reverse else msb) a) ∧
        (∀ a, touched us.1 a = false → dataByte t a = dataByte s a) ∧
        (∀ u ∈ us.1, (u.x.attrs.w || u.x.attrs.i) = true → ∀ j, j < u.n →
          memByte t (u.x.ra + BitVec.ofNat 32 j) = dataByte t (u.x.ra + BitVec.ofNat 32 j)) ∧ t.gpr = s.gpr ∧ t.pc = s.pc + 4#32 ∧
        OnlyAccess { s with reserve := false } t) ∧
    (s.reserve = false →
      ∃ t, exec (.stwcxRc rs ra rb) s = .next t ∧ WritesCrField s t 0#3 false false false (bit s.xer 0) ∧
        t.pc = s.pc + 4#32 ∧ (∀ a, dataByte t a = dataByte s a) ∧ t = { s with cr := t.cr, pc := t.pc })

/-! ### Cache control (R501 to R515) -/

/-- `dcbf` and `dcbst`: storage holds the line's bytes, which read as before; `dcbf` drops the line, `dcbst` keeps it;
no other byte of storage and nothing else changes (R502, R504). Choices and presumptions it rests on:
notes/assumptions/10.md. -/
def Obligations.LineFlushes : Prop :=
  ∀ (s : State) (ra rb : Reg) (x31 : Bool), quiet s = true → undisturbed s = true → Cached s → s.params.busErrors = [] →
    let ea : Word := (if ra = 0#5 then 0#32 else gpr s ra) + gpr s rb
    ∀ x, loadXlate s ea = .ok x →
    ∀ f ∈ [(Instr.dcbf ra rb x31, true), (Instr.dcbst ra rb x31, false)],
      ∃ t, exec f.1 s = .next t ∧ (∀ a, dataByte t a = dataByte s a) ∧
        (∀ a, memByte t a = if lineOf a = lineOf x.ra then dataByte s a else memByte s a) ∧
        dWay t x.ra = (if f.2 then none else dWay s x.ra) ∧ Bit31 s t x31 ∧ t.pc = s.pc + 4#32 ∧ OnlyStorage s t

/-- `dcbi` discards the line, `dccci` both lines of the congruence class, whether dirty or not and whether cachable or
not: no byte of storage changes, and every byte of the other lines reads as before (R503, R508). Choices and
presumptions it rests on: notes/assumptions/45.md, 46.md. -/
def Obligations.LineInvalidates : Prop :=
  ∀ (s : State) (ra rb : Reg) (x31 : Bool), quiet s = true → undisturbed s = true → dcacheOk s = true → bit s.msr 17 = false →
    let ea : Word := (if ra = 0#5 then 0#32 else gpr s ra) + gpr s rb
    ∀ x, xlateData s ea = some x → writeOk s x = true →
    ∀ f ∈ ([(.dcbi ra rb x31, fun a => decide (lineOf a = lineOf x.ra)),
            (.dccci ra rb x31, fun a => decide (dClass s a = dClass s x.ra))] : List (Instr × (Word → Bool))),
      ∃ t, exec f.1 s = .next t ∧ (∀ a, memByte t a = memByte s a) ∧ (∀ a, f.2 a = true → dWay t a = none) ∧
        (∀ a, f.2 a = false → dataByte t a = dataByte s a) ∧ bufferHas t x.ra = false ∧ Bit31 s t x31 ∧
        t.pc = s.pc + 4#32 ∧ OnlyStorage s t

/-- The touches and `dcba` complete whatever the address. A touch: no byte reads otherwise, a cachable line that a load
may read is present afterwards, and where a load would fault nothing happens. `dcba`: at most the bytes of an absent
line in cachable write-back storage that a store may write change, which bytes is open (U26); elsewhere nothing happens
(R163, R501, R505, R506). Choices and presumptions it rests on: notes/assumptions/10.md, 21.md. -/
def Obligations.LineTouches : Prop :=
  ∀ (s : State) (ra rb : Reg) (x31 : Bool), quiet s = true → undisturbed s = true → Cached s → s.params.busErrors = [] →
    let ea : Word := (if ra = 0#5 then 0#32 else gpr s ra) + gpr s rb
    let ends (t : State) : Prop := Bit31 s t x31 ∧ t.pc = s.pc + 4#32 ∧ OnlyStorage s t
    (∀ i ∈ [Instr.dcbt ra rb x31, Instr.dcbtst ra rb x31],
      ∃ t, exec i s = .next t ∧ (∀ a, dataByte t a = dataByte s a) ∧
        (∀ x, loadXlate s ea = .ok x → x.attrs.i = false → s.params.dcacheSize.classes ≠ 0 → dWay t x.ra ≠ none) ∧
        (∀ f, loadXlate s ea = .error f → OnlyPc s t) ∧ ends t) ∧
    ∃ t, exec (.dcba ra rb x31) s = .next t ∧ (xlateData s ea = none → OnlyPc s t) ∧
      (∀ x, xlateData s ea = some x →
        (writeOk s x = false ∨ x.attrs.i = true ∨ x.attrs.w = true ∨ dWay s x.ra ≠ none → OnlyPc s t) ∧
          ∀ a, lineOf a ≠ lineOf x.ra → dataByte t a = dataByte s a) ∧
      ends t

/-- `dcbz` in cachable write-back storage: the 32 bytes of the line read as 0 and the line is dirty in the cache, every
other byte reads as before and nothing else changes; that the line buffer no longer holds the line is the model's
deduction, R183's list not naming `dcbz` (R183, R507; notes/assumptions/46.md). Choices and presumptions it rests on:
notes/assumptions/10.md, 46.md. -/
def Obligations.LineZeroes : Prop :=
  ∀ (s : State) (ra rb : Reg) (x31 : Bool), quiet s = true → undisturbed s = true → Cached s → s.params.busErrors = [] →
    let ea : Word := (if ra = 0#5 then 0#32 else gpr s ra) + gpr s rb
    ∀ x, storeXlate s ea = .ok x → x.attrs.i = false → x.attrs.w = false → s.params.dcacheSize.classes ≠ 0 →
    ∃ t, exec (.dcbz ra rb x31) s = .next t ∧
      (∀ a, dataByte t a = if lineOf a = lineOf x.ra then 0#8 else dataByte s a) ∧
      (∃ way, dWay t x.ra = some way ∧ ((dSet t (dClass t x.ra)).get way).dirty = true) ∧ bufferHas t x.ra = false ∧
      Bit31 s t x31 ∧ t.pc = s.pc + 4#32 ∧ OnlyStorage s t

/-- The instruction cache operations: `icbi` drops the line, `iccci` every line, `icbt` fills an absent cachable line
with storage's words once every write is performed; nothing but the instruction cache changes (R203, R510 to R512).
Choices and presumptions it rests on: notes/assumptions/10.md, 54.md. -/
def Obligations.InstructionLines : Prop :=
  ∀ (s : State) (ra rb : Reg) (x31 : Bool), quiet s = true → undisturbed s = true → icacheOk s = true →
    s.params.busErrors = [] →
    let ea : Word := (if ra = 0#5 then 0#32 else gpr s ra) + gpr s rb
    let frame (t : State) : Prop :=
      Bit31 s t x31 ∧ t.pc = s.pc + 4#32 ∧
        t = { s with pc := t.pc, cr := t.cr, free := t.free, sto := { s.sto with icache := t.sto.icache } }
    (∀ x, xlateIcacheOp s ea = some x → readOk s x = true →
      ∃ t, exec (.icbi ra rb x31) s = .next t ∧
        (∀ a, iWay t a = if lineOf a = lineOf x.ra then none else iWay s a) ∧ frame t) ∧
    (∀ x, xlateIcacheOp s ea = some x → bit s.msr 17 = false →
      ∃ t, exec (.iccci ra rb x31) s = .next t ∧ (∀ a, iWay t a = none) ∧ frame t) ∧
    (bit s.msr 17 = false →
      ∃ t, exec (.icbt ra rb x31) s = .next t ∧ frame t ∧ (xlateIcacheOp s ea = none → OnlyPc s t) ∧
        ∀ x, xlateIcacheOp s ea = some x →
          (x.attrs.i = true ∨ iWay s x.ra ≠ none → OnlyPc s t) ∧
          (x.attrs.i = false → s.params.icacheSize.classes ≠ 0 → iWay s x.ra = none → s.sto.late = [] →
            ∃ way, iWay t x.ra = some way ∧
              ∀ a, lineOf a = lineOf x.ra →
                lineWord ((iSet t (iClass t x.ra)).get way).words a = memWord s (wordAligned a) x.attrs.e))

/-- `dcread` and `icread` with an array: the word or the tag of the way that CCR0[CWS] names goes to RT or to ICDBDR,
and nothing else changes (R509, R513). Choices and presumptions it rests on: notes/assumptions/12.md, 27.md. -/
def Obligations.ArrayReads : Prop :=
  ∀ (s : State) (rt ra rb : Reg) (x31 : Bool), quiet s = true → undisturbed s = true → bit s.msr 17 = false →
    let ea : Word := (if ra = 0#5 then 0#32 else gpr s ra) + gpr s rb
    ∀ x, xlateIcacheOp s ea = some x →
    let d := dSet s (dClass s x.ra); let dl := if bit s.attr.ccr0 31 then d.b else d.a
    let c := iSet s (iClass s x.ra); let cl := if bit s.attr.ccr0 31 then c.b else c.a
    let tag := bit s.attr.ccr0 27
    (ea.toNat % 4 = 0 → s.params.dcacheSize.classes ≠ 0 →
      ∃ t, exec (.dcread rt ra rb x31) s = .next t ∧
        (tag = false → gpr t rt =
          BitVec.ofNat 32 (scalarNat false ((List.range 4).map (fun j => lineByte dl.data (x.ra.toNat % 32 + j))))) ∧
        (tag = true → ∀ k, k < 32 → bit (gpr t rt) k =
          if k < 20 then dl.line.getMsbD k else if k = 26 then dl.dirty else if k = 27 then dl.valid else (k == 31 && d.lruB)) ∧
        (∀ q, q ≠ rt → gpr t q = gpr s q) ∧ Bit31 s t x31 ∧ t.pc = s.pc + 4#32 ∧
        t = { s with gpr := t.gpr, pc := t.pc, cr := t.cr, free := t.free }) ∧
    (s.params.icacheSize.classes ≠ 0 →
      ∃ t, exec (.icread ra rb x31) s = .next t ∧
        (tag = false → t.icdbdr = cl.words[x.ra.toNat % 32 / 4]!) ∧
        (tag = true → ∀ k, k < 32 → bit t.icdbdr k =
          if k < 22 then cl.line.getMsbD k else if k = 27 then cl.valid else (k == 31 && c.lruB)) ∧
        Bit31 s t x31 ∧ t.pc = s.pc + 4#32 ∧
        t = { s with icdbdr := t.icdbdr, icdbdrOpen := true, pc := t.pc, cr := t.cr, free := t.free })

/-! ### Interrupt control and TLB (R530 to R544, R150 to R154) -/

/-- The MSR moves in the supervisor state: `mfmsr` reads all 32 bits, `mtmsr` writes them, IR and DR staying 0 when the
MMU is tied off and the old fetch state staying one that later fetches may be made under, `wrtee` and `wrteei` write EE
alone; nothing else changes (R186, R189, R530, R531, R534, R535, D2, D17). Choices and presumptions it rests on:
notes/assumptions/11.md, 13.md. -/
def Obligations.MsrMoves : Prop :=
  ∀ (s : State) (r : Reg) (e x31 : Bool), quiet s = true → bit s.msr 17 = false →
    (∃ t, exec (.mfmsr r x31) s = .next t ∧ WritesGpr s t r s.msr ∧ Bit31 s t x31 ∧ t.pc = s.pc + 4#32 ∧
      t = { s with gpr := t.gpr, pc := t.pc, cr := t.cr, free := t.free }) ∧
    ∀ f ∈ ([(.mtmsr r x31, if s.params.mmuEnabled then gpr s r else gpr s r &&& 0xFFFFFFCF#32, pipeRemembering s),
            (.wrtee r x31, (s.msr &&& 0xFFFF7FFF#32) ||| (gpr s r &&& 0x00008000#32), s.pipe),
            (.wrteei e x31, (s.msr &&& 0xFFFF7FFF#32) ||| (if e then 0x00008000#32 else 0#32), s.pipe)] :
          List (Instr × Word × Pipe)),
      ∃ t, exec f.1 s = .next t ∧ t.msr = f.2.1 ∧ Bit31 s t x31 ∧ t.pc = s.pc + 4#32 ∧
        t = { s with msr := t.msr, pc := t.pc, cr := t.cr, free := t.free, pipe := f.2.2 }

/-- `rfi` and `rfci` in the supervisor state: the MSR takes SRR1 or SRR3, all 32 bits, IR and DR staying 0 when the MMU
is tied off; the pc takes SRR0 or SRR2 with the low two bits 0; nothing fetched earlier and no earlier fetch state is
left; nothing else changes (R195, R532, R533, R670). Choices and presumptions it rests on: notes/assumptions/11.md,
12.md, 13.md. -/
def Obligations.Returns : Prop :=
  ∀ (s : State) (x31 : Bool), quiet s = true → bit s.msr 17 = false → s.dbg.run = .running →
    ∀ f ∈ [(Instr.rfi x31, s.exc.srr0, s.exc.srr1), (Instr.rfci x31, s.exc.srr2, s.exc.srr3)],
      ∃ t, exec f.1 s = .next t ∧ t.msr = (if s.params.mmuEnabled then f.2.2 else f.2.2 &&& 0xFFFFFFCF#32) ∧
        t.pc = f.2.1 &&& 0xFFFFFFFC#32 ∧ Bit31 s t x31 ∧
        t = { s with msr := t.msr, pc := t.pc, cr := t.cr, free := t.free, pipe := Pipe.empty }

/-- The TLB instructions in the supervisor state with the MMU on: `tlbia` clears every V, `tlbre` reads the entry that
the low six bits of RA name and with WS = 0 loads the PID with its TID, `tlbwe` writes one half of it, with WS = 0
taking the TID from the PID, `tlbsync` does nothing; later fetches may still be made under the state before a change
(R186, R540, R541, R543, R544, D17; the places of the fields in the words are the model's, notes/assumptions/44.md).
Choices and presumptions it rests on: notes/assumptions/11.md, 44.md. -/
def Obligations.TlbInstructions : Prop :=
  ∀ (s : State) (r ra : Reg) (x31 : Bool), quiet s = true → bit s.msr 17 = false → s.params.mmuEnabled = true →
    let n : Fin 64 := ⟨(gpr s ra).toNat % 64, Nat.mod_lt _ (by decide)⟩
    let e := s.mmu.tlb[n]; let w := gpr s r
    (∃ t, exec (.tlbia x31) s = .next t ∧ (∀ m : Fin 64, t.mmu.tlb[m] = { s.mmu.tlb[m] with v := false }) ∧
      Bit31 s t x31 ∧ t.pc = s.pc + 4#32 ∧
      t = { s with mmu := { s.mmu with tlb := t.mmu.tlb }, pc := t.pc, cr := t.cr, free := t.free,
                   pipe := pipeRemembering s }) ∧
    (∃ t, exec (.tlbre r ra false x31) s = .next t ∧
      WritesGpr s t r
        (e.epn ++ e.size ++ BitVec.ofBool e.v ++ BitVec.ofBool e.e ++ BitVec.ofBool e.u0 ++ 0#4 :
          BitVec (22 + 3 + 1 + 1 + 1 + 4)) ∧
      t.mmu.pid = BitVec.ofNat 32 e.tid.toNat ∧ Bit31 s t x31 ∧ t.pc = s.pc + 4#32 ∧
      t = { s with gpr := t.gpr, mmu := { s.mmu with pid := t.mmu.pid }, pc := t.pc, cr := t.cr, free := t.free,
                   pipe := pipeRemembering s }) ∧
    (∃ t, exec (.tlbre r ra true x31) s = .next t ∧
      WritesGpr s t r
        (e.rpn ++ BitVec.ofBool e.ex ++ BitVec.ofBool e.wr ++ e.zsel ++ BitVec.ofBool e.w ++ BitVec.ofBool e.i ++
          BitVec.ofBool e.m ++ BitVec.ofBool e.g : BitVec (22 + 1 + 1 + 4 + 1 + 1 + 1 + 1)) ∧
      Bit31 s t x31 ∧ t.pc = s.pc + 4#32 ∧ t = { s with gpr := t.gpr, pc := t.pc, cr := t.cr, free := t.free }) ∧
    (∀ ws : Bool, ∃ t, exec (.tlbwe r ra ws x31) s = .next t ∧
      t.mmu.tlb[n] =
        (if ws then
           { e with rpn := field w 0 22, ex := bit w 22, wr := bit w 23, zsel := field w 24 4, w := bit w 28, i := bit w 29,
                    m := bit w 30, g := bit w 31 }
         else
           { e with epn := field w 0 22, size := field w 22 3, v := bit w 25, e := bit w 26, u0 := bit w 27,
                    tid := field s.mmu.pid 24 8 }) ∧
      (∀ m : Fin 64, m ≠ n → t.mmu.tlb[m] = s.mmu.tlb[m]) ∧ Bit31 s t x31 ∧ t.pc = s.pc + 4#32 ∧
      t = { s with mmu := { s.mmu with tlb := t.mmu.tlb }, pc := t.pc, cr := t.cr, free := t.free,
                   pipe := pipeRemembering s }) ∧
    ∃ t, exec (.tlbsync x31) s = .next t ∧ Bit31 s t x31 ∧ t.pc = s.pc + 4#32 ∧ OnlyPc s t

/-- The TLB search of `tlbsx` and of translation: an entry matches when it is valid, its TID is 0 or the PID's, and its
page holds the address; the lowest matching index counts (D16). `tlbsx` gives that index, or any value, with the record
form telling which. In either state a data access with MSR[DR] = 1, and a fetch with MSR[IR] = 1, through that entry
takes the page's real address and attributes, and without it there is a miss; the operand of an instruction cache
operation and of `dcread` is then translated as that of a data access. With MSR[DR] = 0 a data access, and with MSR[IR]
= 0 a fetch, with or without an MMU, has the address itself, free of checks, with the attributes that bit EA[0:4] of
DCCR or ICCR, DCWR, SGR, SLER and SU0R gives (R150 to R153, R170, R178, R514, R542). Choices and presumptions it rests
on: notes/assumptions/18.md, 24.md, 44.md. -/
def Obligations.TlbSearches : Prop :=
  ∀ (s : State) (rt ra rb : Reg) (rc : Bool),
    let ea : Word := (if ra = 0#5 then 0#32 else gpr s ra) + gpr s rb
    let page (e : TlbEntry) : Nat := 1024 * 4 ^ e.size.toNat
    -- `tlbsx` itself, in the supervisor state with the MMU on
    let searches (eq : Bool) (index : Word → Prop) : Prop :=
      quiet s = true → bit s.msr 17 = false → s.params.mmuEnabled = true →
      ∃ t, exec (.tlbsx rt ra rb rc) s = .next t ∧ index (gpr t rt) ∧ (∀ q, q ≠ rt → gpr t q = gpr s q) ∧
        (rc = true → WritesCrField s t 0#3 false false eq (bit s.xer 0)) ∧ (rc = false → t.cr = s.cr) ∧
        t.pc = s.pc + 4#32 ∧ t = { s with gpr := t.gpr, pc := t.pc, cr := t.cr, free := t.free }
    let region : Nat := ea.toNat / 2 ^ 27
    let real (cachable : Word) (x : Xlate) : Prop :=
      x.ra = ea ∧ x.real = true ∧ readOk s x = true ∧ writeOk s x = true ∧ execOk s x = true ∧
        x.attrs = { w := bit s.attr.dcwr region, i := !bit cachable region, g := bit s.attr.sgr region,
                    u0 := bit s.attr.su0r region, e := bit s.attr.sler region }
    (∀ n : Fin 64, FirstMatch s ea n →
      let e := s.mmu.tlb[n]
      let through (r : Option Xlate) : Prop :=
        ∃ x, r = some x ∧ x.ra.toNat = e.rpn.toNat * 1024 / page e * page e + ea.toNat % page e ∧
          x.attrs = { w := e.w, i := e.i, g := e.g, u0 := e.u0, e := e.e } ∧ x.real = false ∧ x.ex = e.ex ∧ x.wr = e.wr ∧
          x.zone.toNat = zoneNat s e
      searches true (fun v => v = BitVec.ofNat 32 n.val) ∧ (bit s.msr 27 = true → through (xlateData s ea)) ∧
        (bit s.msr 26 = true → through (xlateFetch s ea))) ∧
    ((∀ m, ¬ Matches s ea m) →
      searches false (fun _ => True) ∧ (bit s.msr 27 = true → xlateData s ea = none) ∧
        (bit s.msr 26 = true → xlateFetch s ea = none)) ∧
    -- the operand of an instruction cache operation, and of `dcread`
    (bit s.msr 27 = true → xlateIcacheOp s ea = xlateData s ea) ∧
    (bit s.msr 27 = false →
      (∃ x, xlateData s ea = some x ∧ real s.attr.dccr x) ∧ ∃ x, xlateIcacheOp s ea = some x ∧ real s.attr.iccr x) ∧
    (bit s.msr 26 = false → ∃ x, xlateFetch s ea = some x ∧ real s.attr.iccr x)

/-! ### Processor management (R560 to R575) -/

/-- The barriers, and the CR and XER moves: `eieio` and `sync` leave no write under way and empty the line buffer,
`isync` leaves nothing fetched earlier and no earlier fetch state, marks the stores of caching inhibited and
write-through storage as those that a caching inhibited fetch finds, and opens ICDBDR to be read; `mfcr` reads the CR,
`mtcrf` writes the fields that FXM selects, `mcrxr` moves SO, OV, CA, 0 to a CR field and clears them; nothing else
changes (R183, R195, R196, R204, R513, R560 to R565, R787). Choices and presumptions it rests on:
notes/assumptions/11.md, 27.md, 46.md, 54.md. -/
def Obligations.ProcessorMoves : Prop :=
  ∀ (s : State) (r : Reg) (bf : BitVec 3) (fxm : BitVec 8) (x31 : Bool), quiet s = true →
    let settled (w : LateWrite) : LateWrite := { w with settled := w.settled || w.direct }
    (∀ f ∈ [(Instr.eieio x31, { s.sto with buffer := none, late := [] }, s.pipe, s.icdbdrOpen),
            (Instr.sync x31, { s.sto with buffer := none, late := [] }, s.pipe, s.icdbdrOpen),
            (Instr.isync x31, { s.sto with late := s.sto.late.map settled }, Pipe.empty, false)],
      ∃ t, exec f.1 s = .next t ∧ Bit31 s t x31 ∧ t.pc = s.pc + 4#32 ∧
        t = { s with pc := t.pc, cr := t.cr, free := t.free, sto := f.2.1, pipe := f.2.2.1, icdbdrOpen := f.2.2.2 }) ∧
    (∃ t, exec (.mfcr r x31) s = .next t ∧ WritesGpr s t r s.cr ∧ Bit31 s t x31 ∧ t.pc = s.pc + 4#32 ∧
      t = { s with gpr := t.gpr, pc := t.pc, cr := t.cr, free := t.free }) ∧
    (∃ t, exec (.mtcrf r fxm) s = .next t ∧
      (∀ k, k < 32 → bit t.cr k = if fxm.getMsbD (k / 4) then bit (gpr s r) k else bit s.cr k) ∧
      t = { s with cr := t.cr, pc := s.pc + 4#32 }) ∧
    ∃ t, exec (.mcrxr bf x31) s = .next t ∧
      (x31 = false ∨ bf ≠ 0#3 →
        bit t.cr (4 * bf.toNat) = bit s.xer 0 ∧ bit t.cr (4 * bf.toNat + 1) = bit s.xer 1 ∧
          bit t.cr (4 * bf.toNat + 2) = bit s.xer 2 ∧ bit t.cr (4 * bf.toNat + 3) = false) ∧
      (∀ k, k < 32 → (k < 4 * bf.toNat ∨ 4 * bf.toNat + 4 ≤ k) → (x31 = false ∨ 4 ≤ k) → bit t.cr k = bit s.cr k) ∧
      t = { s with xer := s.xer &&& 0x1FFFFFFF#32, cr := t.cr, pc := s.pc + 4#32, free := t.free }

/-- The register reads: `mfspr` gives every readable SPR with its reserved bits 0, `mfdcr` what the device at a mapped
number answers, with what the read does to the DCR space, `mftb` TBL or TBU; a number without a readable register, and
ICDBDR between an `icread` and the next `isync`, leave RT open; nothing else changes (R14, R46, R47, R53, R55, R566,
R568, R570, R575, D1). Choices and presumptions it rests on: notes/assumptions/5.md, 12.md, 25.md, 26.md, 27.md. -/
def Obligations.RegisterReads : Prop :=
  ∀ (s : State) (rt : Reg), quiet s = true →
    let table : List (BitVec 10 × Word) :=
      [(0x001#10, s.xer &&& 0xE000007F#32), (0x008#10, s.lr), (0x009#10, s.ctr), (0x01A#10, s.exc.srr0 &&& 0xFFFFFFFC#32),
       (0x01B#10, s.exc.srr1),
       (0x100#10, s.usprg0), (0x104#10, s.sprg[4]), (0x105#10, s.sprg[5]), (0x106#10, s.sprg[6]), (0x107#10, s.sprg[7]),
       (0x110#10, s.sprg[0]), (0x111#10, s.sprg[1]), (0x112#10, s.sprg[2]), (0x113#10, s.sprg[3]), (0x114#10, s.sprg[4]),
       (0x115#10, s.sprg[5]), (0x116#10, s.sprg[6]), (0x117#10, s.sprg[7]), (0x11F#10, s.params.pvr), (0x3B0#10, s.mmu.zpr),
       (0x3B1#10, s.mmu.pid &&& 0xFF#32), (0x3B3#10, s.attr.ccr0 &&& 0x03F30F11#32), (0x3B4#10, s.dbg.iac3),
       (0x3B5#10, s.dbg.iac4),
       (0x3B6#10, s.dbg.dvc1), (0x3B7#10, s.dbg.dvc2), (0x3B9#10, s.attr.sgr), (0x3BA#10, s.attr.dcwr),
       (0x3BB#10, s.attr.sler),
       (0x3BC#10, s.attr.su0r), (0x3BD#10, s.dbg.dbcr1 &&& 0xFFCFFF00#32), (0x3D3#10, s.icdbdr),
       (0x3D4#10, s.exc.esr &&& 0x8FCC8000#32),
       (0x3D5#10, s.exc.dear), (0x3D6#10, s.exc.evpr &&& 0xFFFF0000#32), (0x3D8#10, s.tmr.tsr &&& 0xFC000000#32),
       (0x3DA#10, s.tmr.tcr &&& 0xFFC00000#32), (0x3DB#10, s.tmr.pit), (0x3DE#10, s.exc.srr2 &&& 0xFFFFFFFC#32),
       (0x3DF#10, s.exc.srr3),
       (0x3F0#10, s.dbg.dbsr &&& 0xFFFC0300#32), (0x3F2#10, s.dbg.dbcr0 &&& 0xFFFFC001#32), (0x3F4#10, s.dbg.iac1),
       (0x3F5#10, s.dbg.iac2),
       (0x3F6#10, s.dbg.dac1), (0x3F7#10, s.dbg.dac2), (0x3FA#10, s.attr.dccr), (0x3FB#10, s.attr.iccr)]
    let user : List (BitVec 10) := [0x001#10, 0x008#10, 0x009#10, 0x100#10, 0x104#10, 0x105#10, 0x106#10, 0x107#10]
    let reads (i : Instr) (value : Option Word) (dcr : DcrSpace) : Prop :=
      ∃ t, exec i s = .next t ∧ (∀ v, value = some v → gpr t rt = v) ∧ (∀ q, q ≠ rt → gpr t q = gpr s q) ∧
        t = { s with gpr := t.gpr, pc := s.pc + 4#32, free := t.free, dcr := dcr }
    (∀ n : BitVec 10, bit s.msr 17 = false ∨ n ∈ user →
      reads (.mfspr rt n) (if n = 0x3D3#10 ∧ s.icdbdrOpen = true then none else table.lookup n) s.dcr) ∧
    (∀ n : BitVec 10, bit s.msr 17 = false →
      match s.dcr.lookup n.toNat with
      | some (.word w) => reads (.mfdcr rt n) (some w) s.dcr
      | some (.readOnly w) => reads (.mfdcr rt n) (some w) s.dcr
      | some (.clearOnes w) => reads (.mfdcr rt n) (some w) s.dcr
      | some (.device id _) =>
        reads (.mfdcr rt n) (some (Config.dcrRead id n.toNat s.dcr)) (Config.dcrAfterRead id n.toNat s.dcr)
      | none => reads (.mfdcr rt n) none s.dcr) ∧
    ∀ n : BitVec 10,
      reads (.mftb rt n) (if n = 0x10C#10 then some s.tmr.tbl else if n = 0x10D#10 then some s.tmr.tbu else none) s.dcr

/-- The register writes: `mtspr` by each register's own rule (DBSR and TSR are cleared where a 1 is written, TCR[WRC]
stays once set, PIT loads its reload value too, reserved bits stay 0), read-only and reserved numbers changing nothing,
the state before a write to a register of the fetch side staying one that later fetches may be made under; a TBL value
that makes the FIT's or the watchdog's bit rise sets TSR[FIS], steps the watchdog or resets the core; `mtdcr` writes the
device at a mapped number. A DBCR0 value that asks for a reset is in `SoftwareReset` (R14, R46, R47, R53, R55, R567,
R569, R575, R702, R703, R709, R710, R719, D1, D3, D24). Choices and presumptions it rests on: notes/assumptions/5.md,
11.md, 12.md, 25.md, 26.md. -/
def Obligations.RegisterWrites : Prop :=
  ∀ (s : State) (rs : Reg), quiet s = true →
    let v := gpr s rs
    let old := s.tmr.tcr
    let sprg (k : Fin 8) : State := { s with sprg := s.sprg.set k v }
    let table : List (BitVec 10 × State) :=
      [(0x001#10, { s with xer := v &&& 0xE000007F#32 }), (0x008#10, { s with lr := v }), (0x009#10, { s with ctr := v }),
       (0x01A#10, { s with exc := { s.exc with srr0 := v &&& 0xFFFFFFFC#32 } }),
       (0x01B#10, { s with exc := { s.exc with srr1 := v } }),
       (0x100#10, { s with usprg0 := v }), (0x110#10, sprg 0), (0x111#10, sprg 1), (0x112#10, sprg 2), (0x113#10, sprg 3),
       (0x114#10, sprg 4), (0x115#10, sprg 5), (0x116#10, sprg 6), (0x117#10, sprg 7),
       (0x11C#10, { s with tmr := { s.tmr with tbl := v } }), (0x11D#10, { s with tmr := { s.tmr with tbu := v } }),
       (0x3B0#10, { s with mmu := { s.mmu with zpr := v } }),
       (0x3B1#10, { s with mmu := { s.mmu with pid := v &&& 0xFF#32 } }),
       (0x3B3#10, { s with attr := { s.attr with ccr0 := v &&& 0x03F30F11#32 } }),
       (0x3B4#10, { s with dbg := { s.dbg with iac3 := v } }), (0x3B5#10, { s with dbg := { s.dbg with iac4 := v } }),
       (0x3B6#10, { s with dbg := { s.dbg with dvc1 := v } }), (0x3B7#10, { s with dbg := { s.dbg with dvc2 := v } }),
       (0x3B9#10, { s with attr := { s.attr with sgr := v } }), (0x3BA#10, { s with attr := { s.attr with dcwr := v } }),
       (0x3BB#10, { s with attr := { s.attr with sler := v } }), (0x3BC#10, { s with attr := { s.attr with su0r := v } }),
       (0x3BD#10, { s with dbg := { s.dbg with dbcr1 := v &&& 0xFFCFFF00#32 } }),
       (0x3D4#10, { s with exc := { s.exc with esr := v &&& 0x8FCC8000#32 } }),
       (0x3D5#10, { s with exc := { s.exc with dear := v } }),
       (0x3D6#10, { s with exc := { s.exc with evpr := v &&& 0xFFFF0000#32 } }),
       (0x3D8#10, { s with tmr := { s.tmr with tsr := s.tmr.tsr &&& ~~~v } }),
       (0x3DA#10, { s with tmr := { s.tmr with tcr := (v &&& 0xFFC00000#32) ||| (old &&& 0x30000000#32) } }),
       (0x3DB#10, { s with tmr := { s.tmr with pit := v, pitReload := v } }),
       (0x3DE#10, { s with exc := { s.exc with srr2 := v &&& 0xFFFFFFFC#32 } }),
       (0x3DF#10, { s with exc := { s.exc with srr3 := v } }),
       (0x3F0#10, { s with dbg := { s.dbg with dbsr := s.dbg.dbsr &&& ~~~v } }),
       (0x3F2#10, { s with dbg := { s.dbg with dbcr0 := v &&& 0xFFFFC001#32 } }),
       (0x3F4#10, { s with dbg := { s.dbg with iac1 := v } }), (0x3F5#10, { s with dbg := { s.dbg with iac2 := v } }),
       (0x3F6#10, { s with dbg := { s.dbg with dac1 := v } }), (0x3F7#10, { s with dbg := { s.dbg with dac2 := v } }),
       (0x3FA#10, { s with attr := { s.attr with dccr := v } }), (0x3FB#10, { s with attr := { s.attr with iccr := v } })]
    -- the registers that fetches are made under
    let fetchSide : List (BitVec 10) :=
      [0x3B0#10, 0x3B1#10, 0x3B3#10, 0x3B4#10, 0x3B5#10, 0x3B9#10, 0x3BB#10, 0x3BC#10, 0x3F2#10, 0x3F4#10, 0x3F5#10, 0x3FB#10]
    let rises (i : Nat) : Bool := !bit s.tmr.tbl i && bit v i
    let fit := rises (23 - 4 * (field old 6 2).toNat); let dog := rises (15 - 4 * (field old 0 2).toNat)
    let resets : Bool := dog && bit s.tmr.tsr 0 && bit s.tmr.tsr 1 && field old 2 2 != 0#2
    (∀ n : BitVec 10, bit s.msr 17 = false ∨ n ∈ ([0x001#10, 0x008#10, 0x009#10, 0x100#10] : List (BitVec 10)) →
      (n = 0x3F2#10 → field v 2 2 = 0#2) → (n = 0x11C#10 → (fit || dog) = false) →
      exec (.mtspr rs n) s =
        .next { (table.lookup n).getD s with
                  pc := s.pc + 4#32, pipe := if n ∈ fetchSide then pipeRemembering s else s.pipe }) ∧
    (bit s.msr 17 = false → resets = false →
      ∃ t, exec (.mtspr rs 0x11C#10) s = .next t ∧
        (∀ k, k < 32 → bit t.tmr.tsr k =
          (bit s.tmr.tsr k || (k == 5 && fit) || (k == 0 && dog) || (k == 1 && dog && bit s.tmr.tsr 0))) ∧
        t = { s with tmr := { s.tmr with tbl := v, tsr := t.tmr.tsr }, pc := s.pc + 4#32 }) ∧
    (bit s.msr 17 = false → resets = true →
      ∃ t, exec (.mtspr rs 0x11C#10) s = .next t ∧ t.pc = 0xFFFFFFFC#32 ∧ t.msr = 0#32 ∧
        field t.tmr.tsr 2 2 = field old 2 2 ∧ field t.dbg.dbsr 22 2 = field old 2 2 ∧ field t.tmr.tcr 2 2 = 0#2) ∧
    ∀ n : BitVec 10, bit s.msr 17 = false →
      ∃ t, exec (.mtdcr rs n) s = .next t ∧ t = { s with dcr := t.dcr, pc := s.pc + 4#32 } ∧
        match s.dcr.lookup n.toNat with
        | some (.word _) => ∀ m, t.dcr.lookup m = if m = n.toNat then some (.word v) else s.dcr.lookup m
        | some (.readOnly _) => t.dcr = s.dcr
        | some (.clearOnes w) =>
          ∀ m, t.dcr.lookup m = if m = n.toNat then some (.clearOnes (w &&& ~~~v)) else s.dcr.lookup m
        | some (.device id _) => t.dcr = Config.dcrAfterWrite id n.toNat v s.dcr
        | none => t.dcr = s.dcr

/-! ### Exceptions (R571 to R574, R600 to R682) -/

/-- `sc` takes the system call interrupt, saving the address after it; `tw` and `twi` take the program interrupt with
ESR[PTR] when a comparison that TO asks for holds, and else only move on (R571 to R574, R641, R647). Choices and
presumptions it rests on: notes/assumptions/13.md. -/
def Obligations.SystemCallAndTraps : Prop :=
  ∀ (s : State) (tos : BitVec 5) (ra rb : Reg) (im : BitVec 16) (x31 : Bool), quiet s = true → s.dbg.run ≠ .debugWait →
    (∃ t, exec .sc s = .next t ∧ EntersNoncritical s t 0x0C00#32 (wordAligned (s.pc + 4#32)) ∧ t.exc.esr = s.exc.esr ∧
      t.exc.dear = s.exc.dear) ∧
    ∀ f ∈ [(Instr.tw tos ra rb x31, gpr s rb, x31), (Instr.twi tos ra im, im.signExtend 32, false)],
      let a := gpr s ra; let b := f.2.1
      let holds : Prop :=
        (tos.getMsbD 0 = true ∧ a.toInt < b.toInt) ∨ (tos.getMsbD 1 = true ∧ b.toInt < a.toInt) ∨
          (tos.getMsbD 2 = true ∧ a = b) ∨ (tos.getMsbD 3 = true ∧ a.toNat < b.toNat) ∨
          (tos.getMsbD 4 = true ∧ b.toNat < a.toNat)
      (holds → ∃ t, exec f.1 s = .next t ∧ EntersNoncritical s t 0x0700#32 (wordAligned s.pc) ∧
        t.exc.esr = (s.exc.esr &&& 0x80000000#32) ||| 0x02000000#32 ∧ t.exc.dear = s.exc.dear) ∧
      (¬ holds → ∃ t, exec f.1 s = .next t ∧ Bit31 s t f.2.2 ∧ t.pc = s.pc + 4#32 ∧ OnlyPc s t)

/-- In the problem state every privileged instruction does nothing but take the program interrupt with ESR[PPR]; with
the MMU tied off a TLB instruction takes it with ESR[PIL], in either mode (R47, R189, R240, R641, R681, D6). Choices and
presumptions it rests on: notes/assumptions/13.md, 38.md. -/
def Obligations.PrivilegedTraps : Prop :=
  ∀ (s : State) (rt ra rb : Reg) (n : BitVec 10) (e x31 : Bool), quiet s = true → s.dbg.run ≠ .debugWait →
    let user : List (BitVec 10) := [0x001#10, 0x008#10, 0x009#10, 0x100#10]
    let tlb := [Instr.tlbia x31, .tlbre rt ra e x31, .tlbsx rt ra rb e, .tlbsync x31, .tlbwe rt ra e x31]
    let traps (i : Instr) (cause : Word) : Prop :=
      ∃ t, exec i s = .next t ∧ EntersNoncritical s t 0x0700#32 (wordAligned s.pc) ∧
        t.exc.esr = (s.exc.esr &&& 0x80000000#32) ||| cause ∧ t.exc.dear = s.exc.dear
    (bit s.msr 17 = true → ∀ i ∈ [Instr.dcbi ra rb x31, .dccci ra rb x31, .dcread rt ra rb x31, .icbt ra rb x31, .iccci ra rb x31,
           .icread ra rb x31, .mfdcr rt n, .mfmsr rt x31, .mtdcr rt n, .mtmsr rt x31, .rfci x31, .rfi x31, .wrtee rt x31,
           .wrteei e x31] ++
          (if s.params.mmuEnabled then tlb else []) ++
          (if n ∈ user ∨ n ∈ ([0x104#10, 0x105#10, 0x106#10, 0x107#10] : List (BitVec 10)) then [] else [Instr.mfspr rt n]) ++
          (if n ∈ user then [] else [Instr.mtspr rt n]),
      traps i 0x04000000#32) ∧
    (s.params.mmuEnabled = false → ∀ i ∈ tlb, traps i 0x08000000#32)

/-- The alignment interrupt: `lwarx`, `stwcx.` and `dcread` at an address that is not word aligned and that their checks
allow, `dcbz` in storage that is not cachable or write-through, and `dcbz` on a core without a data cache array (the
spec's treatment U29, for which its source has nothing): DEAR takes the address, the ESR stays, and no register or byte
is written (R507, R509, R645). Choices and presumptions it rests on: notes/assumptions/13.md, 40.md, 53.md. -/
def Obligations.AlignmentTraps : Prop :=
  ∀ (s : State) (rt ra rb : Reg) (x31 : Bool), quiet s = true → s.dbg.run ≠ .debugWait →
    let ea : Word := (if ra = 0#5 then 0#32 else gpr s ra) + gpr s rb
    let traps (i : Instr) : Prop :=
      ∃ t, exec i s = .next t ∧ EntersNoncritical s t 0x0600#32 (wordAligned s.pc) ∧ t.exc.dear = ea ∧
        t.exc.esr = s.exc.esr
    (ea.toNat % 4 ≠ 0 →
      (∀ x, loadXlate s ea = .ok x → traps (.lwarx rt ra rb x31)) ∧
        (∀ x, storeXlate s ea = .ok x → traps (.stwcxRc rt ra rb)) ∧ (s.reserve = false → traps (.stwcxRc rt ra rb)) ∧
        (∀ x, xlateIcacheOp s ea = some x → bit s.msr 17 = false → traps (.dcread rt ra rb x31))) ∧
    ∀ x, storeXlate s ea = .ok x → x.attrs.i = true ∨ x.attrs.w = true ∨ s.params.dcacheSize.classes = 0 →
      traps (.dcbz ra rb x31)

/-- A data access that translation or protection refuses takes the data TLB miss or the data storage interrupt, at its
own address, with nothing written: DEAR the address, ESR[MCI] kept, DST for a store, DIZ for a zone fault, U0F for a U0
fault, every other bit 0 (R630, R631, R656; DST on a miss is the parameter of C16); `dcread`, `iccci` and `icread` are
only checked for a match (R163). A load or store whose later part is refused takes it with the failing part's address in
DEAR and the instruction's own in SRR0, and a scalar one writes no register (R144, R616). An access that R161 and R177
allow passes its check, and an operand whose parts all pass has no failing part. That `lmw`, `lswi` and `lswx` fault on
the bytes of a register they skip is the model's choice (R291 and R294 leave it open, notes/assumptions/52.md), and so
is the address of an update form with RA = 0, taken from GPR0 (R271, U12, notes/assumptions/15.md). Choices and
presumptions it rests on: notes/assumptions/13.md, 15.md, 16.md, 39.md, 52.md. -/
def Obligations.DataFaults : Prop :=
  ∀ (s : State) (rt ra rb : Reg) (d : BitVec 16) (nb : BitVec 5) (x31 : Bool), quiet s = true → s.dbg.run ≠ .debugWait →
    let base : Word := if ra = 0#5 then 0#32 else gpr s ra
    let ed := base + d.signExtend 32; let ex := base + gpr s rb
    let ud := gpr s ra + d.signExtend 32; let ux := gpr s ra + gpr s rb
    let super : Bool := !bit s.msr 17
    let tbc := s.xer.toNat % 128
    let count := if nb = 0#5 then 32 else nb.toNat
    let enters (i : Instr) (off ea esr : Word) : Prop :=
      ∃ t, exec i s = .next t ∧ EntersNoncritical s t off (wordAligned s.pc) ∧ t.exc.dear = ea ∧
        t.exc.esr = (s.exc.esr &&& 0x80000000#32) ||| esr
    let zone (x : Xlate) : Bool := !x.real && !super && x.zone == 0#2
    let write (x : Xlate) : Bool := !x.real && !x.wr && x.zone != 3#2 && !(super && x.zone == 2#2)
    let u0 (x : Xlate) : Bool := bit s.attr.ccr0 14 && x.attrs.u0
    let missBit (store : Bool) : Word := if store && s.params.dtlbMissSetsDst then 0x00800000#32 else 0#32
    -- instruction, first address, bytes, whether it writes one scalar register or place
    let loads : List (Instr × Word × Nat × Bool) :=
      [(.lbz rt ra d, ed, 1, true), (.lbzx rt ra rb x31, ex, 1, true), (.lbzu rt ra d, ud, 1, true),
       (.lbzux rt ra rb x31, ux, 1, true), (.lhz rt ra d, ed, 2, true), (.lhzx rt ra rb x31, ex, 2, true),
       (.lhzu rt ra d, ud, 2, true), (.lhzux rt ra rb x31, ux, 2, true), (.lha rt ra d, ed, 2, true),
       (.lhax rt ra rb x31, ex, 2, true), (.lhau rt ra d, ud, 2, true), (.lhaux rt ra rb x31, ux, 2, true),
       (.lwz rt ra d, ed, 4, true), (.lwzx rt ra rb x31, ex, 4, true), (.lwzu rt ra d, ud, 4, true),
       (.lwzux rt ra rb x31, ux, 4, true), (.lhbrx rt ra rb x31, ex, 2, true), (.lwbrx rt ra rb x31, ex, 4, true),
       (.lmw rt ra d, ed, 4 * (32 - rt.toNat), false), (.lswi rt ra nb x31, base, count, false)] ++
        (if tbc = 0 then [] else [(.lswx rt ra rb x31, ex, tbc, false)])
    let stores : List (Instr × Word × Nat × Bool) :=
      [(.stb rt ra d, ed, 1, true), (.stbx rt ra rb x31, ex, 1, true), (.stbu rt ra d, ud, 1, true),
       (.stbux rt ra rb x31, ux, 1, true), (.sth rt ra d, ed, 2, true), (.sthx rt ra rb x31, ex, 2, true),
       (.sthu rt ra d, ud, 2, true), (.sthux rt ra rb x31, ux, 2, true), (.stw rt ra d, ed, 4, true),
       (.stwx rt ra rb x31, ex, 4, true), (.stwu rt ra d, ud, 4, true), (.stwux rt ra rb x31, ux, 4, true),
       (.sthbrx rt ra rb x31, ex, 2, true), (.stwbrx rt ra rb x31, ex, 4, true),
       (.stmw rt ra d, ed, 4 * (32 - rt.toNat), true), (.stswi rt ra nb x31, base, count, true)] ++
        (if tbc = 0 then [] else [(.stswx rt ra rb x31, ex, tbc, true)])
    -- instruction, address, store class, subject to the U0 test
    let single : List (Instr × Word × Bool × Bool) :=
      loads.map (fun f => (f.1, f.2.1, false, false)) ++ stores.map (fun f => (f.1, f.2.1, true, true)) ++
        [(.lwarx rt ra rb x31, ex, false, false), (.dcbf ra rb x31, ex, false, false), (.dcbst ra rb x31, ex, false, false),
         (.icbi ra rb x31, ex, false, false), (.dcbz ra rb x31, ex, true, true)] ++
        (if s.reserve then [(.stwcxRc rt ra rb, ex, true, true)] else []) ++
        (if super then [(.dcbi ra rb x31, ex, true, false), (.dccci ra rb x31, ex, true, false)] else [])
    (∀ f ∈ single,
      (xlateData s f.2.1 = none → enters f.1 0x1100#32 f.2.1 (missBit f.2.2.1)) ∧
      ∀ x, xlateData s f.2.1 = some x →
        (f.2.2.1 = false → zone x = true → enters f.1 0x0300#32 f.2.1 0x00400000#32) ∧
        (f.2.2.1 = true → (zone x || write x || (f.2.2.2 && u0 x)) = true →
          enters f.1 0x0300#32 f.2.1
            (0x00800000#32 ||| (if zone x then 0x00400000#32 else 0#32) |||
              (if f.2.2.2 && u0 x then 0x00008000#32 else 0#32)))) ∧
    (super = true → xlateData s ex = none →
      ∀ i ∈ [Instr.dcread rt ra rb x31, .iccci ra rb x31, .icread ra rb x31], enters i 0x1100#32 ex 0#32) ∧
    (∀ store, ∀ f ∈ (if store then stores else loads), ∀ fea c,
      (checkUnits s store (units f.2.1 f.2.2.1)).2 = some (fea, c) →
      ∃ t, exec f.1 s = .next t ∧ t.exc.srr0 = wordAligned s.pc ∧ t.exc.srr1 = s.msr ∧ t.exc.dear = fea ∧
        t.msr = s.msr &&& 0x00021200#32 ∧ (f.2.2.2 = true → t.gpr = s.gpr) ∧
        (c = .tlbMiss → t.pc = (s.exc.evpr &&& 0xFFFF0000#32) ||| 0x1100#32 ∧
          t.exc.esr = (s.exc.esr &&& 0x80000000#32) ||| missBit store) ∧
        (∀ dst diz u0f, c = .storage dst diz u0f → t.pc = (s.exc.evpr &&& 0xFFFF0000#32) ||| 0x0300#32 ∧
          t.exc.esr = (s.exc.esr &&& 0x80000000#32) ||| (if dst then 0x00800000#32 else 0#32) |||
            (if diz then 0x00400000#32 else 0#32) ||| (if u0f then 0x00008000#32 else 0#32))) ∧
    (∀ ea x, xlateData s ea = some x →
      (zone x = false → loadXlate s ea = .ok x) ∧ (zone x = false → write x = false → u0 x = false → storeXlate s ea = .ok x)) ∧
    ∀ ea n store, (∀ p ∈ units ea n, ∃ x, unitXlate s store p.1 = .ok x) → (checkUnits s store (units ea n)).2 = none

/-- The asynchronous interrupts at a step without input, in the order of the priority table, each with its enable: the
saved pair, the MSR, the vector, the fetch side emptied and nothing else; with none due and MSR[WE] = 1 the state stays
(R195, R604 to R607, R610, R622, R625, R650, R652 to R654, R690, R742). Choices and presumptions it rests on:
notes/assumptions/13.md, 30.md, 47.md, 50.md. -/
def Obligations.AsynchronousInterrupts : Prop :=
  ∀ s : State, s.env = [] → s.inp.bus = [] → s.dbg.run = .running → dbEDE s = false →
    let check : Bool := s.inp.dataMachineCheck && bit s.msr 19
    let debug : Bool := bit s.dbg.dbcr0 1 && !bit s.dbg.dbcr0 0 && bit s.msr 22 && (s.dbg.dbsr &&& 0xFFEC0000#32) != 0#32
    -- due, critical, vector offset, in falling priority
    let table : List (Bool × Bool × Word) :=
      [(debug, true, 0x2000#32), (s.inp.critical && bit s.msr 14, true, 0x0100#32),
       (bit s.tmr.tsr 1 && bit s.tmr.tcr 4 && bit s.msr 14, true, 0x1020#32),
       (s.inp.external && bit s.msr 16, false, 0x0500#32),
       (bit s.tmr.tsr 5 && bit s.tmr.tcr 8 && bit s.msr 16, false, 0x1010#32),
       (bit s.tmr.tsr 4 && bit s.tmr.tcr 5 && bit s.msr 16, false, 0x1000#32)]
    (check = true →
      step s = .next { s with exc := { s.exc with srr2 := wordAligned s.pc, srr3 := s.msr }, msr := 0#32,
                              pc := (s.exc.evpr &&& 0xFFFF0000#32) ||| 0x0200#32, pipe := Pipe.empty,
                              inp := { s.inp with dataMachineCheck := false } }) ∧
    (check = false →
      (∀ e, table.find? (·.1) = some e →
        step s = .next
          { s with exc := if e.2.1 then { s.exc with srr2 := wordAligned s.pc, srr3 := s.msr }
                          else { s.exc with srr0 := wordAligned s.pc, srr1 := s.msr },
                   msr := s.msr &&& (if e.2.1 then 0x00001000#32 else 0x00021200#32),
                   pc := (s.exc.evpr &&& 0xFFFF0000#32) ||| e.2.2, pipe := Pipe.empty }) ∧
      (table.find? (·.1) = none → bit s.msr 13 = true → step s = .next s))

/-! ### Timers and debug events -/

/-- A timer clock: with DBCR0[FT] = 1 and a debug event pending nothing moves; else the time base counts as one 64-bit
number, the PIT counts down to 0 or reloads and sets TSR[PIS] as it leaves 1, a rise of the TBL bit that TCR[FP] selects
sets TSR[FIS], a rise of the one that TCR[WP] selects steps the watchdog: ENW, then WIS, then the reset that TCR[WRC]
asks for (R700, R704 to R708, R711; that PIT and FIT move on a reset tick too and the reload source are the model's,
notes/assumptions/35.md). A step whose next boundary brings a single input, of the kinds listed, takes it before the
core's own work: one timer clock, an interrupt input, the unconditional event, a debug tool's act, bytes that another
bus master writes, a change of a mapped device of the DCR space, a read by the fetcher, which fills the line that it
misses and may read or leaves every line as it was, or a reset, which is the whole step (R104, R190, R625, R650, R690,
R712, R730, R741, R760); several inputs at one boundary and several clocks at once are not covered. The model's choices
are: that the inputs come from a list (notes/assumptions/7.md), that a debug tool's halt and release stop the core and
let it run and that the unconditional event in debug wait mode puts it in debug wait (33.md), that a reset request keeps
TSR[WRS] (D14, 37.md), and that the unconditional event sets DBSR[IDE] with IDM = 1 and DE = 0 also where EDM = 1
(55.md). Choices and presumptions it rests on: notes/assumptions/7.md, 11.md, 33.md, 35.md, 36.md, 37.md, 54.md, 55.md,
56.md. -/
def Obligations.TimerClock : Prop :=
  (∀ s : State,
    let r := timerClock s
    let old := s.tmr; let new := old.tbl + 1#32
    let rises (i : Nat) : Bool := !bit old.tbl i && bit new i
    let fit := rises (match (field old.tcr 6 2).toNat with | 0 => 23 | 1 => 19 | 2 => 15 | _ => 11)
    let dog := rises (match (field old.tcr 0 2).toNat with | 0 => 15 | 1 => 11 | 2 => 7 | _ => 3)
    let frozen : Bool := bit s.dbg.dbcr0 31 && (s.dbg.dbsr &&& 0xFFEC0000#32) != 0#32
    let resets : Bool := dog && bit old.tsr 0 && bit old.tsr 1 && field old.tcr 2 2 != 0#2
    (frozen = true → r = (s, false)) ∧
    (frozen = false → resets = true →
      r.2 = true ∧ r.1.pc = 0xFFFFFFFC#32 ∧ r.1.msr = 0#32 ∧ field r.1.tmr.tsr 2 2 = field old.tcr 2 2 ∧
        field r.1.dbg.dbsr 22 2 = field old.tcr 2 2 ∧ field r.1.tmr.tcr 2 2 = 0#2) ∧
    (frozen = false → resets = false →
      r.2 = false ∧
        r.1.tmr.tbu.toNat * 2 ^ 32 + r.1.tmr.tbl.toNat = (old.tbu.toNat * 2 ^ 32 + old.tbl.toNat + 1) % 2 ^ 64 ∧
        r.1.tmr.pit =
          (if old.pit = 1#32 ∧ bit old.tcr 9 = true then old.pitReload else if old.pit = 0#32 then 0#32 else old.pit - 1#32) ∧
        (∀ k, k < 32 → bit r.1.tmr.tsr k = (bit old.tsr k || (k == 4 && old.pit == 1#32) || (k == 5 && fit) ||
          (k == 0 && dog) || (k == 1 && dog && bit old.tsr 0))) ∧
        r.1 = { s with tmr := { old with tbu := r.1.tmr.tbu, tbl := r.1.tmr.tbl, pit := r.1.tmr.pit, tsr := r.1.tmr.tsr } })) ∧
  ∀ (s : State) (rest : List (List EnvInput)) (e : EnvInput), s.env = [e] :: rest → s.inp.bus = [] →
    -- what the fetcher may have read ahead by then, at the pc and the two addresses after it
    let ahead (r : State) : Prop :=
      r = { s with pipe := { s.pipe with queue := r.pipe.queue }, sto := { s.sto with icache := r.sto.icache }, free := r.free } ∧
        (s.pipe.contexts = [] → icacheOk s = true → ReadsAhead s r s.pc)
    -- the core's own work after what the input does
    let goesOn (act : State → State) : Prop := ∃ r, ahead r ∧ step s = runCore false { act r with env := rest }
    let unconditional (run : DebugRun) (r : State) : State :=
      { r with dbg := { r.dbg with run := run, dbsr := r.dbg.dbsr ||| 0x08000000#32 |||
        (if dbIDM s && !msrDE s then 0x00100000#32 else 0#32) } }
    (e = .clocks 1 →
      ∃ r, ahead r ∧ let c := timerClock { r with env := rest }
        step s = if c.2 then .next c.1 else runCore false c.1) ∧
    (∀ a, e = .criticalInput a → goesOn (fun r => { r with inp := { r.inp with critical := a } })) ∧
    (∀ a, e = .externalInput a → goesOn (fun r => { r with inp := { r.inp with external := a } })) ∧
    (e = .clearWaitEnable → goesOn (fun r => { r with msr := r.msr &&& 0xFFFBFFFF#32 })) ∧
    (e = .debugHalt → goesOn (fun r => { r with dbg := { r.dbg with run := .stopped } })) ∧
    (e = .debugRelease → goesOn (fun r => { r with dbg := { r.dbg with run := .running } })) ∧
    (∀ turns, e = .busInside turns → goesOn (fun r => { r with inp := { r.inp with bus := turns } })) ∧
    (∀ bytes, e = .busWrite bytes → memOk s = true →
      ∃ m l, goesOn (fun r => { r with sto := { r.sto with mem := m, late := l } }) ∧
        ∀ a, memByte { s with sto := { s.sto with mem := m } } a = (bytes.reverse.lookup a).getD (memByte s a)) ∧
    (∀ n d, e = .dcrChange n d →
      ∃ m, goesOn (fun r => { r with dcr := m }) ∧
        ∀ k, m.lookup k = if k = n ∧ s.dcr.lookup n ≠ none then some d else s.dcr.lookup k) ∧
    (∀ ea, e = .speculativeFetch ea →
      ∃ r c n, ahead r ∧
        let u : State := { r with sto := { r.sto with icache := c }, free := n }
        step s = runCore false { u with env := rest } ∧ (s.pipe.contexts = [] → icacheOk s = true → ReadsLine r u ea)) ∧
    (∀ kind, e = .resetRequest kind → ∃ t, step s = .next t ∧ t.pc = 0xFFFFFFFC#32 ∧ t.msr = 0#32 ∧
      field t.dbg.dbsr 22 2 = (match kind with | .core => 1#2 | .chip => 2#2 | .system => 3#2) ∧
      field t.tmr.tsr 2 2 = field s.tmr.tsr 2 2) ∧
    (e = .unconditionalEvent →
      goesOn (unconditional (if dbEDM s then .stopped else if debugWaitMode s then .debugWait else s.dbg.run))) ∧
    (s.dbg.run = .stopped → e = .clocks 1 → bit s.dbg.dbcr0 31 = false → bit s.tmr.tcr 2 = false → bit s.tmr.tcr 3 = false →
      ∃ t, step s = .next t ∧ t.pc = s.pc ∧ t.gpr = s.gpr ∧ t.tmr.tbl = s.tmr.tbl + 1#32)

/-- What a debug event does, in every debug mode: external mode stops the core, internal mode with MSR[DE] = 1 takes the
debug interrupt, debug wait mode stops the core too, and else the event is recorded, with IDE where IDM = 1 and MSR[DE]
= 0 (`afterEvent`). Completion, for the instructions listed, comes after the instruction, which does what it does
without the event; the branch taken event and the trap event come before it; completion and branch events are off with
IDM = 1, EDM = 0, MSR[DE] = 0, and a trap that does not act takes the program interrupt. Exact and range compares of the
IACs come before the fetch and toggle the ranges; those of the DACs come before a load or store of any form of which
some part passes its checks, unless a value compare supersedes them, which comes after it and asks for the value too,
and before a cache instruction that passes its checks, in the direction of Table 8-2 or not at all. The exception event
comes after the entry of every noncritical interrupt shown, of a critical one not with IDM = 1 and EDM = 0. A core that
is stopped and has no input stays so (R320, R660, R721 to R729, R731 to R734, R736, R737, R739, R740). The model's
choices are: IDE with EDM = 1 but for a trap (notes/assumptions/55.md), which state judges an event (31.md, 34.md), the
byte lanes of a value compare and its mode 11 (32.md), the order among the parts of an access (16.md), the bytes of a
skipped register (52.md), GPR0 as the base of an update form (15.md), the event of a `dcba` that does nothing (21.md),
the stop (D12) and debug wait (33.md). Choices and presumptions it rests on: notes/assumptions/13.md, 15.md, 16.md,
21.md, 31.md, 32.md, 33.md, 34.md, 52.md, 55.md. -/
def Obligations.DebugEvents : Prop :=
  ∀ (s : State) (rt ra rb : Reg) (d : BitVec 16) (d26 : BitVec 26) (sh mb me bo bi : BitVec 5) (bf bfa : BitVec 3)
    (fxm : BitVec 8) (aa lk oe rc x31 : Bool) (tos : BitVec 5) (w : Word),
    -- external mode: nothing leaves the stop
    (s.env = [] → s.inp.bus = [] → (s.dbg.run = .stopped ∨ (s.dbg.run = .debugWait ∧ asyncInterrupt s = none)) →
      step s = .fault .debugStop) ∧
    (s.dbg.run = .running →
    let c0 := s.dbg.dbcr0; let c1 := s.dbg.dbcr1
    let edm := bit c0 0; let idm := bit c0 1; let de := bit s.msr 22
    let acts : Bool := edm || (idm && de) || (!edm && !idm && bit s.msr 21 && s.params.jtagDebugWait)
    let masked : Bool := idm && !edm && !de
    let ea : Word := (if ra = 0#5 then 0#32 else gpr s ra) + d.signExtend 32
    let count : Word := if bo.getMsbD 2 then s.ctr else s.ctr - 1#32
    let holds : Prop :=
      (bo.getMsbD 2 = true ∨ (if bo.getMsbD 3 then count = 0#32 else count ≠ 0#32)) ∧
        (bo.getMsbD 0 = true ∨ bit s.cr bi.toNat = bo.getMsbD 1)
    let traps (b : Word) : Prop :=
      let a := gpr s ra
      (tos.getMsbD 0 = true ∧ a.toInt < b.toInt) ∨ (tos.getMsbD 1 = true ∧ b.toInt < a.toInt) ∨
        (tos.getMsbD 2 = true ∧ a = b) ∨ (tos.getMsbD 3 = true ∧ a.toNat < b.toNat) ∨
        (tos.getMsbD 4 = true ∧ b.toNat < a.toNat)
    -- the state with no event armed, and a state after it with the debug registers of `s`
    let calm : State := { s with dbg := { s.dbg with dbcr0 := 0x40000000#32, dbcr1 := 0#32 } }
    let armed (u : State) : State := { u with dbg := s.dbg }
    -- completion
    (bit c0 4 = true → bit c0 5 = false → c1 = 0#32 →
      ∀ i ∈ [Instr.addi rt ra d, .add rt ra rb oe rc, .adde rt ra rb oe rc, .subf rt ra rb oe rc, .neg rt ra oe rc,
             .mullw rt ra rb oe rc, .divw rt ra rb oe rc, .macchw rt ra rb oe rc, .and rt ra rb rc, .ori rt ra d,
             .cntlzw rt ra rc, .cmp bf ra rb x31, .cmpi bf ra d, .rlwinm rt ra sh mb me rc, .slw rt ra rb rc,
             .srawi rt ra sh rc, .crand sh mb me, .mcrf bf bfa, .mfcr rt x31, .mtcrf rt fxm, .mcrxr bf x31, .sync x31,
             .isync x31, .mfspr rt 0x009#10, .mtspr rt 0x008#10, .b d26 aa lk, .bc bo bi d aa lk, .bclr bo bi lk] ++
            (if bo.getMsbD 2 then [.bcctr bo bi lk] else []) ++
            (if (checkUnits s false (units ea 4)).2 = none then [.lwz rt ra d] else []) ++
            (if (checkUnits s true (units ea 4)).2 = none then [.stw rt ra d] else []) ++
            (if bit s.msr 17 then [] else [.mfmsr rt x31, .wrteei lk x31]) ++
            -- in the other modes the fetch state before a `mtmsr` is remembered with the events armed in it
            (if !bit s.msr 17 && idm && de && !edm then [.mtmsr rt x31] else []),
        ∃ u, exec i calm = .next u ∧
          exec i s = .next (if masked then armed u else afterEvent s (armed u) 0x80000000#32 u.pc)) ∧
    -- branch taken
    (bit c0 5 = true → ∀ f ∈ [(Instr.b d26 aa lk, True), (.bc bo bi d aa lk, holds), (.bclr bo bi lk, holds)] ++
        (if bo.getMsbD 2 then [(.bcctr bo bi lk, holds)] else []),
      f.2 →
      (acts = true → exec f.1 s = .next (afterEvent s s 0x40000000#32 s.pc)) ∧
      (acts = false → bit c0 4 = false →
        ∃ u, exec f.1 calm = .next u ∧
          exec f.1 s = .next (if masked then armed u else afterEvent s (armed u) 0x40000000#32 s.pc))) ∧
    -- an interrupt entered from `u`, and the exception event after it
    let entered (u : State) (critical : Bool) (off a esr : Word) : State :=
      { u with exc := if critical then { u.exc with srr2 := wordAligned a, srr3 := u.msr, esr := esr }
                      else { u.exc with srr0 := wordAligned a, srr1 := u.msr, esr := esr }
               msr := u.msr &&& (if critical then 0x00001000#32 else 0x00021200#32)
               pc := (u.exc.evpr &&& 0xFFFF0000#32) ||| off, pipe := Pipe.empty }
    let raised (v : State) : State := if bit c0 6 then afterEvent v v 0x20000000#32 v.pc else v
    let program (u : State) (cause : Word) : Host.Outcome State Fault Refusal :=
      .next (raised (entered u false 0x0700#32 s.pc ((s.exc.esr &&& 0x80000000#32) ||| cause)))
    -- traps
    (∀ f ∈ [(Instr.tw tos ra rb x31, gpr s rb), (.twi tos ra d, d.signExtend 32)], traps f.2 →
      exec f.1 s =
        if bit c0 7 && acts then .next (afterEvent s s 0x10000000#32 s.pc)
        else program (if bit c0 7 && idm then afterEvent s s 0x10000000#32 s.pc else s) 0x02000000#32) ∧
    -- the other interrupts
    (bit c0 4 = false → exec .sc s = .next (raised (entered s false 0x0C00#32 (s.pc + 4#32) s.exc.esr))) ∧
    (bit s.msr 17 = true → exec (.rfi x31) s = program s 0x04000000#32) ∧
    (∀ e, decode w = .error e → runWord w s = program s 0x08000000#32) ∧
    (s.env = [] → s.inp.bus = [] → s.inp.dataMachineCheck = false → s.dbg.dbsr &&& 0xFFEC0000#32 = 0#32 →
      (s.inp.critical = true → bit s.msr 14 = true →
        let v := entered s true 0x0100#32 s.pc s.exc.esr
        step s = .next (if idm && !edm then v else raised v)) ∧
      (s.inp.critical = false → bit s.tmr.tsr 1 = false → s.inp.external = true → bit s.msr 16 = true →
        step s = .next (raised (entered s false 0x0500#32 s.pc s.exc.esr)))) ∧
    -- instruction addresses, compared as word addresses
    (s.env = [] → s.inp.bus = [] → asyncInterrupt s = none → bit s.msr 13 = false → s.pipe.contexts = [] →
      let a := s.pc.toNat / 4
      let exact (e range : Nat) (iac : Word) : Bool := bit c0 e && !bit c0 range && a == iac.toNat / 4
      let range (e f range excl toggle : Nat) (lo hi : Word) : Bool :=
        bit c0 range && (bit c0 e || bit c0 f) && !(bit c0 toggle && masked) &&
          (if bit c0 excl then decide (a < lo.toNat / 4 ∨ hi.toNat / 4 ≤ a)
           else decide (lo.toNat / 4 ≤ a ∧ a < hi.toNat / 4))
      let r12 := range 8 9 10 11 16 s.dbg.iac1 s.dbg.iac2; let r34 := range 12 13 14 15 17 s.dbg.iac3 s.dbg.iac4
      let bits : Word :=
        (if exact 8 10 s.dbg.iac1 || (r12 && bit c0 8) then 0x04000000#32 else 0#32) |||
          (if exact 9 10 s.dbg.iac2 || (r12 && bit c0 9) then 0x02000000#32 else 0#32) |||
          (if exact 12 14 s.dbg.iac3 || (r34 && bit c0 12) then 0x00080000#32 else 0#32) |||
          (if exact 13 14 s.dbg.iac4 || (r34 && bit c0 13) then 0x00040000#32 else 0#32)
      let toggled : Word :=
        c0 ^^^ (if r12 && bit c0 16 then 0x00100000#32 else 0#32) ^^^ (if r34 && bit c0 17 then 0x00010000#32 else 0#32)
      let t := afterEvent s (if bits = 0#32 then s else { s with dbg := { s.dbg with dbcr0 := toggled } }) bits s.pc
      step s = if acts = true ∧ bits ≠ 0#32 then .next t else runAtPc t) ∧
    -- data addresses and values
    let matchesDac (two : Bool) (a : Word) : Bool :=
      if bit c1 8 then
        (if bit c1 9 then decide (a.toNat < s.dbg.dac1.toNat ∨ s.dbg.dac2.toNat ≤ a.toNat)
         else decide (s.dbg.dac1.toNat ≤ a.toNat ∧ a.toNat < s.dbg.dac2.toNat))
      else
        let size := 2 ^ (match (field c1 (if two then 6 else 4) 2).toNat with | 0 => 0 | 1 => 1 | 2 => 2 | _ => 5)
        a.toNat / size == (if two then s.dbg.dac2 else s.dbg.dac1).toNat / size
    let enables (two : Bool) (k : Nat) : Bool := bit c1 ((if two then 20 else 16) + k)
    let mode (two : Bool) : Nat := (field c1 (if two then 14 else 12) 2).toNat
    let valued (two : Bool) : Bool :=
      (if two then bit c1 1 || bit c1 3 else bit c1 0 || bit c1 2) && [0, 1, 2, 3].any (enables two)
    -- the DBSR bits of the pair for a direction
    let reports (store : Bool) (hit : Bool → Bool) : Word :=
      (if hit false && bit c1 (if store then 2 else 0) then (if store then 0x00800000#32 else 0x01000000#32) else 0#32) |||
        (if hit true && bit c1 (if store then 3 else 1) then (if store then 0x00200000#32 else 0x00400000#32) else 0#32)
    let base : Word := if ra = 0#5 then 0#32 else gpr s ra
    let ex := base + gpr s rb; let ud := gpr s ra + d.signExtend 32; let ux := gpr s ra + gpr s rb
    let tbc := s.xer.toNat % 128; let words := 4 * (32 - rt.toNat); let count := if sh = 0#5 then 32 else sh.toNat
    -- instruction, store, first address, bytes
    (∀ g ∈ ([(.lbz rt ra d, false, ea, 1), (.lbzx rt ra rb x31, false, ex, 1), (.lbzu rt ra d, false, ud, 1),
             (.lbzux rt ra rb x31, false, ux, 1), (.lhz rt ra d, false, ea, 2), (.lhzx rt ra rb x31, false, ex, 2),
             (.lhzu rt ra d, false, ud, 2), (.lhzux rt ra rb x31, false, ux, 2), (.lha rt ra d, false, ea, 2),
             (.lhax rt ra rb x31, false, ex, 2), (.lhau rt ra d, false, ud, 2), (.lhaux rt ra rb x31, false, ux, 2),
             (.lwz rt ra d, false, ea, 4), (.lwzx rt ra rb x31, false, ex, 4), (.lwzu rt ra d, false, ud, 4),
             (.lwzux rt ra rb x31, false, ux, 4), (.lhbrx rt ra rb x31, false, ex, 2), (.lwbrx rt ra rb x31, false, ex, 4),
             (.lmw rt ra d, false, ea, words), (.lswi rt ra sh x31, false, base, count),
             (.stb rt ra d, true, ea, 1), (.stbx rt ra rb x31, true, ex, 1), (.stbu rt ra d, true, ud, 1),
             (.stbux rt ra rb x31, true, ux, 1), (.sth rt ra d, true, ea, 2), (.sthx rt ra rb x31, true, ex, 2),
             (.sthu rt ra d, true, ud, 2), (.sthux rt ra rb x31, true, ux, 2), (.stw rt ra d, true, ea, 4),
             (.stwx rt ra rb x31, true, ex, 4), (.stwu rt ra d, true, ud, 4), (.stwux rt ra rb x31, true, ux, 4),
             (.sthbrx rt ra rb x31, true, ex, 2), (.stwbrx rt ra rb x31, true, ex, 4), (.stmw rt ra d, true, ea, words),
             (.stswi rt ra sh x31, true, base, count)] ++
            (if tbc = 0 then [] else [(.lswx rt ra rb x31, false, ex, tbc), (.stswx rt ra rb x31, true, ex, tbc)]) ++
            (if ex.toNat % 4 = 0 then [(.lwarx rt ra rb x31, false, ex, 4)] else []) ++
            (if ex.toNat % 4 = 0 ∧ s.reserve = true then [(.stwcxRc rt ra rb, true, ex, 4)] else []) :
            List (Instr × Bool × Word × Nat)),
      let us := checkUnits s g.2.1 (units g.2.2.1 g.2.2.2)
      let before := reports g.2.1 (fun two => !valued two && us.1.any (fun u => matchesDac two u.ea))
      (acts = true → before ≠ 0#32 → exec g.1 s = .next (afterEvent s s before s.pc)) ∧
      (us.2 = none → bit c0 4 = false → Cached s → plain s us.1 = true → (acts = false ∨ before = 0#32) →
        -- no value compare in the reserved mode
        (∀ two, valued two = true → mode two ≠ 0) →
        ∃ u, exec g.1 calm = .next u ∧
          -- the byte of the data in lane k of an access equals that of DVC1 or DVC2
          let equal (two : Bool) (x : UnitAccess) (k : Nat) : Bool :=
            decide (x.ea.toNat % 4 ≤ k ∧ k < x.ea.toNat % 4 + x.n) &&
              dataByte u (x.x.ra + BitVec.ofNat 32 (k - x.ea.toNat % 4)) ==
                field (if two then s.dbg.dvc2 else s.dbg.dvc1) (8 * k) 8
          let all (two : Bool) (x : UnitAccess) (ks : List Nat) : Bool :=
            ks.any (enables two) && ks.all (fun k => !enables two k || equal two x k)
          let value (two : Bool) (x : UnitAccess) : Bool :=
            match mode two with
            | 1 => all two x [0, 1, 2, 3]
            | 2 => [0, 1, 2, 3].any (fun k => enables two k && equal two x k)
            | _ => all two x [0, 1] || all two x [2, 3]
          let after := reports g.2.1 (fun two => valued two && us.1.any (fun x => matchesDac two x.ea && value two x))
          exec g.1 s = .next (afterEvent s (afterEvent s (armed u) before u.pc) after u.pc))) ∧
    -- the cache instructions that pass their checks, each with the direction of its event, if it has one; the last with none
    let passes (r : Except DataFault Xlate) : Prop := ∃ x, r = .ok x
    let data (p : Xlate → Bool) : Prop := ∃ x, xlateData s ex = some x ∧ p x = true
    let instr (p : Xlate → Bool) : Prop := ∃ x, xlateIcacheOp s ex = some x ∧ p x = true
    let super : Prop := bit s.msr 17 = false
    ∀ g ∈ ([(.dcba ra rb x31, data (writeOk s), some true), (.dcbf ra rb x31, passes (loadXlate s ex), some true),
            (.dcbi ra rb x31, super ∧ data (writeOk s), some true), (.dcbst ra rb x31, passes (loadXlate s ex), some true),
            (.dcbt ra rb x31, passes (loadXlate s ex), some false), (.dcbtst ra rb x31, passes (loadXlate s ex), some false),
            (.dcbz ra rb x31, (∃ x, storeXlate s ex = .ok x ∧ x.attrs.i = false ∧ x.attrs.w = false) ∧
              s.params.dcacheSize.classes ≠ 0, some true),
            (.icbi ra rb x31, instr (readOk s), some false), (.icbt ra rb x31, super ∧ instr (fun _ => true), some false),
            (.dccci ra rb x31, super ∧ data (writeOk s), none),
            (.dcread rt ra rb x31, super ∧ instr (fun _ => true) ∧ ex.toNat % 4 = 0, none),
            (.iccci ra rb x31, super ∧ instr (fun _ => true), none), (.icread ra rb x31, super ∧ instr (fun _ => true), none)] :
           List (Instr × Prop × Option Bool)),
      let event := match g.2.2 with
        | some store => reports store (fun two => !valued two && matchesDac two ex)
        | none => 0#32
      g.2.1 →
      (acts = true → event ≠ 0#32 → exec g.1 s = .next (afterEvent s s event s.pc)) ∧
      (acts = false ∨ event = 0#32 → bit c0 4 = false →
        ∃ u, exec g.1 calm = .next u ∧ exec g.1 s = .next (afterEvent s (armed u) event u.pc)))
end

