-- ==== Sys2Proof/Laws/Assoc.lean ====
section
/-! SUPPORT. Laws of the sparse maps: a write reads back, leaves every other key alone, and keeps the canonical form; maps in
canonical form that read alike are equal. -/

namespace Sys2Proof.Machine

variable {α : Type}

theorem mapAbove_trans {m : List (Nat × α)} {j k : Nat} (hjk : j ≤ k) (h : mapAbove k m = true) : mapAbove j m = true := by
  induction m with
  | nil => rfl
  | cons kv m ih =>
    obtain ⟨k', v⟩ := kv
    simp only [mapAbove, Bool.and_eq_true, decide_eq_true_eq] at h ⊢
    exact ⟨by omega, ih h.2⟩

/-- A key that every key of the map is above reads as the default. -/
theorem mapGet_of_above {d : α} {m : List (Nat × α)} {j k : Nat} (hjk : j ≤ k) (h : mapAbove k m = true) :
    mapGet d m j = d := by
  induction m with
  | nil => rfl
  | cons kv m ih =>
    obtain ⟨k', v⟩ := kv
    simp only [mapAbove, Bool.and_eq_true, decide_eq_true_eq] at h
    have hne : j ≠ k' := by omega
    simp [mapGet, hne, ih h.2]

theorem mapAbove_mapSet [DecidableEq α] {d : α} {m : List (Nat × α)} {j k : Nat} {v : α} (hjk : j < k) (h : mapAbove j m = true) :
    mapAbove j (mapSet d m k v) = true := by
  induction m with
  | nil => simp only [mapSet]; split <;> simp [mapAbove, hjk]
  | cons kv m ih =>
    obtain ⟨k', v'⟩ := kv
    simp only [mapAbove, Bool.and_eq_true, decide_eq_true_eq] at h
    simp only [mapSet]
    split
    · split <;> simp [mapAbove, hjk, h.1, h.2]
    · split
      · split <;> simp [mapAbove, hjk, h.2]
      · simp [mapAbove, h.1, ih h.2]

/-- A write keeps the canonical form. -/
theorem mapWf_mapSet [DecidableEq α] {d : α} {m : List (Nat × α)} (k : Nat) (v : α) (h : mapWf d m = true) :
    mapWf d (mapSet d m k v) = true := by
  induction m with
  | nil => simp only [mapSet]; split <;> simp_all [mapWf, mapAbove]
  | cons kv m ih =>
    obtain ⟨k', v'⟩ := kv
    have hc := h
    simp only [mapWf, Bool.and_eq_true, decide_eq_true_eq] at h
    obtain ⟨⟨hne, hab⟩, hwf⟩ := h
    simp only [mapSet]
    split
    · split
      · exact hc
      · rename_i hlt hv
        simp only [mapWf, mapAbove, Bool.and_eq_true, decide_eq_true_eq]
        exact ⟨⟨hv, hlt, mapAbove_trans (by omega) hab⟩, ⟨hne, hab⟩, hwf⟩
    · split
      · split
        · exact hwf
        · rename_i hlt heq hv
          subst heq
          simp only [mapWf, Bool.and_eq_true, decide_eq_true_eq]
          exact ⟨⟨hv, hab⟩, hwf⟩
      · rename_i hlt heq
        simp only [mapWf, Bool.and_eq_true, decide_eq_true_eq]
        exact ⟨⟨hne, mapAbove_mapSet (by omega) hab⟩, ih hwf⟩

/-- Reading after a write: the key written gives the value, every other key what it gave. -/
theorem mapGet_mapSet [DecidableEq α] {d : α} {m : List (Nat × α)} (k j : Nat) (v : α) (h : mapWf d m = true) :
    mapGet d (mapSet d m k v) j = if j = k then v else mapGet d m j := by
  induction m with
  | nil => simp only [mapSet]; split <;> simp_all [mapGet]
  | cons kv m ih =>
    obtain ⟨k', v'⟩ := kv
    simp only [mapWf, Bool.and_eq_true, decide_eq_true_eq] at h
    obtain ⟨⟨hne, hab⟩, hwf⟩ := h
    simp only [mapSet]
    split
    · rename_i hlt
      split
      · rename_i hv
        by_cases hjk : j = k
        · have h1 : j ≠ k' := by omega
          subst hjk
          simp [mapGet, h1, hv, mapGet_of_above (Nat.le_of_lt hlt) hab]
        · simp [hjk]
      · rw [mapGet]
    · split
      · rename_i hlt heq
        subst heq
        split
        · rename_i hv
          by_cases hjk : j = k
          · subst hjk
            simp [hv, mapGet_of_above (Nat.le_refl _) hab]
          · simp [mapGet, hjk]
        · by_cases hjk : j = k <;> simp [mapGet, hjk]
      · rename_i hlt heq
        rw [mapGet, ih hwf, mapGet]
        by_cases h1 : j = k'
        · have : j ≠ k := by omega
          simp [h1, show k' ≠ k by omega]
        · simp [h1]

/-- What holds of every entry, and of the entry written, holds of every entry afterwards. -/
theorem all_mapSet [DecidableEq α] {d : α} {p : Nat × α → Bool} {m : List (Nat × α)} {k : Nat} {v : α} (h : m.all p = true)
    (hkv : v ≠ d → p (k, v) = true) : (mapSet d m k v).all p = true := by
  induction m with
  | nil => simp only [mapSet]; split <;> simp_all
  | cons kv m ih =>
    obtain ⟨k', v'⟩ := kv
    have hc := h
    simp only [List.all_cons, Bool.and_eq_true] at h
    simp only [mapSet]
    split
    · split
      · exact hc
      · rename_i hv
        simp only [List.all_cons, Bool.and_eq_true]
        exact ⟨hkv hv, h⟩
    · split
      · split
        · exact h.2
        · rename_i hv
          simp only [List.all_cons, Bool.and_eq_true]
          exact ⟨hkv hv, h.2⟩
      · simp only [List.all_cons, Bool.and_eq_true]
        exact ⟨h.1, ih h.2⟩

/-- What holds of every entry holds of the value of a listed key. -/
theorem mapGet_all {d : α} {p : Nat × α → Bool} {m : List (Nat × α)} {k : Nat} (h : m.all p = true)
    (hd : p (k, d) = true) : p (k, mapGet d m k) = true := by
  induction m with
  | nil => simpa [mapGet] using hd
  | cons kv m ih =>
    obtain ⟨k', v'⟩ := kv
    simp only [List.all_cons, Bool.and_eq_true] at h
    by_cases hk : k = k'
    · subst hk; simpa [mapGet] using h.1
    · simpa [mapGet, hk] using ih h.2

end Sys2Proof.Machine
end

