-- ==== Sys2Proof/Laws/State.lean ====
section
/-! SUPPORT. What each update of the state leaves alone, one lemma a field, so that no proof unfolds a record update. -/

namespace Sys2Proof.Machine

@[simp] theorem drawn_gpr (n : Nat) (s : State) : (drawn n s).gpr = s.gpr := rfl
@[simp] theorem drawn_pc (n : Nat) (s : State) : (drawn n s).pc = s.pc := rfl
@[simp] theorem drawn_cr (n : Nat) (s : State) : (drawn n s).cr = s.cr := rfl
@[simp] theorem drawn_xer (n : Nat) (s : State) : (drawn n s).xer = s.xer := rfl
@[simp] theorem drawn_lr (n : Nat) (s : State) : (drawn n s).lr = s.lr := rfl
@[simp] theorem drawn_ctr (n : Nat) (s : State) : (drawn n s).ctr = s.ctr := rfl
@[simp] theorem drawn_msr (n : Nat) (s : State) : (drawn n s).msr = s.msr := rfl
@[simp] theorem drawn_usprg0 (n : Nat) (s : State) : (drawn n s).usprg0 = s.usprg0 := rfl
@[simp] theorem drawn_sprg (n : Nat) (s : State) : (drawn n s).sprg = s.sprg := rfl
@[simp] theorem drawn_exc (n : Nat) (s : State) : (drawn n s).exc = s.exc := rfl
@[simp] theorem drawn_tmr (n : Nat) (s : State) : (drawn n s).tmr = s.tmr := rfl
@[simp] theorem drawn_mmu (n : Nat) (s : State) : (drawn n s).mmu = s.mmu := rfl
@[simp] theorem drawn_attr (n : Nat) (s : State) : (drawn n s).attr = s.attr := rfl
@[simp] theorem drawn_icdbdr (n : Nat) (s : State) : (drawn n s).icdbdr = s.icdbdr := rfl
@[simp] theorem drawn_icdbdrOpen (n : Nat) (s : State) : (drawn n s).icdbdrOpen = s.icdbdrOpen := rfl
@[simp] theorem drawn_dbg (n : Nat) (s : State) : (drawn n s).dbg = s.dbg := rfl
@[simp] theorem drawn_reserve (n : Nat) (s : State) : (drawn n s).reserve = s.reserve := rfl
@[simp] theorem drawn_sto (n : Nat) (s : State) : (drawn n s).sto = s.sto := rfl
@[simp] theorem drawn_pipe (n : Nat) (s : State) : (drawn n s).pipe = s.pipe := rfl
@[simp] theorem drawn_dcr (n : Nat) (s : State) : (drawn n s).dcr = s.dcr := rfl
@[simp] theorem drawn_inp (n : Nat) (s : State) : (drawn n s).inp = s.inp := rfl
@[simp] theorem drawn_env (n : Nat) (s : State) : (drawn n s).env = s.env := rfl
@[simp] theorem drawn_params (n : Nat) (s : State) : (drawn n s).params = s.params := rfl

@[simp] theorem setGpr_pc (r : Reg) (v : Word) (s : State) : (setGpr r v s).pc = s.pc := rfl
@[simp] theorem setGpr_cr (r : Reg) (v : Word) (s : State) : (setGpr r v s).cr = s.cr := rfl
@[simp] theorem setGpr_xer (r : Reg) (v : Word) (s : State) : (setGpr r v s).xer = s.xer := rfl
@[simp] theorem setGpr_lr (r : Reg) (v : Word) (s : State) : (setGpr r v s).lr = s.lr := rfl
@[simp] theorem setGpr_ctr (r : Reg) (v : Word) (s : State) : (setGpr r v s).ctr = s.ctr := rfl
@[simp] theorem setGpr_msr (r : Reg) (v : Word) (s : State) : (setGpr r v s).msr = s.msr := rfl
@[simp] theorem setGpr_usprg0 (r : Reg) (v : Word) (s : State) : (setGpr r v s).usprg0 = s.usprg0 := rfl
@[simp] theorem setGpr_sprg (r : Reg) (v : Word) (s : State) : (setGpr r v s).sprg = s.sprg := rfl
@[simp] theorem setGpr_exc (r : Reg) (v : Word) (s : State) : (setGpr r v s).exc = s.exc := rfl
@[simp] theorem setGpr_tmr (r : Reg) (v : Word) (s : State) : (setGpr r v s).tmr = s.tmr := rfl
@[simp] theorem setGpr_mmu (r : Reg) (v : Word) (s : State) : (setGpr r v s).mmu = s.mmu := rfl
@[simp] theorem setGpr_attr (r : Reg) (v : Word) (s : State) : (setGpr r v s).attr = s.attr := rfl
@[simp] theorem setGpr_icdbdr (r : Reg) (v : Word) (s : State) : (setGpr r v s).icdbdr = s.icdbdr := rfl
@[simp] theorem setGpr_icdbdrOpen (r : Reg) (v : Word) (s : State) : (setGpr r v s).icdbdrOpen = s.icdbdrOpen := rfl
@[simp] theorem setGpr_dbg (r : Reg) (v : Word) (s : State) : (setGpr r v s).dbg = s.dbg := rfl
@[simp] theorem setGpr_reserve (r : Reg) (v : Word) (s : State) : (setGpr r v s).reserve = s.reserve := rfl
@[simp] theorem setGpr_sto (r : Reg) (v : Word) (s : State) : (setGpr r v s).sto = s.sto := rfl
@[simp] theorem setGpr_pipe (r : Reg) (v : Word) (s : State) : (setGpr r v s).pipe = s.pipe := rfl
@[simp] theorem setGpr_dcr (r : Reg) (v : Word) (s : State) : (setGpr r v s).dcr = s.dcr := rfl
@[simp] theorem setGpr_inp (r : Reg) (v : Word) (s : State) : (setGpr r v s).inp = s.inp := rfl
@[simp] theorem setGpr_env (r : Reg) (v : Word) (s : State) : (setGpr r v s).env = s.env := rfl
@[simp] theorem setGpr_params (r : Reg) (v : Word) (s : State) : (setGpr r v s).params = s.params := rfl
@[simp] theorem setGpr_free (r : Reg) (v : Word) (s : State) : (setGpr r v s).free = s.free := rfl

@[simp] theorem setMsr_gpr (v : Word) (s : State) : (setMsr v s).gpr = s.gpr := rfl
@[simp] theorem setMsr_pc (v : Word) (s : State) : (setMsr v s).pc = s.pc := rfl
@[simp] theorem setMsr_cr (v : Word) (s : State) : (setMsr v s).cr = s.cr := rfl
@[simp] theorem setMsr_xer (v : Word) (s : State) : (setMsr v s).xer = s.xer := rfl
@[simp] theorem setMsr_lr (v : Word) (s : State) : (setMsr v s).lr = s.lr := rfl
@[simp] theorem setMsr_ctr (v : Word) (s : State) : (setMsr v s).ctr = s.ctr := rfl
@[simp] theorem setMsr_usprg0 (v : Word) (s : State) : (setMsr v s).usprg0 = s.usprg0 := rfl
@[simp] theorem setMsr_sprg (v : Word) (s : State) : (setMsr v s).sprg = s.sprg := rfl
@[simp] theorem setMsr_exc (v : Word) (s : State) : (setMsr v s).exc = s.exc := rfl
@[simp] theorem setMsr_tmr (v : Word) (s : State) : (setMsr v s).tmr = s.tmr := rfl
@[simp] theorem setMsr_mmu (v : Word) (s : State) : (setMsr v s).mmu = s.mmu := rfl
@[simp] theorem setMsr_attr (v : Word) (s : State) : (setMsr v s).attr = s.attr := rfl
@[simp] theorem setMsr_icdbdr (v : Word) (s : State) : (setMsr v s).icdbdr = s.icdbdr := rfl
@[simp] theorem setMsr_icdbdrOpen (v : Word) (s : State) : (setMsr v s).icdbdrOpen = s.icdbdrOpen := rfl
@[simp] theorem setMsr_dbg (v : Word) (s : State) : (setMsr v s).dbg = s.dbg := rfl
@[simp] theorem setMsr_reserve (v : Word) (s : State) : (setMsr v s).reserve = s.reserve := rfl
@[simp] theorem setMsr_sto (v : Word) (s : State) : (setMsr v s).sto = s.sto := rfl
@[simp] theorem setMsr_pipe (v : Word) (s : State) : (setMsr v s).pipe = s.pipe := rfl
@[simp] theorem setMsr_dcr (v : Word) (s : State) : (setMsr v s).dcr = s.dcr := rfl
@[simp] theorem setMsr_inp (v : Word) (s : State) : (setMsr v s).inp = s.inp := rfl
@[simp] theorem setMsr_env (v : Word) (s : State) : (setMsr v s).env = s.env := rfl
@[simp] theorem setMsr_params (v : Word) (s : State) : (setMsr v s).params = s.params := rfl
@[simp] theorem setMsr_free (v : Word) (s : State) : (setMsr v s).free = s.free := rfl

@[simp] theorem setEsr_gpr (v : Word) (s : State) : (setEsr v s).gpr = s.gpr := rfl
@[simp] theorem setEsr_pc (v : Word) (s : State) : (setEsr v s).pc = s.pc := rfl
@[simp] theorem setEsr_cr (v : Word) (s : State) : (setEsr v s).cr = s.cr := rfl
@[simp] theorem setEsr_xer (v : Word) (s : State) : (setEsr v s).xer = s.xer := rfl
@[simp] theorem setEsr_lr (v : Word) (s : State) : (setEsr v s).lr = s.lr := rfl
@[simp] theorem setEsr_ctr (v : Word) (s : State) : (setEsr v s).ctr = s.ctr := rfl
@[simp] theorem setEsr_msr (v : Word) (s : State) : (setEsr v s).msr = s.msr := rfl
@[simp] theorem setEsr_usprg0 (v : Word) (s : State) : (setEsr v s).usprg0 = s.usprg0 := rfl
@[simp] theorem setEsr_sprg (v : Word) (s : State) : (setEsr v s).sprg = s.sprg := rfl
@[simp] theorem setEsr_tmr (v : Word) (s : State) : (setEsr v s).tmr = s.tmr := rfl
@[simp] theorem setEsr_mmu (v : Word) (s : State) : (setEsr v s).mmu = s.mmu := rfl
@[simp] theorem setEsr_attr (v : Word) (s : State) : (setEsr v s).attr = s.attr := rfl
@[simp] theorem setEsr_icdbdr (v : Word) (s : State) : (setEsr v s).icdbdr = s.icdbdr := rfl
@[simp] theorem setEsr_icdbdrOpen (v : Word) (s : State) : (setEsr v s).icdbdrOpen = s.icdbdrOpen := rfl
@[simp] theorem setEsr_dbg (v : Word) (s : State) : (setEsr v s).dbg = s.dbg := rfl
@[simp] theorem setEsr_reserve (v : Word) (s : State) : (setEsr v s).reserve = s.reserve := rfl
@[simp] theorem setEsr_sto (v : Word) (s : State) : (setEsr v s).sto = s.sto := rfl
@[simp] theorem setEsr_pipe (v : Word) (s : State) : (setEsr v s).pipe = s.pipe := rfl
@[simp] theorem setEsr_dcr (v : Word) (s : State) : (setEsr v s).dcr = s.dcr := rfl
@[simp] theorem setEsr_inp (v : Word) (s : State) : (setEsr v s).inp = s.inp := rfl
@[simp] theorem setEsr_env (v : Word) (s : State) : (setEsr v s).env = s.env := rfl
@[simp] theorem setEsr_params (v : Word) (s : State) : (setEsr v s).params = s.params := rfl
@[simp] theorem setEsr_free (v : Word) (s : State) : (setEsr v s).free = s.free := rfl

@[simp] theorem setDear_gpr (v : Word) (s : State) : (setDear v s).gpr = s.gpr := rfl
@[simp] theorem setDear_pc (v : Word) (s : State) : (setDear v s).pc = s.pc := rfl
@[simp] theorem setDear_cr (v : Word) (s : State) : (setDear v s).cr = s.cr := rfl
@[simp] theorem setDear_xer (v : Word) (s : State) : (setDear v s).xer = s.xer := rfl
@[simp] theorem setDear_lr (v : Word) (s : State) : (setDear v s).lr = s.lr := rfl
@[simp] theorem setDear_ctr (v : Word) (s : State) : (setDear v s).ctr = s.ctr := rfl
@[simp] theorem setDear_msr (v : Word) (s : State) : (setDear v s).msr = s.msr := rfl
@[simp] theorem setDear_usprg0 (v : Word) (s : State) : (setDear v s).usprg0 = s.usprg0 := rfl
@[simp] theorem setDear_sprg (v : Word) (s : State) : (setDear v s).sprg = s.sprg := rfl
@[simp] theorem setDear_tmr (v : Word) (s : State) : (setDear v s).tmr = s.tmr := rfl
@[simp] theorem setDear_mmu (v : Word) (s : State) : (setDear v s).mmu = s.mmu := rfl
@[simp] theorem setDear_attr (v : Word) (s : State) : (setDear v s).attr = s.attr := rfl
@[simp] theorem setDear_icdbdr (v : Word) (s : State) : (setDear v s).icdbdr = s.icdbdr := rfl
@[simp] theorem setDear_icdbdrOpen (v : Word) (s : State) : (setDear v s).icdbdrOpen = s.icdbdrOpen := rfl
@[simp] theorem setDear_dbg (v : Word) (s : State) : (setDear v s).dbg = s.dbg := rfl
@[simp] theorem setDear_reserve (v : Word) (s : State) : (setDear v s).reserve = s.reserve := rfl
@[simp] theorem setDear_sto (v : Word) (s : State) : (setDear v s).sto = s.sto := rfl
@[simp] theorem setDear_pipe (v : Word) (s : State) : (setDear v s).pipe = s.pipe := rfl
@[simp] theorem setDear_dcr (v : Word) (s : State) : (setDear v s).dcr = s.dcr := rfl
@[simp] theorem setDear_inp (v : Word) (s : State) : (setDear v s).inp = s.inp := rfl
@[simp] theorem setDear_env (v : Word) (s : State) : (setDear v s).env = s.env := rfl
@[simp] theorem setDear_params (v : Word) (s : State) : (setDear v s).params = s.params := rfl
@[simp] theorem setDear_free (v : Word) (s : State) : (setDear v s).free = s.free := rfl

@[simp] theorem setDbsrBits_gpr (v : Word) (s : State) : (setDbsrBits v s).gpr = s.gpr := rfl
@[simp] theorem setDbsrBits_pc (v : Word) (s : State) : (setDbsrBits v s).pc = s.pc := rfl
@[simp] theorem setDbsrBits_cr (v : Word) (s : State) : (setDbsrBits v s).cr = s.cr := rfl
@[simp] theorem setDbsrBits_xer (v : Word) (s : State) : (setDbsrBits v s).xer = s.xer := rfl
@[simp] theorem setDbsrBits_lr (v : Word) (s : State) : (setDbsrBits v s).lr = s.lr := rfl
@[simp] theorem setDbsrBits_ctr (v : Word) (s : State) : (setDbsrBits v s).ctr = s.ctr := rfl
@[simp] theorem setDbsrBits_msr (v : Word) (s : State) : (setDbsrBits v s).msr = s.msr := rfl
@[simp] theorem setDbsrBits_usprg0 (v : Word) (s : State) : (setDbsrBits v s).usprg0 = s.usprg0 := rfl
@[simp] theorem setDbsrBits_sprg (v : Word) (s : State) : (setDbsrBits v s).sprg = s.sprg := rfl
@[simp] theorem setDbsrBits_exc (v : Word) (s : State) : (setDbsrBits v s).exc = s.exc := rfl
@[simp] theorem setDbsrBits_tmr (v : Word) (s : State) : (setDbsrBits v s).tmr = s.tmr := rfl
@[simp] theorem setDbsrBits_mmu (v : Word) (s : State) : (setDbsrBits v s).mmu = s.mmu := rfl
@[simp] theorem setDbsrBits_attr (v : Word) (s : State) : (setDbsrBits v s).attr = s.attr := rfl
@[simp] theorem setDbsrBits_icdbdr (v : Word) (s : State) : (setDbsrBits v s).icdbdr = s.icdbdr := rfl
@[simp] theorem setDbsrBits_icdbdrOpen (v : Word) (s : State) : (setDbsrBits v s).icdbdrOpen = s.icdbdrOpen := rfl
@[simp] theorem setDbsrBits_reserve (v : Word) (s : State) : (setDbsrBits v s).reserve = s.reserve := rfl
@[simp] theorem setDbsrBits_sto (v : Word) (s : State) : (setDbsrBits v s).sto = s.sto := rfl
@[simp] theorem setDbsrBits_pipe (v : Word) (s : State) : (setDbsrBits v s).pipe = s.pipe := rfl
@[simp] theorem setDbsrBits_dcr (v : Word) (s : State) : (setDbsrBits v s).dcr = s.dcr := rfl
@[simp] theorem setDbsrBits_inp (v : Word) (s : State) : (setDbsrBits v s).inp = s.inp := rfl
@[simp] theorem setDbsrBits_env (v : Word) (s : State) : (setDbsrBits v s).env = s.env := rfl
@[simp] theorem setDbsrBits_params (v : Word) (s : State) : (setDbsrBits v s).params = s.params := rfl
@[simp] theorem setDbsrBits_free (v : Word) (s : State) : (setDbsrBits v s).free = s.free := rfl

@[simp] theorem recordEvent_gpr (m : State) (v : Word) (s : State) : (recordEvent m v s).gpr = s.gpr := rfl
@[simp] theorem recordEvent_pc (m : State) (v : Word) (s : State) : (recordEvent m v s).pc = s.pc := rfl
@[simp] theorem recordEvent_cr (m : State) (v : Word) (s : State) : (recordEvent m v s).cr = s.cr := rfl
@[simp] theorem recordEvent_xer (m : State) (v : Word) (s : State) : (recordEvent m v s).xer = s.xer := rfl
@[simp] theorem recordEvent_lr (m : State) (v : Word) (s : State) : (recordEvent m v s).lr = s.lr := rfl
@[simp] theorem recordEvent_ctr (m : State) (v : Word) (s : State) : (recordEvent m v s).ctr = s.ctr := rfl
@[simp] theorem recordEvent_msr (m : State) (v : Word) (s : State) : (recordEvent m v s).msr = s.msr := rfl
@[simp] theorem recordEvent_usprg0 (m : State) (v : Word) (s : State) : (recordEvent m v s).usprg0 = s.usprg0 := rfl
@[simp] theorem recordEvent_sprg (m : State) (v : Word) (s : State) : (recordEvent m v s).sprg = s.sprg := rfl
@[simp] theorem recordEvent_exc (m : State) (v : Word) (s : State) : (recordEvent m v s).exc = s.exc := rfl
@[simp] theorem recordEvent_tmr (m : State) (v : Word) (s : State) : (recordEvent m v s).tmr = s.tmr := rfl
@[simp] theorem recordEvent_mmu (m : State) (v : Word) (s : State) : (recordEvent m v s).mmu = s.mmu := rfl
@[simp] theorem recordEvent_attr (m : State) (v : Word) (s : State) : (recordEvent m v s).attr = s.attr := rfl
@[simp] theorem recordEvent_icdbdr (m : State) (v : Word) (s : State) : (recordEvent m v s).icdbdr = s.icdbdr := rfl
@[simp] theorem recordEvent_icdbdrOpen (m : State) (v : Word) (s : State) : (recordEvent m v s).icdbdrOpen = s.icdbdrOpen := rfl
@[simp] theorem recordEvent_reserve (m : State) (v : Word) (s : State) : (recordEvent m v s).reserve = s.reserve := rfl
@[simp] theorem recordEvent_sto (m : State) (v : Word) (s : State) : (recordEvent m v s).sto = s.sto := rfl
@[simp] theorem recordEvent_pipe (m : State) (v : Word) (s : State) : (recordEvent m v s).pipe = s.pipe := rfl
@[simp] theorem recordEvent_dcr (m : State) (v : Word) (s : State) : (recordEvent m v s).dcr = s.dcr := rfl
@[simp] theorem recordEvent_inp (m : State) (v : Word) (s : State) : (recordEvent m v s).inp = s.inp := rfl
@[simp] theorem recordEvent_env (m : State) (v : Word) (s : State) : (recordEvent m v s).env = s.env := rfl
@[simp] theorem recordEvent_params (m : State) (v : Word) (s : State) : (recordEvent m v s).params = s.params := rfl
@[simp] theorem recordEvent_free (m : State) (v : Word) (s : State) : (recordEvent m v s).free = s.free := rfl

@[simp] theorem setRun_gpr (r : DebugRun) (s : State) : (setRun r s).gpr = s.gpr := rfl
@[simp] theorem setRun_pc (r : DebugRun) (s : State) : (setRun r s).pc = s.pc := rfl
@[simp] theorem setRun_cr (r : DebugRun) (s : State) : (setRun r s).cr = s.cr := rfl
@[simp] theorem setRun_xer (r : DebugRun) (s : State) : (setRun r s).xer = s.xer := rfl
@[simp] theorem setRun_lr (r : DebugRun) (s : State) : (setRun r s).lr = s.lr := rfl
@[simp] theorem setRun_ctr (r : DebugRun) (s : State) : (setRun r s).ctr = s.ctr := rfl
@[simp] theorem setRun_msr (r : DebugRun) (s : State) : (setRun r s).msr = s.msr := rfl
@[simp] theorem setRun_usprg0 (r : DebugRun) (s : State) : (setRun r s).usprg0 = s.usprg0 := rfl
@[simp] theorem setRun_sprg (r : DebugRun) (s : State) : (setRun r s).sprg = s.sprg := rfl
@[simp] theorem setRun_exc (r : DebugRun) (s : State) : (setRun r s).exc = s.exc := rfl
@[simp] theorem setRun_tmr (r : DebugRun) (s : State) : (setRun r s).tmr = s.tmr := rfl
@[simp] theorem setRun_mmu (r : DebugRun) (s : State) : (setRun r s).mmu = s.mmu := rfl
@[simp] theorem setRun_attr (r : DebugRun) (s : State) : (setRun r s).attr = s.attr := rfl
@[simp] theorem setRun_icdbdr (r : DebugRun) (s : State) : (setRun r s).icdbdr = s.icdbdr := rfl
@[simp] theorem setRun_icdbdrOpen (r : DebugRun) (s : State) : (setRun r s).icdbdrOpen = s.icdbdrOpen := rfl
@[simp] theorem setRun_reserve (r : DebugRun) (s : State) : (setRun r s).reserve = s.reserve := rfl
@[simp] theorem setRun_sto (r : DebugRun) (s : State) : (setRun r s).sto = s.sto := rfl
@[simp] theorem setRun_pipe (r : DebugRun) (s : State) : (setRun r s).pipe = s.pipe := rfl
@[simp] theorem setRun_dcr (r : DebugRun) (s : State) : (setRun r s).dcr = s.dcr := rfl
@[simp] theorem setRun_inp (r : DebugRun) (s : State) : (setRun r s).inp = s.inp := rfl
@[simp] theorem setRun_env (r : DebugRun) (s : State) : (setRun r s).env = s.env := rfl
@[simp] theorem setRun_params (r : DebugRun) (s : State) : (setRun r s).params = s.params := rfl
@[simp] theorem setRun_free (r : DebugRun) (s : State) : (setRun r s).free = s.free := rfl

@[simp] theorem setMemByte_gpr (ra : Word) (b : Byte) (s : State) : (setMemByte ra b s).gpr = s.gpr := rfl
@[simp] theorem setMemByte_pc (ra : Word) (b : Byte) (s : State) : (setMemByte ra b s).pc = s.pc := rfl
@[simp] theorem setMemByte_cr (ra : Word) (b : Byte) (s : State) : (setMemByte ra b s).cr = s.cr := rfl
@[simp] theorem setMemByte_xer (ra : Word) (b : Byte) (s : State) : (setMemByte ra b s).xer = s.xer := rfl
@[simp] theorem setMemByte_lr (ra : Word) (b : Byte) (s : State) : (setMemByte ra b s).lr = s.lr := rfl
@[simp] theorem setMemByte_ctr (ra : Word) (b : Byte) (s : State) : (setMemByte ra b s).ctr = s.ctr := rfl
@[simp] theorem setMemByte_msr (ra : Word) (b : Byte) (s : State) : (setMemByte ra b s).msr = s.msr := rfl
@[simp] theorem setMemByte_usprg0 (ra : Word) (b : Byte) (s : State) : (setMemByte ra b s).usprg0 = s.usprg0 := rfl
@[simp] theorem setMemByte_sprg (ra : Word) (b : Byte) (s : State) : (setMemByte ra b s).sprg = s.sprg := rfl
@[simp] theorem setMemByte_exc (ra : Word) (b : Byte) (s : State) : (setMemByte ra b s).exc = s.exc := rfl
@[simp] theorem setMemByte_tmr (ra : Word) (b : Byte) (s : State) : (setMemByte ra b s).tmr = s.tmr := rfl
@[simp] theorem setMemByte_mmu (ra : Word) (b : Byte) (s : State) : (setMemByte ra b s).mmu = s.mmu := rfl
@[simp] theorem setMemByte_attr (ra : Word) (b : Byte) (s : State) : (setMemByte ra b s).attr = s.attr := rfl
@[simp] theorem setMemByte_icdbdr (ra : Word) (b : Byte) (s : State) : (setMemByte ra b s).icdbdr = s.icdbdr := rfl
@[simp] theorem setMemByte_icdbdrOpen (ra : Word) (b : Byte) (s : State) : (setMemByte ra b s).icdbdrOpen = s.icdbdrOpen := rfl
@[simp] theorem setMemByte_dbg (ra : Word) (b : Byte) (s : State) : (setMemByte ra b s).dbg = s.dbg := rfl
@[simp] theorem setMemByte_reserve (ra : Word) (b : Byte) (s : State) : (setMemByte ra b s).reserve = s.reserve := rfl
@[simp] theorem setMemByte_pipe (ra : Word) (b : Byte) (s : State) : (setMemByte ra b s).pipe = s.pipe := rfl
@[simp] theorem setMemByte_dcr (ra : Word) (b : Byte) (s : State) : (setMemByte ra b s).dcr = s.dcr := rfl
@[simp] theorem setMemByte_inp (ra : Word) (b : Byte) (s : State) : (setMemByte ra b s).inp = s.inp := rfl
@[simp] theorem setMemByte_env (ra : Word) (b : Byte) (s : State) : (setMemByte ra b s).env = s.env := rfl
@[simp] theorem setMemByte_params (ra : Word) (b : Byte) (s : State) : (setMemByte ra b s).params = s.params := rfl
@[simp] theorem setMemByte_free (ra : Word) (b : Byte) (s : State) : (setMemByte ra b s).free = s.free := rfl

@[simp] theorem setDSet_gpr (k : Nat) (d : DSet) (s : State) : (setDSet k d s).gpr = s.gpr := rfl
@[simp] theorem setDSet_pc (k : Nat) (d : DSet) (s : State) : (setDSet k d s).pc = s.pc := rfl
@[simp] theorem setDSet_cr (k : Nat) (d : DSet) (s : State) : (setDSet k d s).cr = s.cr := rfl
@[simp] theorem setDSet_xer (k : Nat) (d : DSet) (s : State) : (setDSet k d s).xer = s.xer := rfl
@[simp] theorem setDSet_lr (k : Nat) (d : DSet) (s : State) : (setDSet k d s).lr = s.lr := rfl
@[simp] theorem setDSet_ctr (k : Nat) (d : DSet) (s : State) : (setDSet k d s).ctr = s.ctr := rfl
@[simp] theorem setDSet_msr (k : Nat) (d : DSet) (s : State) : (setDSet k d s).msr = s.msr := rfl
@[simp] theorem setDSet_usprg0 (k : Nat) (d : DSet) (s : State) : (setDSet k d s).usprg0 = s.usprg0 := rfl
@[simp] theorem setDSet_sprg (k : Nat) (d : DSet) (s : State) : (setDSet k d s).sprg = s.sprg := rfl
@[simp] theorem setDSet_exc (k : Nat) (d : DSet) (s : State) : (setDSet k d s).exc = s.exc := rfl
@[simp] theorem setDSet_tmr (k : Nat) (d : DSet) (s : State) : (setDSet k d s).tmr = s.tmr := rfl
@[simp] theorem setDSet_mmu (k : Nat) (d : DSet) (s : State) : (setDSet k d s).mmu = s.mmu := rfl
@[simp] theorem setDSet_attr (k : Nat) (d : DSet) (s : State) : (setDSet k d s).attr = s.attr := rfl
@[simp] theorem setDSet_icdbdr (k : Nat) (d : DSet) (s : State) : (setDSet k d s).icdbdr = s.icdbdr := rfl
@[simp] theorem setDSet_icdbdrOpen (k : Nat) (d : DSet) (s : State) : (setDSet k d s).icdbdrOpen = s.icdbdrOpen := rfl
@[simp] theorem setDSet_dbg (k : Nat) (d : DSet) (s : State) : (setDSet k d s).dbg = s.dbg := rfl
@[simp] theorem setDSet_reserve (k : Nat) (d : DSet) (s : State) : (setDSet k d s).reserve = s.reserve := rfl
@[simp] theorem setDSet_pipe (k : Nat) (d : DSet) (s : State) : (setDSet k d s).pipe = s.pipe := rfl
@[simp] theorem setDSet_dcr (k : Nat) (d : DSet) (s : State) : (setDSet k d s).dcr = s.dcr := rfl
@[simp] theorem setDSet_inp (k : Nat) (d : DSet) (s : State) : (setDSet k d s).inp = s.inp := rfl
@[simp] theorem setDSet_env (k : Nat) (d : DSet) (s : State) : (setDSet k d s).env = s.env := rfl
@[simp] theorem setDSet_params (k : Nat) (d : DSet) (s : State) : (setDSet k d s).params = s.params := rfl
@[simp] theorem setDSet_free (k : Nat) (d : DSet) (s : State) : (setDSet k d s).free = s.free := rfl

@[simp] theorem setISet_gpr (k : Nat) (d : ISet) (s : State) : (setISet k d s).gpr = s.gpr := rfl
@[simp] theorem setISet_pc (k : Nat) (d : ISet) (s : State) : (setISet k d s).pc = s.pc := rfl
@[simp] theorem setISet_cr (k : Nat) (d : ISet) (s : State) : (setISet k d s).cr = s.cr := rfl
@[simp] theorem setISet_xer (k : Nat) (d : ISet) (s : State) : (setISet k d s).xer = s.xer := rfl
@[simp] theorem setISet_lr (k : Nat) (d : ISet) (s : State) : (setISet k d s).lr = s.lr := rfl
@[simp] theorem setISet_ctr (k : Nat) (d : ISet) (s : State) : (setISet k d s).ctr = s.ctr := rfl
@[simp] theorem setISet_msr (k : Nat) (d : ISet) (s : State) : (setISet k d s).msr = s.msr := rfl
@[simp] theorem setISet_usprg0 (k : Nat) (d : ISet) (s : State) : (setISet k d s).usprg0 = s.usprg0 := rfl
@[simp] theorem setISet_sprg (k : Nat) (d : ISet) (s : State) : (setISet k d s).sprg = s.sprg := rfl
@[simp] theorem setISet_exc (k : Nat) (d : ISet) (s : State) : (setISet k d s).exc = s.exc := rfl
@[simp] theorem setISet_tmr (k : Nat) (d : ISet) (s : State) : (setISet k d s).tmr = s.tmr := rfl
@[simp] theorem setISet_mmu (k : Nat) (d : ISet) (s : State) : (setISet k d s).mmu = s.mmu := rfl
@[simp] theorem setISet_attr (k : Nat) (d : ISet) (s : State) : (setISet k d s).attr = s.attr := rfl
@[simp] theorem setISet_icdbdr (k : Nat) (d : ISet) (s : State) : (setISet k d s).icdbdr = s.icdbdr := rfl
@[simp] theorem setISet_icdbdrOpen (k : Nat) (d : ISet) (s : State) : (setISet k d s).icdbdrOpen = s.icdbdrOpen := rfl
@[simp] theorem setISet_dbg (k : Nat) (d : ISet) (s : State) : (setISet k d s).dbg = s.dbg := rfl
@[simp] theorem setISet_reserve (k : Nat) (d : ISet) (s : State) : (setISet k d s).reserve = s.reserve := rfl
@[simp] theorem setISet_pipe (k : Nat) (d : ISet) (s : State) : (setISet k d s).pipe = s.pipe := rfl
@[simp] theorem setISet_dcr (k : Nat) (d : ISet) (s : State) : (setISet k d s).dcr = s.dcr := rfl
@[simp] theorem setISet_inp (k : Nat) (d : ISet) (s : State) : (setISet k d s).inp = s.inp := rfl
@[simp] theorem setISet_env (k : Nat) (d : ISet) (s : State) : (setISet k d s).env = s.env := rfl
@[simp] theorem setISet_params (k : Nat) (d : ISet) (s : State) : (setISet k d s).params = s.params := rfl
@[simp] theorem setISet_free (k : Nat) (d : ISet) (s : State) : (setISet k d s).free = s.free := rfl

@[simp] theorem clearBuffer_gpr (s : State) : (clearBuffer s).gpr = s.gpr := rfl
@[simp] theorem clearBuffer_pc (s : State) : (clearBuffer s).pc = s.pc := rfl
@[simp] theorem clearBuffer_cr (s : State) : (clearBuffer s).cr = s.cr := rfl
@[simp] theorem clearBuffer_xer (s : State) : (clearBuffer s).xer = s.xer := rfl
@[simp] theorem clearBuffer_lr (s : State) : (clearBuffer s).lr = s.lr := rfl
@[simp] theorem clearBuffer_ctr (s : State) : (clearBuffer s).ctr = s.ctr := rfl
@[simp] theorem clearBuffer_msr (s : State) : (clearBuffer s).msr = s.msr := rfl
@[simp] theorem clearBuffer_usprg0 (s : State) : (clearBuffer s).usprg0 = s.usprg0 := rfl
@[simp] theorem clearBuffer_sprg (s : State) : (clearBuffer s).sprg = s.sprg := rfl
@[simp] theorem clearBuffer_exc (s : State) : (clearBuffer s).exc = s.exc := rfl
@[simp] theorem clearBuffer_tmr (s : State) : (clearBuffer s).tmr = s.tmr := rfl
@[simp] theorem clearBuffer_mmu (s : State) : (clearBuffer s).mmu = s.mmu := rfl
@[simp] theorem clearBuffer_attr (s : State) : (clearBuffer s).attr = s.attr := rfl
@[simp] theorem clearBuffer_icdbdr (s : State) : (clearBuffer s).icdbdr = s.icdbdr := rfl
@[simp] theorem clearBuffer_icdbdrOpen (s : State) : (clearBuffer s).icdbdrOpen = s.icdbdrOpen := rfl
@[simp] theorem clearBuffer_dbg (s : State) : (clearBuffer s).dbg = s.dbg := rfl
@[simp] theorem clearBuffer_reserve (s : State) : (clearBuffer s).reserve = s.reserve := rfl
@[simp] theorem clearBuffer_pipe (s : State) : (clearBuffer s).pipe = s.pipe := rfl
@[simp] theorem clearBuffer_dcr (s : State) : (clearBuffer s).dcr = s.dcr := rfl
@[simp] theorem clearBuffer_inp (s : State) : (clearBuffer s).inp = s.inp := rfl
@[simp] theorem clearBuffer_env (s : State) : (clearBuffer s).env = s.env := rfl
@[simp] theorem clearBuffer_params (s : State) : (clearBuffer s).params = s.params := rfl
@[simp] theorem clearBuffer_free (s : State) : (clearBuffer s).free = s.free := rfl

@[simp] theorem noteLate_gpr (d : Bool) (ra : Word) (n : Nat) (s : State) : (noteLate d ra n s).gpr = s.gpr := rfl
@[simp] theorem noteLate_pc (d : Bool) (ra : Word) (n : Nat) (s : State) : (noteLate d ra n s).pc = s.pc := rfl
@[simp] theorem noteLate_cr (d : Bool) (ra : Word) (n : Nat) (s : State) : (noteLate d ra n s).cr = s.cr := rfl
@[simp] theorem noteLate_xer (d : Bool) (ra : Word) (n : Nat) (s : State) : (noteLate d ra n s).xer = s.xer := rfl
@[simp] theorem noteLate_lr (d : Bool) (ra : Word) (n : Nat) (s : State) : (noteLate d ra n s).lr = s.lr := rfl
@[simp] theorem noteLate_ctr (d : Bool) (ra : Word) (n : Nat) (s : State) : (noteLate d ra n s).ctr = s.ctr := rfl
@[simp] theorem noteLate_msr (d : Bool) (ra : Word) (n : Nat) (s : State) : (noteLate d ra n s).msr = s.msr := rfl
@[simp] theorem noteLate_usprg0 (d : Bool) (ra : Word) (n : Nat) (s : State) : (noteLate d ra n s).usprg0 = s.usprg0 := rfl
@[simp] theorem noteLate_sprg (d : Bool) (ra : Word) (n : Nat) (s : State) : (noteLate d ra n s).sprg = s.sprg := rfl
@[simp] theorem noteLate_exc (d : Bool) (ra : Word) (n : Nat) (s : State) : (noteLate d ra n s).exc = s.exc := rfl
@[simp] theorem noteLate_tmr (d : Bool) (ra : Word) (n : Nat) (s : State) : (noteLate d ra n s).tmr = s.tmr := rfl
@[simp] theorem noteLate_mmu (d : Bool) (ra : Word) (n : Nat) (s : State) : (noteLate d ra n s).mmu = s.mmu := rfl
@[simp] theorem noteLate_attr (d : Bool) (ra : Word) (n : Nat) (s : State) : (noteLate d ra n s).attr = s.attr := rfl
@[simp] theorem noteLate_icdbdr (d : Bool) (ra : Word) (n : Nat) (s : State) : (noteLate d ra n s).icdbdr = s.icdbdr := rfl
@[simp] theorem noteLate_icdbdrOpen (d : Bool) (ra : Word) (n : Nat) (s : State) : (noteLate d ra n s).icdbdrOpen = s.icdbdrOpen := rfl
@[simp] theorem noteLate_dbg (d : Bool) (ra : Word) (n : Nat) (s : State) : (noteLate d ra n s).dbg = s.dbg := rfl
@[simp] theorem noteLate_reserve (d : Bool) (ra : Word) (n : Nat) (s : State) : (noteLate d ra n s).reserve = s.reserve := rfl
@[simp] theorem noteLate_pipe (d : Bool) (ra : Word) (n : Nat) (s : State) : (noteLate d ra n s).pipe = s.pipe := rfl
@[simp] theorem noteLate_dcr (d : Bool) (ra : Word) (n : Nat) (s : State) : (noteLate d ra n s).dcr = s.dcr := rfl
@[simp] theorem noteLate_inp (d : Bool) (ra : Word) (n : Nat) (s : State) : (noteLate d ra n s).inp = s.inp := rfl
@[simp] theorem noteLate_env (d : Bool) (ra : Word) (n : Nat) (s : State) : (noteLate d ra n s).env = s.env := rfl
@[simp] theorem noteLate_params (d : Bool) (ra : Word) (n : Nat) (s : State) : (noteLate d ra n s).params = s.params := rfl
@[simp] theorem noteLate_free (d : Bool) (ra : Word) (n : Nat) (s : State) : (noteLate d ra n s).free = s.free := rfl

@[simp] theorem settleStores_gpr (s : State) : (settleStores s).gpr = s.gpr := rfl
@[simp] theorem settleStores_pc (s : State) : (settleStores s).pc = s.pc := rfl
@[simp] theorem settleStores_cr (s : State) : (settleStores s).cr = s.cr := rfl
@[simp] theorem settleStores_xer (s : State) : (settleStores s).xer = s.xer := rfl
@[simp] theorem settleStores_lr (s : State) : (settleStores s).lr = s.lr := rfl
@[simp] theorem settleStores_ctr (s : State) : (settleStores s).ctr = s.ctr := rfl
@[simp] theorem settleStores_msr (s : State) : (settleStores s).msr = s.msr := rfl
@[simp] theorem settleStores_usprg0 (s : State) : (settleStores s).usprg0 = s.usprg0 := rfl
@[simp] theorem settleStores_sprg (s : State) : (settleStores s).sprg = s.sprg := rfl
@[simp] theorem settleStores_exc (s : State) : (settleStores s).exc = s.exc := rfl
@[simp] theorem settleStores_tmr (s : State) : (settleStores s).tmr = s.tmr := rfl
@[simp] theorem settleStores_mmu (s : State) : (settleStores s).mmu = s.mmu := rfl
@[simp] theorem settleStores_attr (s : State) : (settleStores s).attr = s.attr := rfl
@[simp] theorem settleStores_icdbdr (s : State) : (settleStores s).icdbdr = s.icdbdr := rfl
@[simp] theorem settleStores_icdbdrOpen (s : State) : (settleStores s).icdbdrOpen = s.icdbdrOpen := rfl
@[simp] theorem settleStores_dbg (s : State) : (settleStores s).dbg = s.dbg := rfl
@[simp] theorem settleStores_reserve (s : State) : (settleStores s).reserve = s.reserve := rfl
@[simp] theorem settleStores_pipe (s : State) : (settleStores s).pipe = s.pipe := rfl
@[simp] theorem settleStores_dcr (s : State) : (settleStores s).dcr = s.dcr := rfl
@[simp] theorem settleStores_inp (s : State) : (settleStores s).inp = s.inp := rfl
@[simp] theorem settleStores_env (s : State) : (settleStores s).env = s.env := rfl
@[simp] theorem settleStores_params (s : State) : (settleStores s).params = s.params := rfl
@[simp] theorem settleStores_free (s : State) : (settleStores s).free = s.free := rfl

@[simp] theorem allPerformed_gpr (s : State) : (allPerformed s).gpr = s.gpr := rfl
@[simp] theorem allPerformed_pc (s : State) : (allPerformed s).pc = s.pc := rfl
@[simp] theorem allPerformed_cr (s : State) : (allPerformed s).cr = s.cr := rfl
@[simp] theorem allPerformed_xer (s : State) : (allPerformed s).xer = s.xer := rfl
@[simp] theorem allPerformed_lr (s : State) : (allPerformed s).lr = s.lr := rfl
@[simp] theorem allPerformed_ctr (s : State) : (allPerformed s).ctr = s.ctr := rfl
@[simp] theorem allPerformed_msr (s : State) : (allPerformed s).msr = s.msr := rfl
@[simp] theorem allPerformed_usprg0 (s : State) : (allPerformed s).usprg0 = s.usprg0 := rfl
@[simp] theorem allPerformed_sprg (s : State) : (allPerformed s).sprg = s.sprg := rfl
@[simp] theorem allPerformed_exc (s : State) : (allPerformed s).exc = s.exc := rfl
@[simp] theorem allPerformed_tmr (s : State) : (allPerformed s).tmr = s.tmr := rfl
@[simp] theorem allPerformed_mmu (s : State) : (allPerformed s).mmu = s.mmu := rfl
@[simp] theorem allPerformed_attr (s : State) : (allPerformed s).attr = s.attr := rfl
@[simp] theorem allPerformed_icdbdr (s : State) : (allPerformed s).icdbdr = s.icdbdr := rfl
@[simp] theorem allPerformed_icdbdrOpen (s : State) : (allPerformed s).icdbdrOpen = s.icdbdrOpen := rfl
@[simp] theorem allPerformed_dbg (s : State) : (allPerformed s).dbg = s.dbg := rfl
@[simp] theorem allPerformed_reserve (s : State) : (allPerformed s).reserve = s.reserve := rfl
@[simp] theorem allPerformed_pipe (s : State) : (allPerformed s).pipe = s.pipe := rfl
@[simp] theorem allPerformed_dcr (s : State) : (allPerformed s).dcr = s.dcr := rfl
@[simp] theorem allPerformed_inp (s : State) : (allPerformed s).inp = s.inp := rfl
@[simp] theorem allPerformed_env (s : State) : (allPerformed s).env = s.env := rfl
@[simp] theorem allPerformed_params (s : State) : (allPerformed s).params = s.params := rfl
@[simp] theorem allPerformed_free (s : State) : (allPerformed s).free = s.free := rfl

@[simp] theorem outsideByte_gpr (ra : Word) (b : Byte) (s : State) : (outsideByte ra b s).gpr = s.gpr := rfl
@[simp] theorem outsideByte_pc (ra : Word) (b : Byte) (s : State) : (outsideByte ra b s).pc = s.pc := rfl
@[simp] theorem outsideByte_cr (ra : Word) (b : Byte) (s : State) : (outsideByte ra b s).cr = s.cr := rfl
@[simp] theorem outsideByte_xer (ra : Word) (b : Byte) (s : State) : (outsideByte ra b s).xer = s.xer := rfl
@[simp] theorem outsideByte_lr (ra : Word) (b : Byte) (s : State) : (outsideByte ra b s).lr = s.lr := rfl
@[simp] theorem outsideByte_ctr (ra : Word) (b : Byte) (s : State) : (outsideByte ra b s).ctr = s.ctr := rfl
@[simp] theorem outsideByte_msr (ra : Word) (b : Byte) (s : State) : (outsideByte ra b s).msr = s.msr := rfl
@[simp] theorem outsideByte_usprg0 (ra : Word) (b : Byte) (s : State) : (outsideByte ra b s).usprg0 = s.usprg0 := rfl
@[simp] theorem outsideByte_sprg (ra : Word) (b : Byte) (s : State) : (outsideByte ra b s).sprg = s.sprg := rfl
@[simp] theorem outsideByte_exc (ra : Word) (b : Byte) (s : State) : (outsideByte ra b s).exc = s.exc := rfl
@[simp] theorem outsideByte_tmr (ra : Word) (b : Byte) (s : State) : (outsideByte ra b s).tmr = s.tmr := rfl
@[simp] theorem outsideByte_mmu (ra : Word) (b : Byte) (s : State) : (outsideByte ra b s).mmu = s.mmu := rfl
@[simp] theorem outsideByte_attr (ra : Word) (b : Byte) (s : State) : (outsideByte ra b s).attr = s.attr := rfl
@[simp] theorem outsideByte_icdbdr (ra : Word) (b : Byte) (s : State) : (outsideByte ra b s).icdbdr = s.icdbdr := rfl
@[simp] theorem outsideByte_icdbdrOpen (ra : Word) (b : Byte) (s : State) : (outsideByte ra b s).icdbdrOpen = s.icdbdrOpen := rfl
@[simp] theorem outsideByte_dbg (ra : Word) (b : Byte) (s : State) : (outsideByte ra b s).dbg = s.dbg := rfl
@[simp] theorem outsideByte_reserve (ra : Word) (b : Byte) (s : State) : (outsideByte ra b s).reserve = s.reserve := rfl
@[simp] theorem outsideByte_pipe (ra : Word) (b : Byte) (s : State) : (outsideByte ra b s).pipe = s.pipe := rfl
@[simp] theorem outsideByte_dcr (ra : Word) (b : Byte) (s : State) : (outsideByte ra b s).dcr = s.dcr := rfl
@[simp] theorem outsideByte_inp (ra : Word) (b : Byte) (s : State) : (outsideByte ra b s).inp = s.inp := rfl
@[simp] theorem outsideByte_env (ra : Word) (b : Byte) (s : State) : (outsideByte ra b s).env = s.env := rfl
@[simp] theorem outsideByte_params (ra : Word) (b : Byte) (s : State) : (outsideByte ra b s).params = s.params := rfl
@[simp] theorem outsideByte_free (ra : Word) (b : Byte) (s : State) : (outsideByte ra b s).free = s.free := rfl

@[simp] theorem installInstrLine_gpr (ra : Word) (v : Vector Word 8) (s : State) : (installInstrLine ra v s).gpr = s.gpr := rfl
@[simp] theorem installInstrLine_pc (ra : Word) (v : Vector Word 8) (s : State) : (installInstrLine ra v s).pc = s.pc := rfl
@[simp] theorem installInstrLine_cr (ra : Word) (v : Vector Word 8) (s : State) : (installInstrLine ra v s).cr = s.cr := rfl
@[simp] theorem installInstrLine_xer (ra : Word) (v : Vector Word 8) (s : State) : (installInstrLine ra v s).xer = s.xer := rfl
@[simp] theorem installInstrLine_lr (ra : Word) (v : Vector Word 8) (s : State) : (installInstrLine ra v s).lr = s.lr := rfl
@[simp] theorem installInstrLine_ctr (ra : Word) (v : Vector Word 8) (s : State) : (installInstrLine ra v s).ctr = s.ctr := rfl
@[simp] theorem installInstrLine_msr (ra : Word) (v : Vector Word 8) (s : State) : (installInstrLine ra v s).msr = s.msr := rfl
@[simp] theorem installInstrLine_usprg0 (ra : Word) (v : Vector Word 8) (s : State) : (installInstrLine ra v s).usprg0 = s.usprg0 := rfl
@[simp] theorem installInstrLine_sprg (ra : Word) (v : Vector Word 8) (s : State) : (installInstrLine ra v s).sprg = s.sprg := rfl
@[simp] theorem installInstrLine_exc (ra : Word) (v : Vector Word 8) (s : State) : (installInstrLine ra v s).exc = s.exc := rfl
@[simp] theorem installInstrLine_tmr (ra : Word) (v : Vector Word 8) (s : State) : (installInstrLine ra v s).tmr = s.tmr := rfl
@[simp] theorem installInstrLine_mmu (ra : Word) (v : Vector Word 8) (s : State) : (installInstrLine ra v s).mmu = s.mmu := rfl
@[simp] theorem installInstrLine_attr (ra : Word) (v : Vector Word 8) (s : State) : (installInstrLine ra v s).attr = s.attr := rfl
@[simp] theorem installInstrLine_icdbdr (ra : Word) (v : Vector Word 8) (s : State) : (installInstrLine ra v s).icdbdr = s.icdbdr := rfl
@[simp] theorem installInstrLine_icdbdrOpen (ra : Word) (v : Vector Word 8) (s : State) : (installInstrLine ra v s).icdbdrOpen = s.icdbdrOpen := rfl
@[simp] theorem installInstrLine_dbg (ra : Word) (v : Vector Word 8) (s : State) : (installInstrLine ra v s).dbg = s.dbg := rfl
@[simp] theorem installInstrLine_reserve (ra : Word) (v : Vector Word 8) (s : State) : (installInstrLine ra v s).reserve = s.reserve := rfl
@[simp] theorem installInstrLine_pipe (ra : Word) (v : Vector Word 8) (s : State) : (installInstrLine ra v s).pipe = s.pipe := rfl
@[simp] theorem installInstrLine_dcr (ra : Word) (v : Vector Word 8) (s : State) : (installInstrLine ra v s).dcr = s.dcr := rfl
@[simp] theorem installInstrLine_inp (ra : Word) (v : Vector Word 8) (s : State) : (installInstrLine ra v s).inp = s.inp := rfl
@[simp] theorem installInstrLine_env (ra : Word) (v : Vector Word 8) (s : State) : (installInstrLine ra v s).env = s.env := rfl
@[simp] theorem installInstrLine_params (ra : Word) (v : Vector Word 8) (s : State) : (installInstrLine ra v s).params = s.params := rfl
@[simp] theorem installInstrLine_free (ra : Word) (v : Vector Word 8) (s : State) : (installInstrLine ra v s).free = s.free := rfl

@[simp] theorem touchInstrWay_gpr (k : Nat) (w : Bool) (s : State) : (touchInstrWay k w s).gpr = s.gpr := rfl
@[simp] theorem touchInstrWay_pc (k : Nat) (w : Bool) (s : State) : (touchInstrWay k w s).pc = s.pc := rfl
@[simp] theorem touchInstrWay_cr (k : Nat) (w : Bool) (s : State) : (touchInstrWay k w s).cr = s.cr := rfl
@[simp] theorem touchInstrWay_xer (k : Nat) (w : Bool) (s : State) : (touchInstrWay k w s).xer = s.xer := rfl
@[simp] theorem touchInstrWay_lr (k : Nat) (w : Bool) (s : State) : (touchInstrWay k w s).lr = s.lr := rfl
@[simp] theorem touchInstrWay_ctr (k : Nat) (w : Bool) (s : State) : (touchInstrWay k w s).ctr = s.ctr := rfl
@[simp] theorem touchInstrWay_msr (k : Nat) (w : Bool) (s : State) : (touchInstrWay k w s).msr = s.msr := rfl
@[simp] theorem touchInstrWay_usprg0 (k : Nat) (w : Bool) (s : State) : (touchInstrWay k w s).usprg0 = s.usprg0 := rfl
@[simp] theorem touchInstrWay_sprg (k : Nat) (w : Bool) (s : State) : (touchInstrWay k w s).sprg = s.sprg := rfl
@[simp] theorem touchInstrWay_exc (k : Nat) (w : Bool) (s : State) : (touchInstrWay k w s).exc = s.exc := rfl
@[simp] theorem touchInstrWay_tmr (k : Nat) (w : Bool) (s : State) : (touchInstrWay k w s).tmr = s.tmr := rfl
@[simp] theorem touchInstrWay_mmu (k : Nat) (w : Bool) (s : State) : (touchInstrWay k w s).mmu = s.mmu := rfl
@[simp] theorem touchInstrWay_attr (k : Nat) (w : Bool) (s : State) : (touchInstrWay k w s).attr = s.attr := rfl
@[simp] theorem touchInstrWay_icdbdr (k : Nat) (w : Bool) (s : State) : (touchInstrWay k w s).icdbdr = s.icdbdr := rfl
@[simp] theorem touchInstrWay_icdbdrOpen (k : Nat) (w : Bool) (s : State) : (touchInstrWay k w s).icdbdrOpen = s.icdbdrOpen := rfl
@[simp] theorem touchInstrWay_dbg (k : Nat) (w : Bool) (s : State) : (touchInstrWay k w s).dbg = s.dbg := rfl
@[simp] theorem touchInstrWay_reserve (k : Nat) (w : Bool) (s : State) : (touchInstrWay k w s).reserve = s.reserve := rfl
@[simp] theorem touchInstrWay_pipe (k : Nat) (w : Bool) (s : State) : (touchInstrWay k w s).pipe = s.pipe := rfl
@[simp] theorem touchInstrWay_dcr (k : Nat) (w : Bool) (s : State) : (touchInstrWay k w s).dcr = s.dcr := rfl
@[simp] theorem touchInstrWay_inp (k : Nat) (w : Bool) (s : State) : (touchInstrWay k w s).inp = s.inp := rfl
@[simp] theorem touchInstrWay_env (k : Nat) (w : Bool) (s : State) : (touchInstrWay k w s).env = s.env := rfl
@[simp] theorem touchInstrWay_params (k : Nat) (w : Bool) (s : State) : (touchInstrWay k w s).params = s.params := rfl
@[simp] theorem touchInstrWay_free (k : Nat) (w : Bool) (s : State) : (touchInstrWay k w s).free = s.free := rfl

@[simp] theorem synchronizeContext_gpr (s : State) : (synchronizeContext s).gpr = s.gpr := rfl
@[simp] theorem synchronizeContext_pc (s : State) : (synchronizeContext s).pc = s.pc := rfl
@[simp] theorem synchronizeContext_cr (s : State) : (synchronizeContext s).cr = s.cr := rfl
@[simp] theorem synchronizeContext_xer (s : State) : (synchronizeContext s).xer = s.xer := rfl
@[simp] theorem synchronizeContext_lr (s : State) : (synchronizeContext s).lr = s.lr := rfl
@[simp] theorem synchronizeContext_ctr (s : State) : (synchronizeContext s).ctr = s.ctr := rfl
@[simp] theorem synchronizeContext_msr (s : State) : (synchronizeContext s).msr = s.msr := rfl
@[simp] theorem synchronizeContext_usprg0 (s : State) : (synchronizeContext s).usprg0 = s.usprg0 := rfl
@[simp] theorem synchronizeContext_sprg (s : State) : (synchronizeContext s).sprg = s.sprg := rfl
@[simp] theorem synchronizeContext_exc (s : State) : (synchronizeContext s).exc = s.exc := rfl
@[simp] theorem synchronizeContext_tmr (s : State) : (synchronizeContext s).tmr = s.tmr := rfl
@[simp] theorem synchronizeContext_mmu (s : State) : (synchronizeContext s).mmu = s.mmu := rfl
@[simp] theorem synchronizeContext_attr (s : State) : (synchronizeContext s).attr = s.attr := rfl
@[simp] theorem synchronizeContext_icdbdr (s : State) : (synchronizeContext s).icdbdr = s.icdbdr := rfl
@[simp] theorem synchronizeContext_icdbdrOpen (s : State) : (synchronizeContext s).icdbdrOpen = s.icdbdrOpen := rfl
@[simp] theorem synchronizeContext_dbg (s : State) : (synchronizeContext s).dbg = s.dbg := rfl
@[simp] theorem synchronizeContext_reserve (s : State) : (synchronizeContext s).reserve = s.reserve := rfl
@[simp] theorem synchronizeContext_sto (s : State) : (synchronizeContext s).sto = s.sto := rfl
@[simp] theorem synchronizeContext_dcr (s : State) : (synchronizeContext s).dcr = s.dcr := rfl
@[simp] theorem synchronizeContext_inp (s : State) : (synchronizeContext s).inp = s.inp := rfl
@[simp] theorem synchronizeContext_env (s : State) : (synchronizeContext s).env = s.env := rfl
@[simp] theorem synchronizeContext_params (s : State) : (synchronizeContext s).params = s.params := rfl
@[simp] theorem synchronizeContext_free (s : State) : (synchronizeContext s).free = s.free := rfl

@[simp] theorem discardQueue_gpr (s : State) : (discardQueue s).gpr = s.gpr := rfl
@[simp] theorem discardQueue_pc (s : State) : (discardQueue s).pc = s.pc := rfl
@[simp] theorem discardQueue_cr (s : State) : (discardQueue s).cr = s.cr := rfl
@[simp] theorem discardQueue_xer (s : State) : (discardQueue s).xer = s.xer := rfl
@[simp] theorem discardQueue_lr (s : State) : (discardQueue s).lr = s.lr := rfl
@[simp] theorem discardQueue_ctr (s : State) : (discardQueue s).ctr = s.ctr := rfl
@[simp] theorem discardQueue_msr (s : State) : (discardQueue s).msr = s.msr := rfl
@[simp] theorem discardQueue_usprg0 (s : State) : (discardQueue s).usprg0 = s.usprg0 := rfl
@[simp] theorem discardQueue_sprg (s : State) : (discardQueue s).sprg = s.sprg := rfl
@[simp] theorem discardQueue_exc (s : State) : (discardQueue s).exc = s.exc := rfl
@[simp] theorem discardQueue_tmr (s : State) : (discardQueue s).tmr = s.tmr := rfl
@[simp] theorem discardQueue_mmu (s : State) : (discardQueue s).mmu = s.mmu := rfl
@[simp] theorem discardQueue_attr (s : State) : (discardQueue s).attr = s.attr := rfl
@[simp] theorem discardQueue_icdbdr (s : State) : (discardQueue s).icdbdr = s.icdbdr := rfl
@[simp] theorem discardQueue_icdbdrOpen (s : State) : (discardQueue s).icdbdrOpen = s.icdbdrOpen := rfl
@[simp] theorem discardQueue_dbg (s : State) : (discardQueue s).dbg = s.dbg := rfl
@[simp] theorem discardQueue_reserve (s : State) : (discardQueue s).reserve = s.reserve := rfl
@[simp] theorem discardQueue_sto (s : State) : (discardQueue s).sto = s.sto := rfl
@[simp] theorem discardQueue_dcr (s : State) : (discardQueue s).dcr = s.dcr := rfl
@[simp] theorem discardQueue_inp (s : State) : (discardQueue s).inp = s.inp := rfl
@[simp] theorem discardQueue_env (s : State) : (discardQueue s).env = s.env := rfl
@[simp] theorem discardQueue_params (s : State) : (discardQueue s).params = s.params := rfl
@[simp] theorem discardQueue_free (s : State) : (discardQueue s).free = s.free := rfl

@[simp] theorem rememberContext_gpr (s t : State) : (rememberContext s t).gpr = t.gpr := rfl
@[simp] theorem rememberContext_pc (s t : State) : (rememberContext s t).pc = t.pc := rfl
@[simp] theorem rememberContext_cr (s t : State) : (rememberContext s t).cr = t.cr := rfl
@[simp] theorem rememberContext_xer (s t : State) : (rememberContext s t).xer = t.xer := rfl
@[simp] theorem rememberContext_lr (s t : State) : (rememberContext s t).lr = t.lr := rfl
@[simp] theorem rememberContext_ctr (s t : State) : (rememberContext s t).ctr = t.ctr := rfl
@[simp] theorem rememberContext_msr (s t : State) : (rememberContext s t).msr = t.msr := rfl
@[simp] theorem rememberContext_usprg0 (s t : State) : (rememberContext s t).usprg0 = t.usprg0 := rfl
@[simp] theorem rememberContext_sprg (s t : State) : (rememberContext s t).sprg = t.sprg := rfl
@[simp] theorem rememberContext_exc (s t : State) : (rememberContext s t).exc = t.exc := rfl
@[simp] theorem rememberContext_tmr (s t : State) : (rememberContext s t).tmr = t.tmr := rfl
@[simp] theorem rememberContext_mmu (s t : State) : (rememberContext s t).mmu = t.mmu := rfl
@[simp] theorem rememberContext_attr (s t : State) : (rememberContext s t).attr = t.attr := rfl
@[simp] theorem rememberContext_icdbdr (s t : State) : (rememberContext s t).icdbdr = t.icdbdr := rfl
@[simp] theorem rememberContext_icdbdrOpen (s t : State) : (rememberContext s t).icdbdrOpen = t.icdbdrOpen := rfl
@[simp] theorem rememberContext_dbg (s t : State) : (rememberContext s t).dbg = t.dbg := rfl
@[simp] theorem rememberContext_reserve (s t : State) : (rememberContext s t).reserve = t.reserve := rfl
@[simp] theorem rememberContext_sto (s t : State) : (rememberContext s t).sto = t.sto := rfl
@[simp] theorem rememberContext_dcr (s t : State) : (rememberContext s t).dcr = t.dcr := rfl
@[simp] theorem rememberContext_inp (s t : State) : (rememberContext s t).inp = t.inp := rfl
@[simp] theorem rememberContext_env (s t : State) : (rememberContext s t).env = t.env := rfl
@[simp] theorem rememberContext_params (s t : State) : (rememberContext s t).params = t.params := rfl
@[simp] theorem rememberContext_free (s t : State) : (rememberContext s t).free = t.free := rfl

@[simp] theorem enqueue_gpr (ea : Word) (f : Fetched) (s : State) : (enqueue ea f s).gpr = s.gpr := rfl
@[simp] theorem enqueue_pc (ea : Word) (f : Fetched) (s : State) : (enqueue ea f s).pc = s.pc := rfl
@[simp] theorem enqueue_cr (ea : Word) (f : Fetched) (s : State) : (enqueue ea f s).cr = s.cr := rfl
@[simp] theorem enqueue_xer (ea : Word) (f : Fetched) (s : State) : (enqueue ea f s).xer = s.xer := rfl
@[simp] theorem enqueue_lr (ea : Word) (f : Fetched) (s : State) : (enqueue ea f s).lr = s.lr := rfl
@[simp] theorem enqueue_ctr (ea : Word) (f : Fetched) (s : State) : (enqueue ea f s).ctr = s.ctr := rfl
@[simp] theorem enqueue_msr (ea : Word) (f : Fetched) (s : State) : (enqueue ea f s).msr = s.msr := rfl
@[simp] theorem enqueue_usprg0 (ea : Word) (f : Fetched) (s : State) : (enqueue ea f s).usprg0 = s.usprg0 := rfl
@[simp] theorem enqueue_sprg (ea : Word) (f : Fetched) (s : State) : (enqueue ea f s).sprg = s.sprg := rfl
@[simp] theorem enqueue_exc (ea : Word) (f : Fetched) (s : State) : (enqueue ea f s).exc = s.exc := rfl
@[simp] theorem enqueue_tmr (ea : Word) (f : Fetched) (s : State) : (enqueue ea f s).tmr = s.tmr := rfl
@[simp] theorem enqueue_mmu (ea : Word) (f : Fetched) (s : State) : (enqueue ea f s).mmu = s.mmu := rfl
@[simp] theorem enqueue_attr (ea : Word) (f : Fetched) (s : State) : (enqueue ea f s).attr = s.attr := rfl
@[simp] theorem enqueue_icdbdr (ea : Word) (f : Fetched) (s : State) : (enqueue ea f s).icdbdr = s.icdbdr := rfl
@[simp] theorem enqueue_icdbdrOpen (ea : Word) (f : Fetched) (s : State) : (enqueue ea f s).icdbdrOpen = s.icdbdrOpen := rfl
@[simp] theorem enqueue_dbg (ea : Word) (f : Fetched) (s : State) : (enqueue ea f s).dbg = s.dbg := rfl
@[simp] theorem enqueue_reserve (ea : Word) (f : Fetched) (s : State) : (enqueue ea f s).reserve = s.reserve := rfl
@[simp] theorem enqueue_sto (ea : Word) (f : Fetched) (s : State) : (enqueue ea f s).sto = s.sto := rfl
@[simp] theorem enqueue_dcr (ea : Word) (f : Fetched) (s : State) : (enqueue ea f s).dcr = s.dcr := rfl
@[simp] theorem enqueue_inp (ea : Word) (f : Fetched) (s : State) : (enqueue ea f s).inp = s.inp := rfl
@[simp] theorem enqueue_env (ea : Word) (f : Fetched) (s : State) : (enqueue ea f s).env = s.env := rfl
@[simp] theorem enqueue_params (ea : Word) (f : Fetched) (s : State) : (enqueue ea f s).params = s.params := rfl
@[simp] theorem enqueue_free (ea : Word) (f : Fetched) (s : State) : (enqueue ea f s).free = s.free := rfl

@[simp] theorem contextBarrier_gpr (s : State) : (contextBarrier s).gpr = s.gpr := rfl
@[simp] theorem contextBarrier_pc (s : State) : (contextBarrier s).pc = s.pc := rfl
@[simp] theorem contextBarrier_cr (s : State) : (contextBarrier s).cr = s.cr := rfl
@[simp] theorem contextBarrier_xer (s : State) : (contextBarrier s).xer = s.xer := rfl
@[simp] theorem contextBarrier_lr (s : State) : (contextBarrier s).lr = s.lr := rfl
@[simp] theorem contextBarrier_ctr (s : State) : (contextBarrier s).ctr = s.ctr := rfl
@[simp] theorem contextBarrier_msr (s : State) : (contextBarrier s).msr = s.msr := rfl
@[simp] theorem contextBarrier_usprg0 (s : State) : (contextBarrier s).usprg0 = s.usprg0 := rfl
@[simp] theorem contextBarrier_sprg (s : State) : (contextBarrier s).sprg = s.sprg := rfl
@[simp] theorem contextBarrier_exc (s : State) : (contextBarrier s).exc = s.exc := rfl
@[simp] theorem contextBarrier_tmr (s : State) : (contextBarrier s).tmr = s.tmr := rfl
@[simp] theorem contextBarrier_mmu (s : State) : (contextBarrier s).mmu = s.mmu := rfl
@[simp] theorem contextBarrier_attr (s : State) : (contextBarrier s).attr = s.attr := rfl
@[simp] theorem contextBarrier_icdbdr (s : State) : (contextBarrier s).icdbdr = s.icdbdr := rfl
@[simp] theorem contextBarrier_dbg (s : State) : (contextBarrier s).dbg = s.dbg := rfl
@[simp] theorem contextBarrier_reserve (s : State) : (contextBarrier s).reserve = s.reserve := rfl
@[simp] theorem contextBarrier_dcr (s : State) : (contextBarrier s).dcr = s.dcr := rfl
@[simp] theorem contextBarrier_inp (s : State) : (contextBarrier s).inp = s.inp := rfl
@[simp] theorem contextBarrier_env (s : State) : (contextBarrier s).env = s.env := rfl
@[simp] theorem contextBarrier_params (s : State) : (contextBarrier s).params = s.params := rfl
@[simp] theorem contextBarrier_free (s : State) : (contextBarrier s).free = s.free := rfl

@[simp] theorem dropBuffer_gpr (ra : Word) (s : State) : (dropBuffer ra s).gpr = s.gpr := by unfold dropBuffer; split <;> rfl
@[simp] theorem dropBuffer_pc (ra : Word) (s : State) : (dropBuffer ra s).pc = s.pc := by unfold dropBuffer; split <;> rfl
@[simp] theorem dropBuffer_cr (ra : Word) (s : State) : (dropBuffer ra s).cr = s.cr := by unfold dropBuffer; split <;> rfl
@[simp] theorem dropBuffer_xer (ra : Word) (s : State) : (dropBuffer ra s).xer = s.xer := by unfold dropBuffer; split <;> rfl
@[simp] theorem dropBuffer_lr (ra : Word) (s : State) : (dropBuffer ra s).lr = s.lr := by unfold dropBuffer; split <;> rfl
@[simp] theorem dropBuffer_ctr (ra : Word) (s : State) : (dropBuffer ra s).ctr = s.ctr := by unfold dropBuffer; split <;> rfl
@[simp] theorem dropBuffer_msr (ra : Word) (s : State) : (dropBuffer ra s).msr = s.msr := by unfold dropBuffer; split <;> rfl
@[simp] theorem dropBuffer_usprg0 (ra : Word) (s : State) : (dropBuffer ra s).usprg0 = s.usprg0 := by unfold dropBuffer; split <;> rfl
@[simp] theorem dropBuffer_sprg (ra : Word) (s : State) : (dropBuffer ra s).sprg = s.sprg := by unfold dropBuffer; split <;> rfl
@[simp] theorem dropBuffer_exc (ra : Word) (s : State) : (dropBuffer ra s).exc = s.exc := by unfold dropBuffer; split <;> rfl
@[simp] theorem dropBuffer_tmr (ra : Word) (s : State) : (dropBuffer ra s).tmr = s.tmr := by unfold dropBuffer; split <;> rfl
@[simp] theorem dropBuffer_mmu (ra : Word) (s : State) : (dropBuffer ra s).mmu = s.mmu := by unfold dropBuffer; split <;> rfl
@[simp] theorem dropBuffer_attr (ra : Word) (s : State) : (dropBuffer ra s).attr = s.attr := by unfold dropBuffer; split <;> rfl
@[simp] theorem dropBuffer_icdbdr (ra : Word) (s : State) : (dropBuffer ra s).icdbdr = s.icdbdr := by unfold dropBuffer; split <;> rfl
@[simp] theorem dropBuffer_icdbdrOpen (ra : Word) (s : State) : (dropBuffer ra s).icdbdrOpen = s.icdbdrOpen := by unfold dropBuffer; split <;> rfl
@[simp] theorem dropBuffer_dbg (ra : Word) (s : State) : (dropBuffer ra s).dbg = s.dbg := by unfold dropBuffer; split <;> rfl
@[simp] theorem dropBuffer_reserve (ra : Word) (s : State) : (dropBuffer ra s).reserve = s.reserve := by unfold dropBuffer; split <;> rfl
@[simp] theorem dropBuffer_pipe (ra : Word) (s : State) : (dropBuffer ra s).pipe = s.pipe := by unfold dropBuffer; split <;> rfl
@[simp] theorem dropBuffer_dcr (ra : Word) (s : State) : (dropBuffer ra s).dcr = s.dcr := by unfold dropBuffer; split <;> rfl
@[simp] theorem dropBuffer_inp (ra : Word) (s : State) : (dropBuffer ra s).inp = s.inp := by unfold dropBuffer; split <;> rfl
@[simp] theorem dropBuffer_env (ra : Word) (s : State) : (dropBuffer ra s).env = s.env := by unfold dropBuffer; split <;> rfl
@[simp] theorem dropBuffer_params (ra : Word) (s : State) : (dropBuffer ra s).params = s.params := by unfold dropBuffer; split <;> rfl
@[simp] theorem dropBuffer_free (ra : Word) (s : State) : (dropBuffer ra s).free = s.free := by unfold dropBuffer; split <;> rfl

@[simp] theorem setCA_gpr (c : Bool) (s : State) : (setCA c s).gpr = s.gpr := rfl
@[simp] theorem setCA_pc (c : Bool) (s : State) : (setCA c s).pc = s.pc := rfl
@[simp] theorem setCA_cr (c : Bool) (s : State) : (setCA c s).cr = s.cr := rfl
@[simp] theorem setCA_lr (c : Bool) (s : State) : (setCA c s).lr = s.lr := rfl
@[simp] theorem setCA_ctr (c : Bool) (s : State) : (setCA c s).ctr = s.ctr := rfl
@[simp] theorem setCA_msr (c : Bool) (s : State) : (setCA c s).msr = s.msr := rfl
@[simp] theorem setCA_usprg0 (c : Bool) (s : State) : (setCA c s).usprg0 = s.usprg0 := rfl
@[simp] theorem setCA_sprg (c : Bool) (s : State) : (setCA c s).sprg = s.sprg := rfl
@[simp] theorem setCA_exc (c : Bool) (s : State) : (setCA c s).exc = s.exc := rfl
@[simp] theorem setCA_tmr (c : Bool) (s : State) : (setCA c s).tmr = s.tmr := rfl
@[simp] theorem setCA_mmu (c : Bool) (s : State) : (setCA c s).mmu = s.mmu := rfl
@[simp] theorem setCA_attr (c : Bool) (s : State) : (setCA c s).attr = s.attr := rfl
@[simp] theorem setCA_icdbdr (c : Bool) (s : State) : (setCA c s).icdbdr = s.icdbdr := rfl
@[simp] theorem setCA_icdbdrOpen (c : Bool) (s : State) : (setCA c s).icdbdrOpen = s.icdbdrOpen := rfl
@[simp] theorem setCA_dbg (c : Bool) (s : State) : (setCA c s).dbg = s.dbg := rfl
@[simp] theorem setCA_reserve (c : Bool) (s : State) : (setCA c s).reserve = s.reserve := rfl
@[simp] theorem setCA_sto (c : Bool) (s : State) : (setCA c s).sto = s.sto := rfl
@[simp] theorem setCA_pipe (c : Bool) (s : State) : (setCA c s).pipe = s.pipe := rfl
@[simp] theorem setCA_dcr (c : Bool) (s : State) : (setCA c s).dcr = s.dcr := rfl
@[simp] theorem setCA_inp (c : Bool) (s : State) : (setCA c s).inp = s.inp := rfl
@[simp] theorem setCA_env (c : Bool) (s : State) : (setCA c s).env = s.env := rfl
@[simp] theorem setCA_params (c : Bool) (s : State) : (setCA c s).params = s.params := rfl
@[simp] theorem setCA_free (c : Bool) (s : State) : (setCA c s).free = s.free := rfl

@[simp] theorem setOv_gpr (oe ov : Bool) (s : State) : (setOv oe ov s).gpr = s.gpr := by cases oe <;> rfl
@[simp] theorem setOv_pc (oe ov : Bool) (s : State) : (setOv oe ov s).pc = s.pc := by cases oe <;> rfl
@[simp] theorem setOv_cr (oe ov : Bool) (s : State) : (setOv oe ov s).cr = s.cr := by cases oe <;> rfl
@[simp] theorem setOv_lr (oe ov : Bool) (s : State) : (setOv oe ov s).lr = s.lr := by cases oe <;> rfl
@[simp] theorem setOv_ctr (oe ov : Bool) (s : State) : (setOv oe ov s).ctr = s.ctr := by cases oe <;> rfl
@[simp] theorem setOv_msr (oe ov : Bool) (s : State) : (setOv oe ov s).msr = s.msr := by cases oe <;> rfl
@[simp] theorem setOv_usprg0 (oe ov : Bool) (s : State) : (setOv oe ov s).usprg0 = s.usprg0 := by cases oe <;> rfl
@[simp] theorem setOv_sprg (oe ov : Bool) (s : State) : (setOv oe ov s).sprg = s.sprg := by cases oe <;> rfl
@[simp] theorem setOv_exc (oe ov : Bool) (s : State) : (setOv oe ov s).exc = s.exc := by cases oe <;> rfl
@[simp] theorem setOv_tmr (oe ov : Bool) (s : State) : (setOv oe ov s).tmr = s.tmr := by cases oe <;> rfl
@[simp] theorem setOv_mmu (oe ov : Bool) (s : State) : (setOv oe ov s).mmu = s.mmu := by cases oe <;> rfl
@[simp] theorem setOv_attr (oe ov : Bool) (s : State) : (setOv oe ov s).attr = s.attr := by cases oe <;> rfl
@[simp] theorem setOv_icdbdr (oe ov : Bool) (s : State) : (setOv oe ov s).icdbdr = s.icdbdr := by cases oe <;> rfl
@[simp] theorem setOv_icdbdrOpen (oe ov : Bool) (s : State) : (setOv oe ov s).icdbdrOpen = s.icdbdrOpen := by cases oe <;> rfl
@[simp] theorem setOv_dbg (oe ov : Bool) (s : State) : (setOv oe ov s).dbg = s.dbg := by cases oe <;> rfl
@[simp] theorem setOv_reserve (oe ov : Bool) (s : State) : (setOv oe ov s).reserve = s.reserve := by cases oe <;> rfl
@[simp] theorem setOv_sto (oe ov : Bool) (s : State) : (setOv oe ov s).sto = s.sto := by cases oe <;> rfl
@[simp] theorem setOv_pipe (oe ov : Bool) (s : State) : (setOv oe ov s).pipe = s.pipe := by cases oe <;> rfl
@[simp] theorem setOv_dcr (oe ov : Bool) (s : State) : (setOv oe ov s).dcr = s.dcr := by cases oe <;> rfl
@[simp] theorem setOv_inp (oe ov : Bool) (s : State) : (setOv oe ov s).inp = s.inp := by cases oe <;> rfl
@[simp] theorem setOv_env (oe ov : Bool) (s : State) : (setOv oe ov s).env = s.env := by cases oe <;> rfl
@[simp] theorem setOv_params (oe ov : Bool) (s : State) : (setOv oe ov s).params = s.params := by cases oe <;> rfl
@[simp] theorem setOv_free (oe ov : Bool) (s : State) : (setOv oe ov s).free = s.free := by cases oe <;> rfl

@[simp] theorem setCrField_gpr (n : BitVec 3) (v : BitVec 4) (s : State) : (setCrField n v s).gpr = s.gpr := rfl
@[simp] theorem setCrField_pc (n : BitVec 3) (v : BitVec 4) (s : State) : (setCrField n v s).pc = s.pc := rfl
@[simp] theorem setCrField_xer (n : BitVec 3) (v : BitVec 4) (s : State) : (setCrField n v s).xer = s.xer := rfl
@[simp] theorem setCrField_lr (n : BitVec 3) (v : BitVec 4) (s : State) : (setCrField n v s).lr = s.lr := rfl
@[simp] theorem setCrField_ctr (n : BitVec 3) (v : BitVec 4) (s : State) : (setCrField n v s).ctr = s.ctr := rfl
@[simp] theorem setCrField_msr (n : BitVec 3) (v : BitVec 4) (s : State) : (setCrField n v s).msr = s.msr := rfl
@[simp] theorem setCrField_usprg0 (n : BitVec 3) (v : BitVec 4) (s : State) : (setCrField n v s).usprg0 = s.usprg0 := rfl
@[simp] theorem setCrField_sprg (n : BitVec 3) (v : BitVec 4) (s : State) : (setCrField n v s).sprg = s.sprg := rfl
@[simp] theorem setCrField_exc (n : BitVec 3) (v : BitVec 4) (s : State) : (setCrField n v s).exc = s.exc := rfl
@[simp] theorem setCrField_tmr (n : BitVec 3) (v : BitVec 4) (s : State) : (setCrField n v s).tmr = s.tmr := rfl
@[simp] theorem setCrField_mmu (n : BitVec 3) (v : BitVec 4) (s : State) : (setCrField n v s).mmu = s.mmu := rfl
@[simp] theorem setCrField_attr (n : BitVec 3) (v : BitVec 4) (s : State) : (setCrField n v s).attr = s.attr := rfl
@[simp] theorem setCrField_icdbdr (n : BitVec 3) (v : BitVec 4) (s : State) : (setCrField n v s).icdbdr = s.icdbdr := rfl
@[simp] theorem setCrField_icdbdrOpen (n : BitVec 3) (v : BitVec 4) (s : State) : (setCrField n v s).icdbdrOpen = s.icdbdrOpen := rfl
@[simp] theorem setCrField_dbg (n : BitVec 3) (v : BitVec 4) (s : State) : (setCrField n v s).dbg = s.dbg := rfl
@[simp] theorem setCrField_reserve (n : BitVec 3) (v : BitVec 4) (s : State) : (setCrField n v s).reserve = s.reserve := rfl
@[simp] theorem setCrField_sto (n : BitVec 3) (v : BitVec 4) (s : State) : (setCrField n v s).sto = s.sto := rfl
@[simp] theorem setCrField_pipe (n : BitVec 3) (v : BitVec 4) (s : State) : (setCrField n v s).pipe = s.pipe := rfl
@[simp] theorem setCrField_dcr (n : BitVec 3) (v : BitVec 4) (s : State) : (setCrField n v s).dcr = s.dcr := rfl
@[simp] theorem setCrField_inp (n : BitVec 3) (v : BitVec 4) (s : State) : (setCrField n v s).inp = s.inp := rfl
@[simp] theorem setCrField_env (n : BitVec 3) (v : BitVec 4) (s : State) : (setCrField n v s).env = s.env := rfl
@[simp] theorem setCrField_params (n : BitVec 3) (v : BitVec 4) (s : State) : (setCrField n v s).params = s.params := rfl
@[simp] theorem setCrField_free (n : BitVec 3) (v : BitVec 4) (s : State) : (setCrField n v s).free = s.free := rfl

@[simp] theorem recordCr0_gpr (rc : Bool) (v : Word) (s : State) : (recordCr0 rc v s).gpr = s.gpr := by cases rc <;> rfl
@[simp] theorem recordCr0_pc (rc : Bool) (v : Word) (s : State) : (recordCr0 rc v s).pc = s.pc := by cases rc <;> rfl
@[simp] theorem recordCr0_xer (rc : Bool) (v : Word) (s : State) : (recordCr0 rc v s).xer = s.xer := by cases rc <;> rfl
@[simp] theorem recordCr0_lr (rc : Bool) (v : Word) (s : State) : (recordCr0 rc v s).lr = s.lr := by cases rc <;> rfl
@[simp] theorem recordCr0_ctr (rc : Bool) (v : Word) (s : State) : (recordCr0 rc v s).ctr = s.ctr := by cases rc <;> rfl
@[simp] theorem recordCr0_msr (rc : Bool) (v : Word) (s : State) : (recordCr0 rc v s).msr = s.msr := by cases rc <;> rfl
@[simp] theorem recordCr0_usprg0 (rc : Bool) (v : Word) (s : State) : (recordCr0 rc v s).usprg0 = s.usprg0 := by cases rc <;> rfl
@[simp] theorem recordCr0_sprg (rc : Bool) (v : Word) (s : State) : (recordCr0 rc v s).sprg = s.sprg := by cases rc <;> rfl
@[simp] theorem recordCr0_exc (rc : Bool) (v : Word) (s : State) : (recordCr0 rc v s).exc = s.exc := by cases rc <;> rfl
@[simp] theorem recordCr0_tmr (rc : Bool) (v : Word) (s : State) : (recordCr0 rc v s).tmr = s.tmr := by cases rc <;> rfl
@[simp] theorem recordCr0_mmu (rc : Bool) (v : Word) (s : State) : (recordCr0 rc v s).mmu = s.mmu := by cases rc <;> rfl
@[simp] theorem recordCr0_attr (rc : Bool) (v : Word) (s : State) : (recordCr0 rc v s).attr = s.attr := by cases rc <;> rfl
@[simp] theorem recordCr0_icdbdr (rc : Bool) (v : Word) (s : State) : (recordCr0 rc v s).icdbdr = s.icdbdr := by cases rc <;> rfl
@[simp] theorem recordCr0_icdbdrOpen (rc : Bool) (v : Word) (s : State) : (recordCr0 rc v s).icdbdrOpen = s.icdbdrOpen := by cases rc <;> rfl
@[simp] theorem recordCr0_dbg (rc : Bool) (v : Word) (s : State) : (recordCr0 rc v s).dbg = s.dbg := by cases rc <;> rfl
@[simp] theorem recordCr0_reserve (rc : Bool) (v : Word) (s : State) : (recordCr0 rc v s).reserve = s.reserve := by cases rc <;> rfl
@[simp] theorem recordCr0_sto (rc : Bool) (v : Word) (s : State) : (recordCr0 rc v s).sto = s.sto := by cases rc <;> rfl
@[simp] theorem recordCr0_pipe (rc : Bool) (v : Word) (s : State) : (recordCr0 rc v s).pipe = s.pipe := by cases rc <;> rfl
@[simp] theorem recordCr0_dcr (rc : Bool) (v : Word) (s : State) : (recordCr0 rc v s).dcr = s.dcr := by cases rc <;> rfl
@[simp] theorem recordCr0_inp (rc : Bool) (v : Word) (s : State) : (recordCr0 rc v s).inp = s.inp := by cases rc <;> rfl
@[simp] theorem recordCr0_env (rc : Bool) (v : Word) (s : State) : (recordCr0 rc v s).env = s.env := by cases rc <;> rfl
@[simp] theorem recordCr0_params (rc : Bool) (v : Word) (s : State) : (recordCr0 rc v s).params = s.params := by cases rc <;> rfl
@[simp] theorem recordCr0_free (rc : Bool) (v : Word) (s : State) : (recordCr0 rc v s).free = s.free := by cases rc <;> rfl

@[simp] theorem recordCr0Free_gpr (rc : Bool) (v : Word) (s : State) : (recordCr0Free rc v s).gpr = s.gpr := by cases rc <;> rfl
@[simp] theorem recordCr0Free_pc (rc : Bool) (v : Word) (s : State) : (recordCr0Free rc v s).pc = s.pc := by cases rc <;> rfl
@[simp] theorem recordCr0Free_xer (rc : Bool) (v : Word) (s : State) : (recordCr0Free rc v s).xer = s.xer := by cases rc <;> rfl
@[simp] theorem recordCr0Free_lr (rc : Bool) (v : Word) (s : State) : (recordCr0Free rc v s).lr = s.lr := by cases rc <;> rfl
@[simp] theorem recordCr0Free_ctr (rc : Bool) (v : Word) (s : State) : (recordCr0Free rc v s).ctr = s.ctr := by cases rc <;> rfl
@[simp] theorem recordCr0Free_msr (rc : Bool) (v : Word) (s : State) : (recordCr0Free rc v s).msr = s.msr := by cases rc <;> rfl
@[simp] theorem recordCr0Free_usprg0 (rc : Bool) (v : Word) (s : State) : (recordCr0Free rc v s).usprg0 = s.usprg0 := by cases rc <;> rfl
@[simp] theorem recordCr0Free_sprg (rc : Bool) (v : Word) (s : State) : (recordCr0Free rc v s).sprg = s.sprg := by cases rc <;> rfl
@[simp] theorem recordCr0Free_exc (rc : Bool) (v : Word) (s : State) : (recordCr0Free rc v s).exc = s.exc := by cases rc <;> rfl
@[simp] theorem recordCr0Free_tmr (rc : Bool) (v : Word) (s : State) : (recordCr0Free rc v s).tmr = s.tmr := by cases rc <;> rfl
@[simp] theorem recordCr0Free_mmu (rc : Bool) (v : Word) (s : State) : (recordCr0Free rc v s).mmu = s.mmu := by cases rc <;> rfl
@[simp] theorem recordCr0Free_attr (rc : Bool) (v : Word) (s : State) : (recordCr0Free rc v s).attr = s.attr := by cases rc <;> rfl
@[simp] theorem recordCr0Free_icdbdr (rc : Bool) (v : Word) (s : State) : (recordCr0Free rc v s).icdbdr = s.icdbdr := by cases rc <;> rfl
@[simp] theorem recordCr0Free_icdbdrOpen (rc : Bool) (v : Word) (s : State) : (recordCr0Free rc v s).icdbdrOpen = s.icdbdrOpen := by cases rc <;> rfl
@[simp] theorem recordCr0Free_dbg (rc : Bool) (v : Word) (s : State) : (recordCr0Free rc v s).dbg = s.dbg := by cases rc <;> rfl
@[simp] theorem recordCr0Free_reserve (rc : Bool) (v : Word) (s : State) : (recordCr0Free rc v s).reserve = s.reserve := by cases rc <;> rfl
@[simp] theorem recordCr0Free_sto (rc : Bool) (v : Word) (s : State) : (recordCr0Free rc v s).sto = s.sto := by cases rc <;> rfl
@[simp] theorem recordCr0Free_pipe (rc : Bool) (v : Word) (s : State) : (recordCr0Free rc v s).pipe = s.pipe := by cases rc <;> rfl
@[simp] theorem recordCr0Free_dcr (rc : Bool) (v : Word) (s : State) : (recordCr0Free rc v s).dcr = s.dcr := by cases rc <;> rfl
@[simp] theorem recordCr0Free_inp (rc : Bool) (v : Word) (s : State) : (recordCr0Free rc v s).inp = s.inp := by cases rc <;> rfl
@[simp] theorem recordCr0Free_env (rc : Bool) (v : Word) (s : State) : (recordCr0Free rc v s).env = s.env := by cases rc <;> rfl
@[simp] theorem recordCr0Free_params (rc : Bool) (v : Word) (s : State) : (recordCr0Free rc v s).params = s.params := by cases rc <;> rfl
@[simp] theorem recordCr0Free_free (rc : Bool) (v : Word) (s : State) : (recordCr0Free rc v s).free = s.free := by cases rc <;> rfl

@[simp] theorem setCrBit_gpr (n : BitVec 5) (b : Bool) (s : State) : (setCrBit n b s).gpr = s.gpr := rfl
@[simp] theorem setCrBit_pc (n : BitVec 5) (b : Bool) (s : State) : (setCrBit n b s).pc = s.pc := rfl
@[simp] theorem setCrBit_xer (n : BitVec 5) (b : Bool) (s : State) : (setCrBit n b s).xer = s.xer := rfl
@[simp] theorem setCrBit_lr (n : BitVec 5) (b : Bool) (s : State) : (setCrBit n b s).lr = s.lr := rfl
@[simp] theorem setCrBit_ctr (n : BitVec 5) (b : Bool) (s : State) : (setCrBit n b s).ctr = s.ctr := rfl
@[simp] theorem setCrBit_msr (n : BitVec 5) (b : Bool) (s : State) : (setCrBit n b s).msr = s.msr := rfl
@[simp] theorem setCrBit_usprg0 (n : BitVec 5) (b : Bool) (s : State) : (setCrBit n b s).usprg0 = s.usprg0 := rfl
@[simp] theorem setCrBit_sprg (n : BitVec 5) (b : Bool) (s : State) : (setCrBit n b s).sprg = s.sprg := rfl
@[simp] theorem setCrBit_exc (n : BitVec 5) (b : Bool) (s : State) : (setCrBit n b s).exc = s.exc := rfl
@[simp] theorem setCrBit_tmr (n : BitVec 5) (b : Bool) (s : State) : (setCrBit n b s).tmr = s.tmr := rfl
@[simp] theorem setCrBit_mmu (n : BitVec 5) (b : Bool) (s : State) : (setCrBit n b s).mmu = s.mmu := rfl
@[simp] theorem setCrBit_attr (n : BitVec 5) (b : Bool) (s : State) : (setCrBit n b s).attr = s.attr := rfl
@[simp] theorem setCrBit_icdbdr (n : BitVec 5) (b : Bool) (s : State) : (setCrBit n b s).icdbdr = s.icdbdr := rfl
@[simp] theorem setCrBit_icdbdrOpen (n : BitVec 5) (b : Bool) (s : State) : (setCrBit n b s).icdbdrOpen = s.icdbdrOpen := rfl
@[simp] theorem setCrBit_dbg (n : BitVec 5) (b : Bool) (s : State) : (setCrBit n b s).dbg = s.dbg := rfl
@[simp] theorem setCrBit_reserve (n : BitVec 5) (b : Bool) (s : State) : (setCrBit n b s).reserve = s.reserve := rfl
@[simp] theorem setCrBit_sto (n : BitVec 5) (b : Bool) (s : State) : (setCrBit n b s).sto = s.sto := rfl
@[simp] theorem setCrBit_pipe (n : BitVec 5) (b : Bool) (s : State) : (setCrBit n b s).pipe = s.pipe := rfl
@[simp] theorem setCrBit_dcr (n : BitVec 5) (b : Bool) (s : State) : (setCrBit n b s).dcr = s.dcr := rfl
@[simp] theorem setCrBit_inp (n : BitVec 5) (b : Bool) (s : State) : (setCrBit n b s).inp = s.inp := rfl
@[simp] theorem setCrBit_env (n : BitVec 5) (b : Bool) (s : State) : (setCrBit n b s).env = s.env := rfl
@[simp] theorem setCrBit_params (n : BitVec 5) (b : Bool) (s : State) : (setCrBit n b s).params = s.params := rfl
@[simp] theorem setCrBit_free (n : BitVec 5) (b : Bool) (s : State) : (setCrBit n b s).free = s.free := rfl

@[simp] theorem setEE_gpr (b : Bool) (s : State) : (setEE b s).gpr = s.gpr := rfl
@[simp] theorem setEE_pc (b : Bool) (s : State) : (setEE b s).pc = s.pc := rfl
@[simp] theorem setEE_cr (b : Bool) (s : State) : (setEE b s).cr = s.cr := rfl
@[simp] theorem setEE_xer (b : Bool) (s : State) : (setEE b s).xer = s.xer := rfl
@[simp] theorem setEE_lr (b : Bool) (s : State) : (setEE b s).lr = s.lr := rfl
@[simp] theorem setEE_ctr (b : Bool) (s : State) : (setEE b s).ctr = s.ctr := rfl
@[simp] theorem setEE_usprg0 (b : Bool) (s : State) : (setEE b s).usprg0 = s.usprg0 := rfl
@[simp] theorem setEE_sprg (b : Bool) (s : State) : (setEE b s).sprg = s.sprg := rfl
@[simp] theorem setEE_exc (b : Bool) (s : State) : (setEE b s).exc = s.exc := rfl
@[simp] theorem setEE_tmr (b : Bool) (s : State) : (setEE b s).tmr = s.tmr := rfl
@[simp] theorem setEE_mmu (b : Bool) (s : State) : (setEE b s).mmu = s.mmu := rfl
@[simp] theorem setEE_attr (b : Bool) (s : State) : (setEE b s).attr = s.attr := rfl
@[simp] theorem setEE_icdbdr (b : Bool) (s : State) : (setEE b s).icdbdr = s.icdbdr := rfl
@[simp] theorem setEE_icdbdrOpen (b : Bool) (s : State) : (setEE b s).icdbdrOpen = s.icdbdrOpen := rfl
@[simp] theorem setEE_dbg (b : Bool) (s : State) : (setEE b s).dbg = s.dbg := rfl
@[simp] theorem setEE_reserve (b : Bool) (s : State) : (setEE b s).reserve = s.reserve := rfl
@[simp] theorem setEE_sto (b : Bool) (s : State) : (setEE b s).sto = s.sto := rfl
@[simp] theorem setEE_pipe (b : Bool) (s : State) : (setEE b s).pipe = s.pipe := rfl
@[simp] theorem setEE_dcr (b : Bool) (s : State) : (setEE b s).dcr = s.dcr := rfl
@[simp] theorem setEE_inp (b : Bool) (s : State) : (setEE b s).inp = s.inp := rfl
@[simp] theorem setEE_env (b : Bool) (s : State) : (setEE b s).env = s.env := rfl
@[simp] theorem setEE_params (b : Bool) (s : State) : (setEE b s).params = s.params := rfl
@[simp] theorem setEE_free (b : Bool) (s : State) : (setEE b s).free = s.free := rfl

@[simp] theorem setTlbEntry_gpr (n : BitVec 6) (e : TlbEntry) (s : State) : (setTlbEntry n e s).gpr = s.gpr := rfl
@[simp] theorem setTlbEntry_pc (n : BitVec 6) (e : TlbEntry) (s : State) : (setTlbEntry n e s).pc = s.pc := rfl
@[simp] theorem setTlbEntry_cr (n : BitVec 6) (e : TlbEntry) (s : State) : (setTlbEntry n e s).cr = s.cr := rfl
@[simp] theorem setTlbEntry_xer (n : BitVec 6) (e : TlbEntry) (s : State) : (setTlbEntry n e s).xer = s.xer := rfl
@[simp] theorem setTlbEntry_lr (n : BitVec 6) (e : TlbEntry) (s : State) : (setTlbEntry n e s).lr = s.lr := rfl
@[simp] theorem setTlbEntry_ctr (n : BitVec 6) (e : TlbEntry) (s : State) : (setTlbEntry n e s).ctr = s.ctr := rfl
@[simp] theorem setTlbEntry_msr (n : BitVec 6) (e : TlbEntry) (s : State) : (setTlbEntry n e s).msr = s.msr := rfl
@[simp] theorem setTlbEntry_usprg0 (n : BitVec 6) (e : TlbEntry) (s : State) : (setTlbEntry n e s).usprg0 = s.usprg0 := rfl
@[simp] theorem setTlbEntry_sprg (n : BitVec 6) (e : TlbEntry) (s : State) : (setTlbEntry n e s).sprg = s.sprg := rfl
@[simp] theorem setTlbEntry_exc (n : BitVec 6) (e : TlbEntry) (s : State) : (setTlbEntry n e s).exc = s.exc := rfl
@[simp] theorem setTlbEntry_tmr (n : BitVec 6) (e : TlbEntry) (s : State) : (setTlbEntry n e s).tmr = s.tmr := rfl
@[simp] theorem setTlbEntry_attr (n : BitVec 6) (e : TlbEntry) (s : State) : (setTlbEntry n e s).attr = s.attr := rfl
@[simp] theorem setTlbEntry_icdbdr (n : BitVec 6) (e : TlbEntry) (s : State) : (setTlbEntry n e s).icdbdr = s.icdbdr := rfl
@[simp] theorem setTlbEntry_icdbdrOpen (n : BitVec 6) (e : TlbEntry) (s : State) : (setTlbEntry n e s).icdbdrOpen = s.icdbdrOpen := rfl
@[simp] theorem setTlbEntry_dbg (n : BitVec 6) (e : TlbEntry) (s : State) : (setTlbEntry n e s).dbg = s.dbg := rfl
@[simp] theorem setTlbEntry_reserve (n : BitVec 6) (e : TlbEntry) (s : State) : (setTlbEntry n e s).reserve = s.reserve := rfl
@[simp] theorem setTlbEntry_sto (n : BitVec 6) (e : TlbEntry) (s : State) : (setTlbEntry n e s).sto = s.sto := rfl
@[simp] theorem setTlbEntry_pipe (n : BitVec 6) (e : TlbEntry) (s : State) : (setTlbEntry n e s).pipe = s.pipe := rfl
@[simp] theorem setTlbEntry_dcr (n : BitVec 6) (e : TlbEntry) (s : State) : (setTlbEntry n e s).dcr = s.dcr := rfl
@[simp] theorem setTlbEntry_inp (n : BitVec 6) (e : TlbEntry) (s : State) : (setTlbEntry n e s).inp = s.inp := rfl
@[simp] theorem setTlbEntry_env (n : BitVec 6) (e : TlbEntry) (s : State) : (setTlbEntry n e s).env = s.env := rfl
@[simp] theorem setTlbEntry_params (n : BitVec 6) (e : TlbEntry) (s : State) : (setTlbEntry n e s).params = s.params := rfl
@[simp] theorem setTlbEntry_free (n : BitVec 6) (e : TlbEntry) (s : State) : (setTlbEntry n e s).free = s.free := rfl

@[simp] theorem setTsrBits_gpr (v : Word) (s : State) : (setTsrBits v s).gpr = s.gpr := rfl
@[simp] theorem setTsrBits_pc (v : Word) (s : State) : (setTsrBits v s).pc = s.pc := rfl
@[simp] theorem setTsrBits_cr (v : Word) (s : State) : (setTsrBits v s).cr = s.cr := rfl
@[simp] theorem setTsrBits_xer (v : Word) (s : State) : (setTsrBits v s).xer = s.xer := rfl
@[simp] theorem setTsrBits_lr (v : Word) (s : State) : (setTsrBits v s).lr = s.lr := rfl
@[simp] theorem setTsrBits_ctr (v : Word) (s : State) : (setTsrBits v s).ctr = s.ctr := rfl
@[simp] theorem setTsrBits_msr (v : Word) (s : State) : (setTsrBits v s).msr = s.msr := rfl
@[simp] theorem setTsrBits_usprg0 (v : Word) (s : State) : (setTsrBits v s).usprg0 = s.usprg0 := rfl
@[simp] theorem setTsrBits_sprg (v : Word) (s : State) : (setTsrBits v s).sprg = s.sprg := rfl
@[simp] theorem setTsrBits_exc (v : Word) (s : State) : (setTsrBits v s).exc = s.exc := rfl
@[simp] theorem setTsrBits_mmu (v : Word) (s : State) : (setTsrBits v s).mmu = s.mmu := rfl
@[simp] theorem setTsrBits_attr (v : Word) (s : State) : (setTsrBits v s).attr = s.attr := rfl
@[simp] theorem setTsrBits_icdbdr (v : Word) (s : State) : (setTsrBits v s).icdbdr = s.icdbdr := rfl
@[simp] theorem setTsrBits_icdbdrOpen (v : Word) (s : State) : (setTsrBits v s).icdbdrOpen = s.icdbdrOpen := rfl
@[simp] theorem setTsrBits_dbg (v : Word) (s : State) : (setTsrBits v s).dbg = s.dbg := rfl
@[simp] theorem setTsrBits_reserve (v : Word) (s : State) : (setTsrBits v s).reserve = s.reserve := rfl
@[simp] theorem setTsrBits_sto (v : Word) (s : State) : (setTsrBits v s).sto = s.sto := rfl
@[simp] theorem setTsrBits_pipe (v : Word) (s : State) : (setTsrBits v s).pipe = s.pipe := rfl
@[simp] theorem setTsrBits_dcr (v : Word) (s : State) : (setTsrBits v s).dcr = s.dcr := rfl
@[simp] theorem setTsrBits_inp (v : Word) (s : State) : (setTsrBits v s).inp = s.inp := rfl
@[simp] theorem setTsrBits_env (v : Word) (s : State) : (setTsrBits v s).env = s.env := rfl
@[simp] theorem setTsrBits_params (v : Word) (s : State) : (setTsrBits v s).params = s.params := rfl
@[simp] theorem setTsrBits_free (v : Word) (s : State) : (setTsrBits v s).free = s.free := rfl

@[simp] theorem undefinedCr0_gpr (x : Bool) (s : State) : (undefinedCr0 x s).gpr = s.gpr := by cases x <;> rfl
@[simp] theorem undefinedCr0_pc (x : Bool) (s : State) : (undefinedCr0 x s).pc = s.pc := by cases x <;> rfl
@[simp] theorem undefinedCr0_xer (x : Bool) (s : State) : (undefinedCr0 x s).xer = s.xer := by cases x <;> rfl
@[simp] theorem undefinedCr0_lr (x : Bool) (s : State) : (undefinedCr0 x s).lr = s.lr := by cases x <;> rfl
@[simp] theorem undefinedCr0_ctr (x : Bool) (s : State) : (undefinedCr0 x s).ctr = s.ctr := by cases x <;> rfl
@[simp] theorem undefinedCr0_msr (x : Bool) (s : State) : (undefinedCr0 x s).msr = s.msr := by cases x <;> rfl
@[simp] theorem undefinedCr0_usprg0 (x : Bool) (s : State) : (undefinedCr0 x s).usprg0 = s.usprg0 := by cases x <;> rfl
@[simp] theorem undefinedCr0_sprg (x : Bool) (s : State) : (undefinedCr0 x s).sprg = s.sprg := by cases x <;> rfl
@[simp] theorem undefinedCr0_exc (x : Bool) (s : State) : (undefinedCr0 x s).exc = s.exc := by cases x <;> rfl
@[simp] theorem undefinedCr0_tmr (x : Bool) (s : State) : (undefinedCr0 x s).tmr = s.tmr := by cases x <;> rfl
@[simp] theorem undefinedCr0_mmu (x : Bool) (s : State) : (undefinedCr0 x s).mmu = s.mmu := by cases x <;> rfl
@[simp] theorem undefinedCr0_attr (x : Bool) (s : State) : (undefinedCr0 x s).attr = s.attr := by cases x <;> rfl
@[simp] theorem undefinedCr0_icdbdr (x : Bool) (s : State) : (undefinedCr0 x s).icdbdr = s.icdbdr := by cases x <;> rfl
@[simp] theorem undefinedCr0_icdbdrOpen (x : Bool) (s : State) : (undefinedCr0 x s).icdbdrOpen = s.icdbdrOpen := by cases x <;> rfl
@[simp] theorem undefinedCr0_dbg (x : Bool) (s : State) : (undefinedCr0 x s).dbg = s.dbg := by cases x <;> rfl
@[simp] theorem undefinedCr0_reserve (x : Bool) (s : State) : (undefinedCr0 x s).reserve = s.reserve := by cases x <;> rfl
@[simp] theorem undefinedCr0_sto (x : Bool) (s : State) : (undefinedCr0 x s).sto = s.sto := by cases x <;> rfl
@[simp] theorem undefinedCr0_pipe (x : Bool) (s : State) : (undefinedCr0 x s).pipe = s.pipe := by cases x <;> rfl
@[simp] theorem undefinedCr0_dcr (x : Bool) (s : State) : (undefinedCr0 x s).dcr = s.dcr := by cases x <;> rfl
@[simp] theorem undefinedCr0_inp (x : Bool) (s : State) : (undefinedCr0 x s).inp = s.inp := by cases x <;> rfl
@[simp] theorem undefinedCr0_env (x : Bool) (s : State) : (undefinedCr0 x s).env = s.env := by cases x <;> rfl
@[simp] theorem undefinedCr0_params (x : Bool) (s : State) : (undefinedCr0 x s).params = s.params := by cases x <;> rfl

@[simp] theorem deliver_pc (rt : Reg) (v : Word) (ca : Option Bool) (ov oe rc : Bool) (s : State) : (deliver rt v ca ov oe rc s).pc = s.pc := by cases ca <;> cases oe <;> cases rc <;> rfl
@[simp] theorem deliver_lr (rt : Reg) (v : Word) (ca : Option Bool) (ov oe rc : Bool) (s : State) : (deliver rt v ca ov oe rc s).lr = s.lr := by cases ca <;> cases oe <;> cases rc <;> rfl
@[simp] theorem deliver_ctr (rt : Reg) (v : Word) (ca : Option Bool) (ov oe rc : Bool) (s : State) : (deliver rt v ca ov oe rc s).ctr = s.ctr := by cases ca <;> cases oe <;> cases rc <;> rfl
@[simp] theorem deliver_msr (rt : Reg) (v : Word) (ca : Option Bool) (ov oe rc : Bool) (s : State) : (deliver rt v ca ov oe rc s).msr = s.msr := by cases ca <;> cases oe <;> cases rc <;> rfl
@[simp] theorem deliver_usprg0 (rt : Reg) (v : Word) (ca : Option Bool) (ov oe rc : Bool) (s : State) : (deliver rt v ca ov oe rc s).usprg0 = s.usprg0 := by cases ca <;> cases oe <;> cases rc <;> rfl
@[simp] theorem deliver_sprg (rt : Reg) (v : Word) (ca : Option Bool) (ov oe rc : Bool) (s : State) : (deliver rt v ca ov oe rc s).sprg = s.sprg := by cases ca <;> cases oe <;> cases rc <;> rfl
@[simp] theorem deliver_exc (rt : Reg) (v : Word) (ca : Option Bool) (ov oe rc : Bool) (s : State) : (deliver rt v ca ov oe rc s).exc = s.exc := by cases ca <;> cases oe <;> cases rc <;> rfl
@[simp] theorem deliver_tmr (rt : Reg) (v : Word) (ca : Option Bool) (ov oe rc : Bool) (s : State) : (deliver rt v ca ov oe rc s).tmr = s.tmr := by cases ca <;> cases oe <;> cases rc <;> rfl
@[simp] theorem deliver_mmu (rt : Reg) (v : Word) (ca : Option Bool) (ov oe rc : Bool) (s : State) : (deliver rt v ca ov oe rc s).mmu = s.mmu := by cases ca <;> cases oe <;> cases rc <;> rfl
@[simp] theorem deliver_attr (rt : Reg) (v : Word) (ca : Option Bool) (ov oe rc : Bool) (s : State) : (deliver rt v ca ov oe rc s).attr = s.attr := by cases ca <;> cases oe <;> cases rc <;> rfl
@[simp] theorem deliver_icdbdr (rt : Reg) (v : Word) (ca : Option Bool) (ov oe rc : Bool) (s : State) : (deliver rt v ca ov oe rc s).icdbdr = s.icdbdr := by cases ca <;> cases oe <;> cases rc <;> rfl
@[simp] theorem deliver_icdbdrOpen (rt : Reg) (v : Word) (ca : Option Bool) (ov oe rc : Bool) (s : State) : (deliver rt v ca ov oe rc s).icdbdrOpen = s.icdbdrOpen := by cases ca <;> cases oe <;> cases rc <;> rfl
@[simp] theorem deliver_dbg (rt : Reg) (v : Word) (ca : Option Bool) (ov oe rc : Bool) (s : State) : (deliver rt v ca ov oe rc s).dbg = s.dbg := by cases ca <;> cases oe <;> cases rc <;> rfl
@[simp] theorem deliver_reserve (rt : Reg) (v : Word) (ca : Option Bool) (ov oe rc : Bool) (s : State) : (deliver rt v ca ov oe rc s).reserve = s.reserve := by cases ca <;> cases oe <;> cases rc <;> rfl
@[simp] theorem deliver_sto (rt : Reg) (v : Word) (ca : Option Bool) (ov oe rc : Bool) (s : State) : (deliver rt v ca ov oe rc s).sto = s.sto := by cases ca <;> cases oe <;> cases rc <;> rfl
@[simp] theorem deliver_pipe (rt : Reg) (v : Word) (ca : Option Bool) (ov oe rc : Bool) (s : State) : (deliver rt v ca ov oe rc s).pipe = s.pipe := by cases ca <;> cases oe <;> cases rc <;> rfl
@[simp] theorem deliver_dcr (rt : Reg) (v : Word) (ca : Option Bool) (ov oe rc : Bool) (s : State) : (deliver rt v ca ov oe rc s).dcr = s.dcr := by cases ca <;> cases oe <;> cases rc <;> rfl
@[simp] theorem deliver_inp (rt : Reg) (v : Word) (ca : Option Bool) (ov oe rc : Bool) (s : State) : (deliver rt v ca ov oe rc s).inp = s.inp := by cases ca <;> cases oe <;> cases rc <;> rfl
@[simp] theorem deliver_env (rt : Reg) (v : Word) (ca : Option Bool) (ov oe rc : Bool) (s : State) : (deliver rt v ca ov oe rc s).env = s.env := by cases ca <;> cases oe <;> cases rc <;> rfl
@[simp] theorem deliver_params (rt : Reg) (v : Word) (ca : Option Bool) (ov oe rc : Bool) (s : State) : (deliver rt v ca ov oe rc s).params = s.params := by cases ca <;> cases oe <;> cases rc <;> rfl
@[simp] theorem deliver_free (rt : Reg) (v : Word) (ca : Option Bool) (ov oe rc : Bool) (s : State) : (deliver rt v ca ov oe rc s).free = s.free := by cases ca <;> cases oe <;> cases rc <;> rfl

@[simp] theorem deliverRa_pc (ra : Reg) (v : Word) (rc : Bool) (s : State) : (deliverRa ra v rc s).pc = s.pc := by cases rc <;> rfl
@[simp] theorem deliverRa_xer (ra : Reg) (v : Word) (rc : Bool) (s : State) : (deliverRa ra v rc s).xer = s.xer := by cases rc <;> rfl
@[simp] theorem deliverRa_lr (ra : Reg) (v : Word) (rc : Bool) (s : State) : (deliverRa ra v rc s).lr = s.lr := by cases rc <;> rfl
@[simp] theorem deliverRa_ctr (ra : Reg) (v : Word) (rc : Bool) (s : State) : (deliverRa ra v rc s).ctr = s.ctr := by cases rc <;> rfl
@[simp] theorem deliverRa_msr (ra : Reg) (v : Word) (rc : Bool) (s : State) : (deliverRa ra v rc s).msr = s.msr := by cases rc <;> rfl
@[simp] theorem deliverRa_usprg0 (ra : Reg) (v : Word) (rc : Bool) (s : State) : (deliverRa ra v rc s).usprg0 = s.usprg0 := by cases rc <;> rfl
@[simp] theorem deliverRa_sprg (ra : Reg) (v : Word) (rc : Bool) (s : State) : (deliverRa ra v rc s).sprg = s.sprg := by cases rc <;> rfl
@[simp] theorem deliverRa_exc (ra : Reg) (v : Word) (rc : Bool) (s : State) : (deliverRa ra v rc s).exc = s.exc := by cases rc <;> rfl
@[simp] theorem deliverRa_tmr (ra : Reg) (v : Word) (rc : Bool) (s : State) : (deliverRa ra v rc s).tmr = s.tmr := by cases rc <;> rfl
@[simp] theorem deliverRa_mmu (ra : Reg) (v : Word) (rc : Bool) (s : State) : (deliverRa ra v rc s).mmu = s.mmu := by cases rc <;> rfl
@[simp] theorem deliverRa_attr (ra : Reg) (v : Word) (rc : Bool) (s : State) : (deliverRa ra v rc s).attr = s.attr := by cases rc <;> rfl
@[simp] theorem deliverRa_icdbdr (ra : Reg) (v : Word) (rc : Bool) (s : State) : (deliverRa ra v rc s).icdbdr = s.icdbdr := by cases rc <;> rfl
@[simp] theorem deliverRa_icdbdrOpen (ra : Reg) (v : Word) (rc : Bool) (s : State) : (deliverRa ra v rc s).icdbdrOpen = s.icdbdrOpen := by cases rc <;> rfl
@[simp] theorem deliverRa_dbg (ra : Reg) (v : Word) (rc : Bool) (s : State) : (deliverRa ra v rc s).dbg = s.dbg := by cases rc <;> rfl
@[simp] theorem deliverRa_reserve (ra : Reg) (v : Word) (rc : Bool) (s : State) : (deliverRa ra v rc s).reserve = s.reserve := by cases rc <;> rfl
@[simp] theorem deliverRa_sto (ra : Reg) (v : Word) (rc : Bool) (s : State) : (deliverRa ra v rc s).sto = s.sto := by cases rc <;> rfl
@[simp] theorem deliverRa_pipe (ra : Reg) (v : Word) (rc : Bool) (s : State) : (deliverRa ra v rc s).pipe = s.pipe := by cases rc <;> rfl
@[simp] theorem deliverRa_dcr (ra : Reg) (v : Word) (rc : Bool) (s : State) : (deliverRa ra v rc s).dcr = s.dcr := by cases rc <;> rfl
@[simp] theorem deliverRa_inp (ra : Reg) (v : Word) (rc : Bool) (s : State) : (deliverRa ra v rc s).inp = s.inp := by cases rc <;> rfl
@[simp] theorem deliverRa_env (ra : Reg) (v : Word) (rc : Bool) (s : State) : (deliverRa ra v rc s).env = s.env := by cases rc <;> rfl
@[simp] theorem deliverRa_params (ra : Reg) (v : Word) (rc : Bool) (s : State) : (deliverRa ra v rc s).params = s.params := by cases rc <;> rfl
@[simp] theorem deliverRa_free (ra : Reg) (v : Word) (rc : Bool) (s : State) : (deliverRa ra v rc s).free = s.free := by cases rc <;> rfl

@[simp] theorem enter_gpr (c : IntClass) (off a : Word) (s : State) : (enter c off a s).gpr = s.gpr := by cases c <;> rfl
@[simp] theorem enter_cr (c : IntClass) (off a : Word) (s : State) : (enter c off a s).cr = s.cr := by cases c <;> rfl
@[simp] theorem enter_xer (c : IntClass) (off a : Word) (s : State) : (enter c off a s).xer = s.xer := by cases c <;> rfl
@[simp] theorem enter_lr (c : IntClass) (off a : Word) (s : State) : (enter c off a s).lr = s.lr := by cases c <;> rfl
@[simp] theorem enter_ctr (c : IntClass) (off a : Word) (s : State) : (enter c off a s).ctr = s.ctr := by cases c <;> rfl
@[simp] theorem enter_usprg0 (c : IntClass) (off a : Word) (s : State) : (enter c off a s).usprg0 = s.usprg0 := by cases c <;> rfl
@[simp] theorem enter_sprg (c : IntClass) (off a : Word) (s : State) : (enter c off a s).sprg = s.sprg := by cases c <;> rfl
@[simp] theorem enter_tmr (c : IntClass) (off a : Word) (s : State) : (enter c off a s).tmr = s.tmr := by cases c <;> rfl
@[simp] theorem enter_mmu (c : IntClass) (off a : Word) (s : State) : (enter c off a s).mmu = s.mmu := by cases c <;> rfl
@[simp] theorem enter_attr (c : IntClass) (off a : Word) (s : State) : (enter c off a s).attr = s.attr := by cases c <;> rfl
@[simp] theorem enter_icdbdr (c : IntClass) (off a : Word) (s : State) : (enter c off a s).icdbdr = s.icdbdr := by cases c <;> rfl
@[simp] theorem enter_icdbdrOpen (c : IntClass) (off a : Word) (s : State) : (enter c off a s).icdbdrOpen = s.icdbdrOpen := by cases c <;> rfl
@[simp] theorem enter_reserve (c : IntClass) (off a : Word) (s : State) : (enter c off a s).reserve = s.reserve := by cases c <;> rfl
@[simp] theorem enter_sto (c : IntClass) (off a : Word) (s : State) : (enter c off a s).sto = s.sto := by cases c <;> rfl
@[simp] theorem enter_dcr (c : IntClass) (off a : Word) (s : State) : (enter c off a s).dcr = s.dcr := by cases c <;> rfl
@[simp] theorem enter_inp (c : IntClass) (off a : Word) (s : State) : (enter c off a s).inp = s.inp := by cases c <;> rfl
@[simp] theorem enter_env (c : IntClass) (off a : Word) (s : State) : (enter c off a s).env = s.env := by cases c <;> rfl
@[simp] theorem enter_params (c : IntClass) (off a : Word) (s : State) : (enter c off a s).params = s.params := by cases c <;> rfl
@[simp] theorem enter_free (c : IntClass) (off a : Word) (s : State) : (enter c off a s).free = s.free := by cases c <;> rfl

@[simp] theorem drawn_free (n : Nat) (s : State) : (drawn n s).free = s.free + n := rfl
@[simp] theorem enter_pipe (c : IntClass) (off a : Word) (s : State) : (enter c off a s).pipe = Pipe.empty := rfl
@[simp] theorem synchronizeContext_pipe (s : State) : (synchronizeContext s).pipe = Pipe.empty := rfl
@[simp] theorem contextBarrier_pipe (s : State) : (contextBarrier s).pipe = Pipe.empty := rfl
@[simp] theorem contextBarrier_icdbdrOpen (s : State) : (contextBarrier s).icdbdrOpen = false := rfl
@[simp] theorem setEsr_esr (v : Word) (s : State) : (setEsr v s).exc.esr = v := rfl
@[simp] theorem setDear_dear (v : Word) (s : State) : (setDear v s).exc.dear = v := rfl
@[simp] theorem setDear_esr (v : Word) (s : State) : (setDear v s).exc.esr = s.exc.esr := rfl
@[simp] theorem setCrField_cr (n : BitVec 3) (v : BitVec 4) (s : State) : (setCrField n v s).cr = putCrField s.cr n v := rfl
@[simp] theorem setCA_xer (c : Bool) (s : State) : (setCA c s).xer = setBit s.xer 2 c := rfl
@[simp] theorem setCrBit_cr (n : BitVec 5) (b : Bool) (s : State) : (setCrBit n b s).cr = setBit s.cr n.toNat b := rfl
@[simp] theorem setEE_msr (b : Bool) (s : State) : (setEE b s).msr = setBit s.msr 16 b := rfl
@[simp] theorem enter_pc (c : IntClass) (off a : Word) (s : State) : (enter c off a s).pc = vectorAddress s off := rfl
@[simp] theorem enter_msr (c : IntClass) (off a : Word) (s : State) : (enter c off a s).msr = s.msr &&& c.msrKept := rfl

/-- A register written reads back; every other register is as it was. -/
theorem gpr_setGpr (r q : Reg) (v : Word) (s : State) : gpr (setGpr r v s) q = if r = q then v else gpr s q := by
  simp only [gpr, setGpr, Vector.getElem_set]
  by_cases h : r = q
  · simp [h]
  · have : r.toNat ≠ q.toNat := fun e => h (BitVec.eq_of_toNat_eq e)
    simp [h, this]

@[simp] theorem gpr_setGpr_self (r : Reg) (v : Word) (s : State) : gpr (setGpr r v s) r = v := by simp [gpr_setGpr]

theorem gpr_setGpr_ne {r q : Reg} (h : r ≠ q) (v : Word) (s : State) : gpr (setGpr r v s) q = gpr s q := by
  simp [gpr_setGpr, h]

/-- Registers are read from the register file alone. -/
theorem gpr_congr {s t : State} (h : s.gpr = t.gpr) (r : Reg) : gpr s r = gpr t r := by simp [gpr, h]

end Sys2Proof.Machine
end

