-- ==== Sys2Proof/Laws/Memory.lean ====
section
/-! SUPPORT. Laws of storage: a byte written reads back and leaves every other byte alone, every storage operation keeps
the canonical form, and the address arithmetic of lines. -/

namespace Sys2Proof.Machine

/-! ### Bytes -/

theorem memOk_wf {s : State} (h : memOk s = true) : mapWf memDefault s.sto.mem = true := by
  simp only [memOk, Memory.wf, Bool.and_eq_true] at h
  exact h.1

/-- A byte written reads back; every other byte is as it was. -/
theorem memByte_setMemByte {s : State} (h : memOk s = true) (ra : Word) (b : Byte) (a : Word) :
    memByte (setMemByte ra b s) a = if a = ra then b else memByte s a := by
  simp only [memByte, setMemByte, mapGet_mapSet _ _ _ (memOk_wf h)]
  by_cases hc : a = ra
  · simp [hc]
  · have : a.toNat ≠ ra.toNat := fun e => hc (BitVec.eq_of_toNat_eq e)
    simp [hc, this]

/-- A byte written keeps storage in canonical form. -/
theorem memOk_setMemByte {s : State} (h : memOk s = true) (ra : Word) (b : Byte) : memOk (setMemByte ra b s) = true := by
  have h0 := h
  simp only [memOk, Memory.wf, Bool.and_eq_true] at h ⊢
  refine ⟨mapWf_mapSet _ _ h.1, all_mapSet h.2 ?_⟩
  intro _
  simpa using ra.isLt

theorem memOk_setMemBytes {s : State} (h : memOk s = true) (ra : Word) (bs : List Byte) :
    memOk (setMemBytes ra bs s) = true := by
  induction bs generalizing s ra with
  | nil => exact h
  | cons b bs ih => exact ih (memOk_setMemByte h ra b) (ra + 1)

/-- Bytes written from an address on: what every address reads as afterwards. -/
theorem memByte_setMemBytes {s : State} (h : memOk s = true) (ra : Word) (bs : List Byte) (a : Word) :
    memByte (setMemBytes ra bs s) a = storeView (memByte s) ra bs a := by
  induction bs generalizing s ra with
  | nil => rfl
  | cons b bs ih =>
    rw [setMemBytes, ih (memOk_setMemByte h ra b) (ra + 1), storeView]
    congr 1
    funext x
    exact memByte_setMemByte h ra b x

/-- Writing bytes changes the bytes of storage and nothing else. -/
theorem setMemBytes_eq (ra : Word) (bs : List Byte) (s : State) :
    setMemBytes ra bs s = { s with sto := { s.sto with mem := (setMemBytes ra bs s).sto.mem } } := by
  induction bs generalizing s ra with
  | nil => rfl
  | cons b bs ih =>
    rw [setMemBytes, ih]
    rfl

/-- An address reads as the byte stored there, if one is. -/
theorem storeView_eq (m : Word → Byte) (ra : Word) (bs : List Byte) (a : Word) (hlen : bs.length ≤ 2 ^ 32) :
    storeView m ra bs a = if h : (a - ra).toNat < bs.length then bs[(a - ra).toNat] else m a := by
  induction bs generalizing m ra with
  | nil => simp [storeView]
  | cons b bs ih =>
    simp only [List.length_cons] at hlen
    rw [storeView, ih _ _ (by omega)]
    have hsub : a - (ra + 1#32) = a - ra - 1#32 := by bv_omega
    by_cases h0 : a = ra
    · subst h0
      have h1 : ¬ (a - (a + 1#32)).toNat < bs.length := by
        have : (a - (a + 1#32)).toNat = 2 ^ 32 - 1 := by
          rw [hsub]; simp
        omega
      rw [dif_neg h1, if_pos rfl, dif_pos (by simp)]
      simp
    · have hk : (a - (ra + 1#32)).toNat = (a - ra).toNat - 1 := by
        have h2 : a - ra ≠ 0#32 := fun e => h0 (by bv_omega)
        rw [hsub]
        bv_omega
      have hk0 : (a - ra).toNat ≠ 0 := by
        intro e
        apply h0
        bv_omega
      by_cases h1 : (a - ra).toNat < bs.length + 1
      · have h2 : (a - (ra + 1#32)).toNat < bs.length := by omega
        have h3 : (a - ra).toNat < (b :: bs).length := by simpa using h1
        rw [dif_pos h2, dif_pos h3]
        simp only [hk]
        rw [List.getElem_cons, dif_neg hk0]
      · have h2 : ¬ (a - (ra + 1#32)).toNat < bs.length := by omega
        have h3 : ¬ (a - ra).toNat < (b :: bs).length := by simpa using h1
        rw [dif_neg h2, dif_neg h3]
        simp [h0]

/-! ### Lines -/

theorem lineOf_toNat (a : Word) : (lineOf a).toNat = a.toNat / 32 := by
  simp only [lineOf, BitVec.extractLsb'_toNat, Nat.shiftRight_eq_div_pow]
  have := a.isLt
  omega

theorem lineOffset_toNat (a : Word) : (lineOffset a).toNat = a.toNat % 32 := by
  simp [lineOffset]

theorem lineBase_toNat (l : BitVec 27) : (lineBase l).toNat = 32 * l.toNat := by
  simp only [lineBase, BitVec.toNat_append]
  simp [Nat.shiftLeft_eq]
  omega

theorem lineOf_eq_iff (a b : Word) : lineOf a = lineOf b ↔ a.toNat / 32 = b.toNat / 32 := by
  rw [← lineOf_toNat, ← lineOf_toNat, BitVec.toNat_inj]

/-- An address is in a line exactly when it is less than 32 above its base; the distance is its offset. -/
theorem sub_lineBase_lt (a : Word) (l : BitVec 27) : (a - lineBase l).toNat < 32 ↔ lineOf a = l := by
  rw [← BitVec.toNat_inj, lineOf_toNat, BitVec.toNat_sub, lineBase_toNat]
  have := a.isLt
  have := l.isLt
  omega

theorem sub_lineBase {a : Word} {l : BitVec 27} (h : lineOf a = l) : (a - lineBase l).toNat = (lineOffset a).toNat := by
  rw [← h, lineOffset_toNat, BitVec.toNat_sub, lineBase_toNat, lineOf_toNat]
  have := a.isLt
  omega

theorem lineBase_lineOf (a : Word) : lineOf (lineBase (lineOf a)) = lineOf a := by
  rw [← BitVec.toNat_inj, lineOf_toNat, lineBase_toNat]
  omega

/-- Bytes after an address in its line: the line is the same, the offset counts on. -/
theorem lineOf_add {ra : Word} {n j : Nat} (h : (lineOffset ra).toNat + n ≤ 32) (hj : j < n) :
    lineOf (ra + BitVec.ofNat 32 j) = lineOf ra := by
  rw [← BitVec.toNat_inj, lineOf_toNat, lineOf_toNat]
  rw [lineOffset_toNat] at h
  have := ra.isLt
  simp only [BitVec.toNat_add, BitVec.toNat_ofNat]
  omega

theorem lineOffset_add {ra : Word} {n j : Nat} (h : (lineOffset ra).toNat + n ≤ 32) (hj : j < n) :
    (lineOffset (ra + BitVec.ofNat 32 j)).toNat = (lineOffset ra).toNat + j := by
  rw [lineOffset_toNat, lineOffset_toNat]
  rw [lineOffset_toNat] at h
  have := ra.isLt
  simp only [BitVec.toNat_add, BitVec.toNat_ofNat]
  omega

theorem lineOffset_lt (a : Word) : (lineOffset a).toNat < 32 := (lineOffset a).isLt

/-! ### Bytes of a line -/

theorem lineByte_eq (v : Vector Byte 32) {i : Nat} (h : i < 32) : lineByte v i = v[i] := by
  simp only [lineByte, Nat.mod_eq_of_lt h]

/-- Consecutive bytes written into a line read back; the others are as they were. -/
theorem lineByte_lineSet (v : Vector Byte 32) (j : Nat) (bs : List Byte) (i : Nat) (hj : j + bs.length ≤ 32) (hi : i < 32) :
    lineByte (lineSet v j bs) i = if h : j ≤ i ∧ i < j + bs.length then bs[i - j]'(by omega) else lineByte v i := by
  induction bs generalizing v j with
  | nil =>
    simp only [lineSet, List.length_nil]
    rw [dif_neg (by omega)]
  | cons b bs ih =>
    simp only [List.length_cons] at hj
    rw [lineSet, ih _ _ (by omega)]
    by_cases h1 : j + 1 ≤ i ∧ i < j + 1 + bs.length
    · rw [dif_pos h1, dif_pos (by simp only [List.length_cons]; omega)]
      rw [List.getElem_cons]
      have : i - j ≠ 0 := by omega
      simp only [this, dite_false]
      congr 1
    · rw [dif_neg h1]
      by_cases h2 : i = j
      · subst h2
        rw [dif_pos (by simp only [List.length_cons]; omega)]
        simp [lineByte]
      · rw [dif_neg (by simp only [List.length_cons]; omega), lineByte_eq _ hi, lineByte_eq _ hi]
        rw [Vector.getElem_set_ne]
        rw [Nat.mod_eq_of_lt (by omega)]
        omega

theorem lineByte_lineOfBytes (bs : List Byte) (i : Nat) (hb : bs.length = 32) (hi : i < 32) :
    lineByte (lineOfBytes bs) i = bs[i] := by
  rw [lineOfBytes, List.take_of_length_le (by omega), lineByte_lineSet _ _ _ _ (by omega) hi, dif_pos (by omega)]
  rfl

end Sys2Proof.Machine
end

