-- ==== Sys2Proof/Laws/Canonical.lean ====
section
/-! SUPPORT. Every operation on storage keeps storage in canonical form (`memOk`: `Memory.wf` and the address bound), whatever
the parameters; storage after reset has it. -/

namespace Sys2Proof.Machine

theorem memOk_congr {s t : State} (h : t.sto.mem = s.sto.mem) (hs : memOk s = true) : memOk t = true := by
  simpa [memOk, h] using hs

/-- Storage after reset is in canonical form. -/
theorem memOk_reset : memOk State.reset = true := by decide

theorem reportDataError_mem (s : State) : (reportDataError s).sto.mem = s.sto.mem := by
  simp only [reportDataError]; split <;> rfl

theorem memOk_busWrite {s : State} {d : Bool} (h : memOk s = true) (ra : Word) (bs : List Byte) : memOk (busWrite d ra bs s) = true := by
  simp only [busWrite]
  split
  · exact memOk_congr (reportDataError_mem _) (memOk_setMemBytes (s := noteLate d ra bs.length s) h ra bs)
  · exact memOk_setMemBytes (s := noteLate d ra bs.length s) h ra bs

/-- What other bus masters write keeps storage in canonical form. -/
theorem memOk_outsideBytes {s : State} (h : memOk s = true) (bs : List (Word × Byte)) : memOk (outsideBytes bs s) = true := by
  induction bs generalizing s with
  | nil => exact h
  | cons o bs ih => exact ih (s := outsideByte o.1 o.2 s) (memOk_setMemByte h _ _)

theorem memOk_busTurn {s : State} (h : memOk s = true) : memOk (busTurn s) = true := by
  simp only [busTurn]
  split
  · exact h
  · exact memOk_outsideBytes (by exact h) _

theorem memOk_busLeftOver {s : State} (h : memOk s = true) : memOk (busLeftOver s) = true := by
  unfold busLeftOver
  split
  · exact h
  · exact memOk_outsideBytes (by exact h) _

theorem busRead_mem (ra : Word) (n : Nat) (s : State) : (busRead ra n s).2.sto.mem = s.sto.mem := by
  simp only [busRead]
  split
  · exact reportDataError_mem _
  · rfl

theorem dropBuffer_mem (ra : Word) (s : State) : (dropBuffer ra s).sto.mem = s.sto.mem := by
  simp only [dropBuffer]; split <;> rfl

theorem memOk_castOut {s : State} (h : memOk s = true) (k : Nat) : memOk (castOut k s) = true := by
  simp only [castOut]
  split
  · exact memOk_busWrite h _ _
  · exact h

theorem memOk_installLine {s : State} (h : memOk s = true) (ra : Word) (v : Vector Byte 32) (d : Bool) :
    memOk (installLine ra v d s) = true := by
  have e : (installLine ra v d s).sto.mem = (castOut (dClass s ra) s).sto.mem := rfl
  exact memOk_congr e (memOk_castOut h _)

theorem memOk_fillLine {s : State} (h : memOk s = true) (ra : Word) : memOk (fillLine ra s) = true := by
  have e : (busRead (lineBase (lineOf ra)) 32 (clearBuffer s)).2.sto.mem = s.sto.mem := busRead_mem _ _ _
  exact memOk_installLine (memOk_congr e h) _ _ _

theorem uncachedRead_mem (ra : Word) (x : Attrs) (n : Nat) (s : State) : (uncachedRead ra x n s).2.sto.mem = s.sto.mem := by
  simp only [uncachedRead]
  split
  · exact busRead_mem _ _ _
  · split
    · split
      · rfl
      · split
        · exact busRead_mem _ _ (clearBuffer s)
        · exact busRead_mem _ _ _
    · split
      · exact busRead_mem _ _ _
      · exact busRead_mem _ _ _

/-- A load keeps storage in canonical form. -/
theorem memOk_dataRead {s : State} (h : memOk s = true) (ra : Word) (x : Attrs) (n : Nat) :
    memOk (dataRead ra x n s).2 = true := by
  simp only [dataRead]
  split
  · exact memOk_congr (s := s) rfl h
  · split
    · split
      · exact memOk_congr (s := s) (uncachedRead_mem _ _ _ _) h
      · exact memOk_congr (s := s) rfl h
    · split
      · exact memOk_congr (uncachedRead_mem _ _ _ _) h
      · have hf := memOk_fillLine h ra
        split
        · exact hf
        · exact memOk_congr (uncachedRead_mem _ _ _ _) hf

theorem memOk_storeHit {s : State} (h : memOk s = true) (ra : Word) (x : Attrs) (w : Bool) (bs : List Byte) :
    memOk (storeHit ra x w bs s) = true := by
  have h1 : memOk (touchWay (dClass s ra) w (writeCached ra w bs (!x.w) s)) = true := memOk_congr (s := s) rfl h
  simp only [storeHit]
  split
  · exact memOk_busWrite h1 _ _
  · exact h1

/-- A store keeps storage in canonical form. -/
theorem memOk_dataWrite {s : State} (h : memOk s = true) (ra : Word) (x : Attrs) (bs : List Byte) :
    memOk (dataWrite ra x bs s) = true := by
  have h0 := memOk_congr (dropBuffer_mem ra s) h
  simp only [dataWrite, storeThrough]
  generalize dropBuffer ra s = u at h0
  have hd (n : Nat) : memOk (drawn n u) = true := memOk_congr (s := u) rfl h0
  have hw (w d : Bool) : memOk (writeCached ra w bs d (drawn 1 u)) = true := memOk_congr (s := u) rfl h0
  split
  · exact memOk_busWrite (hd _) _ _
  · split
    · split
      · split
        · split
          · exact memOk_busWrite (hw _ _) _ _
          · exact hw _ _
        · exact memOk_busWrite (hd _) _ _
      · exact memOk_storeHit h0 _ _ _ _
    · split
      · exact memOk_busWrite h0 _ _
      · have hf := memOk_fillLine h0 ra
        split
        · exact memOk_storeHit hf _ _ _ _
        · exact memOk_busWrite hf _ _

theorem memOk_loadUnits {s : State} (h : memOk s = true) (us : List UnitAccess) : memOk (loadUnits us s).2 = true := by
  induction us generalizing s with
  | nil => exact h
  | cons u us ih =>
    have h1 := memOk_dataRead (memOk_busTurn h) u.x.ra u.x.attrs u.n
    simp only [loadUnits]
    exact ih h1

theorem memOk_storeUnits {s : State} (h : memOk s = true) (us : List UnitAccess) (bs : List Byte) :
    memOk (storeUnits us bs s) = true := by
  induction us generalizing s bs with
  | nil => exact h
  | cons u us ih =>
    have h1 := memOk_dataWrite (memOk_busTurn h) u.x.ra u.x.attrs (bs.take u.n)
    simp only [storeUnits]
    exact ih h1 _

theorem memOk_cleanLine {s : State} (h : memOk s = true) (ra : Word) : memOk (cleanLine ra s) = true := by
  simp only [cleanLine]
  split
  · split
    · exact memOk_congr rfl (memOk_busWrite h _ _)
    · exact h
  · exact h

theorem dropLine_mem (ra : Word) (s : State) : (dropLine ra s).sto.mem = s.sto.mem := by
  simp only [dropLine]; split <;> rfl

theorem dropClass_mem (ra : Word) (s : State) : (dropClass ra s).sto.mem = s.sto.mem := by
  simp only [dropClass]; split <;> rfl

theorem memOk_establishLine {s : State} (h : memOk s = true) (ra : Word) (v : Vector Byte 32) :
    memOk (establishLine ra v s) = true := by
  simp only [establishLine]
  split
  · exact memOk_congr (s := s) rfl h
  · exact memOk_installLine h _ _ _

/-- A pick advances the counter of free values at most. -/
theorem pick_state {α : Type} [DecidableEq α] (d : α) (l : List α) (s : State) : ∃ n, (pick d l s).2 = drawn n s := by
  simp only [pick]
  split
  · exact ⟨0, rfl⟩
  · exact ⟨0, rfl⟩
  · exact ⟨1, rfl⟩

theorem mem_distinct {α : Type} [DecidableEq α] (l : List α) (a : α) : a ∈ distinct l ↔ a ∈ l := by
  induction l with
  | nil => simp [distinct]
  | cons b l ih =>
    simp only [distinct, List.mem_cons, List.mem_filter, decide_eq_true_eq, ih]
    by_cases h : a = b <;> simp [h]

/-- A pick from a list that is not empty is one of its members. -/
theorem pick_mem {α : Type} [DecidableEq α] (d : α) {l : List α} (h : l ≠ []) (s : State) : (pick d l s).1 ∈ l := by
  rw [← mem_distinct]
  simp only [pick]
  split
  · rename_i e
    exact absurd e (by
      cases l with
      | nil => exact absurd rfl h
      | cons b l => simp [distinct])
  · rename_i a e; simp [e]
  · rename_i h0 h1
    have hl : (freeNow s).toNat % (distinct l).length < (distinct l).length := by
      apply Nat.mod_lt
      cases e : distinct l with
      | nil => exact absurd e h0
      | cons b l => simp
    rw [List.getD_eq_getElem?_getD, List.getElem?_eq_getElem hl]
    simp

/-- A pick where all values are one takes that one and leaves the state. -/
theorem pick_const {α : Type} [DecidableEq α] (d a : α) {l : List α} (h : l ≠ []) (ha : ∀ b ∈ l, b = a) (s : State) :
    pick d l s = (a, s) := by
  have hd : distinct l = [a] := by
    cases l with
    | nil => exact absurd rfl h
    | cons b l =>
      have hb := ha b (by simp)
      subst hb
      have : (distinct l).filter (fun c => decide (c ≠ b)) = [] := by
        simp only [List.filter_eq_nil_iff, mem_distinct]
        intro c hc
        simp [ha c (by simp [hc])]
      rw [distinct, this]
  simp [pick, hd]

theorem installInstrLine_mem (ra : Word) (v : Vector Word 8) (s : State) : (installInstrLine ra v s).sto.mem = s.sto.mem := rfl

theorem fillInstrLine_mem (ra : Word) (e : Bool) (s : State) : (fillInstrLine ra e s).sto.mem = s.sto.mem := by
  obtain ⟨n, hn⟩ := pick_state none ((fetchImages s ra false).map (fun m => instrFill m ra e)) s
  simp only [fillInstrLine]
  split <;> rename_i e <;> rw [e] at hn <;> subst hn <;> rfl

theorem dropInstrLine_mem (ra : Word) (s : State) : (dropInstrLine ra s).sto.mem = s.sto.mem := by
  simp only [dropInstrLine]; split <;> rfl

/-- A read by the fetcher changes the instruction cache alone. -/
theorem afterFetch_eq (f : Fetch) (s : State) :
    ∃ ic, afterFetch f s = { s with sto := { s.sto with icache := ic } } := by
  simp only [afterFetch]
  repeat' split
  all_goals exact ⟨_, rfl⟩

/-- A fetch leaves storage alone. -/
theorem afterFetch_mem (f : Fetch) (s : State) : (afterFetch f s).sto.mem = s.sto.mem := by
  obtain ⟨_, h⟩ := afterFetch_eq f s
  rw [h]

end Sys2Proof.Machine
end

