-- ==== Sys2Proof/Laws/DataCache.lean ====
section
/-! SUPPORT. Laws of the data cache. `lineAt` is the line that an address hits; one lemma says what replacing a way of a
class does to it, and every operation on the cache follows from that lemma. -/

namespace Sys2Proof.Machine

/-! ### Classes -/

/-- The line of a class that holds a line number. -/
def DSet.find (d : DSet) (l : BitVec 27) : Option DLine := (d.way l).map d.get

/-- The line of the data cache that an address hits. -/
def lineAt (s : State) (a : Word) : Option DLine := (dWay s a).map (dSet s (dClass s a)).get

theorem DSet.find_eq (d : DSet) (l : BitVec 27) :
    d.find l = if d.a.valid = true ∧ d.a.line = l then some d.a else if d.b.valid = true ∧ d.b.line = l then some d.b
      else none := by
  simp only [DSet.find, DSet.way, Bool.and_eq_true, beq_iff_eq]
  split
  · simp [DSet.get]
  · split <;> simp [DSet.get]

theorem DSet.way_get {d : DSet} {l : BitVec 27} {w : Bool} (h : d.way l = some w) :
    (d.get w).valid = true ∧ (d.get w).line = l := by
  simp only [DSet.way, Bool.and_eq_true, beq_iff_eq] at h
  split at h
  · rename_i h1; cases h; simpa [DSet.get] using h1
  · split at h
    · rename_i h1; cases h; simpa [DSet.get] using h1
    · cases h

/-- A class replaced in one way: what a line number finds afterwards. -/
theorem DSet.find_put {n k : Nat} {d : DSet} (hd : d.ok n k = true) (w b : Bool) (x : DLine)
    (hx : x.valid = true → (d.get (!w)).valid = true → (d.get (!w)).line ≠ x.line) (l : BitVec 27) :
    DSet.find { d.put w x with lruB := b } l =
      if x.valid = true ∧ l = x.line then some x
      else if (d.get w).valid = true ∧ l = (d.get w).line then none else d.find l := by
  have hdup : ¬ (d.a.valid = true ∧ d.b.valid = true ∧ d.a.line = d.b.line) := by
    simp only [DSet.ok, Bool.and_eq_true, Bool.not_eq_true', Bool.and_eq_false_iff, beq_eq_false_iff_ne] at hd
    rintro ⟨h1, h2, h3⟩
    rcases hd.2 with (h | h) | h
    · simp [h1] at h
    · simp [h2] at h
    · exact h h3
  rw [DSet.find_eq, DSet.find_eq]
  cases w
  · simp only [DSet.put, DSet.get, Bool.not_false, if_true, Bool.false_eq_true, if_false] at hx ⊢
    by_cases h1 : x.valid = true ∧ x.line = l
    · simp [h1]
    · have h1' : ¬ (x.valid = true ∧ l = x.line) := fun e => h1 ⟨e.1, e.2.symm⟩
      rw [if_neg h1, if_neg h1']
      by_cases h2 : d.a.valid = true ∧ l = d.a.line
      · have h3 : ¬ (d.b.valid = true ∧ d.b.line = l) := fun e => hdup ⟨h2.1, e.1, by rw [e.2, h2.2]⟩
        rw [if_pos h2, if_neg h3]
      · have h2' : ¬ (d.a.valid = true ∧ d.a.line = l) := fun e => h2 ⟨e.1, e.2.symm⟩
        rw [if_neg h2, if_neg h2']
  · simp only [DSet.put, DSet.get, Bool.not_true, if_true, Bool.false_eq_true, if_false] at hx ⊢
    by_cases h1 : x.valid = true ∧ x.line = l
    · have h3 : ¬ (d.a.valid = true ∧ d.a.line = l) := fun e => hx h1.1 e.1 (by rw [e.2, h1.2])
      simp [h1, h3]
    · have h1' : ¬ (x.valid = true ∧ l = x.line) := fun e => h1 ⟨e.1, e.2.symm⟩
      rw [if_neg h1, if_neg h1']
      by_cases h2 : d.b.valid = true ∧ l = d.b.line
      · have h3 : ¬ (d.a.valid = true ∧ d.a.line = l) := fun e => hdup ⟨e.1, h2.1, by rw [e.2, h2.2]⟩
        rw [if_pos h2, if_neg h3]
      · have h2' : ¬ (d.b.valid = true ∧ d.b.line = l) := fun e => h2 ⟨e.1, e.2.symm⟩
        rw [if_neg h2, if_neg h2']

/-- A class stays right when a way takes a line of the class that the other way does not hold. -/
theorem DSet.ok_put {n k : Nat} {d : DSet} (hd : d.ok n k = true) (w b : Bool) (x : DLine)
    (hx : x.valid = true → (d.get (!w)).valid = true → (d.get (!w)).line ≠ x.line)
    (hk : x.valid = true → x.line.toNat % n = k) :
    DSet.ok n k { d.put w x with lruB := b } = true := by
  simp only [DSet.ok, Bool.and_eq_true, Bool.or_eq_true, Bool.not_eq_true', Bool.and_eq_false_iff, beq_iff_eq,
    beq_eq_false_iff_ne] at hd ⊢
  have hk' : x.valid = false ∨ x.line.toNat % n = k := by
    cases hv : x.valid
    · exact .inl rfl
    · exact .inr (hk hv)
  cases w
  · simp only [DSet.put, DSet.get, Bool.not_false, if_true, Bool.false_eq_true, if_false] at hx ⊢
    refine ⟨⟨hk', hd.1.2⟩, ?_⟩
    cases hv : x.valid
    · exact .inl (.inl rfl)
    · cases hb : d.b.valid
      · exact .inl (.inr rfl)
      · exact .inr (fun e => hx hv hb e.symm)
  · simp only [DSet.put, DSet.get, Bool.not_true, if_true, Bool.false_eq_true, if_false] at hx ⊢
    refine ⟨⟨hd.1.1, hk'⟩, ?_⟩
    cases hv : x.valid
    · exact .inl (.inr rfl)
    · cases ha : d.a.valid
      · exact .inl (.inl rfl)
      · exact .inr (hx hv ha)

/-! ### The cache -/

theorem dClass_eq (s : State) (a : Word) : dClass s a = (lineOf a).toNat % s.params.dcacheSize.classes := by
  rw [dClass, classOf, lineOf_toNat]

theorem dcacheOk_wf {s : State} (h : dcacheOk s = true) : mapWf DSet.empty s.sto.dcache = true := by
  simp only [dcacheOk, Bool.and_eq_true] at h
  exact h.1

theorem DSet.ok_empty (n k : Nat) : DSet.empty.ok n k = true := by simp [DSet.ok, DSet.empty, DLine.empty]

/-- Every class of a right cache is right. -/
theorem dcacheOk_dSet {s : State} (h : dcacheOk s = true) (k : Nat) :
    (dSet s k).ok s.params.dcacheSize.classes k = true := by
  simp only [dcacheOk, Bool.and_eq_true] at h
  refine mapGet_all (p := fun kd : Nat × DSet => kd.2.ok s.params.dcacheSize.classes kd.1) ?_ (DSet.ok_empty _ _)
  rw [List.all_eq_true] at h ⊢
  intro x hx
  have := h.2 x hx
  simp only [Bool.and_eq_true] at this
  exact this.2

theorem dSet_setDSet {s : State} (h : dcacheOk s = true) (k : Nat) (d : DSet) (j : Nat) :
    dSet (setDSet k d s) j = if j = k then d else dSet s j := mapGet_mapSet k j d (dcacheOk_wf h)

theorem dcacheOk_setDSet {s : State} (h : dcacheOk s = true) {k : Nat} {d : DSet}
    (hk : k < s.params.dcacheSize.classes) (hd : d.ok s.params.dcacheSize.classes k = true) :
    dcacheOk (setDSet k d s) = true := by
  simp only [dcacheOk, Bool.and_eq_true] at h ⊢
  refine ⟨mapWf_mapSet _ _ h.1, all_mapSet h.2 ?_⟩
  intro _
  simpa [hk] using hd

/-- The cache is the same cache where classes and parameters are. -/
theorem lineAt_congr {s t : State} (hd : s.sto.dcache = t.sto.dcache) (hp : s.params = t.params) (a : Word) :
    lineAt s a = lineAt t a := by
  simp [lineAt, dWay, dClass, dSet, hd, hp]

theorem dcacheOk_congr {s t : State} (hd : s.sto.dcache = t.sto.dcache) (hp : s.params = t.params) :
    dcacheOk s = dcacheOk t := by
  simp [dcacheOk, hd, hp]

theorem dWay_congr {s t : State} (hd : s.sto.dcache = t.sto.dcache) (hp : s.params = t.params) (a : Word) :
    dWay s a = dWay t a := by
  simp [dWay, dClass, dSet, hd, hp]

theorem lineAt_eq {s : State} {a : Word} (hn : s.params.dcacheSize.classes ≠ 0) :
    lineAt s a = (dSet s (dClass s a)).find (lineOf a) := by
  simp [lineAt, dWay, DSet.find, hn]

theorem lineAt_none_iff (s : State) (a : Word) : lineAt s a = none ↔ dWay s a = none := by
  simp [lineAt]

theorem lineAt_of_dWay {s : State} {a : Word} {w : Bool} (h : dWay s a = some w) :
    lineAt s a = some ((dSet s (dClass s a)).get w) := by simp [lineAt, h]

/-- A hit names a valid line that holds the address, in a cache that has an array. -/
theorem dWay_get {s : State} {a : Word} {w : Bool} (h : dWay s a = some w) :
    s.params.dcacheSize.classes ≠ 0 ∧ ((dSet s (dClass s a)).get w).valid = true ∧
      ((dSet s (dClass s a)).get w).line = lineOf a := by
  simp only [dWay] at h
  split at h
  · cases h
  · rename_i hn
    exact ⟨hn, DSet.way_get h⟩

/-- What a data access finds, by the line it hits. -/
theorem dataByte_eq (s : State) (a : Word) :
    dataByte s a = match lineAt s a with
      | some l => lineByte l.data (lineOffset a).toNat
      | none => memByte s a := by
  simp only [dataByte, lineAt]
  cases dWay s a <;> rfl

theorem dataByte_of_line {s : State} {a : Word} {l : DLine} (h : lineAt s a = some l) :
    dataByte s a = lineByte l.data (lineOffset a).toNat := by rw [dataByte_eq, h]

theorem dataByte_of_none {s : State} {a : Word} (h : lineAt s a = none) : dataByte s a = memByte s a := by
  rw [dataByte_eq, h]

/-- THE LEMMA OF THE CACHE: one way of a class replaced by a line of that class which the other way does not hold. The new
line is hit where it is valid, the old one no more, and every other address hits what it did. -/
theorem lineAt_replace {s : State} (h : dcacheOk s = true) {k : Nat} (hk : k < s.params.dcacheSize.classes) (w b : Bool)
    (x : DLine) (hx : x.valid = true → ((dSet s k).get (!w)).valid = true → ((dSet s k).get (!w)).line ≠ x.line)
    (hl : x.valid = true → x.line.toNat % s.params.dcacheSize.classes = k) (a : Word) :
    lineAt (setDSet k { (dSet s k).put w x with lruB := b } s) a =
      if x.valid = true ∧ lineOf a = x.line then some x
      else if ((dSet s k).get w).valid = true ∧ lineOf a = ((dSet s k).get w).line then none else lineAt s a := by
  have hn : s.params.dcacheSize.classes ≠ 0 := by omega
  have hok := dcacheOk_dSet h k
  rw [lineAt_eq (by simpa using hn), lineAt_eq hn, dSet_setDSet h]
  have hc : dClass (setDSet k { (dSet s k).put w x with lruB := b } s) a = dClass s a := rfl
  rw [hc]
  by_cases hka : dClass s a = k
  · rw [if_pos hka, DSet.find_put hok w b x hx, hka]
  · have h1 : ¬ (x.valid = true ∧ lineOf a = x.line) := by
      rintro ⟨hv, he⟩
      exact hka (by rw [dClass_eq, he, hl hv])
    have h2 : ¬ (((dSet s k).get w).valid = true ∧ lineOf a = ((dSet s k).get w).line) := by
      rintro ⟨hv, he⟩
      apply hka
      rw [dClass_eq, he]
      simp only [DSet.ok, Bool.and_eq_true, Bool.or_eq_true, Bool.not_eq_true', beq_iff_eq] at hok
      cases w
      · simp only [DSet.get, Bool.false_eq_true, if_false] at hv ⊢
        rcases hok.1.1 with e | e
        · rw [hv] at e; cases e
        · exact e
      · simp only [DSet.get, if_true] at hv ⊢
        rcases hok.1.2 with e | e
        · rw [hv] at e; cases e
        · exact e
    rw [if_neg hka, if_neg h1, if_neg h2]

theorem dcacheOk_replace {s : State} (h : dcacheOk s = true) {k : Nat} (hk : k < s.params.dcacheSize.classes) (w b : Bool)
    (x : DLine) (hx : x.valid = true → ((dSet s k).get (!w)).valid = true → ((dSet s k).get (!w)).line ≠ x.line)
    (hl : x.valid = true → x.line.toNat % s.params.dcacheSize.classes = k) :
    dcacheOk (setDSet k { (dSet s k).put w x with lruB := b } s) = true :=
  dcacheOk_setDSet h hk (DSet.ok_put (dcacheOk_dSet h k) w b x hx hl)

/-- The two ways of a right class do not hold one line. -/
theorem DSet.other_line {n k : Nat} {d : DSet} (hd : d.ok n k = true) (w : Bool) (hw : (d.get w).valid = true)
    (ho : (d.get (!w)).valid = true) : (d.get (!w)).line ≠ (d.get w).line := by
  simp only [DSet.ok, Bool.and_eq_true, Bool.not_eq_true', Bool.and_eq_false_iff, beq_eq_false_iff_ne] at hd
  cases w
  · simp only [DSet.get, Bool.not_false, if_true, Bool.false_eq_true, if_false] at hw ho ⊢
    rcases hd.2 with (e | e) | e
    · rw [hw] at e; cases e
    · rw [ho] at e; cases e
    · exact fun he => e he.symm
  · simp only [DSet.get, Bool.not_true, if_true, Bool.false_eq_true, if_false] at hw ho ⊢
    rcases hd.2 with (e | e) | e
    · rw [ho] at e; cases e
    · rw [hw] at e; cases e
    · exact e

theorem DSet.put_get (d : DSet) (w : Bool) : d.put w (d.get w) = d := by cases w <;> rfl

/-- A cache without clean valid lines agrees with storage. -/
theorem cleanAgrees_of_dirty {s : State}
    (h : s.sto.dcache.all (fun kd => (!kd.2.a.valid || kd.2.a.dirty) && (!kd.2.b.valid || kd.2.b.dirty)) = true) :
    CleanAgrees s := by
  intro ra w hw hd
  exfalso
  simp only [dWay] at hw
  split at hw
  · cases hw
  · have h1 := mapGet_all (d := DSet.empty) (k := dClass s ra) h (by simp [DSet.empty, DLine.empty])
    have h2 := (DSet.way_get hw).1
    simp only [dSet, Bool.and_eq_true, Bool.or_eq_true, Bool.not_eq_true'] at h1 h2 hd
    cases w <;> simp_all [DSet.get]

end Sys2Proof.Machine
end

