-- ==== Sys2Proof/Laws/Access.lean ====
section
/-! SUPPORT. What one load or store of bytes inside a line does, said once (R182): with no bus error, on storage whose clean
cached lines agree with it, a load finds `dataByte` and leaves it everywhere as it was, and a store changes it at the bytes
stored alone. -/

namespace Sys2Proof.Machine

/-- Two states differ in storage, the writes under way and the data cache alone, and no bus access meets an error. -/
structure StorageStep (s t : State) : Prop where
  rest   : t = { s with sto := { s.sto with mem := t.sto.mem, dcache := t.sto.dcache, late := t.sto.late } }
  noErr  : s.params.busErrors = []

theorem StorageStep.refl {s : State} (h : s.params.busErrors = []) : StorageStep s s := ⟨rfl, h⟩

theorem StorageStep.params {s t : State} (h : StorageStep s t) : t.params = s.params := by rw [h.rest]

theorem StorageStep.trans {s t u : State} (h : StorageStep s t) (g : StorageStep t u) : StorageStep s u := by
  refine ⟨?_, h.noErr⟩
  have h1 := h.rest
  have h2 := g.rest
  rw [h2, h1]

theorem StorageStep.putDSet {s : State} (h : s.params.busErrors = []) (k : Nat) (d : DSet) :
    StorageStep s (setDSet k d s) := ⟨rfl, h⟩

theorem busErrorIn_nil {s : State} (h : s.params.busErrors = []) (k : BusKind) (ra : Word) (n : Nat) :
    busErrorIn s k ra n = false := by simp [busErrorIn, busError, h]

/-- Without bus errors a bus write writes the bytes and notes them as under way. -/
theorem busWrite_eq {s : State} {d : Bool} (h : s.params.busErrors = []) (ra : Word) (bs : List Byte) :
    busWrite d ra bs s = setMemBytes ra bs (noteLate d ra bs.length s) := by
  simp [busWrite, busErrorIn_nil h]

theorem busWrite_step {s : State} {d : Bool} (h : s.params.busErrors = []) (ra : Word) (bs : List Byte) :
    StorageStep s (busWrite d ra bs s) := by
  refine ⟨?_, h⟩
  rw [busWrite_eq h]
  have := setMemBytes_eq ra bs (noteLate d ra bs.length s)
  generalize setMemBytes ra bs (noteLate d ra bs.length s) = t at this ⊢
  rw [this]
  rfl

theorem busWrite_dcache {s : State} {d : Bool} (h : s.params.busErrors = []) (ra : Word) (bs : List Byte) :
    (busWrite d ra bs s).sto.dcache = s.sto.dcache := by
  rw [busWrite_eq h, setMemBytes_eq]
  rfl

/-- Without bus errors the bytes written are found in storage, and every other byte is as it was. -/
theorem memByte_busWrite {s : State} {d : Bool} (hm : memOk s = true) (h : s.params.busErrors = []) (ra : Word) (bs : List Byte)
    (a : Word) : memByte (busWrite d ra bs s) a = storeView (memByte s) ra bs a := by
  rw [busWrite_eq h]
  exact memByte_setMemBytes (s := noteLate d ra bs.length s) hm ra bs a

/-- Without bus errors a bus read gives storage's bytes and changes nothing. -/
theorem busRead_eq {s : State} (h : s.params.busErrors = []) (ra : Word) (n : Nat) :
    busRead ra n s = ((List.range n).map (fun j => memByte s (ra + BitVec.ofNat 32 j)), s) := by
  simp [busRead, busErrorIn_nil h]

theorem cleanAgrees_iff (s : State) :
    CleanAgrees s ↔ ∀ a l, lineAt s a = some l → l.dirty = false → lineByte l.data (lineOffset a).toNat = memByte s a := by
  constructor
  · intro h a l hl hd
    simp only [lineAt, Option.map_eq_some_iff] at hl
    obtain ⟨w, hw, he⟩ := hl
    have := h a w hw (by rw [he]; exact hd)
    rw [← this, dataByte_of_line (lineAt_of_dWay hw), he]
  · intro h ra w hw hd
    rw [dataByte_of_line (lineAt_of_dWay hw)]
    exact h ra _ (lineAt_of_dWay hw) hd

theorem lineAt_valid {s : State} {a : Word} {l : DLine} (h : lineAt s a = some l) : l.valid = true ∧ l.line = lineOf a := by
  simp only [lineAt, Option.map_eq_some_iff] at h
  obtain ⟨w, hw, he⟩ := h
  have := dWay_get hw
  rw [he] at this
  exact ⟨this.2.1, this.2.2⟩

theorem dClass_lt {s : State} (hn : s.params.dcacheSize.classes ≠ 0) (a : Word) :
    dClass s a < s.params.dcacheSize.classes := by
  rw [dClass_eq]
  exact Nat.mod_lt _ (by omega)

/-- The way of a class that holds a line is the one an address of the line hits. -/
theorem lineAt_of_get {s : State} (h : dcacheOk s = true) {k : Nat} (hk : k < s.params.dcacheSize.classes) (w : Bool)
    (hv : ((dSet s k).get w).valid = true) (a : Word) (ha : lineOf a = ((dSet s k).get w).line) :
    lineAt s a = some ((dSet s k).get w) := by
  have hok := dcacheOk_dSet h k
  have hc : dClass s a = k := by
    rw [dClass_eq, ha]
    simp only [DSet.ok, Bool.and_eq_true, Bool.or_eq_true, Bool.not_eq_true', beq_iff_eq] at hok
    cases w
    · simp only [DSet.get, Bool.false_eq_true, if_false] at hv ⊢
      rcases hok.1.1 with e | e
      · rw [hv] at e; cases e
      · exact e
    · simp only [DSet.get, if_true] at hv ⊢
      rcases hok.1.2 with e | e
      · rw [hv] at e; cases e
      · exact e
  rw [lineAt_eq (by omega), hc, DSet.find_eq]
  cases w
  · simp only [DSet.get, Bool.false_eq_true, if_false] at hv ha ⊢
    rw [if_pos ⟨hv, ha.symm⟩]
  · have ho := DSet.other_line hok true (by simpa [DSet.get] using hv)
    simp only [DSet.get, if_true, Bool.not_true, Bool.false_eq_true, if_false] at hv ha ho ⊢
    have h1 : ¬ ((dSet s k).a.valid = true ∧ (dSet s k).a.line = lineOf a) := by
      rintro ⟨h1, h2⟩
      exact ho h1 (by rw [h2, ha])
    rw [if_neg h1, if_pos ⟨hv, ha.symm⟩]

/-! ### Touching a way -/

/-- A hit marks the way used: no address hits another line for it, and the line is in use. -/
theorem lineAt_touchWay {s : State} (h : dcacheOk s = true) {k : Nat} (hk : k < s.params.dcacheSize.classes) (w : Bool)
    (a : Word) : lineAt (touchWay k w s) a =
      if ((dSet s k).get w).valid = true ∧ lineOf a = ((dSet s k).get w).line
      then some { (dSet s k).get w with undef := false } else lineAt s a := by
  have hok := dcacheOk_dSet h k
  have hl : ((dSet s k).get w).valid = true → ((dSet s k).get w).line.toNat % s.params.dcacheSize.classes = k := by
    intro hv
    simp only [DSet.ok, Bool.and_eq_true, Bool.or_eq_true, Bool.not_eq_true', beq_iff_eq] at hok
    cases w
    · simp only [DSet.get, Bool.false_eq_true, if_false] at hv ⊢
      rcases hok.1.1 with e | e
      · rw [hv] at e; cases e
      · exact e
    · simp only [DSet.get, if_true] at hv ⊢
      rcases hok.1.2 with e | e
      · rw [hv] at e; cases e
      · exact e
  have := lineAt_replace h hk w (!w) { (dSet s k).get w with undef := false } (fun h1 h2 => DSet.other_line hok w h1 h2) hl a
  rw [touchWay, this]
  simp only
  split
  · rfl
  · rfl

theorem dcacheOk_touchWay {s : State} (h : dcacheOk s = true) {k : Nat} (hk : k < s.params.dcacheSize.classes) (w : Bool) :
    dcacheOk (touchWay k w s) = true := by
  have hok := dcacheOk_dSet h k
  have hok2 := hok
  refine dcacheOk_setDSet h hk ?_
  simp only [DSet.ok] at hok2 ⊢
  cases w <;> exact hok2

/-- A hit changes what no address reads as. -/
theorem dataByte_touchWay {s : State} (h : dcacheOk s = true) {k : Nat} (hk : k < s.params.dcacheSize.classes) (w : Bool)
    (a : Word) : dataByte (touchWay k w s) a = dataByte s a := by
  rw [dataByte_eq, dataByte_eq, lineAt_touchWay h hk]
  by_cases hc : ((dSet s k).get w).valid = true ∧ lineOf a = ((dSet s k).get w).line
  · rw [if_pos hc, lineAt_of_get h hk w hc.1 a hc.2]
  · rw [if_neg hc]
    rfl

theorem cleanAgrees_touchWay {s : State} (h : dcacheOk s = true) {k : Nat} (hk : k < s.params.dcacheSize.classes) (w : Bool)
    (hc : CleanAgrees s) : CleanAgrees (touchWay k w s) := by
  rw [cleanAgrees_iff] at hc ⊢
  intro a l hla hd
  rw [lineAt_touchWay h hk] at hla
  split at hla
  · rename_i hv
    have e := Option.some.inj hla
    subst e
    exact hc a ((dSet s k).get w) (lineAt_of_get h hk w hv.1 a hv.2) hd
  · exact hc a l hla hd

/-! ### Installing a line -/

/-- What the LRU way's write-back leaves in storage. -/
theorem memByte_castOut {s : State} (hm : memOk s = true) (he : s.params.busErrors = []) (k : Nat) (a : Word) :
    memByte (castOut k s) a =
      if ((dSet s k).get (dSet s k).lruB).valid = true ∧ ((dSet s k).get (dSet s k).lruB).dirty = true ∧
          lineOf a = ((dSet s k).get (dSet s k).lruB).line
      then lineByte ((dSet s k).get (dSet s k).lruB).data (lineOffset a).toNat else memByte s a := by
  simp only [castOut]
  generalize (dSet s k).get (dSet s k).lruB = v
  by_cases hv : v.valid = true ∧ v.dirty = true
  · rw [if_pos (by simp [hv]), memByte_busWrite hm he, storeView_eq _ _ _ _ (by simp)]
    simp only [Vector.length_toList]
    by_cases hl : lineOf a = v.line
    · rw [dif_pos ((sub_lineBase_lt a v.line).mpr hl), if_pos ⟨hv.1, hv.2, hl⟩]
      rw [lineByte_eq _ (lineOffset_lt a)]
      simp only [Vector.getElem_toList, sub_lineBase hl]
    · rw [dif_neg (fun e => hl ((sub_lineBase_lt a v.line).mp e)), if_neg (fun e => hl e.2.2)]
  · rw [if_neg (by simpa using hv), if_neg (fun e => hv ⟨e.1, e.2.1⟩)]

theorem castOut_step {s : State} (he : s.params.busErrors = []) (k : Nat) : StorageStep s (castOut k s) := by
  simp only [castOut]
  split
  · exact busWrite_step he _ _
  · exact StorageStep.refl he

theorem castOut_dcache {s : State} (he : s.params.busErrors = []) (k : Nat) : (castOut k s).sto.dcache = s.sto.dcache := by
  simp only [castOut]
  split
  · exact busWrite_dcache he _ _
  · rfl

/-- A line put into the LRU way of its class: the addresses of the line find the new bytes, every other address finds what
it did. A line put in clean must agree with storage. -/
theorem installLine_spec {s : State} (h : Cached s) (he : s.params.busErrors = []) (ra : Word) (data : Vector Byte 32)
    (dirty : Bool) (hn : s.params.dcacheSize.classes ≠ 0) (hnone : lineAt s ra = none)
    (hag : dirty = false → ∀ a, lineOf a = lineOf ra → lineByte data (lineOffset a).toNat = memByte s a) :
    let t := installLine ra data dirty s
    Cached t ∧ StorageStep s t ∧
      (∀ a, lineAt t a =
        if lineOf a = lineOf ra then some { valid := true, dirty := dirty, line := lineOf ra, data := data, undef := false }
        else if ((dSet s (dClass s ra)).get (dSet s (dClass s ra)).lruB).valid = true ∧
            lineOf a = ((dSet s (dClass s ra)).get (dSet s (dClass s ra)).lruB).line then none
        else lineAt s a) ∧
      (∀ a, dataByte t a = if lineOf a = lineOf ra then lineByte data (lineOffset a).toNat else dataByte s a) := by
  intro t
  have hk := dClass_lt hn ra
  generalize hkd : dClass s ra = k at *
  generalize hvd : (dSet s k).get (dSet s k).lruB = v at *
  have hs1 := castOut_step he k
  have hd1 := castOut_dcache he k
  have hp1 : (castOut k s).params = s.params := hs1.params
  have hdc1 : dcacheOk (castOut k s) = true := by rw [dcacheOk_congr hd1 hp1]; exact h.dc
  have hset : dSet (castOut k s) k = dSet s k := by simp [dSet, hd1]
  have htd : t = setDSet k
      { (dSet (castOut k s) k).put (dSet s k).lruB { valid := true, dirty := dirty, line := lineOf ra, data := data, undef := false } with
        lruB := !(dSet s k).lruB } (castOut k s) := by
    show installLine ra data dirty s = _
    simp only [installLine, hkd, hset]
  have hother : (dSet s k).get (!(dSet s k).lruB) = (dSet s k).get (!(dSet s k).lruB) → True := fun _ => trivial
  have hx : ((dSet (castOut k s) k).get (!(dSet s k).lruB)).valid = true →
      ((dSet (castOut k s) k).get (!(dSet s k).lruB)).line ≠ lineOf ra := by
    rw [hset]
    intro hv hl
    have := lineAt_of_get h.dc hk (!(dSet s k).lruB) hv ra hl.symm
    rw [hnone] at this
    cases this
  have hlk : (lineOf ra).toNat % s.params.dcacheSize.classes = k := by rw [← dClass_eq, hkd]
  have hline : ∀ a, lineAt t a =
      if lineOf a = lineOf ra then some { valid := true, dirty := dirty, line := lineOf ra, data := data, undef := false }
      else if v.valid = true ∧ lineOf a = v.line then none else lineAt s a := by
    intro a
    rw [htd, lineAt_replace hdc1 (by rw [hp1]; exact hk) (dSet s k).lruB (!(dSet s k).lruB) _ (fun _ => hx)
      (fun _ => by rw [hp1]; exact hlk)]
    simp only [hset, hvd, true_and]
    rw [lineAt_congr hd1 hp1]
  have hmem : ∀ a, memByte t a =
      if v.valid = true ∧ v.dirty = true ∧ lineOf a = v.line then lineByte v.data (lineOffset a).toNat
      else memByte s a := by
    intro a
    rw [htd]
    show memByte (castOut k s) a = _
    rw [memByte_castOut h.mem he k a, hvd]
  have hvl : v.valid = true → v.line ≠ lineOf ra := by
    intro hv hl
    have := lineAt_of_get h.dc hk (dSet s k).lruB (by rw [hvd]; exact hv) ra (by rw [hvd]; exact hl.symm)
    rw [hnone] at this
    cases this
  have hva : ∀ a, v.valid = true → lineOf a = v.line → lineAt s a = some v := by
    intro a hv hl
    have := lineAt_of_get h.dc hk (dSet s k).lruB (by rw [hvd]; exact hv) a (by rw [hvd]; exact hl)
    rwa [hvd] at this
  have hclean := (cleanAgrees_iff s).mp h.clean
  have hdata : ∀ a, dataByte t a = if lineOf a = lineOf ra then lineByte data (lineOffset a).toNat else dataByte s a := by
    intro a
    by_cases h1 : lineOf a = lineOf ra
    · rw [if_pos h1, dataByte_of_line (by rw [hline a, if_pos h1])]
    · rw [if_neg h1]
      by_cases h2 : v.valid = true ∧ lineOf a = v.line
      · rw [dataByte_of_none (by rw [hline a, if_neg h1, if_pos h2]), hmem a, dataByte_of_line (hva a h2.1 h2.2)]
        cases hvd' : v.dirty
        · rw [if_neg (by simp)]
          exact (hclean a v (hva a h2.1 h2.2) hvd').symm
        · rw [if_pos ⟨h2.1, rfl, h2.2⟩]
      · have hl : lineAt t a = lineAt s a := by rw [hline a, if_neg h1, if_neg h2]
        rw [dataByte_eq, dataByte_eq, hl, hmem a, if_neg (fun e => h2 ⟨e.1, e.2.2⟩)]
  refine ⟨⟨?_, ?_, ?_⟩, ?_, hline, hdata⟩
  · rw [htd]
    exact memOk_castOut h.mem k
  · rw [htd]
    exact dcacheOk_replace hdc1 (by rw [hp1]; exact hk) _ _ _ (fun _ => hx) (fun _ => by rw [hp1]; exact hlk)
  · rw [cleanAgrees_iff]
    intro a l hl hd
    rw [hline a] at hl
    by_cases h1 : lineOf a = lineOf ra
    · rw [if_pos h1] at hl
      cases hl
      rw [hmem a, if_neg (fun e => hvl e.1 (by rw [← e.2.2, h1]))]
      exact hag hd a h1
    · rw [if_neg h1] at hl
      by_cases h2 : v.valid = true ∧ lineOf a = v.line
      · rw [if_pos h2] at hl
        cases hl
      · rw [if_neg h2] at hl
        rw [hmem a, if_neg (fun e => h2 ⟨e.1, e.2.2⟩)]
        exact hclean a l hl hd
  · rw [htd]
    exact hs1.trans (StorageStep.putDSet (by rw [hp1]; exact he) _ _)

/-- A line fill brings the line in and changes what no address reads as. -/
theorem fillLine_spec {s : State} (h : Cached s) (he : s.params.busErrors = []) (hb : s.sto.buffer = none) (ra : Word)
    (hn : s.params.dcacheSize.classes ≠ 0) (hnone : lineAt s ra = none) :
    let t := fillLine ra s
    Cached t ∧ StorageStep s t ∧ (lineAt t ra).isSome = true ∧ (∀ a, dataByte t a = dataByte s a) := by
  intro t
  have hcb : clearBuffer s = s := by
    simp only [clearBuffer, ← hb]
  have hmap : ((List.range 32).map (fun j => memByte s (lineBase (lineOf ra) + BitVec.ofNat 32 j))).length = 32 := by simp
  have hbyte : ∀ a, lineOf a = lineOf ra →
      lineByte (lineOfBytes ((List.range 32).map (fun j => memByte s (lineBase (lineOf ra) + BitVec.ofNat 32 j))))
        (lineOffset a).toNat = memByte s a := by
    intro a ha
    rw [lineByte_lineOfBytes _ _ hmap (lineOffset_lt a)]
    simp only [List.getElem_map, List.getElem_range]
    congr 1
    rw [← sub_lineBase ha]
    bv_omega
  have htd : t = installLine ra
      (lineOfBytes ((List.range 32).map (fun j => memByte s (lineBase (lineOf ra) + BitVec.ofNat 32 j)))) false s := by
    show fillLine ra s = _
    simp only [fillLine, hcb, busRead_eq he]
  have hspec := installLine_spec h he ra _ false hn hnone (fun _ => hbyte)
  rw [← htd] at hspec
  obtain ⟨h1, h2, h3, h4⟩ := hspec
  refine ⟨h1, h2, ?_, ?_⟩
  · rw [h3 ra, if_pos rfl]
    rfl
  · intro a
    rw [h4 a]
    split
    · rename_i hl
      rw [hbyte a hl]
      have : lineAt s a = none := by
        rw [lineAt_none_iff] at hnone ⊢
        rw [← hnone]
        simp only [dWay, dClass_eq, hl]
      rw [dataByte_of_none this]
    · rfl

/-! ### One load -/

/-- The bytes an access finds, from a real address on. -/
def viewBytes (s : State) (ra : Word) (n : Nat) : List Byte :=
  (List.range n).map (fun j => dataByte s (ra + BitVec.ofNat 32 j))

theorem dWay_add {s : State} {ra : Word} {n j : Nat} (hin : (lineOffset ra).toNat + n ≤ 32) (hj : j < n) :
    dWay s (ra + BitVec.ofNat 32 j) = dWay s ra := by
  simp only [dWay, dClass_eq, lineOf_add hin hj]

/-- The bytes of a line that is hit are what the addresses read as. -/
theorem cachedBytes_eq {s : State} {ra : Word} {w : Bool} (hw : dWay s ra = some w) {n : Nat}
    (hin : (lineOffset ra).toNat + n ≤ 32) : cachedBytes s ra w n = viewBytes s ra n := by
  simp only [cachedBytes, lineBytes, viewBytes]
  apply List.map_congr_left
  intro j hj
  have hj : j < n := List.mem_range.mp hj
  rw [dataByte_of_line (lineAt_of_dWay (by rw [dWay_add hin hj]; exact hw)), lineOffset_add hin hj]
  simp only [dClass_eq, lineOf_add hin hj]

/-- A load over the bus, where there is no line buffer and no cached copy. -/
theorem uncachedRead_eq {s : State} (he : s.params.busErrors = []) (hb : s.sto.buffer = none) (hl : ccrLWL s = false)
    (ra : Word) (x : Attrs) (n : Nat) (hin : (lineOffset ra).toNat + n ≤ 32) (hw : dWay s ra = none) :
    uncachedRead ra x n s = (viewBytes s ra n, s) := by
  have hv : (List.range n).map (fun j => memByte s (ra + BitVec.ofNat 32 j)) = viewBytes s ra n := by
    apply List.map_congr_left
    intro j hj
    have hj : j < n := List.mem_range.mp hj
    rw [dataByte_of_none (by rw [lineAt_none_iff, dWay_add hin hj]; exact hw)]
  simp only [uncachedRead, hb, hl, busRead_eq he, hv]
  split <;> rfl

/-- Where the outcome of an access is fixed, the way it finds is the one that holds its line. -/
theorem dSeen_eq {s : State} {ra : Word} {x : Attrs} (hx : x.i = false ∨ (x.i = true ∧ x.w = false ∧ dWay s ra = none)) :
    dSeen s x ra = dWay s ra := by
  rcases hx with hx | hx
  · simp only [dSeen, hx, Bool.false_and, Bool.not_false]
    cases dWay s ra <;> rfl
  · simp [dSeen, hx.2.2]

/-- ONE LOAD of bytes inside a line (R172, R182): it gives what the addresses read as, and they read as before. -/
theorem dataRead_spec {s : State} (h : Cached s) (he : s.params.busErrors = []) (hb : s.sto.buffer = none)
    (hl : ccrLWL s = false) (ra : Word) (x : Attrs) (n : Nat) (hin : (lineOffset ra).toNat + n ≤ 32)
    (hx : x.i = false ∨ (x.i = true ∧ x.w = false ∧ dWay s ra = none)) :
    (dataRead ra x n s).1 = viewBytes s ra n ∧ Cached (dataRead ra x n s).2 ∧ StorageStep s (dataRead ra x n s).2 ∧
      (∀ a, dataByte (dataRead ra x n s).2 a = dataByte s a) ∧ (x.i = true → (dataRead ra x n s).2 = s) := by
  have hwi : (x.w && x.i) = false := by
    rcases hx with hx | hx
    · simp [hx]
    · simp [hx.2.1]
  have hseen := dSeen_eq hx
  simp only [dataRead, hwi, hseen, Bool.false_eq_true, if_false]
  cases hw : dWay s ra with
  | some w =>
    have hi : x.i = false := by
      rcases hx with hx | hx
      · exact hx
      · rw [hw] at hx; cases hx.2.2
    simp only [hi, Bool.false_eq_true, if_false]
    have hk := (dWay_get hw).1
    have hkl := dClass_lt hk ra
    exact ⟨cachedBytes_eq hw hin, ⟨h.mem, dcacheOk_touchWay h.dc hkl w, cleanAgrees_touchWay h.dc hkl w h.clean⟩,
      StorageStep.putDSet he _ _, dataByte_touchWay h.dc hkl w, by simp⟩
  | none =>
    simp only
    by_cases hu : (x.i || ccrLWOA s || decide (s.params.dcacheSize.classes = 0)) = true
    · rw [if_pos hu, uncachedRead_eq he hb hl ra x n hin hw]
      exact ⟨rfl, h, StorageStep.refl he, fun _ => rfl, fun _ => rfl⟩
    · rw [if_neg hu]
      have hi : x.i = false := by simp at hu; exact hu.1.1
      have hn : s.params.dcacheSize.classes ≠ 0 := by simp at hu; exact hu.2
      obtain ⟨h1, h2, h3, h4⟩ := fillLine_spec h he hb ra hn ((lineAt_none_iff s ra).mpr hw)
      have hsome : ∃ w, dWay (fillLine ra s) ra = some w := by
        rw [lineAt, Option.isSome_map] at h3
        exact Option.isSome_iff_exists.mp h3
      obtain ⟨w, hw'⟩ := hsome
      simp only [hw']
      refine ⟨?_, h1, h2, h4, by simp [hi]⟩
      rw [cachedBytes_eq hw' hin]
      simp only [viewBytes, h4]

/-! ### One store -/

/-- An address is among the `n` bytes from `ra` on, inside `ra`'s line, exactly when its offset is. -/
theorem sub_lt_iff {ra a : Word} {n : Nat} (hin : (lineOffset ra).toNat + n ≤ 32) :
    (a - ra).toNat < n ↔
      lineOf a = lineOf ra ∧ (lineOffset ra).toNat ≤ (lineOffset a).toNat ∧
        (lineOffset a).toNat < (lineOffset ra).toNat + n := by
  rw [lineOf_eq_iff, lineOffset_toNat, lineOffset_toNat]
  rw [lineOffset_toNat] at hin
  have := a.isLt
  have := ra.isLt
  rw [BitVec.toNat_sub]
  omega

theorem sub_toNat_eq {ra a : Word} (hl : lineOf a = lineOf ra)
    (hle : (lineOffset ra).toNat ≤ (lineOffset a).toNat) :
    (a - ra).toNat = (lineOffset a).toNat - (lineOffset ra).toNat := by
  rw [lineOf_eq_iff] at hl
  rw [lineOffset_toNat, lineOffset_toNat] at *
  have := a.isLt
  have := ra.isLt
  rw [BitVec.toNat_sub]
  omega

/-- Bytes written into a line, seen as addresses. -/
theorem lineByte_storeView {v : Vector Byte 32} {m : Word → Byte} {ra : Word} {bs : List Byte}
    (hin : (lineOffset ra).toNat + bs.length ≤ 32) (a : Word) (hl : lineOf a = lineOf ra)
    (hm : lineByte v (lineOffset a).toNat = m a) :
    lineByte (lineSet v (lineOffset ra).toNat bs) (lineOffset a).toNat = storeView m ra bs a := by
  rw [lineByte_lineSet _ _ _ _ hin (lineOffset_lt a), storeView_eq _ _ _ _ (by omega)]
  by_cases h1 : (lineOffset ra).toNat ≤ (lineOffset a).toNat ∧ (lineOffset a).toNat < (lineOffset ra).toNat + bs.length
  · rw [dif_pos h1, dif_pos ((sub_lt_iff hin).mpr ⟨hl, h1⟩)]
    simp only [sub_toNat_eq hl h1.1]
  · rw [dif_neg h1, dif_neg (fun e => h1 ((sub_lt_iff hin).mp e).2), hm]

/-- Bytes stored inside a line leave the addresses of other lines alone. -/
theorem storeView_other {m : Word → Byte} {ra : Word} {bs : List Byte} (hin : (lineOffset ra).toNat + bs.length ≤ 32)
    (a : Word) (hl : lineOf a ≠ lineOf ra) : storeView m ra bs a = m a := by
  rw [storeView_eq _ _ _ _ (by omega), dif_neg (fun e => hl ((sub_lt_iff hin).mp e).1)]

/-- The line that a store leaves in the cache on a hit. -/
def storedLine (s : State) (ra : Word) (w : Bool) (bs : List Byte) (dirty : Bool) : DLine :=
  let l := (dSet s (dClass s ra)).get w
  { l with data := lineSet l.data (lineOffset ra).toNat bs, dirty := l.dirty || dirty }

theorem lineAt_writeCached {s : State} (h : dcacheOk s = true) {ra : Word} {w : Bool} (hw : dWay s ra = some w)
    (bs : List Byte) (dirty : Bool) (a : Word) :
    lineAt (writeCached ra w bs dirty s) a =
      if lineOf a = lineOf ra then some (storedLine s ra w bs dirty) else lineAt s a := by
  obtain ⟨hn, hv, hl⟩ := dWay_get hw
  have hk := dClass_lt hn ra
  have hok := dcacheOk_dSet h (dClass s ra)
  have hlk : (lineOf ra).toNat % s.params.dcacheSize.classes = dClass s ra := (dClass_eq s ra).symm
  have hrep := lineAt_replace h hk w (dSet s (dClass s ra)).lruB (storedLine s ra w bs dirty)
    (fun _ ho => DSet.other_line hok w hv ho) (fun _ => by show ((dSet s (dClass s ra)).get w).line.toNat % _ = _; rw [hl, hlk]) a
  have hput : ({ (dSet s (dClass s ra)).put w (storedLine s ra w bs dirty) with lruB := (dSet s (dClass s ra)).lruB } : DSet)
      = (dSet s (dClass s ra)).put w (storedLine s ra w bs dirty) := by cases w <;> rfl
  rw [hput] at hrep
  have hvl : (storedLine s ra w bs dirty).valid = true ∧ (storedLine s ra w bs dirty).line = lineOf ra := ⟨hv, hl⟩
  show lineAt (setDSet (dClass s ra) ((dSet s (dClass s ra)).put w (storedLine s ra w bs dirty)) s) a = _
  rw [hrep, hvl.1, hvl.2, hv, hl]
  by_cases ha : lineOf a = lineOf ra <;> simp [ha]

theorem dcacheOk_writeCached {s : State} (h : dcacheOk s = true) {ra : Word} {w : Bool} (hw : dWay s ra = some w)
    (bs : List Byte) (dirty : Bool) : dcacheOk (writeCached ra w bs dirty s) = true := by
  obtain ⟨hn, hv, hl⟩ := dWay_get hw
  have hk := dClass_lt hn ra
  have hok := dcacheOk_dSet h (dClass s ra)
  have hlk : (lineOf ra).toNat % s.params.dcacheSize.classes = dClass s ra := (dClass_eq s ra).symm
  have hput : ({ (dSet s (dClass s ra)).put w (storedLine s ra w bs dirty) with lruB := (dSet s (dClass s ra)).lruB } : DSet)
      = (dSet s (dClass s ra)).put w (storedLine s ra w bs dirty) := by cases w <;> rfl
  have := dcacheOk_replace h hk w (dSet s (dClass s ra)).lruB (storedLine s ra w bs dirty)
    (fun _ ho => DSet.other_line hok w hv ho) (fun _ => by show ((dSet s (dClass s ra)).get w).line.toNat % _ = _; rw [hl, hlk])
  rw [hput] at this
  exact this

/-- A store that hits: the bytes stored are found, every other address reads as before. -/
theorem storeHit_spec {s : State} (h : Cached s) (he : s.params.busErrors = []) {ra : Word} (x : Attrs) {w : Bool}
    (bs : List Byte) (hin : (lineOffset ra).toNat + bs.length ≤ 32) (hw : dWay s ra = some w) :
    Cached (storeHit ra x w bs s) ∧ StorageStep s (storeHit ra x w bs s) ∧
      ∀ a, dataByte (storeHit ra x w bs s) a = storeView (dataByte s) ra bs a := by
  obtain ⟨hn, hv, hl⟩ := dWay_get hw
  have hk := dClass_lt hn ra
  have hd1 := dcacheOk_writeCached h.dc hw bs (!x.w)
  have hla := lineAt_writeCached h.dc hw bs (!x.w)
  generalize hs1 : writeCached ra w bs (!x.w) s = s1 at *
  have hp1 : s1.params = s.params := by rw [← hs1]; rfl
  have hm1 : s1.sto.mem = s.sto.mem := by rw [← hs1]; rfl
  have hk1 : dClass s ra < s1.params.dcacheSize.classes := by rw [hp1]; exact hk
  have hst1 : StorageStep s s1 := by rw [← hs1]; exact StorageStep.putDSet he _ _
  have hd2 := dcacheOk_touchWay hd1 hk1 w
  have hla2 := lineAt_touchWay hd1 hk1 w
  have hget1 : (dSet s1 (dClass s ra)).get w = storedLine s ra w bs (!x.w) := by
    rw [← hs1, writeCached]
    simp only [dSet_setDSet h.dc, if_true]
    cases w <;> rfl
  rw [hget1] at hla2
  generalize hs2 : touchWay (dClass s ra) w s1 = s2 at *
  have hp2 : s2.params = s.params := by rw [← hs2]; exact hp1
  have hm2 : s2.sto.mem = s.sto.mem := by rw [← hs2]; exact hm1
  have hst2 : StorageStep s s2 := hst1.trans (by rw [← hs2]; exact StorageStep.putDSet (by rw [hp1]; exact he) _ _)
  have hmem2 : ∀ a, memByte s2 a = memByte s a := fun a => by simp only [memByte, hm2]
  have hmok2 : memOk s2 = true := by
    have := h.mem
    simp only [memOk] at this ⊢
    rw [hm2]
    exact this
  have hline : ∀ a, lineOf a = lineOf ra → dataByte s a = lineByte ((dSet s (dClass s ra)).get w).data (lineOffset a).toNat := by
    intro a ha
    have : lineAt s a = some ((dSet s (dClass s ra)).get w) :=
      lineAt_of_get h.dc hk w hv a (by rw [ha, hl])
    exact dataByte_of_line this
  have hclean := (cleanAgrees_iff s).mp h.clean
  have hview2 : ∀ a, lineAt s2 a = if lineOf a = lineOf ra then some { storedLine s ra w bs (!x.w) with undef := false } else lineAt s a := by
    intro a
    rw [hla2, hla]
    have e1 : (storedLine s ra w bs (!x.w)).valid = true := hv
    have e2 : (storedLine s ra w bs (!x.w)).line = lineOf ra := hl
    by_cases ha : lineOf a = lineOf ra <;> simp [e1, e2, ha]
  have hstored : ∀ a, lineOf a = lineOf ra →
      lineByte (storedLine s ra w bs (!x.w)).data (lineOffset a).toNat = storeView (dataByte s) ra bs a := by
    intro a ha
    exact lineByte_storeView hin a ha (hline a ha).symm
  have hout : storeHit ra x w bs s = if x.w then busWrite true ra bs s2 else s2 := by
    simp only [storeHit, hs1, hs2]
  rw [hout]
  cases hxw : x.w
  · simp only [Bool.false_eq_true, if_false]
    refine ⟨⟨hmok2, hd2, ?_⟩, hst2, ?_⟩
    · rw [cleanAgrees_iff]
      intro a l hla3 hdl
      rw [hview2 a] at hla3
      by_cases ha : lineOf a = lineOf ra
      · rw [if_pos ha] at hla3
        cases hla3
        simp [storedLine, hxw] at hdl
      · rw [if_neg ha] at hla3
        rw [hmem2]
        exact hclean a l hla3 hdl
    · intro a
      by_cases ha : lineOf a = lineOf ra
      · rw [dataByte_of_line (by rw [hview2 a, if_pos ha]), hstored a ha]
      · rw [storeView_other hin a ha, dataByte_eq, dataByte_eq, hview2 a, if_neg ha, hmem2]
  · simp only [if_true]
    have he2 : s2.params.busErrors = [] := by rw [hp2]; exact he
    have hst3 : StorageStep s2 (busWrite true ra bs s2) := busWrite_step he2 _ _
    have hdc3 : (busWrite true ra bs s2).sto.dcache = s2.sto.dcache := busWrite_dcache he2 _ _
    have hla3 : ∀ a, lineAt (busWrite true ra bs s2) a = lineAt s2 a := fun a => lineAt_congr hdc3 hst3.params a
    have hmem3 : ∀ a, memByte (busWrite true ra bs s2) a = storeView (memByte s) ra bs a := by
      intro a
      rw [memByte_busWrite hmok2 he2, show memByte s2 = memByte s from funext hmem2]
    refine ⟨⟨memOk_busWrite hmok2 ra bs, by rw [dcacheOk_congr hdc3 hst3.params]; exact hd2, ?_⟩, hst2.trans hst3, ?_⟩
    · rw [cleanAgrees_iff]
      intro a l hl3 hdl
      rw [hla3, hview2 a] at hl3
      rw [hmem3]
      by_cases ha : lineOf a = lineOf ra
      · rw [if_pos ha] at hl3
        cases hl3
        have hdc : ((dSet s (dClass s ra)).get w).dirty = false := by simpa [storedLine, hxw] using hdl
        have hag : lineByte ((dSet s (dClass s ra)).get w).data (lineOffset a).toNat = memByte s a :=
          hclean a _ (lineAt_of_get h.dc hk w hv a (by rw [ha, hl])) hdc
        exact lineByte_storeView hin a ha hag
      · rw [if_neg ha] at hl3
        rw [storeView_other hin a ha]
        exact hclean a l hl3 hdl
    · intro a
      by_cases ha : lineOf a = lineOf ra
      · rw [dataByte_of_line (by rw [hla3, hview2 a, if_pos ha]), hstored a ha]
      · rw [storeView_other hin a ha, dataByte_eq, dataByte_eq, hla3, hview2 a, if_neg ha, hmem3,
          storeView_other hin a ha]

/-- A store that goes to storage, where no cached copy is. -/
theorem storeMiss_spec {s : State} {d : Bool} (h : Cached s) (he : s.params.busErrors = []) {ra : Word} (bs : List Byte)
    (hin : (lineOffset ra).toNat + bs.length ≤ 32) (hw : dWay s ra = none) :
    Cached (busWrite d ra bs s) ∧ StorageStep s (busWrite d ra bs s) ∧
      ∀ a, dataByte (busWrite d ra bs s) a = storeView (dataByte s) ra bs a := by
  have hst : StorageStep s (busWrite d ra bs s) := busWrite_step he _ _
  have hdc : (busWrite d ra bs s).sto.dcache = s.sto.dcache := busWrite_dcache he _ _
  have hla : ∀ a, lineAt (busWrite d ra bs s) a = lineAt s a := fun a => lineAt_congr hdc hst.params a
  have hmem : ∀ a, memByte (busWrite d ra bs s) a = storeView (memByte s) ra bs a := memByte_busWrite h.mem he ra bs
  have hsame : ∀ a, lineOf a = lineOf ra → lineAt s a = none := by
    intro a ha
    rw [lineAt_none_iff, ← hw]
    simp only [dWay, dClass_eq, ha]
  refine ⟨⟨memOk_busWrite h.mem ra bs, by rw [dcacheOk_congr hdc hst.params]; exact h.dc, ?_⟩, hst, ?_⟩
  · rw [cleanAgrees_iff]
    intro a l hl hd
    rw [hla] at hl
    have ha : lineOf a ≠ lineOf ra := by
      intro e
      rw [hsame a e] at hl
      cases hl
    rw [hmem, storeView_other hin a ha]
    exact (cleanAgrees_iff s).mp h.clean a l hl hd
  · intro a
    by_cases ha : lineOf a = lineOf ra
    · rw [dataByte_of_none (by rw [hla, hsame a ha]), hmem, storeView_eq _ _ _ _ (by omega), storeView_eq _ _ _ _ (by omega),
        dataByte_of_none (hsame a ha)]
    · rw [storeView_other hin a ha, dataByte_eq, dataByte_eq, hla, hmem, storeView_other hin a ha]

/-- ONE STORE of bytes inside a line (R171, R172, R182): the bytes stored are found where they were stored, and every other
address reads as before. -/
theorem dataWrite_spec {s : State} (h : Cached s) (he : s.params.busErrors = []) (hb : s.sto.buffer = none) (ra : Word)
    (x : Attrs) (bs : List Byte) (hin : (lineOffset ra).toNat + bs.length ≤ 32)
    (hx : x.i = false ∨ (x.i = true ∧ x.w = false ∧ dWay s ra = none)) :
    Cached (dataWrite ra x bs s) ∧ StorageStep s (dataWrite ra x bs s) ∧
      (∀ a, dataByte (dataWrite ra x bs s) a = storeView (dataByte s) ra bs a) ∧
      (x.i = true → (dataWrite ra x bs s).sto.dcache = s.sto.dcache) := by
  have hwi : (x.w && x.i) = false := by
    rcases hx with hx | hx
    · simp [hx]
    · simp [hx.2.1]
  have hdb : dropBuffer ra s = s := by simp [dropBuffer, bufferHas, hb]
  have hseen := dSeen_eq hx
  simp only [dataWrite, hdb, storeThrough, hwi, hseen, Bool.false_eq_true, if_false]
  cases hw : dWay s ra with
  | some w =>
    have hi : x.i = false := by
      rcases hx with hx | hx
      · exact hx
      · rw [hw] at hx; cases hx.2.2
    simp only [hi, Bool.false_eq_true, if_false]
    obtain ⟨h1, h2, h3⟩ := storeHit_spec h he x bs hin hw
    exact ⟨h1, h2, h3, by simp⟩
  | none =>
    simp only
    by_cases hu : (x.i || ccrSWOA s || decide (s.params.dcacheSize.classes = 0)) = true
    · rw [if_pos hu]
      obtain ⟨h1, h2, h3⟩ := storeMiss_spec h he bs hin hw
      refine ⟨h1, h2, h3, fun _ => ?_⟩
      exact busWrite_dcache he _ _
    · rw [if_neg hu]
      have hi : x.i = false := by simp at hu; exact hu.1.1
      have hn : s.params.dcacheSize.classes ≠ 0 := by simp at hu; exact hu.2
      obtain ⟨h1, h2, h3, h4⟩ := fillLine_spec h he hb ra hn ((lineAt_none_iff s ra).mpr hw)
      have hsome : ∃ w, dWay (fillLine ra s) ra = some w := by
        rw [lineAt, Option.isSome_map] at h3
        exact Option.isSome_iff_exists.mp h3
      obtain ⟨w, hw'⟩ := hsome
      simp only [hw']
      obtain ⟨g1, g2, g3⟩ := storeHit_spec h1 (by rw [h2.params]; exact he) x bs hin hw'
      refine ⟨g1, h2.trans g2, ?_, by simp [hi]⟩
      intro a
      rw [g3 a, show dataByte (fillLine ra s) = dataByte s from funext h4]

end Sys2Proof.Machine
end

