-- ==== Sys2Proof/Laws/Bits.lean ====
section
/-! SUPPORT. Laws of bits and fields: a written bit reads back, other bits stay, and words are equal when their bits are. -/

namespace Sys2Proof.Machine

theorem bit_eq_getLsbD {w : Word} {i : Nat} (h : i < 32) : bit w i = w.getLsbD (31 - i) := by
  simp [bit, BitVec.getMsbD, h]

theorem bit_ge {w : Word} {i : Nat} (h : 32 ≤ i) : bit w i = false := by
  simp [bit, BitVec.getMsbD, Nat.not_lt.mpr h]

@[simp] theorem bit_and (a b : Word) (i : Nat) : bit (a &&& b) i = (bit a i && bit b i) := by
  simp [bit]

@[simp] theorem bit_or (a b : Word) (i : Nat) : bit (a ||| b) i = (bit a i || bit b i) := by
  simp [bit]

theorem bit_not (a : Word) {i : Nat} (h : i < 32) : bit (~~~a) i = !bit a i := by
  simp [bit, h]

theorem bit_weight {i j : Nat} (hi : i < 32) (hj : j < 32) : bit (weight i) j = decide (i = j) := by
  rw [bit_eq_getLsbD hj]
  simp only [weight, BitVec.getLsbD_shiftLeft]
  have : BitVec.getLsbD (1#32) (31 - j - (31 - i)) = decide (31 - j - (31 - i) = 0) := by
    generalize 31 - j - (31 - i) = k
    cases k with
    | zero => rfl
    | succ n => simp [BitVec.getLsbD_one]
  rw [this]
  by_cases hij : i = j
  · subst hij
    simp
    omega
  · have h1 : ¬ (31 - i ≤ 31 - j ∧ 31 - j - (31 - i) = 0) := by omega
    rw [decide_eq_false hij, Bool.eq_false_iff]
    simp only [ne_eq, Bool.and_eq_true, decide_eq_true_eq, Bool.not_eq_true', decide_eq_false_iff_not]
    omega

/-- A word with one bit written: that bit reads as written, every other bit as before. -/
theorem bit_setBit (w : Word) {i j : Nat} (b : Bool) (hi : i < 32) (hj : j < 32) :
    bit (setBit w i b) j = if i = j then b else bit w j := by
  unfold setBit
  by_cases hb : b = true
  · subst hb
    simp only [if_true, bit_or, bit_weight hi hj]
    by_cases hij : i = j <;> simp [hij]
  · have hb : b = false := by simpa using hb
    subst hb
    rw [if_neg (by decide), bit_and, bit_not _ hj, bit_weight hi hj]
    by_cases hij : i = j <;> simp [hij]

/-- Words with equal bits are equal. -/
theorem word_ext {a b : Word} (h : ∀ i, i < 32 → bit a i = bit b i) : a = b := by
  apply BitVec.eq_of_getMsbD_eq
  intro i hi
  exact h i hi

theorem bit_false_of_and_eq {w m : Word} (h : w &&& m = 0#32) {i : Nat} (hm : bit m i = true) :
    bit w i = false := by
  have h0 : bit (w &&& m) i = bit 0#32 i := by rw [h]
  rw [bit_and, hm, Bool.and_true] at h0
  rw [h0]
  simp [bit]

end Sys2Proof.Machine
end

