-- ==== Sys2Proof/Laws/Encoding.lean ====
section
/-! SUPPORT. Laws of the encoder: an encoded word as a number, and what each field of it reads as, form by form. -/

namespace Sys2Proof

open Machine

theorem toNat_append_mul {m n : Nat} (x : BitVec m) (y : BitVec n) : (x ++ y).toNat = x.toNat * 2 ^ n + y.toNat := by
  rw [BitVec.toNat_append, Nat.shiftLeft_eq, Nat.mul_comm, ← Nat.two_pow_add_eq_or_of_lt y.isLt]

theorem field_toNat (w : Word) (a n : Nat) : (field w a n).toNat = w.toNat / 2 ^ (32 - a - n) % 2 ^ n := by
  simp [field, BitVec.extractLsb'_toNat, Nat.shiftRight_eq_div_pow]

theorem bit_toNat (w : Word) {i : Nat} (h : i < 32) : bit w i = decide (w.toNat / 2 ^ (31 - i) % 2 = 1) := by
  simp only [bit, BitVec.getMsbD, h, decide_true, Bool.true_and, BitVec.getLsbD, Nat.testBit_eq_decide_div_mod_eq]

theorem encD_toNat (op : BitVec 6) (rt ra : BitVec 5) (im : BitVec 16) :
    (encD op rt ra im).toNat = op.toNat * 2 ^ 26 + rt.toNat * 2 ^ 21 + ra.toNat * 2 ^ 16 + im.toNat := by
  show (op ++ rt ++ ra ++ im).toNat = _
  simp only [toNat_append_mul]
  ring

@[simp] theorem fOPCD_encD (op : BitVec 6) (rt ra : BitVec 5) (im : BitVec 16) : fOPCD (encD op rt ra im) = op := by
  have h0 := op.isLt
  have h1 := rt.isLt
  have h2 := ra.isLt
  have h3 := im.isLt
  refine BitVec.eq_of_toNat_eq ?_
  rw [fOPCD, field_toNat, encD_toNat]
  omega

@[simp] theorem fRT_encD (op : BitVec 6) (rt ra : BitVec 5) (im : BitVec 16) : fRT (encD op rt ra im) = rt := by
  have h0 := op.isLt
  have h1 := rt.isLt
  have h2 := ra.isLt
  have h3 := im.isLt
  refine BitVec.eq_of_toNat_eq ?_
  rw [fRT, field_toNat, encD_toNat]
  omega

@[simp] theorem fRA_encD (op : BitVec 6) (rt ra : BitVec 5) (im : BitVec 16) : fRA (encD op rt ra im) = ra := by
  have h0 := op.isLt
  have h1 := rt.isLt
  have h2 := ra.isLt
  have h3 := im.isLt
  refine BitVec.eq_of_toNat_eq ?_
  rw [fRA, field_toNat, encD_toNat]
  omega

@[simp] theorem fIM_encD (op : BitVec 6) (rt ra : BitVec 5) (im : BitVec 16) : fIM (encD op rt ra im) = im := by
  have h0 := op.isLt
  have h1 := rt.isLt
  have h2 := ra.isLt
  have h3 := im.isLt
  refine BitVec.eq_of_toNat_eq ?_
  rw [fIM, field_toNat, encD_toNat]
  omega

theorem encX_toNat (op : BitVec 6) (rt ra rb : BitVec 5) (xo : BitVec 10) (b : Bool) :
    (encX op rt ra rb xo b).toNat = op.toNat * 2 ^ 26 + rt.toNat * 2 ^ 21 + ra.toNat * 2 ^ 16 + rb.toNat * 2 ^ 11 + xo.toNat * 2 ^ 1 + (BitVec.ofBool b).toNat := by
  show (op ++ rt ++ ra ++ rb ++ xo ++ BitVec.ofBool b).toNat = _
  simp only [toNat_append_mul]
  ring

@[simp] theorem fOPCD_encX (op : BitVec 6) (rt ra rb : BitVec 5) (xo : BitVec 10) (b : Bool) : fOPCD (encX op rt ra rb xo b) = op := by
  have h0 := op.isLt
  have h1 := rt.isLt
  have h2 := ra.isLt
  have h3 := rb.isLt
  have h4 := xo.isLt
  have h5 := (BitVec.ofBool b).isLt
  refine BitVec.eq_of_toNat_eq ?_
  rw [fOPCD, field_toNat, encX_toNat]
  omega

@[simp] theorem fRT_encX (op : BitVec 6) (rt ra rb : BitVec 5) (xo : BitVec 10) (b : Bool) : fRT (encX op rt ra rb xo b) = rt := by
  have h0 := op.isLt
  have h1 := rt.isLt
  have h2 := ra.isLt
  have h3 := rb.isLt
  have h4 := xo.isLt
  have h5 := (BitVec.ofBool b).isLt
  refine BitVec.eq_of_toNat_eq ?_
  rw [fRT, field_toNat, encX_toNat]
  omega

@[simp] theorem fRA_encX (op : BitVec 6) (rt ra rb : BitVec 5) (xo : BitVec 10) (b : Bool) : fRA (encX op rt ra rb xo b) = ra := by
  have h0 := op.isLt
  have h1 := rt.isLt
  have h2 := ra.isLt
  have h3 := rb.isLt
  have h4 := xo.isLt
  have h5 := (BitVec.ofBool b).isLt
  refine BitVec.eq_of_toNat_eq ?_
  rw [fRA, field_toNat, encX_toNat]
  omega

@[simp] theorem fRB_encX (op : BitVec 6) (rt ra rb : BitVec 5) (xo : BitVec 10) (b : Bool) : fRB (encX op rt ra rb xo b) = rb := by
  have h0 := op.isLt
  have h1 := rt.isLt
  have h2 := ra.isLt
  have h3 := rb.isLt
  have h4 := xo.isLt
  have h5 := (BitVec.ofBool b).isLt
  refine BitVec.eq_of_toNat_eq ?_
  rw [fRB, field_toNat, encX_toNat]
  omega

@[simp] theorem fXO10_encX (op : BitVec 6) (rt ra rb : BitVec 5) (xo : BitVec 10) (b : Bool) : fXO10 (encX op rt ra rb xo b) = xo := by
  have h0 := op.isLt
  have h1 := rt.isLt
  have h2 := ra.isLt
  have h3 := rb.isLt
  have h4 := xo.isLt
  have h5 := (BitVec.ofBool b).isLt
  refine BitVec.eq_of_toNat_eq ?_
  rw [fXO10, field_toNat, encX_toNat]
  omega

@[simp] theorem fBit31_encX (op : BitVec 6) (rt ra rb : BitVec 5) (xo : BitVec 10) (b : Bool) : fBit31 (encX op rt ra rb xo b) = b := by
  rw [fBit31, bit_toNat _ (by decide), encX_toNat]
  cases b <;> simp <;> omega

theorem encXO_toNat (op : BitVec 6) (rt ra rb : BitVec 5) (oe : Bool) (xo : BitVec 9) (rc : Bool) :
    (encXO op rt ra rb oe xo rc).toNat = op.toNat * 2 ^ 26 + rt.toNat * 2 ^ 21 + ra.toNat * 2 ^ 16 + rb.toNat * 2 ^ 11 + (BitVec.ofBool oe).toNat * 2 ^ 10 + xo.toNat * 2 ^ 1 + (BitVec.ofBool rc).toNat := by
  show (op ++ rt ++ ra ++ rb ++ BitVec.ofBool oe ++ xo ++ BitVec.ofBool rc).toNat = _
  simp only [toNat_append_mul]
  ring

@[simp] theorem fOPCD_encXO (op : BitVec 6) (rt ra rb : BitVec 5) (oe : Bool) (xo : BitVec 9) (rc : Bool) : fOPCD (encXO op rt ra rb oe xo rc) = op := by
  have h0 := op.isLt
  have h1 := rt.isLt
  have h2 := ra.isLt
  have h3 := rb.isLt
  have h4 := (BitVec.ofBool oe).isLt
  have h5 := xo.isLt
  have h6 := (BitVec.ofBool rc).isLt
  refine BitVec.eq_of_toNat_eq ?_
  rw [fOPCD, field_toNat, encXO_toNat]
  omega

@[simp] theorem fRT_encXO (op : BitVec 6) (rt ra rb : BitVec 5) (oe : Bool) (xo : BitVec 9) (rc : Bool) : fRT (encXO op rt ra rb oe xo rc) = rt := by
  have h0 := op.isLt
  have h1 := rt.isLt
  have h2 := ra.isLt
  have h3 := rb.isLt
  have h4 := (BitVec.ofBool oe).isLt
  have h5 := xo.isLt
  have h6 := (BitVec.ofBool rc).isLt
  refine BitVec.eq_of_toNat_eq ?_
  rw [fRT, field_toNat, encXO_toNat]
  omega

@[simp] theorem fRA_encXO (op : BitVec 6) (rt ra rb : BitVec 5) (oe : Bool) (xo : BitVec 9) (rc : Bool) : fRA (encXO op rt ra rb oe xo rc) = ra := by
  have h0 := op.isLt
  have h1 := rt.isLt
  have h2 := ra.isLt
  have h3 := rb.isLt
  have h4 := (BitVec.ofBool oe).isLt
  have h5 := xo.isLt
  have h6 := (BitVec.ofBool rc).isLt
  refine BitVec.eq_of_toNat_eq ?_
  rw [fRA, field_toNat, encXO_toNat]
  omega

@[simp] theorem fRB_encXO (op : BitVec 6) (rt ra rb : BitVec 5) (oe : Bool) (xo : BitVec 9) (rc : Bool) : fRB (encXO op rt ra rb oe xo rc) = rb := by
  have h0 := op.isLt
  have h1 := rt.isLt
  have h2 := ra.isLt
  have h3 := rb.isLt
  have h4 := (BitVec.ofBool oe).isLt
  have h5 := xo.isLt
  have h6 := (BitVec.ofBool rc).isLt
  refine BitVec.eq_of_toNat_eq ?_
  rw [fRB, field_toNat, encXO_toNat]
  omega

@[simp] theorem fOE_encXO (op : BitVec 6) (rt ra rb : BitVec 5) (oe : Bool) (xo : BitVec 9) (rc : Bool) : fOE (encXO op rt ra rb oe xo rc) = oe := by
  have h0 := op.isLt
  have h1 := rt.isLt
  have h2 := ra.isLt
  have h3 := rb.isLt
  have h4 := (BitVec.ofBool oe).isLt
  have h5 := xo.isLt
  have h6 := (BitVec.ofBool rc).isLt
  rw [fOE, bit_toNat _ (by decide), encXO_toNat]
  cases oe <;> simp at * <;> omega

@[simp] theorem fXO9_encXO (op : BitVec 6) (rt ra rb : BitVec 5) (oe : Bool) (xo : BitVec 9) (rc : Bool) : fXO9 (encXO op rt ra rb oe xo rc) = xo := by
  have h0 := op.isLt
  have h1 := rt.isLt
  have h2 := ra.isLt
  have h3 := rb.isLt
  have h4 := (BitVec.ofBool oe).isLt
  have h5 := xo.isLt
  have h6 := (BitVec.ofBool rc).isLt
  refine BitVec.eq_of_toNat_eq ?_
  rw [fXO9, field_toNat, encXO_toNat]
  omega

@[simp] theorem fBit31_encXO (op : BitVec 6) (rt ra rb : BitVec 5) (oe : Bool) (xo : BitVec 9) (rc : Bool) : fBit31 (encXO op rt ra rb oe xo rc) = rc := by
  rw [fBit31, bit_toNat _ (by decide), encXO_toNat]
  cases rc <;> simp <;> omega

theorem encM_toNat (op : BitVec 6) (rs ra sh mb me : BitVec 5) (rc : Bool) :
    (encM op rs ra sh mb me rc).toNat = op.toNat * 2 ^ 26 + rs.toNat * 2 ^ 21 + ra.toNat * 2 ^ 16 + sh.toNat * 2 ^ 11 + mb.toNat * 2 ^ 6 + me.toNat * 2 ^ 1 + (BitVec.ofBool rc).toNat := by
  show (op ++ rs ++ ra ++ sh ++ mb ++ me ++ BitVec.ofBool rc).toNat = _
  simp only [toNat_append_mul]
  ring

@[simp] theorem fOPCD_encM (op : BitVec 6) (rs ra sh mb me : BitVec 5) (rc : Bool) : fOPCD (encM op rs ra sh mb me rc) = op := by
  have h0 := op.isLt
  have h1 := rs.isLt
  have h2 := ra.isLt
  have h3 := sh.isLt
  have h4 := mb.isLt
  have h5 := me.isLt
  have h6 := (BitVec.ofBool rc).isLt
  refine BitVec.eq_of_toNat_eq ?_
  rw [fOPCD, field_toNat, encM_toNat]
  omega

@[simp] theorem fRT_encM (op : BitVec 6) (rs ra sh mb me : BitVec 5) (rc : Bool) : fRT (encM op rs ra sh mb me rc) = rs := by
  have h0 := op.isLt
  have h1 := rs.isLt
  have h2 := ra.isLt
  have h3 := sh.isLt
  have h4 := mb.isLt
  have h5 := me.isLt
  have h6 := (BitVec.ofBool rc).isLt
  refine BitVec.eq_of_toNat_eq ?_
  rw [fRT, field_toNat, encM_toNat]
  omega

@[simp] theorem fRA_encM (op : BitVec 6) (rs ra sh mb me : BitVec 5) (rc : Bool) : fRA (encM op rs ra sh mb me rc) = ra := by
  have h0 := op.isLt
  have h1 := rs.isLt
  have h2 := ra.isLt
  have h3 := sh.isLt
  have h4 := mb.isLt
  have h5 := me.isLt
  have h6 := (BitVec.ofBool rc).isLt
  refine BitVec.eq_of_toNat_eq ?_
  rw [fRA, field_toNat, encM_toNat]
  omega

@[simp] theorem fRB_encM (op : BitVec 6) (rs ra sh mb me : BitVec 5) (rc : Bool) : fRB (encM op rs ra sh mb me rc) = sh := by
  have h0 := op.isLt
  have h1 := rs.isLt
  have h2 := ra.isLt
  have h3 := sh.isLt
  have h4 := mb.isLt
  have h5 := me.isLt
  have h6 := (BitVec.ofBool rc).isLt
  refine BitVec.eq_of_toNat_eq ?_
  rw [fRB, field_toNat, encM_toNat]
  omega

@[simp] theorem fMB_encM (op : BitVec 6) (rs ra sh mb me : BitVec 5) (rc : Bool) : fMB (encM op rs ra sh mb me rc) = mb := by
  have h0 := op.isLt
  have h1 := rs.isLt
  have h2 := ra.isLt
  have h3 := sh.isLt
  have h4 := mb.isLt
  have h5 := me.isLt
  have h6 := (BitVec.ofBool rc).isLt
  refine BitVec.eq_of_toNat_eq ?_
  rw [fMB, field_toNat, encM_toNat]
  omega

@[simp] theorem fME_encM (op : BitVec 6) (rs ra sh mb me : BitVec 5) (rc : Bool) : fME (encM op rs ra sh mb me rc) = me := by
  have h0 := op.isLt
  have h1 := rs.isLt
  have h2 := ra.isLt
  have h3 := sh.isLt
  have h4 := mb.isLt
  have h5 := me.isLt
  have h6 := (BitVec.ofBool rc).isLt
  refine BitVec.eq_of_toNat_eq ?_
  rw [fME, field_toNat, encM_toNat]
  omega

@[simp] theorem fBit31_encM (op : BitVec 6) (rs ra sh mb me : BitVec 5) (rc : Bool) : fBit31 (encM op rs ra sh mb me rc) = rc := by
  rw [fBit31, bit_toNat _ (by decide), encM_toNat]
  cases rc <;> simp <;> omega

theorem encXFX_toNat (rt : BitVec 5) (num xo : BitVec 10) :
    (encXFX rt num xo).toNat =
      2080374784 + rt.toNat * 2097152 + num.toNat % 32 * 65536 + num.toNat / 32 % 32 * 2048 + xo.toNat * 2 := by
  show (31#6 ++ rt ++ num.extractLsb' 0 5 ++ num.extractLsb' 5 5 ++ xo ++ 0#1).toNat = _
  simp only [toNat_append_mul, BitVec.extractLsb'_toNat, Nat.shiftRight_eq_div_pow]
  simp
  ring

@[simp] theorem fOPCD_encXFX (rt : BitVec 5) (num xo : BitVec 10) : fOPCD (encXFX rt num xo) = 31#6 := by
  have h1 := rt.isLt; have h3 := xo.isLt
  have h2 : num.toNat / 32 < 32 := Nat.div_lt_of_lt_mul num.isLt
  have h4 : num.toNat % 32 < 32 := Nat.mod_lt _ (by decide)
  refine BitVec.eq_of_toNat_eq ?_
  rw [fOPCD, field_toNat, encXFX_toNat]
  simp only [BitVec.toNat_ofNat, Nat.reducePow, Nat.reduceSub, Nat.mod_eq_of_lt h2]
  generalize num.toNat / 32 = q at *
  generalize num.toNat % 32 = p at *
  omega

@[simp] theorem fRT_encXFX (rt : BitVec 5) (num xo : BitVec 10) : fRT (encXFX rt num xo) = rt := by
  have h1 := rt.isLt; have h3 := xo.isLt
  have h2 : num.toNat / 32 < 32 := Nat.div_lt_of_lt_mul num.isLt
  have h4 : num.toNat % 32 < 32 := Nat.mod_lt _ (by decide)
  refine BitVec.eq_of_toNat_eq ?_
  rw [fRT, field_toNat, encXFX_toNat]
  simp only [Nat.reducePow, Nat.reduceSub, Nat.mod_eq_of_lt h2]
  generalize num.toNat / 32 = q at *
  generalize num.toNat % 32 = p at *
  omega

@[simp] theorem fXO10_encXFX (rt : BitVec 5) (num xo : BitVec 10) : fXO10 (encXFX rt num xo) = xo := by
  have h1 := rt.isLt; have h3 := xo.isLt
  have h2 : num.toNat / 32 < 32 := Nat.div_lt_of_lt_mul num.isLt
  have h4 : num.toNat % 32 < 32 := Nat.mod_lt _ (by decide)
  refine BitVec.eq_of_toNat_eq ?_
  rw [fXO10, field_toNat, encXFX_toNat]
  simp only [Nat.reducePow, Nat.reduceSub, Nat.mod_eq_of_lt h2]
  generalize num.toNat / 32 = q at *
  generalize num.toNat % 32 = p at *
  omega

@[simp] theorem fNum_encXFX (rt : BitVec 5) (num xo : BitVec 10) : fNum (encXFX rt num xo) = num := by
  have h1 := rt.isLt; have h3 := xo.isLt
  have h2 : num.toNat / 32 < 32 := Nat.div_lt_of_lt_mul num.isLt
  have h4 : num.toNat % 32 < 32 := Nat.mod_lt _ (by decide)
  have hq : (field (encXFX rt num xo) 16 5).toNat = num.toNat / 32 := by
    rw [field_toNat, encXFX_toNat]
    simp only [Nat.reducePow, Nat.reduceSub, Nat.mod_eq_of_lt h2]
    generalize num.toNat / 32 = q at *
    generalize num.toNat % 32 = p at *
    omega
  have hp : (field (encXFX rt num xo) 11 5).toNat = num.toNat % 32 := by
    rw [field_toNat, encXFX_toNat]
    simp only [Nat.reducePow, Nat.reduceSub, Nat.mod_eq_of_lt h2]
    generalize num.toNat / 32 = q at *
    generalize num.toNat % 32 = p at *
    omega
  refine BitVec.eq_of_toNat_eq ?_
  show (field (encXFX rt num xo) 16 5 ++ field (encXFX rt num xo) 11 5).toNat = _
  rw [toNat_append_mul, hq, hp]
  omega

end Sys2Proof
end

