-- ==== Sys2Proof/Laws/Fetch.lean ====
section
/-! SUPPORT. What a fetch and a step can do, said once (R184, R203, R204, R611): with nothing of an earlier state left there is
one word to run; else it is one of those that the fetch side may hold. -/

namespace Sys2Proof.Machine

/-! ### The fetch side -/

/-- With no write that may be missing the fetcher finds storage as it stands. -/
theorem fetchImages_nil {s : State} {ra : Word} {i : Bool} (h : missable s (lineOf ra) i = []) : fetchImages s ra i = [s] := by
  simp [fetchImages, h, undone]

/-- With every write performed no write may be missing (R196). -/
theorem missable_performed {s : State} (h : s.sto.late = []) (l : BitVec 27) (i : Bool) : missable s l i = [] := by
  simp [missable, h]

/-- A caching inhibited fetch misses no settled write (R787). -/
theorem missable_settled {s : State} (h : ∀ w ∈ s.sto.late, w.settled = true) (l : BitVec 27) : missable s l true = [] := by
  simp only [missable, Bool.true_and]
  generalize hl : s.sto.late.filter (fun w => w.old.any (fun o => lineOf o.1 == l)) = ws
  cases ws with
  | nil => rfl
  | cons w ws =>
    have : w ∈ s.sto.late := (List.mem_filter.mp (hl ▸ List.mem_cons_self)).1
    simp [h w this]

/-- Storage as the fetcher may find it differs from the state in the bytes of storage alone. -/
theorem undone_mem {ws : List LateWrite} {s m : State} (h : m ∈ undone ws s) : ∃ k, k ≤ ws.length ∧ m = (ws.take k).foldl undo s := by
  induction ws generalizing s with
  | nil => simp [undone] at h
  | cons w ws ih =>
    simp only [undone, List.mem_cons] at h
    rcases h with rfl | h
    · exact ⟨1, by simp, by simp⟩
    · obtain ⟨k, hk, he⟩ := ih h
      exact ⟨k + 1, by simp only [List.length_cons]; omega, by rw [List.take_succ_cons, List.foldl_cons]; exact he⟩

/-- A read by the fetcher finds storage without the newest `k` of the writes to its line that may be missing, for some `k`
(R203). -/
theorem fetchImages_mem {s m : State} {ra : Word} {i : Bool} (h : m ∈ fetchImages s ra i) : ∃ k, m = withoutWrites s ra i k := by
  have hm : missable s (lineOf ra) i =
      (s.sto.late.filter (fun w => w.old.any (fun o => decide (lineOf o.1 = lineOf ra)))).takeWhile
        (fun w => !i || !w.settled) := by
    simp only [missable, beq_eq_decide, Bool.not_and]
  simp only [fetchImages, List.mem_cons] at h
  rcases h with rfl | h
  · exact ⟨0, by simp [withoutWrites]⟩
  · obtain ⟨k, _, he⟩ := undone_mem h
    exact ⟨k, by rw [he, hm]; rfl⟩

/-- Without earlier fetch states the fetcher takes the machine as it is. -/
theorem fetchViews_nil {s : State} (h : s.pipe.contexts = []) : fetchViews s = [s] := by simp [fetchViews, h]

/-- Two states differ in the prefetch queue, the instruction cache and the counter of free values alone. -/
def FetcherStep (s t : State) : Prop :=
  t = { s with pipe := { s.pipe with queue := t.pipe.queue }, sto := { s.sto with icache := t.sto.icache }, free := t.free }

theorem FetcherStep.refl (s : State) : FetcherStep s s := rfl

theorem FetcherStep.trans {s t u : State} (h : FetcherStep s t) (g : FetcherStep t u) : FetcherStep s u := by
  unfold FetcherStep at *
  rw [g, h]

/-- READING: a read by the fetcher changes the instruction cache and the counter of free values alone (R184). -/
theorem readInstr_eq (views : List State) (ea : Word) (s : State) :
    ∃ ic n, (readInstr views ea s).2 = { s with sto := { s.sto with icache := ic }, free := s.free + n } := by
  obtain ⟨n, hn⟩ := pick_state (.stopped .miss) (views.flatMap (fetchUnder ea)) s
  simp only [readInstr, hn]
  obtain ⟨ic, hc⟩ := afterFetch_eq (pick (.stopped .miss) (views.flatMap (fetchUnder ea)) s).1 (drawn n s)
  exact ⟨ic, n, hc⟩

theorem readInstr_step (views : List State) (ea : Word) (s : State) : FetcherStep s (readInstr views ea s).2 := by
  obtain ⟨ic, n, h⟩ := readInstr_eq views ea s
  rw [h]
  rfl

theorem prefetch_step (n : Nat) (ea : Word) (s : State) : FetcherStep s (prefetch n ea s) := by
  induction n generalizing ea s with
  | zero => exact .refl s
  | succ n ih =>
    rw [prefetch]
    split
    · exact ih _ _
    · split
      · exact .refl s
      · split
        · have h1 : FetcherStep s (drawn 1 s) := rfl
          have h2 := readInstr_step (aheadViews ea s) ea (drawn 1 s)
          have h3 : ∀ f u, FetcherStep u (enqueue ea f u) := fun _ _ => rfl
          exact h1.trans (h2.trans ((h3 _ _).trans (ih _ _)))
        · rfl

/-- READING AHEAD changes the prefetch queue, the instruction cache and the counter of free values alone (R176, R204). -/
theorem readAhead_step (ea : Word) (s : State) : FetcherStep s (readAhead ea s) := by
  have h : ∀ q, FetcherStep s { s with pipe := { s.pipe with queue := q } } := fun _ => rfl
  exact (h _).trans (prefetch_step 3 ea _)

theorem readAhead_eq (ea : Word) (s : State) :
    readAhead ea s = { s with
      pipe := { s.pipe with queue := (readAhead ea s).pipe.queue }
      sto := { s.sto with icache := (readAhead ea s).sto.icache }
      free := (readAhead ea s).free } := readAhead_step ea s

@[simp] theorem readAhead_gpr (ea : Word) (s : State) : (readAhead ea s).gpr = s.gpr := by rw [readAhead_eq]
@[simp] theorem readAhead_pc (ea : Word) (s : State) : (readAhead ea s).pc = s.pc := by rw [readAhead_eq]
@[simp] theorem readAhead_cr (ea : Word) (s : State) : (readAhead ea s).cr = s.cr := by rw [readAhead_eq]
@[simp] theorem readAhead_xer (ea : Word) (s : State) : (readAhead ea s).xer = s.xer := by rw [readAhead_eq]
@[simp] theorem readAhead_lr (ea : Word) (s : State) : (readAhead ea s).lr = s.lr := by rw [readAhead_eq]
@[simp] theorem readAhead_ctr (ea : Word) (s : State) : (readAhead ea s).ctr = s.ctr := by rw [readAhead_eq]
@[simp] theorem readAhead_msr (ea : Word) (s : State) : (readAhead ea s).msr = s.msr := by rw [readAhead_eq]
@[simp] theorem readAhead_usprg0 (ea : Word) (s : State) : (readAhead ea s).usprg0 = s.usprg0 := by rw [readAhead_eq]
@[simp] theorem readAhead_sprg (ea : Word) (s : State) : (readAhead ea s).sprg = s.sprg := by rw [readAhead_eq]
@[simp] theorem readAhead_exc (ea : Word) (s : State) : (readAhead ea s).exc = s.exc := by rw [readAhead_eq]
@[simp] theorem readAhead_tmr (ea : Word) (s : State) : (readAhead ea s).tmr = s.tmr := by rw [readAhead_eq]
@[simp] theorem readAhead_mmu (ea : Word) (s : State) : (readAhead ea s).mmu = s.mmu := by rw [readAhead_eq]
@[simp] theorem readAhead_attr (ea : Word) (s : State) : (readAhead ea s).attr = s.attr := by rw [readAhead_eq]
@[simp] theorem readAhead_icdbdr (ea : Word) (s : State) : (readAhead ea s).icdbdr = s.icdbdr := by rw [readAhead_eq]
@[simp] theorem readAhead_icdbdrOpen (ea : Word) (s : State) : (readAhead ea s).icdbdrOpen = s.icdbdrOpen := by rw [readAhead_eq]
@[simp] theorem readAhead_dbg (ea : Word) (s : State) : (readAhead ea s).dbg = s.dbg := by rw [readAhead_eq]
@[simp] theorem readAhead_reserve (ea : Word) (s : State) : (readAhead ea s).reserve = s.reserve := by rw [readAhead_eq]
@[simp] theorem readAhead_dcr (ea : Word) (s : State) : (readAhead ea s).dcr = s.dcr := by rw [readAhead_eq]
@[simp] theorem readAhead_inp (ea : Word) (s : State) : (readAhead ea s).inp = s.inp := by rw [readAhead_eq]
@[simp] theorem readAhead_env (ea : Word) (s : State) : (readAhead ea s).env = s.env := by rw [readAhead_eq]
@[simp] theorem readAhead_params (ea : Word) (s : State) : (readAhead ea s).params = s.params := by rw [readAhead_eq]

/-- The prefetch queue holds words of the addresses read ahead at alone. -/
theorem prefetch_queue (n : Nat) (ea : Word) (s : State) :
    ∀ q ∈ (prefetch n ea s).pipe.queue, q ∈ s.pipe.queue ∨ ∃ j < n, q.1 = ea + BitVec.ofNat 32 (4 * j) := by
  have next (n : Nat) (ea a : Word) (h : ∃ j < n, a = ea + 4#32 + BitVec.ofNat 32 (4 * j)) :
      ∃ j < n + 1, a = ea + BitVec.ofNat 32 (4 * j) := by
    obtain ⟨j, hj, rfl⟩ := h
    refine ⟨j + 1, by omega, ?_⟩
    rw [BitVec.add_assoc]
    congr 1
    apply BitVec.eq_of_toNat_eq
    simp only [BitVec.toNat_add, BitVec.toNat_ofNat]
    omega
  induction n generalizing ea s with
  | zero => intro q hq; exact .inl hq
  | succ n ih =>
    intro q hq
    rw [prefetch] at hq
    split at hq
    · exact (ih _ _ q hq).imp id (next n ea _)
    · split at hq
      · exact .inl hq
      · split at hq
        · rcases ih _ _ q hq with h | h
          · obtain ⟨ic, m, hr⟩ := readInstr_eq (aheadViews ea s) ea (drawn 1 s)
            simp only [enqueue, hr, List.mem_append, List.mem_singleton] at h
            rcases h with h | h
            · exact .inl h
            · exact .inr ⟨0, by omega, by simp [h]⟩
          · exact .inr (next n ea _ h)
        · exact .inl hq

theorem readAhead_queue (ea : Word) (s : State) :
    ∀ q ∈ (readAhead ea s).pipe.queue, q.1 ∈ [ea, ea + 4#32, ea + 8#32] := by
  intro q hq
  rcases prefetch_queue 3 ea _ q hq with h | ⟨j, hj, h⟩
  · simpa using (List.mem_filter.mp h).2
  · have : j = 0 ∨ j = 1 ∨ j = 2 := by omega
    rcases this with rfl | rfl | rfl <;> simp [h]

/-- Where the fetcher may not read ahead it does not (R176). -/
theorem prefetch_guarded (n : Nat) (ea : Word) (s : State)
    (h : ∀ j < n, aheadViews (ea + BitVec.ofNat 32 (4 * j)) s = []) : prefetch n ea s = s := by
  induction n generalizing ea with
  | zero => rfl
  | succ n ih =>
    have h0 : aheadViews ea s = [] := by simpa using h 0 (by omega)
    rw [prefetch, h0]
    split
    · apply ih
      intro j hj
      have := h (j + 1) (by omega)
      rw [BitVec.add_assoc]
      convert this using 2
      congr 1
      apply BitVec.eq_of_toNat_eq
      simp only [BitVec.toNat_add, BitVec.toNat_ofNat]
      omega
    · rfl

theorem fresh_iff (s : State) :
    fresh s = true ↔ s.pipe.contexts = [] ∧ (∀ q ∈ s.pipe.queue, q.1 ≠ s.pc) ∧ s.sto.late = [] := by
  simp only [fresh, Bool.and_eq_true, List.isEmpty_iff, List.all_eq_true, bne_iff_ne, and_assoc]

/-- What a fetch under one view gives where the address translates and may be executed. -/
theorem fetchUnder_ok {s : State} {ea : Word} {x : Xlate} (hx : xlateFetch s ea = some x) (he : execOk s x = true) :
    fetchUnder ea s = fetchWords x.ra x.attrs s := by simp [fetchUnder, hx, he]

/-- A fetch that hits in cachable storage gives the cached word. -/
theorem fetchWords_hit {s : State} {ra : Word} {x : Attrs} {way : Bool} (hi : x.i = false) (hw : iWay s ra = some way) :
    fetchWords ra x s =
      [{ gives := .word (lineWord ((iSet s (iClass s ra)).get way).words ra) false, ra := ra, cachable := true, fill := none }] := by
  simp [fetchWords, iSeen, hw, hi, Option.filter]

/-- A fetch that finds no copy, with no write that may be missing, gives storage's word. -/
theorem fetchWords_miss {s : State} {ra : Word} {x : Attrs} (hw : iSeen s x ra = none)
    (hl : missable s (lineOf ra) x.i = []) :
    fetchWords ra x s =
      [{ gives := .word (memWord s ra x.e) (busErrorIn s .fetch ra 4), ra := ra, cachable := !x.i
         fill := if x.i || ccrFWOA s then none else instrFill s ra x.e }] := by
  simp [fetchWords, hw, fetchImages_nil hl]

/-- A word in the queue for the pc is the one fetched, and nothing is read (R204). -/
theorem fetchAtPc_queued {s : State} {q : Word × Fetched} (h : s.pipe.queue.find? (fun q => q.1 == s.pc) = some q) :
    fetchAtPc s = (q.2, s) := by simp [fetchAtPc, h]

/-- With no word in the queue for the pc the fetch is a read made now. -/
theorem fetchAtPc_now {s : State} (h : ∀ q ∈ s.pipe.queue, q.1 ≠ s.pc) : fetchAtPc s = readInstr (fetchViews s) s.pc s := by
  have : s.pipe.queue.find? (fun q => q.1 == s.pc) = none := by simpa [List.find?_eq_none] using h
  simp [fetchAtPc, this]

/-! ### The step -/

theorem pick_single {α : Type} [DecidableEq α] (d a : α) (s : State) : pick d [a] s = (a, s) := by
  simp [pick, distinct]

/-- What `ready` says, one by one. -/
theorem ready_iff (s : State) :
    ready s = true ↔ s.env = [] ∧ s.inp.bus = [] ∧ s.dbg.run = .running ∧ asyncInterrupt s = none ∧ msrWE s = false ∧
      iacBits s = 0#32 := by
  simp only [ready, Bool.and_eq_true, List.isEmpty_iff, Option.isNone_iff_eq_none, beq_iff_eq, Bool.not_eq_true', and_assoc]

/-- A step of a ready machine without earlier fetch states runs the instruction at the pc (R611). -/
theorem step_ready {s : State} (h : ready s = true) (hc : s.pipe.contexts = []) : step s = runAtPc s := by
  obtain ⟨h1, h2, h3, h4, h5, h6⟩ := (ready_iff s).mp h
  have hb : busLeftOver s = s := by simp [busLeftOver, h2]
  simp only [step, runStep, hb, h1, runCore, h3, h4, h5]
  simp [runInstruction, fetchViews_nil hc, pick_single, iacEvents, h6]

/-- A read that can be one alone is that one. -/
theorem readInstr_single {s : State} {views : List State} {ea : Word} {f : Fetch} (h : views.flatMap (fetchUnder ea) = [f]) :
    readInstr views ea s = (f.gives, afterFetch f s) := by
  simp [readInstr, h, pick_single]

/-- A READ with a choice is one of those that it may be (R203, R204). -/
theorem readInstr_mem {s : State} {views : List State} {ea : Word} (h : views.flatMap (fetchUnder ea) ≠ []) :
    ∃ f ∈ views.flatMap (fetchUnder ea), ∃ n, readInstr views ea s = (f.gives, afterFetch f { s with free := s.free + n }) := by
  obtain ⟨n, hn⟩ := pick_state (.stopped .miss) (views.flatMap (fetchUnder ea)) s
  refine ⟨_, pick_mem (.stopped .miss) h s, n, ?_⟩
  simp only [readInstr, hn]
  rfl

/-- THE STEP of a ready machine that holds no earlier fetch state and no word for the pc, where the word at the pc is known:
it is run, once the instruction cache has changed and the fetcher has read ahead (R184, R204, R611). -/
theorem step_word {s : State} {x : Xlate} {f : Fetch} {w : Word} (h : ready s = true) (hc : s.pipe.contexts = [])
    (hq : ∀ q ∈ s.pipe.queue, q.1 ≠ s.pc) (hx : xlateFetch s s.pc = some x) (he : execOk s x = true)
    (hf : fetchWords x.ra x.attrs s = [f]) (hw : f.gives = .word w false) :
    step s = runWord w (readAhead (s.pc + 4#32) (afterFetch f s)) := by
  have h1 : (fetchViews s).flatMap (fetchUnder s.pc) = [f] := by simp [fetchViews_nil hc, fetchUnder_ok hx he, hf]
  obtain ⟨ic, hic⟩ := afterFetch_eq f s
  have hpc : (afterFetch f s).pc = s.pc := by rw [hic]
  simp [step_ready h hc, runAtPc, fetchAtPc_now hq, readInstr_single h1, hw, runFetch, runFetched, hpc]

end Sys2Proof.Machine
end

