-- ==== Sys2Proof/Laws/Lines.lean ====
section
/-! SUPPORT. What the operations on cache lines by name do, each said once (R185, R502 to R508): dropping a line, cleaning a
line, dropping a class. `lineAt` is the line that an address hits. -/

namespace Sys2Proof.Machine

theorem DSet.put_lruB (d : DSet) (w : Bool) (x : DLine) : d.put w x = { d.put w x with lruB := d.lruB } := by cases w <;> rfl

/-- Addresses of one line hit one line. -/
theorem lineAt_line {s : State} {a b : Word} (h : lineOf a = lineOf b) : lineAt s a = lineAt s b := by
  simp [lineAt, dWay, dClass_eq, h]

/-- `dropLine` leaves the data cache right, changes nothing else, and takes its line and no other away. -/
theorem dropLine_spec {s : State} (h : dcacheOk s = true) (ra : Word) :
    dcacheOk (dropLine ra s) = true ∧
      dropLine ra s = { s with sto := { s.sto with dcache := (dropLine ra s).sto.dcache } } ∧
      ∀ a, lineAt (dropLine ra s) a = if lineOf a = lineOf ra then none else lineAt s a := by
  cases hw : dWay s ra with
  | none =>
    have e : dropLine ra s = s := by simp [dropLine, hw]
    rw [e]
    refine ⟨h, rfl, fun a => ?_⟩
    by_cases hl : lineOf a = lineOf ra
    · rw [if_pos hl, lineAt_line hl]
      exact (lineAt_none_iff s ra).mpr hw
    · rw [if_neg hl]
  | some w =>
    obtain ⟨hn, hv, hl⟩ := dWay_get hw
    have hk := dClass_lt hn ra
    simp only [dropLine, hw]
    rw [DSet.put_lruB]
    refine ⟨dcacheOk_replace h hk _ _ _ (by simp) (by simp), rfl, fun a => ?_⟩
    rw [lineAt_replace h hk _ _ _ (by simp) (by simp)]
    simp [hv, hl]

/-- `cleanLine` without bus errors: storage holds the line's bytes, every address hits a line of the same bytes or none as
before, and nothing but storage and the data cache changes. -/
theorem cleanLine_spec {s : State} (h : Cached s) (he : s.params.busErrors = []) (ra : Word) :
    Cached (cleanLine ra s) ∧ StorageStep s (cleanLine ra s) ∧
      (∀ a, lineAt (cleanLine ra s) a =
        if lineOf a = lineOf ra then (lineAt s a).map (fun l => { l with dirty := false }) else lineAt s a) ∧
      (∀ a, memByte (cleanLine ra s) a = if lineOf a = lineOf ra then dataByte s a else memByte s a) := by
  have hclean := (cleanAgrees_iff s).mp h.clean
  cases hw : dWay s ra with
  | none =>
    have e : cleanLine ra s = s := by simp [cleanLine, hw]
    have hnone : ∀ a, lineOf a = lineOf ra → lineAt s a = none := fun a ha => by
      rw [lineAt_line ha]
      exact (lineAt_none_iff s ra).mpr hw
    rw [e]
    refine ⟨h, StorageStep.refl he, fun a => ?_, fun a => ?_⟩
    · split
      · rename_i hl
        rw [hnone a hl]
        rfl
      · rfl
    · split
      · rename_i hl
        rw [dataByte_of_none (hnone a hl)]
      · rfl
  | some w =>
    obtain ⟨hn, hv, hl⟩ := dWay_get hw
    have hk := dClass_lt hn ra
    have hra := lineAt_of_dWay hw
    generalize hl0 : (dSet s (dClass s ra)).get w = l0 at *
    have hat : ∀ a, lineOf a = lineOf ra → lineAt s a = some l0 := fun a ha => by rw [lineAt_line ha, hra]
    cases hd : l0.dirty with
    | false =>
      have e : cleanLine ra s = s := by simp [cleanLine, hw, hl0, hd]
      rw [e]
      refine ⟨h, StorageStep.refl he, fun a => ?_, fun a => ?_⟩
      · split
        · rename_i ha
          rw [hat a ha]
          have : { l0 with dirty := false } = l0 := by rw [← hd]
          simp [this]
        · rfl
      · split
        · rename_i ha
          rw [dataByte_of_line (hat a ha), hclean a l0 (hat a ha) hd]
        · rfl
    | true =>
      have hstep := busWrite_step (d := false) he (lineBase l0.line) l0.data.toList
      have hp1 : (busWrite false (lineBase l0.line) l0.data.toList s).params = s.params := hstep.params
      have hd1 := busWrite_dcache (d := false) he (lineBase l0.line) l0.data.toList
      have hset : dSet (busWrite false (lineBase l0.line) l0.data.toList s) (dClass s ra) = dSet s (dClass s ra) := by
        simp only [dSet, hd1]
      have e : cleanLine ra s =
          setDSet (dClass s ra) ((dSet s (dClass s ra)).put w { l0 with dirty := false })
            (busWrite false (lineBase l0.line) l0.data.toList s) := by
        simp only [cleanLine, hw, hl0, hd, if_true, hset]
      have hdc1 : dcacheOk (busWrite false (lineBase l0.line) l0.data.toList s) = true := by
        rw [dcacheOk_congr hd1 hp1]
        exact h.dc
      have hmb : ∀ a, memByte (busWrite false (lineBase l0.line) l0.data.toList s) a =
          if lineOf a = lineOf ra then lineByte l0.data (lineOffset a).toNat else memByte s a := by
        intro a
        rw [memByte_busWrite h.mem he, storeView_eq _ _ _ _ (by simp)]
        simp only [Vector.length_toList]
        by_cases ha : lineOf a = lineOf ra
        · rw [dif_pos ((sub_lineBase_lt a l0.line).mpr (by rw [hl, ha])), if_pos ha, lineByte_eq _ (lineOffset_lt a)]
          simp only [Vector.getElem_toList, sub_lineBase (hl ▸ ha : lineOf a = l0.line)]
        · rw [dif_neg (fun x => ha (by rw [← hl]; exact (sub_lineBase_lt a l0.line).mp x)), if_neg ha]
      generalize busWrite false (lineBase l0.line) l0.data.toList s = s1 at *
      have hx : { l0 with dirty := false }.valid = true → ((dSet s1 (dClass s ra)).get (!w)).valid = true →
          ((dSet s1 (dClass s ra)).get (!w)).line ≠ { l0 with dirty := false }.line := by
        intro _ ho
        rw [hset] at ho ⊢
        have := DSet.other_line (dcacheOk_dSet h.dc (dClass s ra)) w (by rw [hl0]; exact hv) ho
        rwa [hl0] at this
      have hlk : { l0 with dirty := false }.valid = true →
          { l0 with dirty := false }.line.toNat % s1.params.dcacheSize.classes = dClass s ra := by
        intro _
        show l0.line.toNat % _ = _
        rw [hl, hp1, dClass_eq]
      have hk1 : dClass s ra < s1.params.dcacheSize.classes := by rw [hp1]; exact hk
      have e2 : cleanLine ra s =
          setDSet (dClass s ra)
            { (dSet s1 (dClass s ra)).put w { l0 with dirty := false } with lruB := (dSet s (dClass s ra)).lruB } s1 := by
        rw [e, DSet.put_lruB, hset]
      have hline : ∀ a, lineAt (cleanLine ra s) a =
          if lineOf a = lineOf ra then (lineAt s a).map (fun l => { l with dirty := false }) else lineAt s a := by
        intro a
        rw [e2, lineAt_replace hdc1 hk1 w _ _ hx hlk]
        simp only [hset, hl0, hv, true_and, hl]
        split
        · rename_i ha
          rw [hat a ha]
          simp [hv, hl]
        · exact lineAt_congr hd1 hp1 a
      have hmem : ∀ a, memByte (cleanLine ra s) a = if lineOf a = lineOf ra then dataByte s a else memByte s a := by
        intro a
        rw [e]
        show memByte s1 a = _
        rw [hmb a]
        split
        · rename_i ha
          rw [dataByte_of_line (hat a ha)]
        · rfl
      refine ⟨⟨?_, ?_, ?_⟩, ?_, hline, hmem⟩
      · have h1 : memOk (cleanLine ra s) = true := memOk_cleanLine h.mem ra
        exact h1
      · rw [e2]
        exact dcacheOk_replace hdc1 hk1 w _ _ hx hlk
      · rw [cleanAgrees_iff]
        intro a l hal hld
        rw [hline a] at hal
        rw [hmem a]
        by_cases ha : lineOf a = lineOf ra
        · rw [if_pos ha, hat a ha] at hal
          cases hal
          rw [if_pos ha, dataByte_of_line (hat a ha)]
        · rw [if_neg ha] at hal
          rw [if_neg ha]
          exact hclean a l hal hld
      · rw [e]
        exact hstep.trans (StorageStep.putDSet (by rw [hp1]; exact he) _ _)

/-- `dropClass` leaves the data cache right, changes nothing else, and takes the lines of its class and no other away. -/
theorem dropClass_spec {s : State} (h : dcacheOk s = true) (ra : Word) :
    dcacheOk (dropClass ra s) = true ∧
      dropClass ra s = { s with sto := { s.sto with dcache := (dropClass ra s).sto.dcache } } ∧
      ∀ a, lineAt (dropClass ra s) a = if dClass s a = dClass s ra then none else lineAt s a := by
  by_cases hn : s.params.dcacheSize.classes = 0
  · have e : dropClass ra s = s := by simp [dropClass, hn]
    rw [e]
    refine ⟨h, rfl, fun a => ?_⟩
    have : lineAt s a = none := by simp [lineAt, dWay, hn]
    simp [this]
  · have e : dropClass ra s = setDSet (dClass s ra)
        { a := { (dSet s (dClass s ra)).a with valid := false, dirty := false },
          b := { (dSet s (dClass s ra)).b with valid := false, dirty := false }, lruB := (dSet s (dClass s ra)).lruB } s := by
      simp [dropClass, hn]
    rw [e]
    refine ⟨dcacheOk_setDSet h (dClass_lt hn ra) (by simp [DSet.ok]), rfl, fun a => ?_⟩
    rw [lineAt_eq (by simpa using hn), dSet_setDSet h]
    have hc : dClass (setDSet (dClass s ra)
        { a := { (dSet s (dClass s ra)).a with valid := false, dirty := false },
          b := { (dSet s (dClass s ra)).b with valid := false, dirty := false }, lruB := (dSet s (dClass s ra)).lruB } s) a =
        dClass s a := rfl
    rw [hc]
    split
    · simp [DSet.find, DSet.way]
    · exact (lineAt_eq hn).symm

end Sys2Proof.Machine
end

