-- ==== Sys2Proof/Laws/Ops.lean ====
section
/-! SUPPORT. Laws of the shared operations: how an instruction completes, what a debug event does, taking an exception and
returning from one, and the storage accesses of an instruction, each said once. -/

namespace Sys2Proof.Machine

/-! ### States without armed debug events -/

theorem bit_of_field_zero {w : Word} {i : Nat} (h : field w 0 4 = 0#4) (hi : i < 4) : bit w i = false := by
  have h1 : (field w 0 4).getLsbD (3 - i) = false := by rw [h]; simp
  rw [bit, BitVec.getMsbD]
  simp only [field, BitVec.getLsbD_extractLsb'] at h1
  have h2 : 28 + (3 - i) = 32 - 1 - i := by omega
  have h3 : 3 - i < 4 := by omega
  have h4 : i < 32 := by omega
  simp only [h3, decide_true, Bool.true_and] at h1
  rw [← h2]
  simp [h4, h1]

/-- What a quiet state has switched off. -/
theorem quiet_iff (s : State) :
    quiet s = true ↔
      dbIC s = false ∧ dbBT s = false ∧ dbEDE s = false ∧ dbTDE s = false ∧ field s.dbg.dbcr1 0 4 = 0#4 := by
  simp only [quiet, Bool.and_eq_true, Bool.not_eq_true', beq_iff_eq]
  tauto

theorem quiet_dbIC {s : State} (h : quiet s = true) : dbIC s = false := ((quiet_iff s).mp h).1
theorem quiet_dbBT {s : State} (h : quiet s = true) : dbBT s = false := ((quiet_iff s).mp h).2.1
theorem quiet_dbEDE {s : State} (h : quiet s = true) : dbEDE s = false := ((quiet_iff s).mp h).2.2.1
theorem quiet_dbTDE {s : State} (h : quiet s = true) : dbTDE s = false := ((quiet_iff s).mp h).2.2.2.1
theorem quiet_dbcr1 {s : State} (h : quiet s = true) {i : Nat} (hi : i < 4) : bit s.dbg.dbcr1 i = false :=
  bit_of_field_zero ((quiet_iff s).mp h).2.2.2.2 hi

theorem dacBit_quiet {s : State} (h : quiet s = true) (store two : Bool) : dacBit s store two = 0#32 := by
  cases store <;> cases two <;> simp [dacBit, quiet_dbcr1 h]

theorem dacBits_quiet {s : State} (h : quiet s = true) (store : Bool) (eas : List Word) : dacBits s store eas = 0#32 := by
  simp [dacBits, dacBitsOf, dacBit_quiet h]

theorem cacheDacBits_quiet {s : State} (h : quiet s = true) (store : Bool) (ea : Word) : cacheDacBits s store ea = 0#32 := by
  simp [cacheDacBits, dacBit_quiet h]

theorem dvcEnabled_quiet {s : State} (h : quiet s = true) (two : Bool) : dvcEnabled s two = false := by
  cases two <;> simp [dvcEnabled, quiet_dbcr1 h]

theorem dvcBits_quiet {s : State} (h : quiet s = true) (store : Bool) (us : List (Word × List Byte)) :
    dvcBits s store us = 0#32 := by simp [dvcBits, dvcBitsOf, dvcEnabled_quiet h]

theorem dvcDraw_quiet {s : State} (h : quiet s = true) : dvcDraw s = 0 := by simp [dvcDraw, dvcEnabled_quiet h]

/-- Whether a state is quiet is a matter of the debug registers alone. -/
theorem quiet_congr {s t : State} (h : s.dbg = t.dbg) : quiet s = quiet t := by
  simp [quiet, dbIC, dbBT, dbEDE, dbTDE, h]

/-! ### Debug events -/

@[simp] theorem debugEvent_zero (mode : State) (a : Word) (s : State) : debugEvent mode 0#32 a s = s := by
  simp [debugEvent]

@[simp] theorem beforeEvent_zero (k : State → State) (s : State) : beforeEvent 0#32 k s = k s := by simp [beforeEvent]

/-- Everything a debug event can do: nothing, stop the core, take the debug interrupt, be recorded, or enter debug wait
(R722 to R725, R660). -/
theorem debugEvent_cases (mode : State) (bits a : Word) (s : State) :
    (bits = 0#32 ∧ debugEvent mode bits a s = s) ∨
      (bits ≠ 0#32 ∧ dbEDM mode = true ∧
        debugEvent mode bits a s = setRun .stopped { recordEvent mode bits s with pc := a }) ∨
      (bits ≠ 0#32 ∧ dbEDM mode = false ∧ dbIDM mode = true ∧ msrDE mode = true ∧
        debugEvent mode bits a s = enter .critical 0x2000#32 a (recordEvent mode bits s)) ∨
      (bits ≠ 0#32 ∧ dbEDM mode = false ∧ dbIDM mode = true ∧ msrDE mode = false ∧
        debugEvent mode bits a s = recordEvent mode bits s) ∨
      (bits ≠ 0#32 ∧ dbEDM mode = false ∧ dbIDM mode = false ∧ debugWaitMode mode = true ∧
        debugEvent mode bits a s = setRun .debugWait { recordEvent mode bits s with pc := a }) ∨
      (bits ≠ 0#32 ∧ dbEDM mode = false ∧ dbIDM mode = false ∧ debugWaitMode mode = false ∧
        debugEvent mode bits a s = recordEvent mode bits s) := by
  by_cases hb : bits = 0#32
  · exact .inl ⟨hb, by simp [hb]⟩
  · cases he : dbEDM mode <;> cases hi : dbIDM mode <;> cases hd : msrDE mode <;> cases hw : debugWaitMode mode <;>
      simp [debugEvent, hb, he, hi, hd, hw]

/-! ### Completing -/

theorem completionBits_of_dbIC {s : State} (h : dbIC s = false) : completionBits s = 0#32 := by simp [completionBits, h]

/-- Without the completion event an instruction completes by moving the pc. -/
theorem complete_plain {mode : State} (h : dbIC mode = false) (nia : Word) (s : State) :
    complete mode nia 0#32 s = { s with pc := nia } := by
  simp [complete, completionBits_of_dbIC h]

/-- Without the completion event the next instruction is the one after this. -/
theorem advance_plain {s : State} (h : dbIC s = false) (t : State) : advance s t = { t with pc := s.pc + 4#32 } := by
  simp [advance, complete_plain h]

theorem advance_quiet {s : State} (h : quiet s = true) (t : State) : advance s t = { t with pc := s.pc + 4#32 } :=
  advance_plain (quiet_dbIC h) t

/-- With the completion event enabled in internal debug mode and MSR[DE] = 1 an instruction that completes takes the debug
interrupt, saving the next instruction's address (R726, R660). -/
theorem advance_internal {s : State} (hic : dbIC s = true) (hid : dbIDM s = true) (hed : dbEDM s = false)
    (hde : msrDE s = true) (t : State) :
    advance s t = enter .critical 0x2000#32 (s.pc + 4#32) (setDbsrBits dbsrIC { t with pc := s.pc + 4#32 }) := by
  have h1 : completionBits s = dbsrIC := by simp [completionBits, hic, debugMasked, internalDebug, hid, hed, hde]
  have h2 : dbsrIC ≠ 0#32 := by decide
  simp [advance, complete, h1, debugEvent, h2, hed, hid, hde, recordEvent]

/-! ### Taking an exception -/

/-- Entry to a noncritical interrupt (R604). -/
theorem enter_noncritical (off a : Word) (s : State) (h : s.dbg.run ≠ .debugWait) :
    enter .noncritical off a s =
      { s with exc := { s.exc with srr0 := wordAligned a, srr1 := s.msr }, msr := s.msr &&& 0x00021200#32,
               pc := vectorAddress s off, pipe := Pipe.empty } := by
  simp [enter, h, IntClass.msrKept]

/-- Entry to a critical interrupt (R605). -/
theorem enter_critical (off a : Word) (s : State) (h : s.dbg.run ≠ .debugWait) :
    enter .critical off a s =
      { s with exc := { s.exc with srr2 := wordAligned a, srr3 := s.msr }, msr := s.msr &&& 0x00001000#32,
               pc := vectorAddress s off, pipe := Pipe.empty } := by
  simp [enter, h, IntClass.msrKept]

/-- Entry to a machine check (R606). -/
theorem enter_machineCheck (off a : Word) (s : State) (h : s.dbg.run ≠ .debugWait) :
    enter .machineCheck off a s =
      { s with exc := { s.exc with srr2 := wordAligned a, srr3 := s.msr }, msr := 0#32, pc := vectorAddress s off,
               pipe := Pipe.empty } := by
  simp [enter, h, IntClass.msrKept]

/-- Without the exception event taking an exception is the entry. -/
theorem takeInterrupt_plain {c : IntClass} {off a : Word} {s : State} (h : dbEDE s = false) :
    takeInterrupt c off a s = enter c off a s := by
  have : dbEDE (enter c off a s) = false := by cases c <;> exact h
  simp [takeInterrupt, exceptionEvent, this]

/-- A privileged instruction in the supervisor state has its effect. -/
theorem privileged_supervisor {s : State} (h : msrPR s = false) (k : State → State) : privileged k s = k s := by
  simp [privileged, h]

/-- A privileged instruction in the problem state takes the program interrupt. -/
theorem privileged_user {s : State} (h : msrPR s = true) (k : State → State) :
    privileged k s = programInterrupt esrPPR s := by simp [privileged, h]

/-! ### The accesses of an instruction -/

/-- Each access of an operand lies in one aligned word. -/
theorem splitUnits_word (fuel : Nat) (ea : Word) (n : Nat) :
    ∀ u ∈ splitUnits fuel ea n, 0 < u.2 ∧ u.1.toNat % 4 + u.2 ≤ 4 := by
  induction fuel generalizing ea n with
  | zero => simp [splitUnits]
  | succ f ih =>
    intro u hu
    rw [splitUnits] at hu
    split at hu
    · cases hu
    · rcases List.mem_cons.mp hu with rfl | h
      · simp only
        omega
      · exact ih _ _ u h

/-- Translation keeps the place of an address in its 1KB page. -/
theorem realAddress_mod (t : TlbEntry) (ea : Word) : (realAddress t ea).toNat % 1024 = ea.toNat % 1024 := by
  have hk : 10 ≤ pageShift t.size := by simp [pageShift]
  generalize pageShift t.size = k at hk
  have h : (realAddress t ea) &&& 0x3FF#32 = ea &&& 0x3FF#32 → (realAddress t ea).toNat % 1024 = ea.toNat % 1024 := by
    intro h
    have := congrArg BitVec.toNat h
    simp only [BitVec.toNat_and] at this
    have e : (0x3FF#32).toNat = 2 ^ 10 - 1 := by decide
    rw [e, Nat.and_two_pow_sub_one_eq_mod, Nat.and_two_pow_sub_one_eq_mod] at this
    exact this
  apply h
  have hk' : 10 ≤ pageShift t.size := by simp [pageShift]
  apply BitVec.eq_of_getLsbD_eq
  intro i hi
  simp only [realAddress, BitVec.getLsbD_and, BitVec.getLsbD_or, BitVec.getLsbD_shiftLeft, BitVec.getLsbD_not,
    BitVec.getLsbD_allOnes]
  by_cases hm : (0x3FF#32).getLsbD i = true
  · have hi10 : i < 10 := by
      by_contra hge
      have h1 : ∀ j, j < 32 → 10 ≤ j → (0x3FF#32).getLsbD j = false := by decide
      rw [h1 i hi (by omega)] at hm
      cases hm
    have : i < pageShift t.size := by omega
    simp [this, hi]
  · have hm : (0x3FF#32).getLsbD i = false := by simpa using hm
    simp [hm]

theorem xlate_mod {s : State} {on : Bool} {c ea : Word} {x : Xlate} (h : xlate s on c ea = some x) :
    x.ra.toNat % 1024 = ea.toNat % 1024 := by
  cases on
  · simp only [xlate, Bool.false_eq_true, if_false, Option.some.injEq] at h
    rw [← h]
    rfl
  · simp only [xlate, if_true, Option.map_eq_some_iff] at h
    obtain ⟨nt, _, hx⟩ := h
    rw [← hx]
    exact realAddress_mod nt.2 ea

theorem unitXlate_mod {s : State} {store : Bool} {ea : Word} {x : Xlate} (h : unitXlate s store ea = .ok x) :
    x.ra.toNat % 1024 = ea.toNat % 1024 := by
  cases store
  · simp only [unitXlate, loadXlate, Bool.false_eq_true, if_false] at h
    split at h
    · cases h
    · rename_i y hy
      split at h
      · cases h
        exact xlate_mod hy
      · cases h
  · simp only [unitXlate, storeXlate, if_true] at h
    split at h
    · cases h
    · rename_i y hy
      split at h
      · cases h
        exact xlate_mod hy
      · cases h

/-- Every access that passed its check lies inside a line. -/
theorem checkUnits_inLine {s : State} {store : Bool} {us : List (Word × Nat)}
    (hus : ∀ u ∈ us, 0 < u.2 ∧ u.1.toNat % 4 + u.2 ≤ 4) :
    ∀ u ∈ (checkUnits s store us).1, (lineOffset u.x.ra).toNat + u.n ≤ 32 := by
  induction us with
  | nil => simp [checkUnits]
  | cons p us ih =>
    obtain ⟨ea, n⟩ := p
    intro u hu
    rw [checkUnits] at hu
    split at hu
    · cases hu
    · rename_i x hx
      simp only [List.mem_cons] at hu
      rcases hu with rfl | hu
      · have h1 := (hus (ea, n) List.mem_cons_self).2
        have h2 := unitXlate_mod hx
        simp only at h1 ⊢
        rw [lineOffset_toNat]
        omega
      · exact ih (fun v hv => hus v (List.mem_cons_of_mem _ hv)) u hu

theorem units_inLine (s : State) (store : Bool) (ea : Word) (n : Nat) :
    ∀ u ∈ (checkUnits s store (units ea n)).1, (lineOffset u.x.ra).toNat + u.n ≤ 32 :=
  checkUnits_inLine (splitUnits_word n ea n)

/-- The condition `plain` on an access, one by one. -/
theorem plain_iff (s : State) (us : List UnitAccess) :
    plain s us = true ↔
      s.params.busErrors = [] ∧ ccrLWL s = false ∧ s.sto.buffer = none ∧ undisturbed s = true ∧
        ((∀ u ∈ us, u.x.attrs.i = false) ∨
          ∀ u ∈ us, u.x.attrs.i = true ∧ u.x.attrs.w = false ∧ dWay s u.x.ra = none) := by
  simp only [plain, Bool.and_eq_true, Bool.or_eq_true, List.all_eq_true, Bool.not_eq_true', List.isEmpty_iff,
    Option.isNone_iff_eq_none]
  constructor
  · rintro ⟨⟨⟨⟨h1, h2⟩, h3⟩, h0⟩, h4⟩
    refine ⟨h1, h2, h3, h0, ?_⟩
    rcases h4 with h4 | h4
    · exact .inl h4
    · exact .inr (fun u hu => ⟨(h4 u hu).1.1, (h4 u hu).1.2, (h4 u hu).2⟩)
  · rintro ⟨h1, h2, h3, h0, h4⟩
    refine ⟨⟨⟨⟨h1, h2⟩, h3⟩, h0⟩, ?_⟩
    rcases h4 with h4 | h4
    · exact .inl h4
    · exact .inr (fun u hu => ⟨⟨(h4 u hu).1, (h4 u hu).2.1⟩, (h4 u hu).2.2⟩)

theorem StorageStep.attr {s t : State} (h : StorageStep s t) : t.attr = s.attr := by rw [h.rest]
theorem StorageStep.buffer {s t : State} (h : StorageStep s t) : t.sto.buffer = s.sto.buffer := by rw [h.rest]
theorem StorageStep.lwl {s t : State} (h : StorageStep s t) : ccrLWL t = ccrLWL s := by simp [ccrLWL, h.attr]
theorem StorageStep.undisturbed {s t : State} (h : StorageStep s t) : undisturbed t = undisturbed s := by
  rw [h.rest]
  rfl
theorem StorageStep.dbg {s t : State} (h : StorageStep s t) : t.dbg = s.dbg := by rw [h.rest]
theorem StorageStep.pc {s t : State} (h : StorageStep s t) : t.pc = s.pc := by rw [h.rest]

/-- Where no other bus master writes inside an instruction, nothing happens before an access. -/
theorem busTurn_undisturbed {s : State} (h : undisturbed s = true) : busTurn s = s := by
  simp only [undisturbed, List.isEmpty_iff] at h
  simp [busTurn, h]

/-- A store to uncached storage leaves the cache as it is, so accesses after it are plain too. -/
theorem plain_tail {s t : State} {u : UnitAccess} {us : List UnitAccess} (h : plain s (u :: us) = true)
    (hst : StorageStep s t) (hi : u.x.attrs.i = true → t.sto.dcache = s.sto.dcache) : plain t us = true := by
  rw [plain_iff] at h ⊢
  obtain ⟨h1, h2, h3, h0, h4⟩ := h
  refine ⟨by rw [hst.params]; exact h1, by rw [hst.lwl]; exact h2, by rw [hst.buffer]; exact h3,
    by rw [hst.undisturbed]; exact h0, ?_⟩
  rcases h4 with h4 | h4
  · exact .inl (fun v hv => h4 v (List.mem_cons_of_mem _ hv))
  · refine .inr (fun v hv => ?_)
    have hv' := h4 v (List.mem_cons_of_mem _ hv)
    refine ⟨hv'.1, hv'.2.1, ?_⟩
    rw [dWay_congr (hi (h4 u List.mem_cons_self).1) hst.params]
    exact hv'.2.2

theorem plain_head {s : State} {u : UnitAccess} {us : List UnitAccess} (h : plain s (u :: us) = true) :
    s.params.busErrors = [] ∧ ccrLWL s = false ∧ s.sto.buffer = none ∧ busTurn s = s ∧
      (u.x.attrs.i = false ∨ (u.x.attrs.i = true ∧ u.x.attrs.w = false ∧ dWay s u.x.ra = none)) := by
  rw [plain_iff] at h
  obtain ⟨h1, h2, h3, h0, h4⟩ := h
  refine ⟨h1, h2, h3, busTurn_undisturbed h0, ?_⟩
  rcases h4 with h4 | h4
  · exact .inl (h4 u List.mem_cons_self)
  · exact .inr (h4 u List.mem_cons_self)

/-- What accesses find depends on what addresses read as alone. -/
theorem viewUnits_congr {s t : State} (h : ∀ a, dataByte t a = dataByte s a) (us : List UnitAccess) :
    viewUnits t us = viewUnits s us := by
  simp only [viewUnits, h]

/-- Plain loads find what the addresses read as, and leave every address reading as it did (R182). -/
theorem loadUnits_spec {s : State} (us : List UnitAccess) (h : Cached s) (hp : plain s us = true)
    (hin : ∀ u ∈ us, (lineOffset u.x.ra).toNat + u.n ≤ 32) :
    (loadUnits us s).1 = viewUnits s us ∧ Cached (loadUnits us s).2 ∧
      (us = [] ∨ StorageStep s (loadUnits us s).2) ∧ ∀ a, dataByte (loadUnits us s).2 a = dataByte s a := by
  induction us generalizing s with
  | nil => exact ⟨rfl, h, .inl rfl, fun _ => rfl⟩
  | cons u us ih =>
    obtain ⟨he, hl, hb, h0, hx⟩ := plain_head hp
    obtain ⟨h1, h2, h3, h4, h5⟩ := dataRead_spec h he hb hl u.x.ra u.x.attrs u.n (hin u List.mem_cons_self) hx
    have hp' : plain (dataRead u.x.ra u.x.attrs u.n s).2 us = true :=
      plain_tail hp h3 (fun hi => by rw [h5 hi])
    obtain ⟨g1, g2, g3, g4⟩ := ih h2 hp' (fun v hv => hin v (List.mem_cons_of_mem _ hv))
    simp only [loadUnits, h0]
    refine ⟨?_, g2, .inr ?_, fun a => by rw [g4, h4]⟩
    · rw [g1, h1, viewUnits_congr h4]
      simp only [viewUnits, viewBytes, List.flatMap_cons, List.map_map]
      rfl
    · rcases g3 with g3 | g3
      · subst g3
        exact h3
      · exact h3.trans g3

/-- Bytes for a number of accesses. -/
def unitTotal (us : List UnitAccess) : Nat := (us.map (·.n)).sum

/-- Plain stores leave every address reading as the bytes stored say (R171, R182). -/
theorem storeUnits_spec {s : State} (us : List UnitAccess) (bs : List Byte) (h : Cached s) (hp : plain s us = true)
    (hin : ∀ u ∈ us, (lineOffset u.x.ra).toNat + u.n ≤ 32) :
    Cached (storeUnits us bs s) ∧ (us = [] ∨ StorageStep s (storeUnits us bs s)) ∧
      ∀ a, dataByte (storeUnits us bs s) a = storeUnitsView (dataByte s) us bs a := by
  induction us generalizing s bs with
  | nil => exact ⟨h, .inl rfl, fun _ => rfl⟩
  | cons u us ih =>
    obtain ⟨he, hl, hb, h0, hx⟩ := plain_head hp
    have hlen : (lineOffset u.x.ra).toNat + (bs.take u.n).length ≤ 32 := by
      have := hin u List.mem_cons_self
      have : (bs.take u.n).length ≤ u.n := List.length_take_le _ _
      omega
    obtain ⟨h1, h2, h3, h4⟩ := dataWrite_spec h he hb u.x.ra u.x.attrs (bs.take u.n) hlen hx
    have hp' : plain (dataWrite u.x.ra u.x.attrs (bs.take u.n) s) us = true := plain_tail hp h2 h4
    obtain ⟨g1, g2, g3⟩ := ih (bs.drop u.n) h1 hp' (fun v hv => hin v (List.mem_cons_of_mem _ hv))
    simp only [storeUnits, h0]
    refine ⟨g1, .inr ?_, fun a => ?_⟩
    · rcases g2 with g2 | g2
      · subst g2
        exact h2
      · exact h2.trans g2
    · rw [g3, storeUnitsView, show dataByte (dataWrite u.x.ra u.x.attrs (bs.take u.n) s) =
        storeView (dataByte s) u.x.ra (bs.take u.n) from funext h3]

/-- THE LOAD: in a quiet state whose accesses pass their checks and are plain, the instruction gets the bytes its addresses
read as, no address reads otherwise afterwards, and the pc moves on (R141, R165, R182, R320). -/
theorem loadBytes_spec {s : State} (ea : Word) (n : Nat) (part done : List (Byte × Bool) → State → State)
    (hq : quiet s = true) (hc : Cached s) (hok : (checkUnits s false (units ea n)).2 = none)
    (hp : plain s (checkUnits s false (units ea n)).1 = true) (hd : ∀ bs t, (done bs t).dbg = t.dbg) :
    ∃ t, loadBytes ea n part done s =
        { done (viewUnits s (checkUnits s false (units ea n)).1) t with pc := s.pc + 4#32 } ∧
      Cached t ∧ t = { s with sto := { s.sto with mem := t.sto.mem, dcache := t.sto.dcache, late := t.sto.late } } ∧
      ∀ a, dataByte t a = dataByte s a := by
  obtain ⟨h1, h2, h3, h4⟩ := loadUnits_spec _ hc hp (units_inLine s false ea n)
  generalize hus : checkUnits s false (units ea n) = r at *
  obtain ⟨us, f⟩ := r
  simp only at hok hp h1 h2 h3 h4 ⊢
  subst hok
  have hrest : (loadUnits us s).2 =
      { s with sto := { s.sto with
          mem := (loadUnits us s).2.sto.mem, dcache := (loadUnits us s).2.sto.dcache
          late := (loadUnits us s).2.sto.late } } := by
    rcases h3 with h3 | h3
    · subst h3; rfl
    · exact h3.rest
  refine ⟨(loadUnits us s).2, ?_, h2, hrest, h4⟩
  have hq2 : quiet (done (viewUnits s us) (loadUnits us s).2) = true := by
    rw [quiet_congr (t := s) (by rw [hd, hrest])]
    exact hq
  simp only [loadBytes, hus, dacBits_quiet hq, beforeEvent_zero]
  rw [← h1] at hq2 ⊢
  simp only [dvcBits_quiet hq2, dvcDraw_quiet hq2, complete_plain (quiet_dbIC hq)]
  rfl

/-- THE STORE: in a quiet state whose accesses pass their checks and are plain, the accesses are made, the addresses read as
the bytes stored say, and the pc moves on (R141, R165, R182, R320). -/
theorem storeBytes_spec {s : State} (ea : Word) (n : Nat) (bytes : List Bool → List Byte) (done : State → State)
    (hq : quiet s = true) (hc : Cached s) (hok : (checkUnits s true (units ea n)).2 = none)
    (hp : plain s (checkUnits s true (units ea n)).1 = true) (hd : ∀ t, (done t).dbg = t.dbg) :
    ∃ t, storeBytes ea n bytes done s = { done t with pc := s.pc + 4#32 } ∧
      Cached t ∧ t = { s with sto := { s.sto with mem := t.sto.mem, dcache := t.sto.dcache, late := t.sto.late } } ∧
      (∀ a, dataByte t a =
        storeUnitsView (dataByte s) (checkUnits s true (units ea n)).1
          (bytes (unitOrders (checkUnits s true (units ea n)).1)) a) ∧
      t = storeUnits (checkUnits s true (units ea n)).1 (bytes (unitOrders (checkUnits s true (units ea n)).1)) s := by
  obtain ⟨h1, h2, h3⟩ := storeUnits_spec _ (bytes (unitOrders (checkUnits s true (units ea n)).1)) hc hp
    (units_inLine s true ea n)
  generalize hus : checkUnits s true (units ea n) = r at *
  obtain ⟨us, f⟩ := r
  simp only at hok hp h1 h2 h3 ⊢
  subst hok
  generalize hbs : bytes (unitOrders us) = bs at *
  have hrest : storeUnits us bs s =
      { s with sto := { s.sto with
          mem := (storeUnits us bs s).sto.mem, dcache := (storeUnits us bs s).sto.dcache
          late := (storeUnits us bs s).sto.late } } := by
    rcases h2 with h2 | h2
    · subst h2; rfl
    · exact h2.rest
  refine ⟨storeUnits us bs s, ?_, h1, hrest, h3, by rw [← hbs]⟩
  have hq2 : quiet (done (storeUnits us bs s)) = true := by
    rw [quiet_congr (t := s) (by rw [hd, hrest])]
    exact hq
  simp only [storeBytes, hus, hbs, dacBits_quiet hq, beforeEvent_zero, dvcBits_quiet hq2, dvcDraw_quiet hq2,
    complete_plain (quiet_dbIC hq)]
  rfl

end Sys2Proof.Machine
end

