-- ==== Sys2Proof/Laws/Through.lean ====
section
/-! SUPPORT. Storage behind the data cache (R171, R172, R182): after a store that is write-through or caching inhibited,
storage itself holds the bytes stored. -/

namespace Sys2Proof.Machine

/-- A byte of storage is what the data cache shows for it. -/
def Agrees (s : State) (a : Word) : Prop := memByte s a = dataByte s a

/-- A store with these attributes reaches storage. -/
def Attrs.through (x : Attrs) : Bool := x.w || x.i

/-- A byte that a store reaches, or that storage agreed on before, it agrees on after the bytes are written to both. -/
theorem storeView_agrees {m d : Word → Byte} {ra a : Word} {bs : List Byte} (hlen : bs.length ≤ 2 ^ 32)
    (h : m a = d a ∨ (a - ra).toNat < bs.length) : storeView m ra bs a = storeView d ra bs a := by
  rw [storeView_eq _ _ _ _ hlen, storeView_eq _ _ _ _ hlen]
  by_cases hb : (a - ra).toNat < bs.length
  · rw [dif_pos hb, dif_pos hb]
  · rw [dif_neg hb, dif_neg hb]
    rcases h with h | h
    · exact h
    · exact absurd h hb

theorem memByte_setDSet (k : Nat) (d : DSet) (s : State) (a : Word) : memByte (setDSet k d s) a = memByte s a := rfl

/-- Casting a line out leaves storage agreeing where it did. -/
theorem agrees_castOut {s : State} (h : Cached s) (he : s.params.busErrors = []) {k : Nat}
    (hk : k < s.params.dcacheSize.classes) {a : Word} (ha : Agrees s a) : memByte (castOut k s) a = dataByte s a := by
  rw [memByte_castOut h.mem he]
  split
  · rename_i hv
    exact (dataByte_of_line (lineAt_of_get h.dc hk _ hv.1 a hv.2.2)).symm
  · exact ha

/-- A line fill leaves storage agreeing where it did. -/
theorem agrees_fillLine {s : State} (h : Cached s) (he : s.params.busErrors = []) (hb : s.sto.buffer = none) {ra a : Word}
    (hn : s.params.dcacheSize.classes ≠ 0) (hnone : lineAt s ra = none) (ha : Agrees s a) : Agrees (fillLine ra s) a := by
  have hcb : clearBuffer s = s := by simp only [clearBuffer, ← hb]
  have hmem : memByte (fillLine ra s) a = memByte (castOut (dClass s ra) s) a := by
    simp only [fillLine, hcb, busRead_eq he, installLine, memByte_setDSet]
  rw [Agrees, hmem, agrees_castOut h he (dClass_lt hn ra) ha, (fillLine_spec h he hb ra hn hnone).2.2.2 a]

/-- A store that hits: storage agrees where it did or where the store reaches it. -/
theorem agrees_storeHit {s : State} (h : Cached s) (he : s.params.busErrors = []) {ra a : Word} (x : Attrs) {w : Bool}
    (bs : List Byte) (hin : (lineOffset ra).toNat + bs.length ≤ 32) (hw : dWay s ra = some w)
    (ha : Agrees s a ∨ (a - ra).toNat < bs.length) (hx : x.w = true ∨ lineOf a ≠ lineOf ra) :
    Agrees (storeHit ra x w bs s) a := by
  rw [Agrees, (storeHit_spec h he x bs hin hw).2.2 a]
  have hm : ∀ t : State, t = touchWay (dClass s ra) w (writeCached ra w bs (!x.w) s) →
      t.sto.mem = s.sto.mem ∧ t.params = s.params := by rintro t rfl; exact ⟨rfl, rfl⟩
  simp only [storeHit]
  generalize touchWay (dClass s ra) w (writeCached ra w bs (!x.w) s) = t at hm ⊢
  obtain ⟨hmem, hp⟩ := hm t rfl
  have hmb : memByte t = memByte s := by funext b; simp only [memByte, hmem]
  by_cases hxw : x.w = true
  · rw [if_pos hxw, memByte_busWrite (memOk_congr hmem h.mem) (by rw [hp]; exact he), hmb]
    exact storeView_agrees (by omega) ha
  · have hl : lineOf a ≠ lineOf ra := hx.resolve_left hxw
    rw [if_neg hxw, hmb, storeView_other hin a hl]
    rcases ha with ha | ha
    · exact ha
    · exact absurd ((sub_lt_iff hin).mp ha).1 hl

/-- A store past the cache: storage agrees where it did or where the store reaches it. -/
theorem agrees_storeMiss {s : State} {d : Bool} (h : Cached s) (he : s.params.busErrors = []) {ra a : Word} (bs : List Byte)
    (hin : (lineOffset ra).toNat + bs.length ≤ 32) (hw : dWay s ra = none)
    (ha : Agrees s a ∨ (a - ra).toNat < bs.length) : Agrees (busWrite d ra bs s) a := by
  rw [Agrees, (storeMiss_spec h he bs hin hw).2.2 a, memByte_busWrite h.mem he]
  exact storeView_agrees (by omega) ha

/-- ONE STORE: storage agrees with the data cache afterwards where it did before or where the bytes are, provided the store
reaches storage or the address is in another line (R171, R172, R182). -/
theorem dataWrite_agrees {s : State} (h : Cached s) (he : s.params.busErrors = []) (hb : s.sto.buffer = none) {ra a : Word}
    (x : Attrs) (bs : List Byte) (hin : (lineOffset ra).toNat + bs.length ≤ 32)
    (hx : x.i = false ∨ (x.i = true ∧ x.w = false ∧ dWay s ra = none))
    (ha : Agrees s a ∨ (a - ra).toNat < bs.length) (ht : x.through = true ∨ lineOf a ≠ lineOf ra) :
    Agrees (dataWrite ra x bs s) a := by
  have hwi : (x.w && x.i) = false := by
    rcases hx with hx | hx
    · simp [hx]
    · simp [hx.2.1]
  have hdb : dropBuffer ra s = s := by simp [dropBuffer, bufferHas, hb]
  simp only [dataWrite, hdb, storeThrough, hwi, dSeen_eq hx, Bool.false_eq_true, if_false]
  cases hw : dWay s ra with
  | some w =>
    have hi : x.i = false := by
      rcases hx with hx | hx
      · exact hx
      · rw [hw] at hx; cases hx.2.2
    have ht' : x.w = true ∨ lineOf a ≠ lineOf ra := by simpa [Attrs.through, hi] using ht
    simp only [hi, Bool.false_eq_true, if_false]
    exact agrees_storeHit h he x bs hin hw ha ht'
  | none =>
    simp only
    by_cases hu : (x.i || ccrSWOA s || decide (s.params.dcacheSize.classes = 0)) = true
    · rw [if_pos hu]
      exact agrees_storeMiss h he bs hin hw ha
    · rw [if_neg hu]
      have hi : x.i = false := by simp at hu; exact hu.1.1
      have hn : s.params.dcacheSize.classes ≠ 0 := by simp at hu; exact hu.2
      have ht' : x.w = true ∨ lineOf a ≠ lineOf ra := by simpa [Attrs.through, hi] using ht
      have hnone := (lineAt_none_iff s ra).mpr hw
      obtain ⟨h1, h2, h3, h4⟩ := fillLine_spec h he hb ra hn hnone
      have hsome : ∃ w, dWay (fillLine ra s) ra = some w := by
        rw [lineAt, Option.isSome_map] at h3
        exact Option.isSome_iff_exists.mp h3
      obtain ⟨w, hw'⟩ := hsome
      simp only [hw']
      refine agrees_storeHit h1 (by rw [h2.params]; exact he) x bs hin hw' ?_ ht'
      rcases ha with ha | ha
      · exact .inl (agrees_fillLine h he hb hn hnone ha)
      · exact .inr ha

/-- Stores that reach storage, or go to other lines, leave storage agreeing at an address. -/
theorem storeUnits_agrees {s : State} (us : List UnitAccess) (bs : List Byte) (h : Cached s) (hp : plain s us = true)
    (hin : ∀ u ∈ us, (lineOffset u.x.ra).toNat + u.n ≤ 32) {a : Word} (ha : Agrees s a)
    (ht : ∀ u ∈ us, u.x.attrs.through = true ∨ lineOf a ≠ lineOf u.x.ra) : Agrees (storeUnits us bs s) a := by
  induction us generalizing s bs with
  | nil => exact ha
  | cons u us ih =>
    obtain ⟨he, hl, hb, h0, hx⟩ := plain_head hp
    have hlen : (lineOffset u.x.ra).toNat + (bs.take u.n).length ≤ 32 := by
      have := hin u List.mem_cons_self
      have : (bs.take u.n).length ≤ u.n := List.length_take_le _ _
      omega
    obtain ⟨h1, h2, h3, h4⟩ := dataWrite_spec h he hb u.x.ra u.x.attrs (bs.take u.n) hlen hx
    simp only [storeUnits, h0]
    exact ih (bs.drop u.n) h1 (plain_tail hp h2 h4) (fun v hv => hin v (List.mem_cons_of_mem _ hv))
      (dataWrite_agrees h he hb u.x.attrs (bs.take u.n) hlen hx (.inl ha) (ht u List.mem_cons_self))
      (fun v hv => ht v (List.mem_cons_of_mem _ hv))

/-- THE STORES of an operand: where no later access with other attributes falls into the line of an access that reaches
storage, storage holds what that access stored (R171, R172, R182). -/
theorem storeUnits_through {s : State} (us : List UnitAccess) (bs : List Byte) (h : Cached s) (hp : plain s us = true)
    (hin : ∀ u ∈ us, (lineOffset u.x.ra).toNat + u.n ≤ 32) (hlen : unitTotal us ≤ bs.length)
    (hsep : us.Pairwise (fun u v => u.x.attrs = v.x.attrs ∨ lineOf u.x.ra ≠ lineOf v.x.ra)) :
    ∀ u ∈ us, u.x.attrs.through = true → ∀ j, j < u.n → Agrees (storeUnits us bs s) (u.x.ra + BitVec.ofNat 32 j) := by
  induction us generalizing s bs with
  | nil => simp
  | cons u us ih =>
    obtain ⟨he, hl, hb, h0, hx⟩ := plain_head hp
    have hu := hin u List.mem_cons_self
    simp only [unitTotal, List.map_cons, List.sum_cons] at hlen
    have htake : (bs.take u.n).length = u.n := by rw [List.length_take]; omega
    have hlen' : (lineOffset u.x.ra).toNat + (bs.take u.n).length ≤ 32 := by omega
    obtain ⟨h1, h2, h3, h4⟩ := dataWrite_spec h he hb u.x.ra u.x.attrs (bs.take u.n) hlen' hx
    have hp' := plain_tail hp h2 h4
    have hin' : ∀ v ∈ us, (lineOffset v.x.ra).toNat + v.n ≤ 32 := fun v hv => hin v (List.mem_cons_of_mem _ hv)
    obtain ⟨hsu, hst⟩ := List.pairwise_cons.mp hsep
    intro v hv hvt j hj
    simp only [storeUnits, h0]
    rcases List.mem_cons.mp hv with rfl | hv
    · have hoff : (v.x.ra + BitVec.ofNat 32 j - v.x.ra).toNat = j := by bv_omega
      have hline : lineOf (v.x.ra + BitVec.ofNat 32 j) = lineOf v.x.ra :=
        ((sub_lt_iff hlen').mp (by omega)).1
      refine storeUnits_agrees us (bs.drop v.n) h1 hp' hin'
        (dataWrite_agrees h he hb v.x.attrs (bs.take v.n) hlen' hx (.inr (by omega)) (.inl hvt)) ?_
      intro w hw
      rcases hsu w hw with e | e
      · exact .inl (e ▸ hvt)
      · exact .inr (by rw [hline]; exact e)
    · exact ih (bs.drop u.n) h1 hp' hin' (by rw [List.length_drop]; simp only [unitTotal]; omega) hst v hv hvt j hj

/-! ### The accesses of one operand -/

/-- The accesses of an operand start inside it, each `k` bytes from the first one, with `k` less than the operand's bytes,
and rise. -/
theorem splitUnits_offsets (fuel : Nat) (ea : Word) (n : Nat) :
    ∀ u ∈ splitUnits fuel ea n, ∃ k, k < n ∧ u.1 = ea + BitVec.ofNat 32 k := by
  induction fuel generalizing ea n with
  | zero => simp [splitUnits]
  | succ f ih =>
    intro u hu
    rw [splitUnits] at hu
    split at hu
    · cases hu
    · rename_i hn
      rcases List.mem_cons.mp hu with rfl | h
      · exact ⟨0, by omega, by simp⟩
      · obtain ⟨k, hk, he⟩ := ih _ _ u h
        refine ⟨min n (4 - ea.toNat % 4) + k, by omega, ?_⟩
        rw [he, BitVec.ofNat_add, BitVec.add_assoc]

/-- The entry that translates an address depends on its 1KB page alone (R151). -/
theorem tlbLookup_page {s : State} {a b : Word} (h : field a 0 22 = field b 0 22) : tlbLookup s a = tlbLookup s b := by
  simp only [tlbLookup]
  generalize s.mmu.tlb.toList = l
  generalize 0 = n
  induction l generalizing n with
  | nil => rfl
  | cons t ts ih =>
    have : tlbMatches s.mmu.pid a t = tlbMatches s.mmu.pid b t := by simp only [tlbMatches, h]
    rw [tlbSearch, tlbSearch, this, ih]

/-- The region of an address depends on its 1KB page alone (R67). -/
theorem regionBit_page {a b : Word} (h : field a 0 22 = field b 0 22) (r : Word) : regionBit r a = regionBit r b := by
  have : field a 0 5 = field b 0 5 := by
    have h' := congrArg (fun v : BitVec 22 => v.toNat / 2 ^ 17) h
    apply BitVec.eq_of_toNat_eq
    simp only [field, BitVec.extractLsb'_toNat, Nat.shiftRight_eq_div_pow] at h' ⊢
    have ha := a.isLt
    have hb := b.isLt
    omega
  simp only [regionBit, this]

/-- The attributes of an address depend on its 1KB page alone (R151, R170). -/
theorem xlate_attrs_page {s : State} {on : Bool} {c a b : Word} {x y : Xlate} (h : field a 0 22 = field b 0 22)
    (hx : xlate s on c a = some x) (hy : xlate s on c b = some y) : x.attrs = y.attrs := by
  cases on
  · simp only [xlate, Bool.false_eq_true, if_false, Option.some.injEq] at hx hy
    rw [← hx, ← hy]
    simp only [xlateReal, regionBit_page h]
  · simp only [xlate, if_true, Option.map_eq_some_iff] at hx hy
    obtain ⟨t, ht, hx⟩ := hx
    obtain ⟨u, hu, hy⟩ := hy
    rw [tlbLookup_page h, hu] at ht
    cases ht
    rw [← hx, ← hy]
    rfl

/-- A check that passes has the translation of a data access. -/
theorem unitXlate_data {s : State} {store : Bool} {ea : Word} {x : Xlate} (h : unitXlate s store ea = .ok x) :
    xlateData s ea = some x := by
  cases store
  · simp only [unitXlate, loadXlate, Bool.false_eq_true, if_false] at h
    split at h
    · cases h
    · rename_i y hy
      split at h
      · cases h; exact hy
      · cases h
  · simp only [unitXlate, storeXlate, if_true] at h
    split at h
    · cases h
    · rename_i y hy
      split at h
      · cases h; exact hy
      · cases h

/-- A checked access is one of the accesses asked for, with its translation. -/
theorem checkUnits_mem {s : State} {store : Bool} {us : List (Word × Nat)} :
    ∀ u ∈ (checkUnits s store us).1, (u.ea, u.n) ∈ us ∧ unitXlate s store u.ea = .ok u.x := by
  induction us with
  | nil => simp [checkUnits]
  | cons p us ih =>
    obtain ⟨ea, n⟩ := p
    intro u hu
    rw [checkUnits] at hu
    split at hu
    · cases hu
    · rename_i x hx
      rcases List.mem_cons.mp hu with rfl | hu
      · exact ⟨List.mem_cons_self, hx⟩
      · exact ⟨List.mem_cons_of_mem _ (ih u hu).1, (ih u hu).2⟩

/-- A STORE TO CACHING INHIBITED STORAGE leaves the writes under way as they were, but for some of its own that the next
`isync` settles (R787). -/
theorem storeUnits_late {s : State} (us : List UnitAccess) (bs : List Byte) (hp : plain s us = true)
    (hi : ∀ u ∈ us, u.x.attrs.i = true) : ∀ w ∈ (storeUnits us bs s).sto.late, w ∈ s.sto.late ∨ w.direct = true := by
  induction us generalizing s bs with
  | nil => exact fun w hw => .inl hw
  | cons u us ih =>
    obtain ⟨he, hl, hb, h0, hx⟩ := plain_head hp
    have hui := hi u List.mem_cons_self
    have hx' : u.x.attrs.w = false ∧ dWay s u.x.ra = none := by
      rcases hx with hx | hx
      · rw [hui] at hx; cases hx
      · exact hx.2
    have hdw : dataWrite u.x.ra u.x.attrs (bs.take u.n) s = busWrite true u.x.ra (bs.take u.n) s := by
      have hdb : dropBuffer u.x.ra s = s := by simp [dropBuffer, bufferHas, hb]
      simp [dataWrite, hdb, storeThrough, hx'.1, hui, dSeen, hx'.2]
    have hp' : plain (dataWrite u.x.ra u.x.attrs (bs.take u.n) s) us = true :=
      plain_tail hp (by rw [hdw]; exact busWrite_step he _ _) (fun _ => by rw [hdw]; exact busWrite_dcache he _ _)
    have hlate : ∀ w ∈ (busWrite true u.x.ra (bs.take u.n) s).sto.late, w ∈ s.sto.late ∨ w.direct = true := by
      intro w hw
      rw [busWrite_eq he, setMemBytes_eq] at hw
      rcases List.mem_cons.mp (List.mem_of_mem_take hw) with rfl | h
      · exact .inr rfl
      · exact .inl h
    intro w hw
    simp only [storeUnits, h0] at hw
    rcases ih _ hp' (fun v hv => hi v (List.mem_cons_of_mem _ hv)) w hw with h | h
    · exact hlate w (hdw ▸ h)
    · exact .inr h

/-- Two places of an operand of at most 128 bytes in one line of real storage are in one page. -/
theorem page_of_line {a b c : Word} {i j : Nat} (hi : i < 128) (hj : j < 128) (ha : a = c + BitVec.ofNat 32 i)
    (hb : b = c + BitVec.ofNat 32 j) (h : a.toNat % 1024 / 32 = b.toNat % 1024 / 32) : a.toNat / 1024 = b.toNat / 1024 := by
  have hc := c.isLt
  have ha' : a.toNat = (c.toNat + i) % 2 ^ 32 := by
    rw [ha, BitVec.toNat_add, BitVec.toNat_ofNat, Nat.mod_eq_of_lt (by omega : i < 2 ^ 32)]
  have hb' : b.toNat = (c.toNat + j) % 2 ^ 32 := by
    rw [hb, BitVec.toNat_add, BitVec.toNat_ofNat, Nat.mod_eq_of_lt (by omega : j < 2 ^ 32)]
  omega

/-- Two accesses of an operand of at most 128 bytes have the same attributes or are in different lines. -/
theorem units_separate (s : State) (store : Bool) (ea : Word) {n : Nat} (hn : n ≤ 128) :
    (checkUnits s store (units ea n)).1.Pairwise
      (fun u v => u.x.attrs = v.x.attrs ∨ lineOf u.x.ra ≠ lineOf v.x.ra) := by
  apply List.pairwise_of_forall_mem_list
  intro u hu v hv
  obtain ⟨hu1, hu2⟩ := checkUnits_mem u hu
  obtain ⟨hv1, hv2⟩ := checkUnits_mem v hv
  obtain ⟨i, hi, hui⟩ := splitUnits_offsets _ _ _ _ hu1
  obtain ⟨j, hj, hvj⟩ := splitUnits_offsets _ _ _ _ hv1
  by_cases hl : lineOf u.x.ra = lineOf v.x.ra
  · left
    have h1 := unitXlate_mod hu2
    have h2 := unitXlate_mod hv2
    have hl' : u.x.ra.toNat / 32 = v.x.ra.toNat / 32 := by
      have := congrArg BitVec.toNat hl
      simpa only [lineOf_toNat] using this
    have hp := page_of_line (by omega) (by omega) hui hvj (by simp only; omega)
    refine xlate_attrs_page ?_ (unitXlate_data hu2) (unitXlate_data hv2)
    apply BitVec.eq_of_toNat_eq
    have e1 := u.ea.isLt
    have e2 := v.ea.isLt
    simp only [field, BitVec.extractLsb'_toNat, Nat.shiftRight_eq_div_pow] at hp ⊢
    omega
  · exact .inr hl

theorem splitUnits_total (fuel : Nat) (ea : Word) (n : Nat) : ((splitUnits fuel ea n).map (·.2)).sum ≤ n := by
  induction fuel generalizing ea n with
  | zero => simp [splitUnits]
  | succ f ih =>
    rw [splitUnits]
    split
    · simp
    · simp only [List.map_cons, List.sum_cons]
      have := ih (ea + BitVec.ofNat 32 (min n (4 - ea.toNat % 4))) (n - min n (4 - ea.toNat % 4))
      omega

theorem checkUnits_total (s : State) (store : Bool) (us : List (Word × Nat)) :
    unitTotal (checkUnits s store us).1 ≤ (us.map (·.2)).sum := by
  induction us with
  | nil => simp [checkUnits, unitTotal]
  | cons p us ih =>
    obtain ⟨ea, n⟩ := p
    rw [checkUnits]
    split
    · simp [unitTotal]
    · simp only [unitTotal, List.map_cons, List.sum_cons] at ih ⊢
      omega

/-- THE STORE TO STORAGE ITSELF: after the accesses of an operand of at most 128 bytes, storage holds what each access to
write-through or caching inhibited storage stored (R171, R172, R182). The state is the one of `storeBytes_spec`. -/
theorem storeUnits_reaches {s : State} (ea : Word) {n : Nat} (hn : n ≤ 128) {bs : List Byte} (hc : Cached s)
    (hp : plain s (checkUnits s true (units ea n)).1 = true) (hlen : n ≤ bs.length) :
    ∀ u ∈ (checkUnits s true (units ea n)).1, (u.x.attrs.w || u.x.attrs.i) = true → ∀ j, j < u.n →
      memByte (storeUnits (checkUnits s true (units ea n)).1 bs s) (u.x.ra + BitVec.ofNat 32 j) =
        dataByte (storeUnits (checkUnits s true (units ea n)).1 bs s) (u.x.ra + BitVec.ofNat 32 j) :=
  storeUnits_through _ bs hc hp (units_inLine s true ea n)
    (Nat.le_trans (Nat.le_trans (checkUnits_total s true _) (splitUnits_total n ea n)) hlen) (units_separate s true ea hn)

end Sys2Proof.Machine
end

