-- ==== Sys2Proof/Tests/Slice0.lean ====
section
/-! SUPPORT. Tests: the checks of WellFormed refuse ill-formed terms; the worked examples of the spec, each word decoded and
run for one instruction on a small state (the rule is named at the head of a section, the values are the rule's own); and a
state that meets the hypotheses of each statement. -/

set_option Elab.async false

namespace Sys2Proof.Machine.Tests

/-! ### Small states -/

/-- The reset state at 0x1000 with some general registers. -/
def st (regs : List (Nat × Word)) : State :=
  regs.foldl (fun s r => setGpr (BitVec.ofNat 5 r.1) r.2 s) { State.reset with pc := 0x1000#32 }

def put (a : Word) (bs : List Byte) (s : State) : State := setMemBytes a bs s
def littleEndian (s : State) : State := { s with attr := { s.attr with sler := 0xFFFFFFFF#32 } }
def cachable (s : State) : State := { s with attr := { s.attr with dccr := 0xFFFFFFFF#32, iccr := 0xFFFFFFFF#32 } }
def writeThrough (s : State) : State := { cachable s with attr := { (cachable s).attr with dcwr := 0xFFFFFFFF#32 } }
def withoutMmu (s : State) : State := { s with params := { s.params with mmuEnabled := false } }
def withoutArray (s : State) : State := { s with params := { s.params with dcacheSize := .kb0 } }
def meeting (e : EnvInput) (s : State) : State := { s with env := [[e]] }
/-- The watchdog's next event resets the chip. -/
def watched (s : State) : State := { s with tmr := { s.tmr with tsr := 0xC0000000#32, tcr := 0x20000000#32 } }
def reserved (s : State) : State := { s with reserve := true }
def withXer (v : Word) (s : State) : State := { s with xer := v }
def withCr (v : Word) (s : State) : State := { s with cr := v }
def withCtr (v : Word) (s : State) : State := { s with ctr := v }
def withLr (v : Word) (s : State) : State := { s with lr := v }
def withMsr (v : Word) (s : State) : State := { s with msr := v }
def withCcr0 (v : Word) (s : State) : State := { s with attr := { s.attr with ccr0 := v } }
def withEvpr (v : Word) (s : State) : State := { s with exc := { s.exc with evpr := v } }
def withTsr (v : Word) (s : State) : State := { s with tmr := { s.tmr with tsr := v } }
def withTbl (v : Word) (s : State) : State := { s with tmr := { s.tmr with tbl := v } }
def withDcr (n : Nat) (d : DcrDevice) (s : State) : State := { s with dcr := [(n, d)] }
def withEntry (e : TlbEntry) (s : State) : State := { setTlbEntry 5#6 e s with mmu := { (setTlbEntry 5#6 e s).mmu with pid := 7#32 } }
def saved (s : State) : State :=
  { s with exc := { s.exc with srr0 := 0x1236#32, srr1 := 0xC030#32, srr2 := 0xF00#32, srr3 := 0x29030#32 } }

/-- The TLB entry of the example of R541. -/
def entry : TlbEntry :=
  { epn := 0x400#22, size := 3, v := true, e := false, u0 := false, tid := 7, rpn := 0x3FC000#22, ex := true, wr := true,
    zsel := 0, w := false, i := true, m := false, g := true }

/-- Cachable storage; the line of 0x2000 is dirty in way A with bytes 0xAA over storage's 0x55. -/
def dirtyLine (s : State) : State :=
  setDSet 0
    { a := { valid := true, dirty := true, line := 0x100#27, data := Vector.replicate 32 0xAA, undef := false }
      b := DLine.empty, lruB := true }
    (put 0x2000#32 (List.replicate 32 0x55) (cachable s))

/-- The instruction cache holds the line of 0x2000 in way A. -/
def fetchedLine (s : State) : State :=
  setISet 0
    { a := { valid := true, line := 0x100#27, words := Vector.replicate 8 0x55555555, undef := false }
      b := ISet.empty.b, lruB := true }
    (cachable s)

/-- A word is decoded and run; what it leaves has a property. -/
def runs (w : Word) (s : State) (p : State → Bool) : Bool :=
  match decode w with
  | .ok i => match exec i s with
    | .next t => p t
    | _ => false
  | .error _ => false

/-- A step is taken; what it leaves has a property. -/
def steps (s : State) (p : State → Bool) : Bool :=
  match step s with
  | .next t => p t
  | _ => false

/-- Registers hold these values. -/
def has (t : State) (regs : List (Nat × Word)) : Bool := regs.all (fun r => gpr t (BitVec.ofNat 5 r.1) == r.2)

/-- A data access finds these bytes from an address on. -/
def holds (t : State) (a : Word) (bs : List Byte) : Bool :=
  (List.range bs.length).map (fun j => dataByte t (a + BitVec.ofNat 32 j)) == bs

/-! ### WellFormed -/

theorem test_b_displacement_refused : (Instr.b 2#26 false false).wellFormed = false := by decide
theorem test_b_displacement_accepted : (Instr.b 0x3FFFFFC#26 true true).wellFormed = true := by decide
theorem test_bc_displacement_refused : (Instr.bc 20 0 1#16 false false).wellFormed = false := by decide
theorem test_bc_displacement_accepted : (Instr.bc 20 0 0x8000#16 false false).wellFormed = true := by decide

/-! ### Decoding: words written out field by field from the encodings (R222 to R230) -/

-- OPCD 31, RT 3, RA 4, RB 5, OE 1, XO 266, Rc 1 (R331)
theorem test_decode_add :
    decode (31#6 ++ 3#5 ++ 4#5 ++ 5#5 ++ 1#1 ++ 266#9 ++ 1#1 : BitVec 32) = .ok (.add 3 4 5 true true) := by decide
-- OPCD 32, RT 3, RA 4, D 8 (R284)
theorem test_decode_lwz : decode (32#6 ++ 3#5 ++ 4#5 ++ 8#16 : BitVec 32) = .ok (.lwz 3 4 8) := by decide
-- OPCD 31, RS 3, RA 4, RB 5, XO 151 (R310)
theorem test_decode_stwx : decode (31#6 ++ 3#5 ++ 4#5 ++ 5#5 ++ 151#10 ++ 0#1 : BitVec 32) = .ok (.stwx 3 4 5 false) := by
  decide
-- OPCD 4, RT 3, RA 4, RB 5, OE 0, XO 172, Rc 0 (R371)
theorem test_decode_macchw :
    decode (4#6 ++ 3#5 ++ 4#5 ++ 5#5 ++ 0#1 ++ 172#9 ++ 0#1 : BitVec 32) = .ok (.macchw 3 4 5 false false) := by decide
-- OPCD 31, RS 4, RA 3, RB 5, XO 28, Rc 0 (R411)
theorem test_decode_and : decode (31#6 ++ 4#5 ++ 3#5 ++ 5#5 ++ 28#10 ++ 0#1 : BitVec 32) = .ok (.and 4 3 5 false) := by
  decide
-- OPCD 11, BF 3, reserved 0, L 0, RA 4, IM 100 (R442)
theorem test_decode_cmpi : decode (11#6 ++ 3#3 ++ 0#2 ++ 4#5 ++ 100#16 : BitVec 32) = .ok (.cmpi 3 4 100) := by decide
-- OPCD 16, BO 12, BI 2, BD 8, AA 0, LK 1 (R452)
theorem test_decode_bc :
    decode (16#6 ++ 12#5 ++ 2#5 ++ 8#14 ++ 0#1 ++ 1#1 : BitVec 32) = .ok (.bc 12 2 0x20 false true) := by decide
-- OPCD 21, RS 4, RA 3, SH 8, MB 0, ME 23, Rc 0 (R482)
theorem test_decode_rlwinm :
    decode (21#6 ++ 4#5 ++ 3#5 ++ 8#5 ++ 0#5 ++ 23#5 ++ 0#1 : BitVec 32) = .ok (.rlwinm 4 3 8 0 23 false) := by decide
-- OPCD 31, reserved 0, RA 0, RB 5, XO 1014 (R507)
theorem test_decode_dcbz : decode (31#6 ++ 0#5 ++ 0#5 ++ 5#5 ++ 1014#10 ++ 0#1 : BitVec 32) = .ok (.dcbz 0 5 false) := by
  decide
-- OPCD 31, RS 3, RA 4, WS 1, XO 978 (R544)
theorem test_decode_tlbwe : decode (31#6 ++ 3#5 ++ 4#5 ++ 1#5 ++ 978#10 ++ 0#1 : BitVec 32) = .ok (.tlbwe 3 4 true false) := by
  decide
-- OPCD 31, RS 3, SPRF (the halves of 0x3D8 exchanged), XO 467 (R569)
theorem test_decode_mtspr :
    decode (31#6 ++ 3#5 ++ 0x18#5 ++ 0x1E#5 ++ 467#10 ++ 0#1 : BitVec 32) = .ok (.mtspr 3 0x3D8) := by decide
-- a word of the primary opcode 0 is no instruction (R226)
theorem test_decode_refused : (decode 0#32).isOk = false := by decide

/-! ### Loads: the examples of R272 to R293 -/

theorem test_lbz :
    runs 0x88640005#32 (put 0x1005#32 [0xA7] (st [(4, 0x1000#32)])) (fun t => has t [(3, 0xA7#32)]) = true := by decide
theorem test_lbzu :
    runs 0x8C640001#32 (put 0x1001#32 [0x7F] (st [(4, 0x1000#32)]))
      (fun t => has t [(3, 0x7F#32), (4, 0x1001#32)]) = true := by decide
theorem test_lbzx :
    runs 0x7C6428AE#32 (put 0xFFF#32 [0x01] (st [(4, 0x1000#32), (5, 0xFFFFFFFF#32)]))
      (fun t => has t [(3, 0x1#32)]) = true := by decide
theorem test_lbzux :
    runs 0x7C6428EE#32 (put 0x2010#32 [0xFF] (st [(4, 0x2000#32), (5, 0x10#32)]))
      (fun t => has t [(3, 0xFF#32), (4, 0x2010#32)]) = true := by decide
theorem test_lha :
    runs 0xA864FFFE#32 (put 0x1000#32 [0x80, 0x01] (st [(4, 0x1002#32)]))
      (fun t => has t [(3, 0xFFFF8001#32)]) = true := by decide
theorem test_lhau :
    runs 0xAC640002#32 (put 0x1002#32 [0x7F, 0xFF] (st [(4, 0x1000#32)]))
      (fun t => has t [(3, 0x7FFF#32), (4, 0x1002#32)]) = true := by decide
theorem test_lhax :
    runs 0x7C642AAE#32 (put 0x3000#32 [0xFF, 0xFE] (st [(4, 0x0#32), (5, 0x3000#32)]))
      (fun t => has t [(3, 0xFFFFFFFE#32)]) = true := by decide
theorem test_lhaux :
    runs 0x7C642AEE#32 (put 0x3004#32 [0x00, 0x10] (st [(4, 0x3000#32), (5, 0x4#32)]))
      (fun t => has t [(3, 0x10#32), (4, 0x3004#32)]) = true := by decide
theorem test_lhz_little_endian :
    runs 0xA0640006#32 (littleEndian (put 0x1006#32 [0x80, 0x01] (st [(4, 0x1000#32)])))
      (fun t => has t [(3, 0x180#32)]) = true := by decide
theorem test_lhzu :
    runs 0xA4640002#32 (put 0x1002#32 [0xAB, 0xCD] (st [(4, 0x1000#32)]))
      (fun t => has t [(3, 0xABCD#32), (4, 0x1002#32)]) = true := by decide
theorem test_lhzx :
    runs 0x7C642A2E#32 (put 0x1001#32 [0x12, 0x34] (st [(4, 0x1000#32), (5, 0x1#32)]))
      (fun t => has t [(3, 0x1234#32)]) = true := by decide
theorem test_lhzux :
    runs 0x7C642A6E#32 (put 0x1020#32 [0xFF, 0xFF] (st [(4, 0x1000#32), (5, 0x20#32)]))
      (fun t => has t [(3, 0xFFFF#32), (4, 0x1020#32)]) = true := by decide
theorem test_lwz :
    runs 0x80640008#32 (put 0x1008#32 [0x11, 0x12, 0x13, 0x14] (st [(4, 0x1000#32)]))
      (fun t => has t [(3, 0x11121314#32)]) = true := by decide
theorem test_lwz_little_endian :
    runs 0x80640008#32 (littleEndian (put 0x1008#32 [0x11, 0x12, 0x13, 0x14] (st [(4, 0x1000#32)])))
      (fun t => has t [(3, 0x14131211#32)]) = true := by decide
theorem test_lwzu :
    runs 0x84640004#32 (put 0x1004#32 [0xDE, 0xAD, 0xBE, 0xEF] (st [(4, 0x1000#32)]))
      (fun t => has t [(3, 0xDEADBEEF#32), (4, 0x1004#32)]) = true := by decide
theorem test_lwzx_wraps :
    runs 0x7C64282E#32 (put 0x4#32 [0x00, 0x00, 0x00, 0x09] (st [(4, 0xFFFFFFFC#32), (5, 0x8#32)]))
      (fun t => has t [(3, 0x9#32)]) = true := by decide
theorem test_lwzux :
    runs 0x7C64286E#32 (put 0x1100#32 [0x00, 0x00, 0x00, 0x07] (st [(4, 0x1000#32), (5, 0x100#32)]))
      (fun t => has t [(3, 0x7#32), (4, 0x1100#32)]) = true := by decide
theorem test_lwarx :
    runs 0x7C602828#32 (put 0x2000#32 [0x00, 0x00, 0x00, 0x01] (st [(5, 0x2000#32)]))
      (fun t => has t [(3, 0x1#32)] && t.reserve) = true := by decide
theorem test_lhbrx :
    runs 0x7C642E2C#32 (put 0x1000#32 [0x12, 0x34] (st [(4, 0x1000#32)]))
      (fun t => has t [(3, 0x3412#32)]) = true := by decide
theorem test_lwbrx :
    runs 0x7C642C2C#32 (put 0x1000#32 [0x11, 0x12, 0x13, 0x14] (st [(4, 0x1000#32)]))
      (fun t => has t [(3, 0x14131211#32)]) = true := by decide
theorem test_lmw :
    runs 0xBBA10000#32 (put 0x1000#32 [0x00, 0x00, 0x00, 0x01, 0x00, 0x00, 0x00, 0x02, 0x00, 0x00, 0x00, 0x03]
      (st [(1, 0x1000#32)]))
      (fun t => has t [(29, 0x1#32), (30, 0x2#32), (31, 0x3#32)]) = true := by decide
theorem test_lswi :
    runs 0x7CA434AA#32 (put 0x1000#32 [0x41, 0x42, 0x43, 0x44, 0x45, 0x46] (st [(4, 0x1000#32)]))
      (fun t => has t [(5, 0x41424344#32), (6, 0x45460000#32)]) = true := by decide
theorem test_lswx :
    runs 0x7CA4342A#32 (withXer 5#32 (put 0x1000#32 [0x01, 0x02, 0x03, 0x04, 0x05]
      (st [(4, 0x1000#32), (6, 0x0#32)])))
      (fun t => has t [(5, 0x1020304#32), (6, 0x5000000#32)]) = true := by decide

/-! ### Stores: the examples of R300 to R318 -/

theorem test_stb :
    runs 0x98640000#32 (st [(3, 0x12345678#32), (4, 0x1000#32)]) (fun t => holds t 0x1000#32 [0x78]) = true := by decide
theorem test_stbu :
    runs 0x9C640001#32 (st [(3, 0xAB#32), (4, 0x1000#32)])
      (fun t => holds t 0x1001#32 [0xAB] && has t [(4, 0x1001#32)]) = true := by decide
theorem test_stbx :
    runs 0x7C6429AE#32 (put 0x1003#32 [0x09] (st [(3, 0xFF00#32), (4, 0x1000#32), (5, 0x3#32)]))
      (fun t => holds t 0x1003#32 [0x00]) = true := by decide
theorem test_stbux :
    runs 0x7C6429EE#32 (st [(3, 0x5A#32), (4, 0x1000#32), (5, 0x10#32)])
      (fun t => holds t 0x1010#32 [0x5A] && has t [(4, 0x1010#32)]) = true := by decide
theorem test_sth :
    runs 0xB0640002#32 (st [(3, 0x12345678#32), (4, 0x1000#32)])
      (fun t => holds t 0x1002#32 [0x56, 0x78]) = true := by decide
theorem test_sth_little_endian :
    runs 0xB0640002#32 (littleEndian (st [(3, 0x12345678#32), (4, 0x1000#32)]))
      (fun t => holds t 0x1002#32 [0x78, 0x56]) = true := by decide
theorem test_sthu :
    runs 0xB4640002#32 (st [(3, 0xBEEF#32), (4, 0x1000#32)])
      (fun t => holds t 0x1002#32 [0xBE, 0xEF] && has t [(4, 0x1002#32)]) = true := by decide
theorem test_sthx_two_accesses :
    runs 0x7C642B2E#32 (st [(3, 0x1234#32), (4, 0x1000#32), (5, 0x3#32)])
      (fun t => holds t 0x1003#32 [0x12, 0x34]) = true := by decide
theorem test_sthux :
    runs 0x7C642B6E#32 (st [(3, 0x1#32), (4, 0x1000#32), (5, 0x6#32)])
      (fun t => holds t 0x1006#32 [0x00, 0x01] && has t [(4, 0x1006#32)]) = true := by decide
theorem test_stw :
    runs 0x90640004#32 (st [(3, 0x11121314#32), (4, 0x1000#32)])
      (fun t => holds t 0x1004#32 [0x11, 0x12, 0x13, 0x14]) = true := by decide
theorem test_stw_little_endian :
    runs 0x90640004#32 (littleEndian (st [(3, 0x11121314#32), (4, 0x1000#32)]))
      (fun t => holds t 0x1004#32 [0x14, 0x13, 0x12, 0x11]) = true := by decide
theorem test_stwu :
    runs 0x9421FFF0#32 (st [(1, 0x2000#32)])
      (fun t => holds t 0x1FF0#32 [0x00, 0x00, 0x20, 0x00] && has t [(1, 0x1FF0#32)]) = true := by decide
theorem test_stwx :
    runs 0x7C64292E#32 (st [(3, 0xCAFEF00D#32), (4, 0x1000#32), (5, 0x20#32)])
      (fun t => holds t 0x1020#32 [0xCA, 0xFE, 0xF0, 0x0D]) = true := by decide
theorem test_stwux :
    runs 0x7C64296E#32 (st [(3, 0x9#32), (4, 0x1000#32), (5, 0xFFFFFFFC#32)])
      (fun t => holds t 0xFFC#32 [0x00, 0x00, 0x00, 0x09] && has t [(4, 0xFFC#32)]) = true := by decide
theorem test_sthbrx :
    runs 0x7C642F2C#32 (st [(3, 0x1234#32), (4, 0x1000#32)])
      (fun t => holds t 0x1000#32 [0x34, 0x12]) = true := by decide
theorem test_stwbrx :
    runs 0x7C642D2C#32 (st [(3, 0x11121314#32), (4, 0x1000#32)])
      (fun t => holds t 0x1000#32 [0x14, 0x13, 0x12, 0x11]) = true := by decide
theorem test_stmw :
    runs 0xBFA10000#32 (st [(1, 0x1000#32), (29, 0x1#32), (30, 0x2#32), (31, 0x3#32)])
      (fun t => holds t 0x1000#32 [0x00, 0x00, 0x00, 0x01, 0x00, 0x00, 0x00, 0x02, 0x00, 0x00, 0x00, 0x03]) = true := by decide
theorem test_stswi :
    runs 0x7CA435AA#32 (st [(5, 0x41424344#32), (6, 0x45464748#32), (4, 0x1000#32)])
      (fun t => holds t 0x1000#32 [0x41, 0x42, 0x43, 0x44, 0x45, 0x46, 0x00]) = true := by decide
theorem test_stswx :
    runs 0x7CA4352A#32 (withXer 3#32 (st [(5, 0xAABBCCDD#32), (4, 0x1000#32), (6, 0x10#32)]))
      (fun t => holds t 0x1010#32 [0xAA, 0xBB, 0xCC, 0x00]) = true := by decide
theorem test_stwcxRc :
    runs 0x7C60292D#32 (reserved (st [(3, 0x2#32), (5, 0x2000#32)]))
      (fun t => holds t 0x2000#32 [0x00, 0x00, 0x00, 0x02] && !t.reserve && field t.cr 0 4 == 2#4) = true := by decide
theorem test_stwcxRc_without_reservation :
    runs 0x7C60292D#32 (withCr 0xF0000000#32 (st [(3, 0x2#32), (5, 0x2000#32)]))
      (fun t => holds t 0x2000#32 [0x00, 0x00, 0x00, 0x00] && field t.cr 0 4 == 0#4) = true := by decide

/-! ### Arithmetic: the examples of R331 to R352; XER as SO, OV, CA -/

theorem test_addo_record :
    runs 0x7C642E15#32 (st [(4, 0x80000000#32), (5, 0x80000000#32)])
      (fun t => has t [(3, 0x0#32)] && field t.xer 0 3 == 6#3 && field t.cr 0 4 == 3#4) = true := by decide
theorem test_add :
    runs 0x7C642A14#32 (st [(4, 0xFFFFFFFF#32), (5, 0x2#32)])
      (fun t => has t [(3, 0x1#32)] && field t.xer 0 3 == 0#3) = true := by decide
theorem test_addc :
    runs 0x7C642814#32 (st [(4, 0xFFFFFFFF#32), (5, 0x1#32)])
      (fun t => has t [(3, 0x0#32)] && field t.xer 0 3 == 1#3) = true := by decide
theorem test_adde :
    runs 0x7C642914#32 (withXer 0x20000000#32 (st [(4, 0xFFFFFFFF#32)]))
      (fun t => has t [(3, 0x0#32)] && field t.xer 0 3 == 1#3) = true := by decide
theorem test_addi : runs 0x3864FFFF#32 (st []) (fun t => has t [(3, 0xFFFFFFFF#32)]) = true := by decide
theorem test_addi_from_zero : runs 0x38600064#32 (st [(0, 0x7#32)]) (fun t => has t [(3, 0x64#32)]) = true := by decide
theorem test_addic :
    runs 0x30640001#32 (st [(4, 0xFFFFFFFF#32)])
      (fun t => has t [(3, 0x0#32)] && field t.xer 0 3 == 1#3) = true := by decide
theorem test_addicRc :
    runs 0x3464FFFF#32 (st [(4, 0x1#32)])
      (fun t => has t [(3, 0x0#32)] && field t.xer 0 3 == 1#3 && field t.cr 0 4 == 2#4) = true := by decide
theorem test_addis : runs 0x3C641234#32 (st [(4, 0xFFFF#32)]) (fun t => has t [(3, 0x1234FFFF#32)]) = true := by decide
theorem test_addme :
    runs 0x7C6401D4#32 (st [(4, 0x5#32)]) (fun t => has t [(3, 0x4#32)] && field t.xer 0 3 == 1#3) = true := by decide
theorem test_addme_no_carry :
    runs 0x7C6401D4#32 (st []) (fun t => has t [(3, 0xFFFFFFFF#32)] && field t.xer 0 3 == 0#3) = true := by decide
theorem test_addze :
    runs 0x7C640194#32 (withXer 0x20000000#32 (st [(4, 0xFFFFFFFF#32)]))
      (fun t => has t [(3, 0x0#32)] && field t.xer 0 3 == 1#3) = true := by decide
theorem test_subf :
    runs 0x7C642850#32 (st [(4, 0x3#32), (5, 0xA#32)]) (fun t => has t [(3, 0x7#32)]) = true := by decide
theorem test_subfc :
    runs 0x7C642810#32 (st [(4, 0xA#32), (5, 0x3#32)])
      (fun t => has t [(3, 0xFFFFFFF9#32)] && field t.xer 0 3 == 0#3) = true := by decide
theorem test_subfc_equal :
    runs 0x7C642810#32 (st [(4, 0xA#32), (5, 0xA#32)])
      (fun t => has t [(3, 0x0#32)] && field t.xer 0 3 == 1#3) = true := by decide
theorem test_subfe :
    runs 0x7C642910#32 (st []) (fun t => has t [(3, 0xFFFFFFFF#32)] && field t.xer 0 3 == 0#3) = true := by decide
theorem test_subfic :
    runs 0x2064000A#32 (st [(4, 0x3#32)]) (fun t => has t [(3, 0x7#32)] && field t.xer 0 3 == 1#3) = true := by decide
theorem test_subfme :
    runs 0x7C6401D0#32 (withXer 0x20000000#32 (st []))
      (fun t => has t [(3, 0xFFFFFFFF#32)] && field t.xer 0 3 == 1#3) = true := by decide
theorem test_subfze :
    runs 0x7C640190#32 (st [(4, 0x5#32)])
      (fun t => has t [(3, 0xFFFFFFFA#32)] && field t.xer 0 3 == 0#3) = true := by decide
theorem test_nego_record :
    runs 0x7C6404D1#32 (st [(4, 0x80000000#32)])
      (fun t => has t [(3, 0x80000000#32)] && field t.xer 0 3 == 6#3 && field t.cr 0 4 == 9#4) = true := by decide
theorem test_mulli : runs 0x1C64FFFD#32 (st [(4, 0x7#32)]) (fun t => has t [(3, 0xFFFFFFEB#32)]) = true := by decide
theorem test_mullwo_record :
    runs 0x7C642DD7#32 (st [(4, 0x10000#32), (5, 0x10000#32)])
      (fun t => has t [(3, 0x0#32)] && field t.xer 0 3 == 6#3 && field t.cr 0 4 == 3#4) = true := by decide
theorem test_mulhw :
    runs 0x7C642896#32 (st [(4, 0xFFFFFFFF#32), (5, 0x2#32)]) (fun t => has t [(3, 0xFFFFFFFF#32)]) = true := by decide
theorem test_mulhwu :
    runs 0x7C642816#32 (st [(4, 0xFFFFFFFF#32), (5, 0x2#32)]) (fun t => has t [(3, 0x1#32)]) = true := by decide
theorem test_divw :
    runs 0x7C642BD6#32 (st [(4, 0xFFFFFFF9#32), (5, 0x2#32)]) (fun t => has t [(3, 0xFFFFFFFD#32)]) = true := by decide
theorem test_divwo_by_zero : runs 0x7C642FD7#32 (st [(4, 0x7#32)]) (fun t => field t.xer 0 3 == 6#3) = true := by decide
theorem test_divwu :
    runs 0x7C642B96#32 (st [(4, 0xFFFFFFF9#32), (5, 0x2#32)]) (fun t => has t [(3, 0x7FFFFFFC#32)]) = true := by decide

/-! ### Multiply-accumulate: the examples of R371 to R394, the overflowing ones with OE -/

theorem test_macchw :
    runs 0x10642958#32 (st [(4, 0x28003#32), (5, 0x4FFFB#32), (3, 0x64#32)])
      (fun t => has t [(3, 0xFFFE0070#32)]) = true := by decide
theorem test_macchw_overflow :
    runs 0x10642D59#32 (st [(4, 0x7FFF7FFF#32), (5, 0x7FFF7FFF#32), (3, 0x7FFFFFFF#32)])
      (fun t => has t [(3, 0xBFFF0000#32)] && field t.xer 0 3 == 6#3) = true := by decide
theorem test_macchws :
    runs 0x106429D8#32 (st [(4, 0x28003#32), (5, 0x4FFFB#32), (3, 0x64#32)])
      (fun t => has t [(3, 0xFFFE0070#32)]) = true := by decide
theorem test_macchws_overflow :
    runs 0x10642DD9#32 (st [(4, 0x7FFF7FFF#32), (5, 0x7FFF7FFF#32), (3, 0x7FFFFFFF#32)])
      (fun t => has t [(3, 0x7FFFFFFF#32)] && field t.xer 0 3 == 6#3) = true := by decide
theorem test_macchwsu :
    runs 0x10642998#32 (st [(4, 0x28003#32), (5, 0x4FFFB#32), (3, 0x64#32)])
      (fun t => has t [(3, 0x20070#32)]) = true := by decide
theorem test_macchwsu_overflow :
    runs 0x10642D99#32 (st [(4, 0xFFFFFFFF#32), (5, 0xFFFFFFFF#32), (3, 0xFFFFFFFF#32)])
      (fun t => has t [(3, 0xFFFFFFFF#32)] && field t.xer 0 3 == 6#3) = true := by decide
theorem test_macchwu :
    runs 0x10642918#32 (st [(4, 0x28003#32), (5, 0x4FFFB#32), (3, 0x64#32)])
      (fun t => has t [(3, 0x20070#32)]) = true := by decide
theorem test_macchwu_overflow :
    runs 0x10642D19#32 (st [(4, 0xFFFFFFFF#32), (5, 0xFFFFFFFF#32), (3, 0xFFFFFFFF#32)])
      (fun t => has t [(3, 0xFFFE0000#32)] && field t.xer 0 3 == 6#3) = true := by decide
theorem test_machhw :
    runs 0x10642858#32 (st [(4, 0x28003#32), (5, 0x4FFFB#32), (3, 0x64#32)])
      (fun t => has t [(3, 0x6C#32)]) = true := by decide
theorem test_machhw_overflow :
    runs 0x10642C59#32 (st [(4, 0x7FFF7FFF#32), (5, 0x7FFF7FFF#32), (3, 0x7FFFFFFF#32)])
      (fun t => has t [(3, 0xBFFF0000#32)] && field t.xer 0 3 == 6#3) = true := by decide
theorem test_machhws :
    runs 0x106428D8#32 (st [(4, 0x28003#32), (5, 0x4FFFB#32), (3, 0x64#32)])
      (fun t => has t [(3, 0x6C#32)]) = true := by decide
theorem test_machhws_overflow :
    runs 0x10642CD9#32 (st [(4, 0x7FFF7FFF#32), (5, 0x7FFF7FFF#32), (3, 0x7FFFFFFF#32)])
      (fun t => has t [(3, 0x7FFFFFFF#32)] && field t.xer 0 3 == 6#3) = true := by decide
theorem test_machhwsu :
    runs 0x10642898#32 (st [(4, 0x28003#32), (5, 0x4FFFB#32), (3, 0x64#32)])
      (fun t => has t [(3, 0x6C#32)]) = true := by decide
theorem test_machhwsu_overflow :
    runs 0x10642C99#32 (st [(4, 0xFFFFFFFF#32), (5, 0xFFFFFFFF#32), (3, 0xFFFFFFFF#32)])
      (fun t => has t [(3, 0xFFFFFFFF#32)] && field t.xer 0 3 == 6#3) = true := by decide
theorem test_machhwu :
    runs 0x10642818#32 (st [(4, 0x28003#32), (5, 0x4FFFB#32), (3, 0x64#32)])
      (fun t => has t [(3, 0x6C#32)]) = true := by decide
theorem test_machhwu_overflow :
    runs 0x10642C19#32 (st [(4, 0xFFFFFFFF#32), (5, 0xFFFFFFFF#32), (3, 0xFFFFFFFF#32)])
      (fun t => has t [(3, 0xFFFE0000#32)] && field t.xer 0 3 == 6#3) = true := by decide
theorem test_maclhw :
    runs 0x10642B58#32 (st [(4, 0x28003#32), (5, 0x4FFFB#32), (3, 0x64#32)])
      (fun t => has t [(3, 0x28055#32)]) = true := by decide
theorem test_maclhw_overflow :
    runs 0x10642F59#32 (st [(4, 0x7FFF7FFF#32), (5, 0x7FFF7FFF#32), (3, 0x7FFFFFFF#32)])
      (fun t => has t [(3, 0xBFFF0000#32)] && field t.xer 0 3 == 6#3) = true := by decide
theorem test_maclhws :
    runs 0x10642BD8#32 (st [(4, 0x28003#32), (5, 0x4FFFB#32), (3, 0x64#32)])
      (fun t => has t [(3, 0x28055#32)]) = true := by decide
theorem test_maclhws_overflow :
    runs 0x10642FD9#32 (st [(4, 0x7FFF7FFF#32), (5, 0x7FFF7FFF#32), (3, 0x7FFFFFFF#32)])
      (fun t => has t [(3, 0x7FFFFFFF#32)] && field t.xer 0 3 == 6#3) = true := by decide
theorem test_maclhwsu :
    runs 0x10642B98#32 (st [(4, 0x28003#32), (5, 0x4FFFB#32), (3, 0x64#32)])
      (fun t => has t [(3, 0x80008055#32)]) = true := by decide
theorem test_maclhwsu_overflow :
    runs 0x10642F99#32 (st [(4, 0xFFFFFFFF#32), (5, 0xFFFFFFFF#32), (3, 0xFFFFFFFF#32)])
      (fun t => has t [(3, 0xFFFFFFFF#32)] && field t.xer 0 3 == 6#3) = true := by decide
theorem test_maclhwu :
    runs 0x10642B18#32 (st [(4, 0x28003#32), (5, 0x4FFFB#32), (3, 0x64#32)])
      (fun t => has t [(3, 0x80008055#32)]) = true := by decide
theorem test_maclhwu_overflow :
    runs 0x10642F19#32 (st [(4, 0xFFFFFFFF#32), (5, 0xFFFFFFFF#32), (3, 0xFFFFFFFF#32)])
      (fun t => has t [(3, 0xFFFE0000#32)] && field t.xer 0 3 == 6#3) = true := by decide
theorem test_nmacchw :
    runs 0x1064295C#32 (st [(4, 0x28003#32), (5, 0x4FFFB#32), (3, 0x64#32)])
      (fun t => has t [(3, 0x20058#32)]) = true := by decide
theorem test_nmacchw_overflow :
    runs 0x10642D5D#32 (st [(4, 0x7FFF7FFF#32), (5, 0x7FFF7FFF#32), (3, 0x80000000#32)])
      (fun t => has t [(3, 0x4000FFFF#32)] && field t.xer 0 3 == 6#3) = true := by decide
theorem test_nmacchws :
    runs 0x106429DC#32 (st [(4, 0x28003#32), (5, 0x4FFFB#32), (3, 0x64#32)])
      (fun t => has t [(3, 0x20058#32)]) = true := by decide
theorem test_nmacchws_overflow :
    runs 0x10642DDD#32 (st [(4, 0x7FFF7FFF#32), (5, 0x7FFF7FFF#32), (3, 0x80000000#32)])
      (fun t => has t [(3, 0x80000000#32)] && field t.xer 0 3 == 6#3) = true := by decide
theorem test_nmachhw :
    runs 0x1064285C#32 (st [(4, 0x28003#32), (5, 0x4FFFB#32), (3, 0x64#32)])
      (fun t => has t [(3, 0x5C#32)]) = true := by decide
theorem test_nmachhw_overflow :
    runs 0x10642C5D#32 (st [(4, 0x7FFF7FFF#32), (5, 0x7FFF7FFF#32), (3, 0x80000000#32)])
      (fun t => has t [(3, 0x4000FFFF#32)] && field t.xer 0 3 == 6#3) = true := by decide
theorem test_nmachhws :
    runs 0x106428DC#32 (st [(4, 0x28003#32), (5, 0x4FFFB#32), (3, 0x64#32)])
      (fun t => has t [(3, 0x5C#32)]) = true := by decide
theorem test_nmachhws_overflow :
    runs 0x10642CDD#32 (st [(4, 0x7FFF7FFF#32), (5, 0x7FFF7FFF#32), (3, 0x80000000#32)])
      (fun t => has t [(3, 0x80000000#32)] && field t.xer 0 3 == 6#3) = true := by decide
theorem test_nmaclhw :
    runs 0x10642B5C#32 (st [(4, 0x28003#32), (5, 0x4FFFB#32), (3, 0x64#32)])
      (fun t => has t [(3, 0xFFFD8073#32)]) = true := by decide
theorem test_nmaclhw_overflow :
    runs 0x10642F5D#32 (st [(4, 0x7FFF7FFF#32), (5, 0x7FFF7FFF#32), (3, 0x80000000#32)])
      (fun t => has t [(3, 0x4000FFFF#32)] && field t.xer 0 3 == 6#3) = true := by decide
theorem test_nmaclhws :
    runs 0x10642BDC#32 (st [(4, 0x28003#32), (5, 0x4FFFB#32), (3, 0x64#32)])
      (fun t => has t [(3, 0xFFFD8073#32)]) = true := by decide
theorem test_nmaclhws_overflow :
    runs 0x10642FDD#32 (st [(4, 0x7FFF7FFF#32), (5, 0x7FFF7FFF#32), (3, 0x80000000#32)])
      (fun t => has t [(3, 0x80000000#32)] && field t.xer 0 3 == 6#3) = true := by decide
theorem test_mulchw :
    runs 0x10642950#32 (st [(4, 0x28003#32), (5, 0x4FFFB#32)]) (fun t => has t [(3, 0xFFFE000C#32)]) = true := by decide
theorem test_mulchwu :
    runs 0x10642910#32 (st [(4, 0x28003#32), (5, 0x4FFFB#32)]) (fun t => has t [(3, 0x2000C#32)]) = true := by decide
theorem test_mulhhw :
    runs 0x10642850#32 (st [(4, 0x28003#32), (5, 0x4FFFB#32)]) (fun t => has t [(3, 0x8#32)]) = true := by decide
theorem test_mulhhwu :
    runs 0x10642810#32 (st [(4, 0x28003#32), (5, 0x4FFFB#32)]) (fun t => has t [(3, 0x8#32)]) = true := by decide
theorem test_mullhw :
    runs 0x10642B50#32 (st [(4, 0x28003#32), (5, 0x4FFFB#32)]) (fun t => has t [(3, 0x27FF1#32)]) = true := by decide
theorem test_mullhwu :
    runs 0x10642B10#32 (st [(4, 0x28003#32), (5, 0x4FFFB#32)]) (fun t => has t [(3, 0x80007FF1#32)]) = true := by decide

/-! ### Logical: the examples of R411 to R427 -/

theorem test_and :
    runs 0x7C832838#32 (st [(4, 0xF0F00FF#32), (5, 0xFF0F0F#32)]) (fun t => has t [(3, 0xF000F#32)]) = true := by decide
theorem test_andc :
    runs 0x7C832878#32 (st [(4, 0x29030#32), (5, 0x28000#32)]) (fun t => has t [(3, 0x1030#32)]) = true := by decide
theorem test_cntlzw : runs 0x7C830034#32 (st [(4, 0x10000#32)]) (fun t => has t [(3, 0xF#32)]) = true := by decide
theorem test_cntlzw_zero : runs 0x7C830034#32 (st []) (fun t => has t [(3, 0x20#32)]) = true := by decide
theorem test_eqv :
    runs 0x7C832A38#32 (st [(4, 0xF0F00FF#32), (5, 0xFF0F0F#32)])
      (fun t => has t [(3, 0xF00FF00F#32)]) = true := by decide
theorem test_extsb :
    runs 0x7C830774#32 (st [(4, 0x12345680#32)]) (fun t => has t [(3, 0xFFFFFF80#32)]) = true := by decide
theorem test_extsh : runs 0x7C830734#32 (st [(4, 0xFFFF7FFF#32)]) (fun t => has t [(3, 0x7FFF#32)]) = true := by decide
theorem test_nand :
    runs 0x7C832BB8#32 (st [(4, 0xF0F00FF#32), (5, 0xFF0F0F#32)])
      (fun t => has t [(3, 0xFFF0FFF0#32)]) = true := by decide
theorem test_nor :
    runs 0x7C8328F8#32 (st [(4, 0xF0F00FF#32), (5, 0xFF0F0F#32)])
      (fun t => has t [(3, 0xF000F000#32)]) = true := by decide
theorem test_or :
    runs 0x7C832B78#32 (st [(4, 0xF0F00FF#32), (5, 0xFF0F0F#32)])
      (fun t => has t [(3, 0xFFF0FFF#32)]) = true := by decide
theorem test_orc :
    runs 0x7C832B38#32 (st [(4, 0xF0F00FF#32), (5, 0xFF0F0F#32)])
      (fun t => has t [(3, 0xFF0FF0FF#32)]) = true := by decide
theorem test_ori : runs 0x60838000#32 (st [(4, 0x20000#32)]) (fun t => has t [(3, 0x28000#32)]) = true := by decide
theorem test_oris : runs 0x6483FFFF#32 (st [(4, 0x1234#32)]) (fun t => has t [(3, 0xFFFF1234#32)]) = true := by decide
theorem test_xor :
    runs 0x7C832A78#32 (st [(4, 0xF0F00FF#32), (5, 0xFF0F0F#32)])
      (fun t => has t [(3, 0xFF00FF0#32)]) = true := by decide
theorem test_xori :
    runs 0x6883FFFF#32 (st [(4, 0x12345678#32)]) (fun t => has t [(3, 0x1234A987#32)]) = true := by decide
theorem test_xoris : runs 0x6C838000#32 (st [(4, 0x80000001#32)]) (fun t => has t [(3, 0x1#32)]) = true := by decide
theorem test_andiRc :
    runs 0x708300FF#32 (st [(4, 0x12345678#32)])
      (fun t => has t [(3, 0x78#32)] && field t.cr 0 4 == 4#4) = true := by decide
theorem test_andisRc :
    runs 0x74838000#32 (st [(4, 0xFFFFFFFF#32)])
      (fun t => has t [(3, 0x80000000#32)] && field t.cr 0 4 == 8#4) = true := by decide

/-! ### Compare, rotate and shift: the examples of R441 to R487 -/

theorem test_cmp : runs 0x7F842800#32 (st [(5, 0xFFFFFFFF#32)]) (fun t => field t.cr 28 4 == 4#4) = true := by decide
theorem test_cmpl : runs 0x7F842840#32 (st [(5, 0xFFFFFFFF#32)]) (fun t => field t.cr 28 4 == 8#4) = true := by decide
theorem test_cmpi :
    runs 0x2C04FFFF#32 (withXer 0x80000000#32 (st [(4, 0xFFFFFFFF#32)]))
      (fun t => field t.cr 0 4 == 3#4) = true := by decide
theorem test_cmpli : runs 0x2804FFFF#32 (st [(4, 0xFFFFFFFF#32)]) (fun t => field t.cr 0 4 == 4#4) = true := by decide
theorem test_rlwimi :
    runs 0x5083821E#32 (st [(4, 0x12345678#32), (3, 0xAAAAAAAA#32)])
      (fun t => has t [(3, 0xAA78AAAA#32)]) = true := by decide
theorem test_rlwinm :
    runs 0x5483402E#32 (st [(4, 0x12345678#32), (3, 0xAAAAAAAA#32)])
      (fun t => has t [(3, 0x34567800#32)]) = true := by decide
theorem test_rlwinm_mask_wraps :
    runs 0x54830706#32 (st [(4, 0x12345678#32), (3, 0xAAAAAAAA#32)])
      (fun t => has t [(3, 0x10000008#32)]) = true := by decide
theorem test_rlwnm :
    runs 0x5C832C3E#32 (st [(4, 0x12345678#32), (5, 0x24#32)]) (fun t => has t [(3, 0x6781#32)]) = true := by decide
theorem test_slw :
    runs 0x7C832830#32 (st [(4, 0x12345678#32), (5, 0x4#32)]) (fun t => has t [(3, 0x23456780#32)]) = true := by decide
theorem test_slw_by_32 :
    runs 0x7C832830#32 (st [(4, 0x12345678#32), (5, 0x20#32)]) (fun t => has t [(3, 0x0#32)]) = true := by decide
theorem test_srw :
    runs 0x7C832C30#32 (st [(4, 0x87654321#32), (5, 0x4#32)]) (fun t => has t [(3, 0x8765432#32)]) = true := by decide
theorem test_srw_by_63 :
    runs 0x7C832C30#32 (st [(4, 0x87654321#32), (5, 0x3F#32)]) (fun t => has t [(3, 0x0#32)]) = true := by decide
theorem test_sraw :
    runs 0x7C832E30#32 (st [(4, 0xFFFFFFF5#32), (5, 0x2#32)])
      (fun t => has t [(3, 0xFFFFFFFD#32)] && field t.xer 0 3 == 1#3) = true := by decide
theorem test_sraw_by_32 :
    runs 0x7C832E30#32 (st [(4, 0x80000000#32), (5, 0x20#32)])
      (fun t => has t [(3, 0xFFFFFFFF#32)] && field t.xer 0 3 == 1#3) = true := by decide
theorem test_srawi :
    runs 0x7C832670#32 (st [(4, 0x87654321#32)])
      (fun t => has t [(3, 0xF8765432#32)] && field t.xer 0 3 == 1#3) = true := by decide

/-! ### Branches and CR-logical: the examples of R451 to R469 (the instruction stands at 0x1000) -/

theorem test_bl : runs 0x4BFFFFF9#32 (st []) (fun t => t.pc == 0xFF8#32 && t.lr == 0x1004#32) = true := by decide
theorem test_ba : runs 0x4BFFFFFE#32 (st []) (fun t => t.pc == 0xFFFFFFFC#32) = true := by decide
theorem test_bc_taken :
    runs 0x41820020#32 (withCr 0x20000000#32 (st [])) (fun t => t.pc == 0x1020#32) = true := by decide
theorem test_bc_counts :
    runs 0x4200FFF0#32 (withCtr 1#32 (st [])) (fun t => t.pc == 0x1004#32 && t.ctr == 0#32) = true := by decide
theorem test_bcctrl :
    runs 0x4E800421#32 (withCtr 0x4003#32 (st [])) (fun t => t.pc == 0x4000#32 && t.lr == 0x1004#32) = true := by decide
theorem test_bclr :
    runs 0x4E800020#32 (withLr 0x1237#32 (st [])) (fun t => t.pc == 0x1234#32 && t.lr == 0x1237#32) = true := by decide
theorem test_crand : runs 0x4C442A02#32 (withCr 0x0C000000#32 (st [])) (fun t => bit t.cr 2 == true) = true := by decide
theorem test_crandc :
    runs 0x4C442902#32 (withCr 0x08000000#32 (st [])) (fun t => bit t.cr 2 == true) = true := by decide
theorem test_creqv : runs 0x4C442A42#32 (withCr 0x00000000#32 (st [])) (fun t => bit t.cr 2 == true) = true := by decide
theorem test_crnand :
    runs 0x4C4429C2#32 (withCr 0x0C000000#32 (st [])) (fun t => bit t.cr 2 == false) = true := by decide
theorem test_crnor : runs 0x4C442842#32 (withCr 0x00000000#32 (st [])) (fun t => bit t.cr 2 == true) = true := by decide
theorem test_cror : runs 0x4C442B82#32 (withCr 0x04000000#32 (st [])) (fun t => bit t.cr 2 == true) = true := by decide
theorem test_crorc :
    runs 0x4C442B42#32 (withCr 0x24000000#32 (st [])) (fun t => bit t.cr 2 == false) = true := by decide
theorem test_crxor :
    runs 0x4C442982#32 (withCr 0x0C000000#32 (st [])) (fun t => bit t.cr 2 == false) = true := by decide
theorem test_mcrf :
    runs 0x4C1C0000#32 (withCr 0x12345678#32 (st [])) (fun t => t.cr == 0x82345678#32) = true := by decide

/-! ### Cache control: the examples of R501 to R513 -/

theorem test_dcbf :
    runs 0x7C0028AC#32 (dirtyLine (st [(5, 0x2004#32)]))
      (fun t => memByte t 0x2001#32 == 0xAA && (dWay t 0x2000#32).isNone) = true := by decide
theorem test_dcbst :
    runs 0x7C04286C#32 (dirtyLine (st [(4, 0x2000#32)]))
      (fun t => memByte t 0x2001#32 == 0xAA && (dWay t 0x2000#32).isSome) = true := by decide
theorem test_dcbi :
    runs 0x7C002BAC#32 (dirtyLine (st [(5, 0x2000#32)]))
      (fun t => dataByte t 0x2001#32 == 0x55 && (dWay t 0x2000#32).isNone) = true := by decide
theorem test_dccci :
    runs 0x7C002B8C#32 (dirtyLine (st [(5, 0x12000#32)]))
      (fun t => dataByte t 0x2001#32 == 0x55 && (dWay t 0x2000#32).isNone) = true := by decide
theorem test_dcbt :
    runs 0x7C002A2C#32 (cachable (st [(5, 0x4000#32)])) (fun t => (dWay t 0x4000#32).isSome) = true := by decide
theorem test_dcbtst :
    runs 0x7C0429EC#32 (cachable (st [(4, 0x4000#32)])) (fun t => (dWay t 0x4000#32).isSome) = true := by decide
theorem test_dcba_non_cachable :
    runs 0x7C042DEC#32 (st [(4, 0x10000#32), (5, 0x20#32)]) (fun t => t.sto == State.reset.sto) = true := by decide
theorem test_dcbz :
    runs 0x7C002FEC#32 (dirtyLine (st [(5, 0x201C#32)]))
      (fun t => dataByte t 0x2001#32 == 0 && dataByte t 0x201F#32 == 0 && memByte t 0x2001#32 == 0x55) = true := by decide
theorem test_dcbz_non_cachable :
    runs 0x7C002FEC#32 (st [(5, 0x101C#32)])
      (fun t => t.pc == 0x600#32 && t.exc.dear == 0x101C#32 && t.exc.srr0 == 0x1000#32) = true := by decide
theorem test_dcread_tag :
    runs 0x7C642BCC#32 (withCcr0 0x10#32 (dirtyLine (st [(4, 0x2000#32)])))
      (fun t => has t [(3, 0x2031#32)]) = true := by decide
theorem test_dcread_word :
    runs 0x7C642BCC#32 (dirtyLine (st [(4, 0x2004#32)])) (fun t => has t [(3, 0xAAAAAAAA#32)]) = true := by decide
theorem test_icbt :
    runs 0x7C042A0C#32 (cachable (st [(4, 0x2000#32)])) (fun t => (iWay t 0x2000#32).isSome) = true := by decide
theorem test_icbi :
    runs 0x7C002FAC#32 (fetchedLine (st [(5, 0x2004#32)])) (fun t => (iWay t 0x2000#32).isNone) = true := by decide
theorem test_iccci :
    runs 0x7C002F8C#32 (fetchedLine (st [(5, 0x9000#32)]))
      (fun t => t.sto.icache.all (fun c => !c.2.a.valid && !c.2.b.valid)) = true := by decide
theorem test_icread_tag :
    runs 0x7C002FCC#32 (withCcr0 0x10#32 (fetchedLine (st [(5, 0x2000#32)])))
      (fun t => t.icdbdr == 0x2011#32) = true := by decide
theorem test_icread_word :
    runs 0x7C002FCC#32 (fetchedLine (st [(5, 0x2004#32)])) (fun t => t.icdbdr == 0x55555555#32) = true := by decide

/-! ### Interrupt control and TLB: the examples of R530 to R544 -/

theorem test_mfmsr :
    runs 0x7C6000A6#32 (withMsr 0x29030#32 (st [])) (fun t => has t [(3, 0x29030#32)]) = true := by decide
theorem test_mtmsr :
    runs 0x7C600124#32 (withMsr 0x9030#32 (st [(3, 0x1030#32)])) (fun t => t.msr == 0x1030#32) = true := by decide
theorem test_rfi :
    runs 0x4C000064#32 (saved (st [])) (fun t => t.pc == 0x1234#32 && t.msr == 0xC030#32) = true := by decide
theorem test_rfci :
    runs 0x4C000066#32 (saved (st [])) (fun t => t.pc == 0xF00#32 && t.msr == 0x29030#32) = true := by decide
theorem test_wrtee :
    runs 0x7C600106#32 (withMsr 0x1030#32 (st [(3, 0x8000#32)])) (fun t => t.msr == 0x9030#32) = true := by decide
theorem test_wrteei : runs 0x7C000146#32 (withMsr 0x9030#32 (st [])) (fun t => t.msr == 0x1030#32) = true := by decide
theorem test_tlbwe_data :
    runs 0x7C640FA4#32 (st [(4, 0x5#32), (3, 0xFF000305#32)])
      (fun t => t.mmu.tlb[5] == { entry with epn := 0, size := 0, v := false, tid := 0 }) = true := by decide
theorem test_tlbwe_tag :
    runs 0x7CA407A4#32 (withEntry { entry with v := false, tid := 0, epn := 0, size := 0 }
      (st [(4, 0x5#32), (5, 0x1001C0#32)]))
      (fun t => t.mmu.tlb[5] == entry) = true := by decide
theorem test_tlbre_tag :
    runs 0x7C640764#32 (withEntry entry (st [(4, 0x5#32)]))
      (fun t => has t [(3, 0x1001C0#32)] && t.mmu.pid == 7#32) = true := by decide
theorem test_tlbre_data :
    runs 0x7C640F64#32 (withEntry entry (st [(4, 0x5#32)])) (fun t => has t [(3, 0xFF000305#32)]) = true := by decide
theorem test_tlbsx_found :
    runs 0x7C602F25#32 (withEntry entry (st [(5, 0x105678#32)]))
      (fun t => has t [(3, 0x5#32)] && field t.cr 0 4 == 2#4) = true := by decide
theorem test_tlbsx_not_found :
    runs 0x7C602F25#32 (withEntry entry (st [(5, 0x200000#32)])) (fun t => field t.cr 0 4 == 0#4) = true := by decide
theorem test_tlbia :
    runs 0x7C0002E4#32 (withEntry entry (st []))
      (fun t => t.mmu.tlb[5] == { entry with v := false }) = true := by decide +kernel
theorem test_tlbsync :
    runs 0x7C00046C#32 (withEntry entry (st []))
      (fun t => t.pc == 0x1004#32 && t.mmu.tlb[5] == entry) = true := by decide

/-! ### Processor management: the examples of R563 to R574 -/

theorem test_eieio : runs 0x7C0006AC#32 (st []) (fun t => t.pc == 0x1004#32) = true := by decide
theorem test_isync : runs 0x4C00012C#32 (st []) (fun t => t.pc == 0x1004#32) = true := by decide
theorem test_sync : runs 0x7C0004AC#32 (st []) (fun t => t.pc == 0x1004#32) = true := by decide
theorem test_mcrxr :
    runs 0x7D000400#32 (withXer 0xC000007F#32 (withCr 0xFFFFFFFF#32 (st [])))
      (fun t => t.cr == 0xFFCFFFFF#32 && t.xer == 0x7F#32) = true := by decide
theorem test_mfcr :
    runs 0x7C600026#32 (withCr 0x28000042#32 (st [])) (fun t => has t [(3, 0x28000042#32)]) = true := by decide
theorem test_mtcrf : runs 0x7C621120#32 (st [(3, 0x12345678#32)]) (fun t => t.cr == 0x00300008#32) = true := by decide
theorem test_mfdcr :
    runs 0x7C634A86#32 (withDcr 0x123 (.word 0x77#32) (st [])) (fun t => has t [(3, 0x77#32)]) = true := by decide
theorem test_mtdcr :
    runs 0x7C634B86#32 (withDcr 0x123 (.word 0x77#32) (st [(3, 0x99#32)]))
      (fun t => t.dcr == [(0x123, .word 0x99#32)]) = true := by decide
theorem test_mfspr_lr :
    runs 0x7C6802A6#32 (withLr 0x1237#32 (st [])) (fun t => has t [(3, 0x1237#32)]) = true := by decide
theorem test_mfspr_ccr0 : runs 0x7CB3EAA6#32 (st []) (fun t => has t [(5, 0x700000#32)]) = true := by decide
theorem test_mtspr_ctr : runs 0x7C6903A6#32 (st [(3, 0x1234#32)]) (fun t => t.ctr == 0x1234#32) = true := by decide
theorem test_mtspr_tsr :
    runs 0x7C78F3A6#32 (withTsr 0xCC000000#32 (st [(3, 0x8000000#32)]))
      (fun t => t.tmr.tsr == 0xC4000000#32) = true := by decide
theorem test_mftb :
    runs 0x7C6C42E6#32 (withTbl 0x12345678#32 (st [])) (fun t => has t [(3, 0x12345678#32)]) = true := by decide
theorem test_sc :
    runs 0x44000002#32 (withEvpr 0xFFF00000#32 (withMsr 0xC030#32 (st [])))
      (fun t => t.pc == 0xFFF00C00#32 && t.exc.srr0 == 0x1004#32 && t.exc.srr1 == 0xC030#32 && t.msr == 0#32) = true := by decide
theorem test_tw :
    runs 0x7FE00008#32 (withMsr 0x8000#32 (st []))
      (fun t => t.pc == 0x700#32 && t.exc.srr0 == 0x1000#32 && t.exc.esr == 0x02000000#32) = true := by decide
theorem test_tw_unequal : runs 0x7C832008#32 (st [(3, 0x1#32)]) (fun t => t.pc == 0x1004#32) = true := by decide
theorem test_twi : runs 0x0E03FFFF#32 (st [(3, 0x80000000#32)]) (fun t => t.pc == 0x700#32) = true := by decide
theorem test_twi_not_less :
    runs 0x0E03FFFF#32 (st [(3, 0xFFFFFFFF#32)]) (fun t => t.pc == 0x1004#32) = true := by decide

/-! ### Machine steps -/

theorem test_step_runs_placed_word : steps ((st [(4, 7#32)]).withFetchWord 32 0x38640001) (fun t => has t [(3, 8#32)]) = true := by
  decide
theorem test_step_illegal_word : steps (st []) (fun t => t.pc == 0x700#32 && t.exc.esr == 0x08000000#32) = true := by decide
theorem test_step_waits : steps (withMsr 0x40000#32 (st [])) (fun t => t.pc == 0x1000#32 && msrWE t) = true := by decide

/-! ### States that meet the hypotheses of the statements, a theorem for each statement; where a statement has several
clauses, each is met -/

/-- Storage and the data cache are right and no line is clean. -/
theorem cached {s : State} (h : (memOk s && dcacheOk s) = true)
    (hd : s.sto.dcache.all (fun kd => (!kd.2.a.valid || kd.2.a.dirty) &&
      (!kd.2.b.valid || kd.2.b.dirty)) = true) : Cached s :=
  have h' := Bool.and_eq_true_iff.mp h
  ⟨h'.1, h'.2, cleanAgrees_of_dirty hd⟩

/-- The accesses of an operand pass their checks and are plain. -/
def allowed (s : State) (store : Bool) (ea : Word) (n : Nat) : Bool :=
  (checkUnits s store (units ea n)).2.isNone && plain s (checkUnits s store (units ea n)).1

/-- Data translation on, the entry of R541 in place: the page of 0x100000 holds, every other address misses. -/
def virtual (msr : Word) (e : TlbEntry) : State := withMsr msr (withEntry e (st []))

theorem quiet_st : quiet (st []) = true := by decide

theorem witness_EncodeDecode : (Instr.bc 12 2 0x8000 true false).wellFormed = true ∧
    (Instr.b 0 false false).wellFormed = true := by
  decide
/-- A word of each primary opcode with an extended opcode; `mulhw`, whose bit 21 is reserved; `stwcx.` with bit 31 = 0. -/
theorem witness_DecodeWellFormed :
    decode 0x7C642A14#32 = .ok (.add 3 4 5 false false) ∧ decode 0x10642958#32 = .ok (.macchw 3 4 5 false false) ∧
      decode 0x4C442A02#32 = .ok (.crand 2 4 5) ∧ decode 0x7C642896#32 = .ok (.mulhw 3 4 5 false) ∧
      decode 0x7C642C96#32 = .ok (.mulhw 3 4 5 false) ∧ decode 0x7C60292C#32 = .ok (.stwcxRc 3 0 5) := by decide

/-- An `add` at the pc. -/
def placed : State := put 0x1000#32 [0x7C, 0x64, 0x2A, 0x14] (st [])

/-- The same with another word for that line in the instruction cache, where a reset left it. -/
def leftover : State :=
  setISet 0x80
    { a := { valid := true, line := 0x80#27, words := Vector.replicate 8 0x55555555, undef := true }, b := ISet.empty.b,
      lruB := true } placed

/-- An `addi` word stored at the pc over the `add`, in caching inhibited storage; the store is not performed yet. -/
def changed : State := busWrite true 0x1000#32 [0x38, 0x60, 0x00, 0x07] placed

/-- The same with the old word prefetched. -/
def queued : State := { changed with pipe := { changed.pipe with queue := [(0x1000#32, .word 0x7C642A14#32 false)] } }

/-- The words that a fetch at the pc may give, and whether it is cachable. -/
def fetchable (s : State) : List (Fetched × Bool) := (fetchUnder s.pc s).map (fun f => (f.gives, f.cachable))

theorem witness_StepRunsDecoded :
    [placed, leftover, settleStores changed].all (fun s =>
      ready s && icacheOk s && s.pipe.contexts.isEmpty && s.pipe.queue.isEmpty && s.sto.late.all (·.settled) &&
        s.params.busErrors.isEmpty && (match xlateFetch s s.pc with
        | some x => execOk s x && x.attrs.i &&
            (match iWay s x.ra with | none => true | some way => ((iSet s (iClass s x.ra)).get way).undef) &&
            (decodeBytes (orderBytes x.attrs.e [memByte s x.ra, memByte s (x.ra + 1#32), memByte s (x.ra + 2#32),
              memByte s (x.ra + 3#32)])).isOk
        | none => false)) = true ∧ iWay leftover 0x1000#32 = some false ∧ (settleStores changed).sto.late ≠ [] := by decide
theorem test_reset_lines_are_not_fetched :
    steps { leftover with gpr := (st [(4, 1#32), (5, 2#32)]).gpr } (fun t => has t [(3, 3#32)]) = true := by decide

/-- Cachable fetches: a miss at 0x1000, a hit in the line of 0x2000. Then the prefetched old word; and a store to the word at
the pc that is still under way. -/
theorem witness_StepRunsFetched :
    [cachable placed, put 0x2000#32 [0x7C, 0x64, 0x2A, 0x14] (fetchedLine { st [] with pc := 0x2000#32 })].all (fun s =>
      ready s && fresh s && icacheOk s && s.params.busErrors.isEmpty && (match xlateFetch s s.pc with
        | some x => execOk s x && !x.attrs.i
        | none => false)) = true ∧
    iWay (cachable placed) 0x1000#32 = none ∧ iWay (fetchedLine (st [])) 0x2000#32 = some false ∧
    decode (memWord (cachable placed) 0x1000#32 false) = .ok (.add 3 4 5 false false) ∧
    (cachable placed).params.icacheSize.classes ≠ 0 ∧ ccrFWOA (cachable placed) = false ∧
    [changed, queued].all (fun s =>
      ready s && icacheOk s && s.pipe.contexts.isEmpty && s.params.busErrors.isEmpty && (xlateFetch s s.pc).isSome) = true ∧
    (queued.pipe.queue.find? (fun q => q.1 == queued.pc)).map (·.2) = some (.word 0x7C642A14#32 false) ∧
    fetchable changed = [(.word 0x38600007#32 false, false), (.word 0x7C642A14#32 false, false)] := by decide
theorem test_prefetched_word_runs :
    steps { queued with gpr := (st [(4, 1#32), (5, 2#32)]).gpr } (fun t => has t [(3, 3#32)]) = true := by decide
/-- The new word alone is fetched after the four steps of R203, here `sync` and `isync`, and after `isync` alone where the
storage is caching inhibited (R787). -/
theorem test_fetch_after_sync_and_isync :
    runs 0x7C0004AC#32 queued (fun t => runs 0x4C00012C#32 t (fun u =>
      (u.pipe.queue, fetchable { u with pc := 0x1000#32 }) == ([], [(.word 0x38600007#32 false, false)]))) = true ∧
    runs 0x4C00012C#32 queued (fun u =>
      (u.pipe.queue, fetchable { u with pc := 0x1000#32 }) == ([], [(.word 0x38600007#32 false, false)])) = true := by decide
/-- A copy-back still under way may be missed by a cachable fetch after `isync`, not after `sync` (R203). -/
theorem test_copy_back_needs_sync :
    (let s := busWrite false 0x1000#32 [0x38, 0x60, 0x00, 0x07] (cachable placed)
     runs 0x4C00012C#32 s (fun u => (fetchable { u with pc := 0x1000#32 }).length == 2) &&
       runs 0x7C0004AC#32 s (fun u => (fetchable { u with pc := 0x1000#32 }).length == 1)) = true := by decide
/-- A read ahead fills its line at once, and a `icbi` drops it: the word run from the queue later fills nothing (R184). -/
theorem test_line_fills_at_the_read :
    (let s := (readInstr [cachable placed] 0x1000#32 (cachable placed)).2
     let t := dropInstrLine 0x1000#32 (enqueue 0x1000#32 (.word 0x7C642A14#32 false) s)
     (iWay s 0x1000#32).isSome && (iWay t 0x1000#32).isNone && (iWay (fetchAtPc t).2 0x1000#32).isNone &&
       (fetchAtPc t).1 == .word 0x7C642A14#32 false) = true := by decide

/-- A bus error answers fetches of the word at the pc. -/
def failing (msr : Word) : State :=
  let s := withMsr msr placed
  { s with params := { s.params with
      busErrors := [{ lo := 0x1003#32, hi := 0x1003#32, onFetch := true, onLoad := false, onStore := false }] } }

/-- The fetch is made under the state as it is, and no event is armed. -/
def undisputed (s : State) : Bool := ready s && fresh s && quiet s

/-- A translated fetch that misses; one whose page is guarded; one refused by its zone in the problem state; one without EX in
its zone; one that is allowed; an address with MSR[IR] = 0; a bus error, with MSR[ME] = 1 and 0. -/
theorem witness_FetchFaults :
    (undisputed (virtual 0x20#32 entry) && aligned 0x1000#32 && aligned 0x100000#32 &&
      (tlbLookup (virtual 0x20#32 entry) 0x1000#32).isNone) = true ∧
    [(0x20#32, entry), (0x4020#32, { entry with g := false }), (0x20#32, { entry with g := false, ex := false }),
     (0x20#32, { entry with g := false })].all (fun f =>
       let s := { virtual f.1 f.2 with pc := 0x100000#32 }
       undisputed s && bit s.msr 26 && (tlbLookup s s.pc).map (·.1) == some 5) = true ∧
    (undisputed (st []) && !bit (st []).msr 26) = true ∧
    [failing 0x1000#32, failing 0#32].all (fun s => undisputed s && icacheOk s && (match xlateFetch s s.pc with
      | some x => execOk s x && (iWay s x.ra).isNone && busErrorIn s .fetch x.ra 4
      | none => false)) = true := by
  decide
theorem test_fetch_bus_error :
    steps (failing 0x1000#32) (fun t => t.pc == 0x200#32 && t.exc.srr2 == 0x1000#32 &&
      t.exc.esr == 0x80000000#32) = true := by
  decide
theorem test_fetch_miss : steps (virtual 0x20#32 entry) (fun t => t.pc == 0x1200#32 && t.exc.srr0 == 0x1000#32) = true := by
  decide
theorem test_fetch_refused :
    steps { virtual 0x4020#32 { entry with g := false } with pc := 0x100000#32 }
      (fun t => t.pc == 0x400#32 && t.exc.esr == 0x00400000#32) = true := by decide

theorem witness_IllegalWord : (decode 0#32).isOk = false ∧ quiet (st []) = true ∧ (st []).dbg.run ≠ .debugWait := by decide
theorem witness_SoftwareReset :
    bit (st [(3, 0x30000000#32)]).msr 17 = false ∧ field (gpr (st [(3, 0x30000000#32)]) 3) 2 2 ≠ 0#2 := by decide
theorem test_reset_drops_a_pending_machine_check :
    runs 0x7C72FBA6#32 { st [(3, 0x10000000#32)] with inp := { critical := true, external := false, dataMachineCheck := true, bus := [] } }
      (fun t => t.pc == 0xFFFFFFFC#32 && !t.inp.dataMachineCheck && t.inp.critical) = true := by decide +kernel
theorem witness_StepKeepsInv :
    (inv placed && steps placed inv) = true ∧ (inv changed && steps (withMsr 0x40000#32 changed) inv) = true := by decide
theorem witness_UserConfined :
    bit (withMsr 0x4000#32 (st [])).msr 17 = true ∧ runs 0x7C642A14#32 (withMsr 0x4000#32 (st [])) (fun t => t.msr == 0x4000#32) = true ∧
    runs 0x44000002#32 (withMsr 0x4000#32 (st [])) (fun t => t.pc == 0xC00#32 && t.msr == 0#32) = true := by decide
/-- Instructions that leave the bit, set it and clear it; a step that leaves it, one that executes an instruction, one reset from
outside; `lwarx` and `stwcx.` that pass their checks, the latter with and without the bit. -/
theorem witness_ReservationRule :
    runs 0x7C642A14#32 (reserved (st [])) (fun t => t.reserve) = true ∧
      runs 0x7C602828#32 (st [(5, 0x2004#32)]) (fun t => t.reserve) = true ∧
      runs 0x7C60292D#32 (reserved (st [(5, 0x2004#32)])) (fun t => !t.reserve) = true ∧
      [st [], reserved (st []), reserved placed, meeting (.resetRequest .chip) (st [])].all (fun s => steps s (fun _ => true)) =
        true ∧
      quiet (st []) = true ∧ (0x2004#32).toNat % 4 = 0 ∧ (checkUnits (st []) false (units 0x2004#32 4)).2 = none ∧
      quiet (reserved (dirtyLine (st []))) = true ∧ allowed (reserved (dirtyLine (st []))) true 0x2004#32 4 = true ∧
      Cached (reserved (dirtyLine (st []))) := by
  refine ⟨by decide, by decide, by decide, by decide +kernel, by decide, by decide, by decide, by decide, by decide,
    cached (by decide) (by decide)⟩
theorem witness_InstructionCacheRule :
    runs 0x98640000#32 (fetchedLine (st [(4, 0x2000#32)])) (fun t => (iWay t 0x2000#32).isSome) = true := by decide

theorem witness_Sums : quiet (withXer 0x20000000#32 (st [(4, 0x7FFFFFFF#32)])) = true := by decide
theorem witness_Differences : quiet (st [(4, 0x80000000#32)]) = true := by decide
theorem witness_ImmediateArithmetic : quiet (st [(0, 1#32)]) = true := by decide
theorem witness_Products : quiet (st [(4, 0x80000000#32), (5, 0xFFFFFFFF#32)]) = true := by decide
theorem witness_Quotients :
    quiet (st [(4, 0x80000000#32), (5, 1#32)]) = true ∧ gpr (st [(4, 0x80000000#32), (5, 1#32)]) 5 ≠ 0#32 ∧
      ¬ ((0x80000000#32).toInt = -2 ^ 31 ∧ (1#32).toInt = -1) := by decide
theorem witness_UndefinedQuotients :
    quiet (st [(4, 0x80000000#32), (5, 0xFFFFFFFF#32)]) = true ∧ gpr (st [(4, 7#32)]) 5 = 0#32 ∧
      (0x80000000#32).toInt = -2 ^ 31 ∧ (0xFFFFFFFF#32).toInt = -1 := by decide
theorem witness_SignedAccumulates : quiet (st [(3, 0x7FFFFFFF#32), (4, 0x7FFF7FFF#32), (5, 0x7FFF7FFF#32)]) = true := by decide
theorem witness_UnsignedAccumulates : quiet (st [(3, 0xFFFFFFFF#32), (4, 0xFFFFFFFF#32), (5, 0xFFFFFFFF#32)]) = true := by decide
theorem witness_HalfwordProducts : quiet (st [(4, 0x80008000#32), (5, 0x80008000#32)]) = true := by decide
theorem witness_Logicals : quiet (st [(4, 0xF0F0F0F0#32)]) = true := by decide
theorem witness_SignExtensions : quiet (st [(4, 0x00010080#32)]) = true := by decide
theorem witness_Compares : quiet (withXer 0x80000000#32 (st [(4, 0x80000000#32)])) = true := by decide
theorem witness_Rotates : quiet (st [(4, 0x12345678#32), (5, 31#32)]) = true := by decide
theorem witness_Shifts : quiet (st [(4, 0x80000001#32), (5, 63#32)]) = true := by decide
theorem witness_Branches : quiet (withCtr 0#32 (st [])) = true ∧ (20#5).getMsbD 2 = true ∧
    (16#5).getMsbD 2 = false := by decide
theorem witness_BranchToDecrementedCount : quiet (withCtr 1#32 (st [])) = true ∧ (16#5).getMsbD 2 = false := by decide
theorem witness_CrLogicals : quiet (withCr 0x12345678#32 (st [])) = true := by decide

/-- Every data access that goes to storage is answered with a bus error; MSR[ME] as given. -/
def erring (msr : Word) (s : State) : State :=
  withMsr msr { s with params := { s.params with
    busErrors := [{ lo := 0#32, hi := 0xFFFFFFFF#32, onFetch := false, onLoad := true, onStore := true }] } }
theorem erring_meets {msr : Word} {s : State} {k : BusErrorRange → Bool} {ra : Word} {n : Nat} (h : 0 < n)
    (hk : k { lo := 0#32, hi := 0xFFFFFFFF#32, onFetch := false, onLoad := true, onStore := true } = true) :
    MeetsBusError (erring msr s) k ra n :=
  ⟨_, List.mem_singleton.mpr rfl, hk, 0, h, Nat.zero_le _, Nat.le_of_lt_succ (BitVec.isLt _)⟩
/-- The accesses of a word at 0x1000 pass, and the only one has these attributes and no line of the cache. -/
def lone (s : State) (store i w : Bool) : Bool :=
  let us := checkUnits s store (units 0x1000#32 4)
  us.2.isNone && us.1.length == 1 && us.1.all (fun u => u.n == 4 && u.x.attrs.i == i && u.x.attrs.w == w && (dWay s u.x.ra).isNone)

/-- A word that wraps past the top of storage, one across two lines of the cache, one in inhibited storage; a bus error of an
inhibited load and of a line fill, with MSR[ME] = 1 and 0. -/
theorem witness_ScalarLoads :
    quiet (dirtyLine (st [])) = true ∧ Cached (dirtyLine (st [])) ∧ allowed (dirtyLine (st [])) false 0xFFFFFFFE#32 4 = true ∧
      allowed (dirtyLine (st [])) false 0x201E#32 4 = true ∧ Cached (st []) ∧ allowed (st []) false 0x1001#32 4 = true ∧
      [0x1000#32, 0#32].all (fun m => quiet (erring m (st [])) && lone (erring m (st [])) false true false &&
        (erring m (st [])).sto.buffer.isNone && !ccrLWL (erring m (st [])) && quiet (erring m (cachable (st []))) &&
        lone (erring m (cachable (st []))) false false false && !ccrLWOA (erring m (cachable (st []))) &&
        (erring m (cachable (st []))).params.dcacheSize.classes != 0) = true ∧
      MeetsBusError (erring 0x1000#32 (st [])) (·.onLoad) 0x1000#32 4 ∧
      MeetsBusError (erring 0x1000#32 (cachable (st []))) (·.onLoad) (lineBase (lineOf 0x1000#32)) 32 := by
  refine ⟨by decide, cached (by decide) (by decide), by decide, by decide, cached (by decide) (by decide), by decide, by decide,
    erring_meets (by decide) rfl, erring_meets (by decide) rfl⟩
theorem test_data_bus_errors_are_pending :
    [st [], cachable (st [])].all (fun s => runs 0x80601000#32 (erring 0x1000#32 s) (fun t =>
      t.inp.dataMachineCheck && t.pc == 0x1004#32 && t.exc == s.exc)) = true ∧
    [st [], writeThrough (st [])].all (fun s => runs 0x90601000#32 (erring 0x1000#32 s) (fun t =>
      t.inp.dataMachineCheck && t.pc == 0x1004#32 && t.exc == s.exc)) = true := by decide
theorem witness_UpdateLoads :
    quiet (dirtyLine (st [(4, 0x2000#32)])) = true ∧ Cached (dirtyLine (st [(4, 0x2000#32)])) ∧
      allowed (dirtyLine (st [(4, 0x2000#32)])) false 0x2001#32 1 = true := by
  refine ⟨by decide, cached (by decide) (by decide), by decide⟩
theorem witness_LoadReserve :
    quiet (dirtyLine (st [(5, 0x2004#32)])) = true ∧ Cached (dirtyLine (st [(5, 0x2004#32)])) ∧ (0x2004#32).toNat % 4 = 0 ∧
      allowed (dirtyLine (st [(5, 0x2004#32)])) false 0x2004#32 4 = true := by
  refine ⟨by decide, cached (by decide) (by decide), by decide, by decide⟩
theorem witness_LoadMultiple :
    quiet (dirtyLine (st [(4, 0x2001#32)])) = true ∧ Cached (dirtyLine (st [(4, 0x2001#32)])) ∧
      allowed (dirtyLine (st [(4, 0x2001#32)])) false 0x2001#32 12 = true ∧
        allowed (dirtyLine (st [])) false 0x2000#32 4 = true := by
  refine ⟨by decide, cached (by decide) (by decide), by decide, by decide⟩
/-- Both forms, the indexed one with one byte and with 127. -/
theorem witness_LoadStrings :
    quiet (dirtyLine (st [])) = true ∧ Cached (dirtyLine (st [])) ∧ (1#32).toNat % 128 ≠ 0 ∧ (127#32).toNat % 128 ≠ 0 ∧
      allowed (dirtyLine (st [])) false 0x2001#32 32 = true ∧
        allowed (withXer 1#32 (dirtyLine (st []))) false 0x2001#32 1 = true ∧
      allowed (withXer 127#32 (dirtyLine (st []))) false 0x2001#32 127 = true := by
  refine ⟨by decide, cached (by decide) (by decide), by decide, by decide, by decide, by decide, by decide +kernel⟩
theorem witness_EmptyStrings :
    quiet (failing 0#32) = true ∧ (failing 0#32).params.busErrors ≠ [] ∧ (failing 0#32).xer.toNat % 128 = 0 ∧ quiet (st []) = true ∧ (st []).params.busErrors = [] ∧ (st []).xer.toNat % 128 = 0 := by decide
/-- Cachable write-back storage, a word that wraps, and inhibited and write-through storage; a bus error of an inhibited and of a
write-through store. -/
theorem witness_ScalarStores :
    quiet (dirtyLine (st [])) = true ∧ Cached (dirtyLine (st [])) ∧ allowed (dirtyLine (st [])) true 0xFFFFFFFE#32 4 = true ∧
      allowed (dirtyLine (st [])) true 0x201F#32 2 = true ∧ Cached (st []) ∧ allowed (st []) true 0x1000#32 1 = true ∧
      quiet (writeThrough (st [])) = true ∧ Cached (writeThrough (st [])) ∧
      allowed (writeThrough (st [])) true 0x1000#32 4 = true ∧
      (checkUnits (writeThrough (st [])) true (units 0x1000#32 4)).1.all (fun u => u.x.attrs.w) = true ∧
      [0x1000#32, 0#32].all (fun m => quiet (erring m (st [])) && lone (erring m (st [])) true true false &&
        quiet (erring m (writeThrough (st []))) && lone (erring m (writeThrough (st []))) true false true) = true ∧
      MeetsBusError (erring 0x1000#32 (st [])) (·.onStore) 0x1000#32 4 := by
  refine ⟨by decide, cached (by decide) (by decide), by decide, by decide, cached (by decide) (by decide), by decide,
    by decide, cached (by decide) (by decide), by decide, by decide, by decide, erring_meets (by decide) rfl⟩
theorem witness_MultipleStores :
    quiet (dirtyLine (st [])) = true ∧ Cached (dirtyLine (st [])) ∧ allowed (dirtyLine (st [])) true 0x2001#32 8 = true ∧
      allowed (dirtyLine (st [])) true 0x2001#32 32 = true ∧ (5#32).toNat % 128 ≠ 0 ∧
      allowed (withXer 5#32 (dirtyLine (st []))) true 0x2003#32 5 = true := by
  refine ⟨by decide, cached (by decide) (by decide), by decide, by decide, by decide, by decide⟩
theorem witness_StoreConditional :
    quiet (reserved (dirtyLine (st []))) = true ∧ Cached (reserved (dirtyLine (st []))) ∧ (0x2004#32).toNat % 4 = 0 ∧
      (reserved (dirtyLine (st []))).reserve = true ∧ allowed (reserved (dirtyLine (st []))) true 0x2004#32 4 = true ∧
      quiet (st []) = true ∧ (st []).reserve = false := by
  refine ⟨by decide, cached (by decide) (by decide), by decide, by decide, by decide, by decide, by decide⟩

/-- The address of a cache instruction passes its check. -/
theorem witness_LineFlushes :
    quiet (dirtyLine (st [])) = true ∧ undisturbed (dirtyLine (st [])) = true ∧ Cached (dirtyLine (st [])) ∧
      (dirtyLine (st [])).params.busErrors = [] ∧
      (loadXlate (dirtyLine (st [])) 0x201F#32).isOk = true := by
  refine ⟨by decide, by decide, cached (by decide) (by decide), by decide, by decide⟩
theorem witness_LineInvalidates :
    quiet (dirtyLine (st [])) = true ∧ undisturbed (dirtyLine (st [])) = true ∧ dcacheOk (dirtyLine (st [])) = true ∧
      bit (dirtyLine (st [])).msr 17 = false ∧
      (match xlateData (dirtyLine (st [])) 0x2000#32 with
        | some x => writeOk (dirtyLine (st [])) x | none => false) = true := by decide
/-- A touch that may load, one that may not, and a `dcba` of an absent line. -/
theorem witness_LineTouches :
    quiet (dirtyLine (st [])) = true ∧ undisturbed (dirtyLine (st [])) = true ∧ Cached (dirtyLine (st [])) ∧
      (dirtyLine (st [])).params.busErrors = [] ∧
      (match loadXlate (dirtyLine (st [])) 0x4000#32 with
        | .ok x => !x.attrs.i && (dWay (dirtyLine (st [])) x.ra).isNone | .error _ => false) = true ∧
      (dirtyLine (st [])).params.dcacheSize.classes ≠ 0 ∧ (loadXlate (virtual 0x10#32 entry) 0x4000#32).isOk = false ∧
      quiet (virtual 0x10#32 entry) = true ∧ xlateData (virtual 0x10#32 entry) 0x4000#32 = none ∧
      Cached (virtual 0x10#32 entry) := by
  refine ⟨by decide, by decide, cached (by decide) (by decide), by decide, by decide, by decide, by decide, by decide, by decide,
    cached (by decide) (by decide)⟩
theorem witness_LineZeroes :
    quiet (dirtyLine (st [])) = true ∧ undisturbed (dirtyLine (st [])) = true ∧ Cached (dirtyLine (st [])) ∧
      (dirtyLine (st [])).params.busErrors = [] ∧
      (dirtyLine (st [])).params.dcacheSize.classes ≠ 0 ∧
      (match storeXlate (dirtyLine (st [])) 0x201F#32 with
        | .ok x => !x.attrs.i && !x.attrs.w | .error _ => false) = true := by
  refine ⟨by decide, by decide, cached (by decide) (by decide), by decide, by decide, by decide⟩
theorem witness_InstructionLines :
    quiet (fetchedLine (st [])) = true ∧ undisturbed (fetchedLine (st [])) = true ∧ (fetchedLine (st [])).sto.late = [] ∧
      icacheOk (fetchedLine (st [])) = true ∧ (fetchedLine (st [])).params.busErrors = [] ∧
      bit (fetchedLine (st [])).msr 17 = false ∧ (fetchedLine (st [])).params.icacheSize.classes ≠ 0 ∧
      (match xlateIcacheOp (fetchedLine (st [])) 0x4000#32 with
        | some x => readOk (fetchedLine (st [])) x && !x.attrs.i && (iWay (fetchedLine (st [])) x.ra).isNone
        | none => false) = true ∧
      (iWay (fetchedLine (st [])) 0x2000#32).isSome = true ∧
        xlateIcacheOp (virtual 0x10#32 entry) 0x4000#32 = none := by decide
theorem witness_ArrayReads :
    quiet (dirtyLine (st [])) = true ∧ undisturbed (dirtyLine (st [])) = true ∧ bit (dirtyLine (st [])).msr 17 = false ∧
      (0x2004#32).toNat % 4 = 0 ∧
      (xlateIcacheOp (dirtyLine (st [])) 0x2004#32).isSome = true ∧ (dirtyLine (st [])).params.dcacheSize.classes ≠ 0 ∧
      (dirtyLine (st [])).params.icacheSize.classes ≠ 0 ∧ bit (st []).attr.ccr0 27 = false ∧
      bit (withCcr0 0x10#32 (st [])).attr.ccr0 27 = true := by decide

/-- What an `icread` leaves in ICDBDR is read after an `isync`; before it the value is open (R513, U24). -/
theorem test_icdbdr_after_isync :
    runs 0x7C0027CC#32 (fetchedLine (st [(4, 0x2000#32)])) (fun t => t.icdbdrOpen &&
      runs 0x4C00012C#32 t (fun u => !u.icdbdrOpen &&
        runs 0x7C73F2A6#32 u (fun v => has v [(3, 0x55555555#32)]))) = true := by decide

theorem witness_MsrMoves : quiet (st []) = true ∧ bit (st []).msr 17 = false := by decide
theorem test_mtmsr_leaves_the_old_fetch_state_possible :
    runs 0x7C600124#32 (st [(3, 0x20#32)]) (fun t => t.pipe.contexts.length == 1 &&
      (fetchViews t).map msrIR == [true, false]) = true := by
  decide
theorem witness_Returns : quiet (saved (st [])) = true ∧ bit (saved (st [])).msr 17 = false ∧
    (saved (st [])).dbg.run = .running := by
  decide
theorem witness_TlbInstructions :
    quiet (virtual 0#32 entry) = true ∧ bit (virtual 0#32 entry).msr 17 = false ∧
      (virtual 0#32 entry).params.mmuEnabled = true := by decide
/-- The entry at index 5 alone matches 0x105678, none matches 0x200000; translation of data and of fetches on in both states, and off with and
without an MMU. -/
theorem witness_TlbSearches :
    quiet (virtual 0x10#32 entry) = true ∧ bit (virtual 0x10#32 entry).msr 17 = false ∧
      (virtual 0x10#32 entry).params.mmuEnabled = true ∧ bit (virtual 0x10#32 entry).msr 27 = true ∧
      bit (virtual 0x4030#32 entry).msr 27 = true ∧ bit (virtual 0x4030#32 entry).msr 26 = true ∧
      bit (virtual 0x4030#32 entry).msr 17 = true ∧
      bit (virtual 0x30#32 entry).msr 26 = true ∧ (∀ m, ¬ Matches (virtual 0x30#32 entry) 0x200000#32 m) ∧
      bit (virtual 0#32 entry).msr 27 = false ∧ bit (virtual 0#32 entry).msr 26 = false ∧
      (withoutMmu (st [])).params.mmuEnabled = false ∧ bit (withoutMmu (st [])).msr 27 = false ∧
      bit (withoutMmu (st [])).msr 26 = false ∧ FirstMatch (virtual 0x10#32 entry) 0x105678#32 5 ∧
      FirstMatch (virtual 0x4030#32 entry) 0x105678#32 5 ∧ (∀ m, ¬ Matches (virtual 0x10#32 entry) 0x200000#32 m) := by
  refine ⟨by decide, by decide, by decide, by decide, by decide, by decide, by decide, by decide, ?_, by decide, by decide,
    by decide, by decide, by decide, ⟨by simp +decide [Matches], ?_⟩, ⟨by simp +decide [Matches], ?_⟩, ?_⟩ <;>
    simp +decide [Matches, Fin.forall_fin_succ, virtual]
theorem witness_ProcessorMoves : quiet (withXer 0xC000007F#32 (st [])) = true := by decide
theorem witness_RegisterReads :
    quiet (st []) = true ∧ bit (st []).msr 17 = false ∧ quiet (withMsr 0x4000#32 (st [])) = true ∧
      bit (withMsr 0x4000#32 (st [])).msr 17 = true ∧
      (0x104#10) ∈ ([0x001#10, 0x008#10, 0x009#10, 0x100#10, 0x104#10, 0x105#10, 0x106#10, 0x107#10] : List (BitVec 10)) ∧
      [DcrDevice.word 1#32, .readOnly 1#32, .clearOnes 1#32, .device 0 0].all (fun d =>
        (withDcr 0x123 d (st [])).dcr.lookup (0x123#10).toNat == some d) = true := by
  decide
/-- A TBL value that raises the FIT's bit, one that raises both, and one whose watchdog reset is due; the others raise
none. -/
theorem witness_RegisterWrites :
    quiet (st []) = true ∧ bit (st []).msr 17 = false ∧ field (gpr (st [(3, 0x40000000#32)]) 3) 2 2 = 0#2 ∧
      bit (st [(3, 0x80#32)]).tmr.tbl 23 = false ∧ bit (gpr (st [(3, 0x80#32)]) 3) 23 = false ∧
      bit (gpr (st [(3, 0x80#32)]) 3) 15 = false ∧ field (st []).tmr.tcr 6 2 = 0#2 ∧ field (st []).tmr.tcr 0 2 = 0#2 ∧
      bit (gpr (st [(3, 0x100#32)]) 3) 23 = true ∧ bit (gpr (st [(3, 0x10100#32)]) 3) 15 = true ∧
        bit (st []).tmr.tbl 15 = false ∧
      (let s := watched (st [(3, 0x10000#32)])
       quiet s = true ∧ bit s.msr 17 = false ∧ bit s.tmr.tbl 15 = false ∧ bit (gpr s 3) 15 = true ∧ bit s.tmr.tsr 0 = true ∧
         bit s.tmr.tsr 1 = true ∧ field s.tmr.tcr 2 2 = 2#2) := by decide
theorem test_mttbl_raises_the_fit_bit :
    runs 0x7C7C43A6#32 (st [(3, 0x100#32)]) (fun t => t.tmr.tbl == 0x100#32 && t.tmr.tsr == 0x04000000#32) = true := by decide
theorem test_mttbl_resets :
    runs 0x7C7C43A6#32 (watched (st [(3, 0x10000#32)]))
      (fun t => t.pc == 0xFFFFFFFC#32 && t.dbg.dbcr1 == 0#32) = true := by decide +kernel
theorem test_mtdcr_clears_ones :
    runs 0x7C634B86#32 (withDcr 0x123 (.clearOnes 0xFF#32) (st [(3, 0x99#32)]))
      (fun t => t.dcr == [(0x123, .clearOnes 0x66#32)]) = true := by decide

theorem witness_SystemCallAndTraps :
    quiet (st []) = true ∧ (st []).dbg.run ≠ .debugWait ∧ trapCondition 4 (gpr (st []) 3) (gpr (st []) 4) = true ∧
      trapCondition 4 (gpr (st [(3, 1#32)]) 3) 0#32 = false := by decide
theorem witness_PrivilegedTraps :
    quiet (withMsr 0x4000#32 (st [])) = true ∧ (withMsr 0x4000#32 (st [])).dbg.run ≠ .debugWait ∧
      bit (withMsr 0x4000#32 (st [])).msr 17 = true ∧ (withMsr 0x4000#32 (st [])).params.mmuEnabled = true ∧
      quiet (withoutMmu (st [])) = true ∧ (withoutMmu (st [])).dbg.run ≠ .debugWait ∧
      (withoutMmu (st [])).params.mmuEnabled = false := by decide
theorem test_tlbsync_without_mmu :
    runs 0x7C00046C#32 (withoutMmu (st [])) (fun t => t.pc == 0x700#32 && t.exc.esr == 0x08000000#32) = true := by decide
/-- The three misaligned accesses, with and without the reservation; `dcbz` in inhibited storage, in write-through storage, and
in cachable storage without an array. -/
theorem witness_AlignmentTraps :
    quiet (st []) = true ∧ (st []).dbg.run ≠ .debugWait ∧ (0x1001#32).toNat % 4 ≠ 0 ∧ (0x1003#32).toNat % 4 ≠ 0 ∧
      (loadXlate (st []) 0x1001#32).isOk = true ∧ (storeXlate (st []) 0x1001#32).isOk = true ∧ (st []).reserve = false ∧
      bit (st []).msr 17 = false ∧ (xlateIcacheOp (st []) 0x1001#32).isSome = true ∧
      (match storeXlate (st []) 0x101C#32 with | .ok x => x.attrs.i | .error _ => false) = true ∧
      (match storeXlate (writeThrough (st [])) 0x101C#32 with | .ok x => !x.attrs.i && x.attrs.w | .error _ => false) = true ∧
      (let s := withoutArray (cachable (st []))
       s.params.dcacheSize.classes = 0 ∧ quiet s = true ∧
         (match storeXlate s 0x101C#32 with | .ok x => !x.attrs.i && !x.attrs.w | .error _ => false) = true) := by decide
/-- A miss; a zone fault in the problem state; a page without write permission; a U0 fault in real mode; a string whose second
part leaves the page; accesses that are allowed. -/
theorem witness_DataFaults :
    quiet (virtual 0x10#32 entry) = true ∧ (virtual 0x10#32 entry).dbg.run ≠ .debugWait ∧
      bit (virtual 0x10#32 entry).msr 17 = false ∧ (reserved (st [])).reserve = true ∧ (5#32).toNat % 128 ≠ 0 ∧
      xlateData (virtual 0x10#32 entry) 0x2000#32 = none ∧
      (match xlateData (virtual 0x4010#32 entry) 0x100000#32 with
        | some x => !x.real && x.zone == 0#2 | none => false) = true ∧
      (match xlateData (virtual 0x10#32 { entry with wr := false }) 0x100000#32 with
        | some x => !x.real && !x.wr && x.zone != 3#2 && x.zone != 2#2 | none => false) = true ∧
      (let s := { withCcr0 0x20000#32 (st []) with attr := { (withCcr0 0x20000#32 (st [])).attr with su0r := 0xFFFFFFFF#32 } }
       (quiet s && bit s.attr.ccr0 14 && (match xlateData s 0x1000#32 with | some x => x.attrs.u0 | none => false)) = true) ∧
      (checkUnits (virtual 0x10#32 entry) false (units 0x10FFFE#32 4)).2 = some (0x110000#32, .tlbMiss) ∧
      (checkUnits (virtual 0x10#32 entry) true (units 0x10FFFE#32 32)).2 = some (0x110000#32, .tlbMiss) ∧
      (checkUnits (virtual 0x10#32 entry) true (units 0x10FFFC#32 4)).2 = none ∧
      (units 0x10FFFC#32 4).all (fun p => (unitXlate (virtual 0x10#32 entry) true p.1).isOk) = true := by
  decide
theorem test_zone_fault :
    runs 0x90640000#32 { virtual 0x4010#32 entry with gpr := (st [(4, 0x100000#32)]).gpr }
      (fun t => t.pc == 0x300#32 && t.exc.esr == 0x00C00000#32 && t.exc.dear == 0x100000#32) = true := by decide

/-- Each source alone, then none with MSR[WE] = 1. -/
theorem witness_AsynchronousInterrupts :
    let base := withMsr 0x0002D200#32 (st [])
    [({ base with inp := { base.inp with dataMachineCheck := true } }, 0x200#32),
     ({ base with dbg := { base.dbg with dbcr0 := 0x40000000#32, dbsr := 0x08000000#32 } }, 0x2000#32),
     ({ base with inp := { base.inp with critical := true } }, 0x100#32),
     ({ base with tmr := { base.tmr with tsr := 0x40000000#32, tcr := 0x08000000#32 } }, 0x1020#32),
     ({ base with inp := { base.inp with external := true } }, 0x500#32),
     ({ base with tmr := { base.tmr with tsr := 0x04000000#32, tcr := 0x00800000#32 } }, 0x1010#32),
     ({ base with tmr := { base.tmr with tsr := 0x08000000#32, tcr := 0x04000000#32 } }, 0x1000#32)].all (fun f =>
      f.1.env.isEmpty && f.1.inp.bus.isEmpty && f.1.dbg.run == .running && !dbEDE f.1 &&
        steps f.1 (fun t => t.pc == f.2)) = true ∧
    (asyncInterrupt (withMsr 0x40000#32 (st []))).isNone = true := by decide
/-- Frozen timers; the watchdog's reset; a plain clock; and each input of the list alone, with the step that follows. -/
theorem witness_TimerClock :
    let frozen := { st [] with dbg := { (st []).dbg with dbcr0 := 1#32, dbsr := 0x80000000#32 } }
    let last := { st [] with tmr := { (st []).tmr with tbl := 0xFFFF#32, tsr := 0xC0000000#32, tcr := 0x20000000#32 } }
    timersFrozen frozen = true ∧ timersFrozen last = false ∧ (timerClock last).2 = true ∧ timersFrozen (st []) = false ∧
      (timerClock (st [])).2 = false ∧ (timerClock (st [])).1.tmr.tbl = 1#32 ∧
      (meeting (.busWrite [(0x2000#32, 1#8)]) (st [])).inp.bus = [] ∧
        memOk (meeting (.busWrite [(0x2000#32, 1#8)]) (st [])) = true ∧
      (withDcr 0x123 (.word 1#32) (st [])).dcr.lookup 0x123 ≠ none ∧ (st []).pipe.contexts = [] ∧ icacheOk (st []) = true ∧
      dbEDM (st []) = false ∧ debugWaitMode (st []) = false ∧ bit (st []).dbg.dbcr0 31 = false ∧
        bit (st []).tmr.tcr 2 = false ∧
      bit (st []).tmr.tcr 3 = false := by decide +kernel
theorem test_step_counts_a_stopped_core :
    steps (meeting (.clocks 1) { st [] with dbg := { (st []).dbg with run := .stopped } })
      (fun t => t.tmr.tbl == 1#32 && t.pc == 0x1000#32) = true := by decide
theorem test_step_takes_the_external_input :
    steps (meeting (.externalInput true) (withMsr 0x8000#32 (st []))) (fun t => t.pc == 0x500#32) = true := by decide
/-- A read of the fetcher at a cachable line that is absent: both things that `ReadsLine` says of it can be asked. -/
theorem witness_TimerClock_read :
    (let s := meeting (.speculativeFetch 0x2000#32) (cachable (st []))
     s.pipe.contexts.isEmpty && icacheOk s && (iWay s 0x2000#32).isNone && !bit s.attr.ccr0 23 &&
       s.params.icacheSize.classes != 0 && (match xlateFetch s 0x2000#32 with
       | some y => execOk s y && !y.attrs.i && y.ra == 0x2000#32
       | none => false)) = true := by decide
theorem test_step_resets :
    steps (meeting (.resetRequest .chip) (withMsr 0x1000#32 (st []))) (fun t => t.pc == 0xFFFFFFFC#32 &&
      t.msr == 0#32) = true := by
  decide +kernel
/-- Another bus master writes a word, and then another one inside a load that reads it twice. -/
theorem test_other_masters_write :
    steps (meeting (.busWrite [(0x2000#32, 1#8), (0x2001#32, 2#8)]) placed) (fun t => holds t 0x2000#32 [1, 2]) = true ∧
    steps { put 0x1000#32 [0x80, 0x64, 0x00, 0x02] (st [(4, 0x2000#32)]) with
            env := [[.busInside [[], [(0x2002#32, 7#8), (0x2004#32, 9#8)]]]] }
      (fun t => has t [(3, 0x0900#32)] && holds t 0x2002#32 [7]) = true := by decide

/-- Internal debug mode with MSR[DE] = 1 and some bits of DBCR0. -/
def debugged (dbcr0 : Word) : State :=
  let s := withMsr 0x200#32 (st [])
  { s with dbg := { s.dbg with dbcr0 := 0x40000000#32 ||| dbcr0, dbsr := 0#32 } }
/-- Completion; a branch taken; a trap; each IAC at the pc; each DAC, by a load and by a store. -/
theorem witness_DebugEvents :
    (debugged 0).dbg.run = .running ∧ dbIDM (debugged 0) = true ∧ dbEDM (debugged 0) = false ∧ msrDE (debugged 0) = true ∧
      dbIC (debugged 0x08000000#32) = true ∧ dbBT (debugged 0x08000000#32) = false ∧
        (debugged 0x08000000#32).dbg.dbcr1 = 0#32 ∧
      dbBT (debugged 0x04000000#32) = true ∧ dbTDE (debugged 0x01000000#32) = true ∧
      [(0x00800000#32, 0x200#10, 0x04000000#32), (0x00400000#32, 0x100#10, 0x02000000#32), (0x00080000#32, 0x020#10, 0x00080000#32),
       (0x00040000#32, 0x010#10, 0x00040000#32)].all (fun f =>
        let s := debugged f.1
        let s := { s with dbg := { s.dbg with iac1 := 0x1000#32, iac2 := 0x1000#32, iac3 := 0x1000#32, iac4 := 0x1000#32 } }
        s.env.isEmpty && s.inp.bus.isEmpty && (asyncInterrupt s).isNone && !bit s.msr 13 && s.pipe.contexts.isEmpty &&
          field s.dbg.dbcr0 8 10 == f.2.1 &&
          steps s (fun t => t.pc == 0x2000#32 && t.exc.srr2 == 0x1000#32 && t.dbg.dbsr == f.2.2)) = true ∧
      [(0x80000000#32, 0x80601000#32, 0x01000000#32), (0x40000000#32, 0x80601000#32, 0x00400000#32),
       (0x20000000#32, 0x98601000#32, 0x00800000#32), (0x10000000#32, 0x98601000#32, 0x00200000#32)].all (fun f =>
        let s := { debugged 0 with dbg := { (debugged 0).dbg with dbcr1 := f.1, dac1 := 0x1000#32, dac2 := 0x1000#32 } }
        !(checkUnits s false (units 0x1000#32 4)).1.isEmpty && !(checkUnits s true (units 0x1000#32 1)).1.isEmpty &&
          runs f.2.1 s (fun t => t.pc == 0x2000#32 && t.exc.srr2 == 0x1000#32 && t.dbg.dbsr == f.2.2)) = true := by
  decide
/-- DAC1 at 0x1000, for the forms `lwzx`, `lwzu`, `lmw`, `lswi`, `lwarx`, `dcbt`, `icbi` by reads, `stwux`, `stmw`, `stswi`,
`stwcx.`, `dcbst`, `dcbf`, `dcbi`, `dcba` by writes; none for `dccci`, `iccci`, `icread` and for `dcbst` by reads (R737). -/
theorem witness_DebugEvents_forms :
    let at1000 (dbcr1 : Word) : State :=
      let s := reserved { debugged 0 with gpr := (st [(5, 0x1000#32)]).gpr }
      { s with dbg := { s.dbg with dbcr1 := dbcr1, dac1 := 0x1000#32 } }
    let event (dbsr : Word) (t : State) : Bool := t.pc == 0x2000#32 && t.exc.srr2 == 0x1000#32 && t.dbg.dbsr == dbsr
    [0x7C60282E#32, 0x84650000#32, 0xBBE50000#32, 0x7C6524AA#32, 0x7C602828#32, 0x7C002A2C#32, 0x7C002FAC#32].all (fun w =>
      runs w (at1000 0x80000000#32) (event 0x01000000#32)) = true ∧
    [0x7C65016E#32, 0xBFE50000#32, 0x7C6525AA#32, 0x7C60292D#32, 0x7C00286C#32, 0x7C0028AC#32, 0x7C002BAC#32, 0x7C002DEC#32].all
      (fun w => runs w (at1000 0x20000000#32) (event 0x00800000#32)) = true ∧
    [0x7C002B8C#32, 0x7C002F8C#32, 0x7C002FCC#32].all (fun w =>
      runs w (at1000 0xA0000000#32) (fun t => t.pc == 0x1004#32 && t.dbg.dbsr == 0#32)) = true ∧
    runs 0x7C00286C#32 (at1000 0x80000000#32) (fun t => t.pc == 0x1004#32 && t.dbg.dbsr == 0#32) = true := by
  decide
/-- A debug mode, DBCR0's other bits, DBCR1, and the MSR. -/
def inMode (dbcr0 dbcr1 msr : Word) (s : State) : State :=
  { withMsr msr s with
    dbg := { s.dbg with dbcr0 := dbcr0, dbcr1 := dbcr1, dbsr := 0#32, iac1 := 0x0FF0#32, iac2 := 0x1010#32, dac1 := 0x2000#32
                        dac2 := 0x3000#32, dvc1 := 0xAAAAAAAA#32 } }
/-- External, imprecise and trace mode: the three outcomes of an event; the exception event; a range of the IACs that toggles, and
one that does not match; a range of the DACs; a value compare that matches, whose premises hold. -/
theorem witness_DebugModes :
    runs 0x38600007#32 (inMode 0x88000000#32 0#32 0#32 (st [])) (fun t =>
      has t [(3, 7#32)] && t.dbg.run == .stopped && t.pc == 0x1004#32 && t.dbg.dbsr == 0x80000000#32) = true ∧
    runs 0x7FE00008#32 (inMode 0x41000000#32 0#32 0#32 (st [])) (fun t => t.pc == 0x700#32 && t.dbg.dbsr == 0x10100000#32) = true ∧
    runs 0x48000010#32 (inMode 0x04000000#32 0#32 0#32 (st [])) (fun t => t.pc == 0x1010#32 && t.dbg.dbsr == 0x40000000#32) = true ∧
    runs 0x44000002#32 (inMode 0x42000000#32 0#32 0x200#32 (st [])) (fun t =>
      t.pc == 0x2000#32 && t.exc.srr2 == 0xC00#32 && t.exc.srr0 == 0x1004#32 && t.dbg.dbsr == 0x20000000#32) = true ∧
    (let s := inMode 0x40E08000#32 0#32 0x200#32 (st [])
     s.env.isEmpty && s.inp.bus.isEmpty && (asyncInterrupt s).isNone && !bit s.msr 13 && s.pipe.contexts.isEmpty &&
       steps s (fun t => t.pc == 0x2000#32 && t.dbg.dbsr == 0x06000000#32 && t.dbg.dbcr0 == 0x40F08000#32)) = true ∧
    steps { inMode 0x40F00000#32 0#32 0x200#32 placed with pc := 0x1000#32 } (fun t => t.pc == 0x1004#32) = true ∧
    runs 0x80602004#32 (inMode 0x40000000#32 0x80800000#32 0x200#32 (st [])) (fun t =>
      t.pc == 0x2000#32 && t.exc.srr2 == 0x1000#32 && t.dbg.dbsr == 0x01000000#32) = true ∧
    (let s := inMode 0x40000000#32 0x8004F000#32 0x200#32 (dirtyLine (st []))
     allowed s false 0x2000#32 4 && bit s.dbg.dbcr0 4 == false &&
       runs 0x80602000#32 s (fun t => has t [(3, 0xAAAAAAAA#32)] && t.pc == 0x2000#32 && t.exc.srr2 == 0x1004#32 &&
         t.dbg.dbsr == 0x01000000#32)) = true ∧
    Cached (inMode 0x40000000#32 0x8004F000#32 0x200#32 (dirtyLine (st []))) ∧
    (match step { st [] with dbg := { (st []).dbg with run := .stopped } } with | .fault .debugStop => true | _ => false) = true := by
  refine ⟨by decide, by decide, by decide, by decide, by decide, by decide, by decide, by decide, cached (by decide) (by decide),
    by decide⟩
/-- A load whose first part matches DAC1 and passes its checks, and whose second part is in a page that misses (R320). -/
theorem test_dac_before_a_later_fault :
    (let v := virtual 0x210#32 entry
     let s := { v with dbg := { v.dbg with dbcr0 := 0x40000000#32, dbcr1 := 0x80000000#32, dac1 := 0x10FFFE#32, dbsr := 0#32 },
                       gpr := (st [(4, 0x10FFFE#32)]).gpr }
     (checkUnits s false (units 0x10FFFE#32 4)).2.isSome &&
       runs 0x80640000#32 s (fun t => t.pc == 0x2000#32 && t.exc.srr2 == 0x1000#32 &&
         t.dbg.dbsr == 0x01000000#32)) = true := by
  decide
theorem test_completion_event :
    runs 0x38600007#32 (debugged 0x08000000#32)
      (fun t => has t [(3, 7#32)] && t.pc == 0x2000#32 && t.exc.srr2 == 0x1004#32 &&
        t.dbg.dbsr == 0x80000000#32) = true := by decide

end Sys2Proof.Machine.Tests
end

section
/-! SUPPORT. The moves to and from the special registers, the DCRs and the time base (R566 to R570, R575): the table of the SPR
numbers, what a read leaves in RT, what a write to each register leaves, and the two statements about them. -/

namespace Sys2Proof.Machine

/-! ### SPR numbers (R46) -/

/-- The SPR numbers with the registers that they name, in rising order (R46). -/
def sprNumbers : List (BitVec 10 × Spr) :=
  [(0x001, .xer), (0x008, .lr), (0x009, .ctr), (0x01A, .srr0), (0x01B, .srr1), (0x100, .usprg0), (0x104, .sprgRead 4),
   (0x105, .sprgRead 5), (0x106, .sprgRead 6), (0x107, .sprgRead 7), (0x110, .sprg 0), (0x111, .sprg 1), (0x112, .sprg 2),
   (0x113, .sprg 3), (0x114, .sprg 4), (0x115, .sprg 5), (0x116, .sprg 6), (0x117, .sprg 7), (0x11C, .tblWrite),
   (0x11D, .tbuWrite), (0x11F, .pvr), (0x3B0, .zpr), (0x3B1, .pid), (0x3B3, .ccr0), (0x3B4, .iac3), (0x3B5, .iac4),
   (0x3B6, .dvc1), (0x3B7, .dvc2), (0x3B9, .sgr), (0x3BA, .dcwr), (0x3BB, .sler), (0x3BC, .su0r), (0x3BD, .dbcr1),
   (0x3D3, .icdbdr), (0x3D4, .esr), (0x3D5, .dear), (0x3D6, .evpr), (0x3D8, .tsr), (0x3DA, .tcr), (0x3DB, .pit),
   (0x3DE, .srr2), (0x3DF, .srr3), (0x3F0, .dbsr), (0x3F2, .dbcr0), (0x3F4, .iac1), (0x3F5, .iac2), (0x3F6, .dac1),
   (0x3F7, .dac2), (0x3FA, .dccr), (0x3FB, .iccr)]

theorem sprNumbers_nodup : (sprNumbers.map Prod.fst).Nodup := by decide

theorem sprOf_of_mem_sprNumbers : ∀ p ∈ sprNumbers, sprOf p.1 = some p.2 := by decide

/-- The table lists every number that names a register, with its register: a number that is not listed falls to the last branch of
`sprOf`, and each other branch is an entry. -/
theorem lookup_sprNumbers (n : BitVec 10) : sprNumbers.lookup n = sprOf n := by
  cases h : sprOf n with
  | none =>
    rw [List.lookup_eq_none_iff]
    intro p hp
    rw [bne_iff_ne]
    rintro rfl
    rw [sprOf_of_mem_sprNumbers p hp] at h
    cases h
  | some r =>
    have hn : n = BitVec.ofNat 10 n.toNat := by simp
    unfold sprOf at h
    split at h <;> cases h <;> rename_i hk <;> rw [hn, hk] <;> rfl

/-- Looking a key up in a table made from another entry by entry, with entries left out. -/
theorem lookup_filterMap_snd {κ α β : Type} [DecidableEq κ] {l : List (κ × α)} (h : (l.map Prod.fst).Nodup)
    (f : α → Option β) (k : κ) :
    (l.filterMap fun p => (f p.2).map (Prod.mk p.1)).lookup k = (l.lookup k).bind f := by
  induction l with
  | nil => rfl
  | cons p l ih =>
    obtain ⟨a, b⟩ := p
    rw [List.map_cons, List.nodup_cons] at h
    obtain ⟨ha, hl⟩ := h
    by_cases hk : k = a
    · subst hk
      have hnone : l.lookup k = none := by
        rw [List.lookup_eq_none_iff]
        intro q hq
        rw [bne_iff_ne]
        rintro rfl
        exact ha (List.mem_map.mpr ⟨q, hq, rfl⟩)
      cases hf : f b <;> simp [hf, ih hl, hnone]
    · have hb : (k == a) = false := by simpa using hk
      cases hf : f b <;> simp [List.lookup_cons, hb, hf, ih hl]

/-- Looking a number up in a table of what each register gives: what its register gives. -/
theorem lookup_sprTable {β : Type} (f : Spr → Option β) (n : BitVec 10) :
    (sprNumbers.filterMap fun p => (f p.2).map (Prod.mk p.1)).lookup n = (sprOf n).bind f := by
  rw [lookup_filterMap_snd sprNumbers_nodup, lookup_sprNumbers]

theorem mem_sprNumbers {n : BitVec 10} {r : Spr} (h : sprOf n = some r) : (n, r) ∈ sprNumbers := by
  rw [← lookup_sprNumbers, List.lookup_eq_some_iff] at h
  obtain ⟨l₁, l₂, hl, -⟩ := h
  simp [hl]

/-- No two numbers name one register. -/
theorem sprOf_eq_some_iff {n m : BitVec 10} {r : Spr} (hm : sprOf m = some r) : sprOf n = some r ↔ n = m := by
  have hinj : (sprNumbers.map Prod.snd).Nodup := by decide
  constructor
  · intro hn
    exact congrArg Prod.fst (List.inj_on_of_nodup_map hinj (mem_sprNumbers hn) (mem_sprNumbers hm) rfl)
  · rintro rfl
    exact hm

/-! ### The DCR space (R14) -/

theorem dcrFind_eq_lookup (n : Nat) (m : DcrSpace) : dcrFind n m = m.lookup n := by
  induction m with
  | nil => rfl
  | cons p m ih =>
    obtain ⟨k, d⟩ := p
    by_cases h : n = k
    · simp [dcrFind, h]
    · have hb : (n == k) = false := by simpa using h
      simp [dcrFind, Ne.symm h, List.lookup_cons, hb, ih]

/-- A device put at a mapped number answers there, and every other number is answered as before. -/
theorem lookup_dcrPut {n : Nat} {d e : DcrDevice} {m : DcrSpace} (h : m.lookup n = some e) (k : Nat) :
    (dcrPut n d m).lookup k = if k = n then some d else m.lookup k := by
  induction m with
  | nil => cases h
  | cons p m ih =>
    obtain ⟨j, f⟩ := p
    rw [List.lookup_cons] at h
    by_cases hj : j = n
    · subst hj
      by_cases hk : k = j
      · simp [dcrPut, hk]
      · have hb : (k == j) = false := by simpa using hk
        simp [dcrPut, hk, List.lookup_cons, hb]
    · have hb : (n == j) = false := by simpa using Ne.symm hj
      rw [hb] at h
      by_cases hk : k = j
      · subst hk
        simp [dcrPut, hj]
      · have hkb : (k == j) = false := by simpa using hk
        simp [dcrPut, hj, List.lookup_cons, hkb, ih h]

/-! ### Register reads (R566, R568, R570, R575) -/

/-- `t` is `s` after an instruction that reads a register into RT: RT holds the value, or anything where none is given, the
DCR space is `dcr`, and nothing else differs but the pc and the counter of free values. -/
def ReadsInto (s t : State) (rt : Reg) (value : Option Word) (dcr : DcrSpace) : Prop :=
  (∀ v, value = some v → gpr t rt = v) ∧ (∀ q, q ≠ rt → gpr t q = gpr s q) ∧
    t = { s with gpr := t.gpr, pc := s.pc + 4#32, free := t.free, dcr := dcr }

/-- What an instruction that found a value, or none, leaves RT with. -/
def gprOrFree (rt : Reg) (value : Option Word) (s : State) : State :=
  match value with
  | some v => setGpr rt v s
  | none => freeGpr rt s

theorem readsInto_gprOrFree {s : State} (hq : quiet s = true) (rt : Reg) (value : Option Word) (dcr : DcrSpace) :
    ReadsInto s (advance s { gprOrFree rt value s with dcr := dcr }) rt value dcr := by
  rw [advance_quiet hq]
  cases value with
  | some v =>
    exact ⟨fun w hw => (gpr_setGpr_self rt v s).trans (Option.some.inj hw), fun q hne => gpr_setGpr_ne hne.symm v s, rfl⟩
  | none => exact ⟨nofun, fun q hne => gpr_setGpr_ne hne.symm (freeNow s) s, rfl⟩

theorem gprOrFree_dcr (rt : Reg) (value : Option Word) (s : State) :
    { gprOrFree rt value s with dcr := s.dcr } = gprOrFree rt value s := by
  cases value <;> rfl

/-- A read that leaves the DCR space alone. -/
theorem readsInto_gprOrFree_same {s : State} (hq : quiet s = true) (rt : Reg) (value : Option Word) :
    ReadsInto s (advance s (gprOrFree rt value s)) rt value s.dcr := by
  simpa only [gprOrFree_dcr] using readsInto_gprOrFree hq rt value s.dcr

theorem moveFromSpr_eq (rt : Reg) (n : BitVec 10) (s : State) :
    moveFromSpr rt n s = gprOrFree rt ((sprOf n).bind (settledSpr s)) s := by
  unfold moveFromSpr
  cases (sprOf n).bind (settledSpr s) <;> rfl

theorem bind_settledSpr (s : State) (n : BitVec 10) :
    (sprOf n).bind (settledSpr s) =
      if n = 0x3D3#10 ∧ s.icdbdrOpen = true then none else (sprOf n).bind (readSpr s) := by
  simp only [← sprOf_eq_some_iff (show sprOf 0x3D3#10 = some .icdbdr from rfl)]
  cases sprOf n <;> simp [settledSpr]

theorem userReadable_iff (n : BitVec 10) :
    userReadable n = true ↔
      n ∈ ([0x001#10, 0x008#10, 0x009#10, 0x100#10, 0x104#10, 0x105#10, 0x106#10, 0x107#10] : List (BitVec 10)) :=
  List.contains_iff_mem

theorem userWritable_iff (n : BitVec 10) :
    userWritable n = true ↔ n ∈ ([0x001#10, 0x008#10, 0x009#10, 0x100#10] : List (BitVec 10)) :=
  List.contains_iff_mem

/-- `mfspr` of a number that the mode may read (R47, R568). -/
theorem exec_mfspr {s : State} {n : BitVec 10} (h : msrPR s = false ∨ userReadable n = true) (rt : Reg) :
    exec (.mfspr rt n) s = .next (advance s (moveFromSpr rt n s)) := by
  have hp : (msrPR s && !userReadable n) = false := by rcases h with h | h <;> simp [h]
  change execMfspr rt n s = _
  simp [execMfspr, hp]

theorem exec_mfdcr {s : State} (h : msrPR s = false) (rt : Reg) (n : BitVec 10) :
    exec (.mfdcr rt n) s = .next (advance s (moveFromDcr rt n s)) :=
  congrArg Host.Outcome.next (privileged_supervisor h _)

theorem exec_mtdcr {s : State} (h : msrPR s = false) (rs : Reg) (n : BitVec 10) :
    exec (.mtdcr rs n) s = .next (advance s (moveToDcr n (gpr s rs) s)) :=
  congrArg Host.Outcome.next (privileged_supervisor h _)

theorem exec_mftb (s : State) (rt : Reg) (n : BitVec 10) :
    exec (.mftb rt n) s =
      .next (advance s (gprOrFree rt
        (if n = 0x10C#10 then some s.tmr.tbl else if n = 0x10D#10 then some s.tmr.tbu else none) s)) := by
  change execMftb rt n s = _
  unfold execMftb
  split
  · rfl
  · split <;> rfl

/-- Settles O52: each read is RT taking the value found, or a free one (`readsInto_gprOrFree`); the SPRs listed are those that
`sprOf` and `readSpr` give (`lookup_sprTable`). -/
theorem registerReads : Obligations.RegisterReads := by
  intro s rt hq
  refine ⟨fun n hn => ?_, fun n hn => ?_, fun n => ⟨_, exec_mftb s rt n, readsInto_gprOrFree_same hq rt _⟩⟩
  · have hr := readsInto_gprOrFree_same hq rt ((sprOf n).bind (settledSpr s))
    rw [← moveFromSpr_eq, bind_settledSpr, ← lookup_sprTable] at hr
    exact ⟨_, exec_mfspr (hn.imp_right (userReadable_iff n).mpr) rt, hr⟩
  · have he := exec_mfdcr hn rt n
    rw [moveFromDcr, dcrFind_eq_lookup] at he
    cases hd : s.dcr.lookup n.toNat with
    | none =>
      rw [hd] at he
      exact ⟨_, he, readsInto_gprOrFree_same hq rt none⟩
    | some d =>
      rw [hd] at he
      cases d <;> exact ⟨_, he, readsInto_gprOrFree hq rt (some _) _⟩

/-! ### Timer bits and resets (R702 to R708, R760) -/

/-- The FIT's bit of TBL rises when TBL takes a value (R705). -/
def fitRises (s : State) (v : Word) : Bool := bitRises (fitBit s.tmr.tcr) s.tmr.tbl v

/-- The watchdog's bit of TBL rises when TBL takes a value (R706). -/
def watchdogRises (s : State) (v : Word) : Bool := bitRises (watchdogBit s.tmr.tcr) s.tmr.tbl v

theorem bit_zero (k : Nat) : bit 0#32 k = false := by simp [bit]

theorem bit_weight_beq {i k : Nat} (hi : i < 32) (hk : k < 32) : bit (weight i) k = (k == i) := by
  rw [bit_weight hi hk]
  exact decide_eq_decide.mpr eq_comm

theorem setTsrBits_zero (s : State) : setTsrBits 0#32 s = s := by simp [setTsrBits]

/-- The reset that a two-bit code other than 00 asks for, and its code in DBSR[MRR] (R760). -/
theorem resetKindOf_of_ne_zero {c : BitVec 2} (h : c ≠ 0#2) :
    ∃ kind, resetKindOf c = some kind ∧ field (kind.code <<< 8) 22 2 = c := by
  have hc : c = 1#2 ∨ c = 2#2 ∨ c = 3#2 := by revert c; decide
  obtain rfl | rfl | rfl := hc
  · exact ⟨.core, rfl, rfl⟩
  · exact ⟨.chip, rfl, rfl⟩
  · exact ⟨.system, rfl, rfl⟩

/-- The TSR bits that a watchdog time-out sets when it resets nothing (R707, R708). -/
def watchdogBits (s : State) : Word :=
  if bit s.tmr.tsr 0 then (if bit s.tmr.tsr 1 then 0#32 else tsrWIS) else tsrENW

theorem bit_or_watchdogBits (s : State) {k : Nat} (hk : k < 32) :
    (bit s.tmr.tsr k || bit (watchdogBits s) k) = (bit s.tmr.tsr k || k == 0 || (k == 1 && bit s.tmr.tsr 0)) := by
  unfold watchdogBits
  cases h0 : bit s.tmr.tsr 0
  · simp [tsrENW, bit_weight_beq, hk]
  · cases h1 : bit s.tmr.tsr 1
    · rcases k with _ | k <;> simp [h0, tsrWIS, bit_weight_beq, hk]
    · rcases k with _ | _ | k <;> simp [h0, h1, bit_zero]

theorem watchdogTimeout_of_no_reset {s : State}
    (h : (bit s.tmr.tsr 0 && bit s.tmr.tsr 1 && field s.tmr.tcr 2 2 != 0#2) = false) :
    watchdogTimeout s = (setTsrBits (watchdogBits s) s, false) := by
  unfold watchdogTimeout watchdogBits
  cases h0 : bit s.tmr.tsr 0
  · simp
  · cases h1 : bit s.tmr.tsr 1
    · simp
    · have hc : field s.tmr.tcr 2 2 = 0#2 := by simpa [h0, h1] using h
      simp [hc, resetKindOf, setTsrBits_zero]

/-- A watchdog time-out with ENW and WIS set resets the core as TCR[WRC] says (R708). -/
theorem watchdogTimeout_of_reset {s : State} {kind : ResetKind} (h0 : bit s.tmr.tsr 0 = true) (h1 : bit s.tmr.tsr 1 = true)
    (hk : resetKindOf (field s.tmr.tcr 2 2) = some kind) :
    watchdogTimeout s = (coreReset kind (s.tmr.tcr &&& 0x30000000#32) s, true) := by
  simp [watchdogTimeout, h0, h1, hk]

/-! ### A write of TBL: the FIT first, then the watchdog (R702) -/

/-- The TSR bit that the FIT sets when TBL takes a value (R705). -/
def fitBits (s : State) (v : Word) : Word := if fitRises s v then tsrFIS else 0#32

theorem bit_fitBits (s : State) (v : Word) {k : Nat} (hk : k < 32) : bit (fitBits s v) k = (k == 5 && fitRises s v) := by
  cases hf : fitRises s v <;> simp [fitBits, hf, tsrFIS, bit_weight_beq, hk, bit_zero]

/-- The state once TBL is written and the FIT has looked at it. -/
def tblWritten (s : State) (v : Word) : State := setTsrBits (fitBits s v) { s with tmr := { s.tmr with tbl := v } }

@[simp] theorem tblWritten_tcr (s : State) (v : Word) : (tblWritten s v).tmr.tcr = s.tmr.tcr := rfl

/-- The FIT leaves the watchdog's bits of TSR alone. -/
theorem bit_tblWritten_tsr (s : State) (v : Word) {k : Nat} (hk : k < 32) (h5 : k ≠ 5) :
    bit (tblWritten s v).tmr.tsr k = bit s.tmr.tsr k := by
  change bit (s.tmr.tsr ||| fitBits s v) k = _
  simp [bit_fitBits s v hk, h5]

/-- The watchdog acts after the FIT, on the TSR as the FIT left it, and only if its bit rises (R702, R706). -/
theorem writeSpr_tblWrite (s : State) (v : Word) :
    writeSpr .tblWrite v s =
      if watchdogRises s v then watchdogTimeout (tblWritten s v) else (tblWritten s v, false) := by
  have hfit : fitStep s.tmr.tbl v { s with tmr := { s.tmr with tbl := v } } = tblWritten s v := by
    change (if fitRises s v = true then _ else _) = _
    unfold tblWritten fitBits
    split <;> simp [setTsrBits_zero]
  change tblChanged s.tmr.tbl v { s with tmr := { s.tmr with tbl := v } } = _
  unfold tblChanged
  rw [hfit]
  rfl

/-- Whether a TBL value resets the core (R708). -/
def tblResets (s : State) (v : Word) : Bool :=
  watchdogRises s v && bit s.tmr.tsr 0 && bit s.tmr.tsr 1 && field s.tmr.tcr 2 2 != 0#2

/-- The TSR bits that a TBL value sets when it resets nothing (R702). -/
def timerBits (s : State) (v : Word) : Word := fitBits s v ||| if watchdogRises s v then watchdogBits s else 0#32

theorem bit_or_timerBits (s : State) (v : Word) {k : Nat} (hk : k < 32) :
    bit (s.tmr.tsr ||| timerBits s v) k =
      (bit s.tmr.tsr k || (k == 5 && fitRises s v) || (k == 0 && watchdogRises s v) ||
        (k == 1 && watchdogRises s v && bit s.tmr.tsr 0)) := by
  rw [timerBits, bit_or, bit_or, bit_fitBits s v hk]
  cases watchdogRises s v with
  | false => simp [bit_zero]
  | true =>
    calc
      (bit s.tmr.tsr k || ((k == 5 && fitRises s v) || bit (watchdogBits s) k))
        = ((bit s.tmr.tsr k || bit (watchdogBits s) k) || (k == 5 && fitRises s v)) := by ac_rfl
      _ = ((bit s.tmr.tsr k || k == 0 || (k == 1 && bit s.tmr.tsr 0)) || (k == 5 && fitRises s v)) := by
        rw [bit_or_watchdogBits s hk]
      _ = _ := by simp only [Bool.and_true]; ac_rfl

theorem writeSpr_tblWrite_of_no_reset {s : State} {v : Word} (h : tblResets s v = false) :
    writeSpr .tblWrite v s =
      ({ s with tmr := { s.tmr with tbl := v, tsr := s.tmr.tsr ||| timerBits s v } }, false) := by
  rw [writeSpr_tblWrite, timerBits]
  cases hw : watchdogRises s v with
  | false => simp [tblWritten, setTsrBits]
  | true =>
    have h0 : bit (tblWritten s v).tmr.tsr 0 = bit s.tmr.tsr 0 := bit_tblWritten_tsr s v (by decide) (by decide)
    have h1 : bit (tblWritten s v).tmr.tsr 1 = bit s.tmr.tsr 1 := bit_tblWritten_tsr s v (by decide) (by decide)
    have hb : watchdogBits (tblWritten s v) = watchdogBits s := by simp only [watchdogBits, h0, h1]
    have hn : (bit (tblWritten s v).tmr.tsr 0 && bit (tblWritten s v).tmr.tsr 1 &&
        field (tblWritten s v).tmr.tcr 2 2 != 0#2) = false := by
      rw [h0, h1, tblWritten_tcr]
      simpa only [tblResets, hw, Bool.true_and] using h
    rw [if_pos rfl, watchdogTimeout_of_no_reset hn, hb]
    simp [tblWritten, setTsrBits, BitVec.or_assoc]

theorem writeSpr_tblWrite_of_reset {s : State} {v : Word} (h : tblResets s v = true) :
    ∃ kind : ResetKind, field (kind.code <<< 8) 22 2 = field s.tmr.tcr 2 2 ∧
      writeSpr .tblWrite v s = (coreReset kind (s.tmr.tcr &&& 0x30000000#32) (tblWritten s v), true) := by
  simp only [tblResets, Bool.and_eq_true, bne_iff_ne] at h
  obtain ⟨⟨⟨hw, h0⟩, h1⟩, hc⟩ := h
  obtain ⟨kind, hk, hcode⟩ := resetKindOf_of_ne_zero hc
  rw [← bit_tblWritten_tsr s v (by decide) (by decide)] at h0 h1
  exact ⟨kind, hcode, by rw [writeSpr_tblWrite, if_pos hw, watchdogTimeout_of_reset h0 h1 hk]; rfl⟩

/-! ### What a reset leaves of the fields that name a reset kind (R112, R761) -/

theorem field_and (a b : Word) (i n : Nat) : field (a &&& b) i n = field a i n &&& field b i n :=
  BitVec.extractLsb'_and

theorem field_or (a b : Word) (i n : Nat) : field (a ||| b) i n = field a i n ||| field b i n :=
  BitVec.extractLsb'_or

theorem coreReset_wrs (kind : ResetKind) (w : Word) (s : State) :
    field (coreReset kind (w &&& 0x30000000#32) s).tmr.tsr 2 2 = field w 2 2 := by
  change field ((_ &&& 0xCC000000#32) ||| (w &&& 0x30000000#32)) 2 2 = _
  have h1 : field 0xCC000000#32 2 2 = 0#2 := by decide
  have h2 : field 0x30000000#32 2 2 = BitVec.allOnes 2 := by decide
  rw [field_or, field_and, field_and, h1, h2, BitVec.and_zero, BitVec.zero_or, BitVec.and_allOnes]

theorem coreReset_mrr (kind : ResetKind) (wrs : Word) (s : State) :
    field (coreReset kind wrs s).dbg.dbsr 22 2 = field (kind.code <<< 8) 22 2 := by
  change field ((_ &&& 0xFFFC0000#32) ||| (kind.code <<< 8)) 22 2 = _
  have h1 : field 0xFFFC0000#32 22 2 = 0#2 := by decide
  simp [field_or, field_and, h1]

theorem coreReset_wrc (kind : ResetKind) (wrs : Word) (s : State) : field (coreReset kind wrs s).tmr.tcr 2 2 = 0#2 := by
  change field (_ &&& 0xCF800000#32) 2 2 = _
  have h1 : field 0xCF800000#32 2 2 = 0#2 := by decide
  simp [field_and, h1]

/-! ### What a write to each register leaves (R569, R575) -/

/-- What a write to a register leaves, but for a TBL value that makes a timer bit rise and a DBCR0 value that asks for a reset:
none for a register that `mtspr` cannot write. -/
def storedSpr (v : Word) (s : State) (r : Spr) : Option State :=
  match r with
  | .sprgRead _ | .pvr | .icdbdr => none
  | .tblWrite => some { s with tmr := { s.tmr with tbl := v } }
  | .dbcr0 => some { s with dbg := { s.dbg with dbcr0 := v &&& 0xFFFFC001#32 } }
  | r => some (writeSpr r v s).1

theorem writeDbcr0_of_no_reset {v : Word} (h : field v 2 2 = 0#2) (s : State) :
    writeDbcr0 v s = ({ s with dbg := { s.dbg with dbcr0 := v &&& 0xFFFFC001#32 } }, false) := by
  simp [writeDbcr0, h, resetKindOf]

/-- A write to a register leaves what `storedSpr` says, but for a TBL value that makes a timer bit rise and a DBCR0 value that asks
for a reset. -/
theorem writeSpr_eq_storedSpr {s : State} {v : Word} {r : Spr}
    (htbl : r = .tblWrite → (fitRises s v || watchdogRises s v) = false) (hdbcr0 : r = .dbcr0 → field v 2 2 = 0#2) :
    writeSpr r v s = ((storedSpr v s r).getD s, false) := by
  cases r
  case tblWrite =>
    obtain ⟨hf, hw⟩ : fitRises s v = false ∧ watchdogRises s v = false := by simpa using htbl rfl
    simp [writeSpr_tblWrite, hw, tblWritten, fitBits, hf, setTsrBits_zero, storedSpr]
  case dbcr0 => exact writeDbcr0_of_no_reset (hdbcr0 rfl) s
  all_goals rfl

theorem pipe_storedSpr (v : Word) (s : State) (r : Spr) : ((storedSpr v s r).getD s).pipe = s.pipe := by
  cases r <;> rfl

/-- The numbers of the registers that fetches are made under (R186, R780). -/
def fetchSprs : List (BitVec 10) := (sprNumbers.filter fun p => p.2.fetchSide).map Prod.fst

theorem mem_fetchSprs_iff (n : BitVec 10) : n ∈ fetchSprs ↔ ∃ r, sprOf n = some r ∧ r.fetchSide = true := by
  simp only [fetchSprs, List.mem_map, List.mem_filter]
  constructor
  · rintro ⟨p, ⟨hp, hr⟩, rfl⟩
    exact ⟨p.2, sprOf_of_mem_sprNumbers p hp, hr⟩
  · rintro ⟨r, hn, hr⟩
    exact ⟨(n, r), ⟨mem_sprNumbers hn, hr⟩, rfl⟩

theorem rememberContext_eq {s t : State} (h : t.pipe = s.pipe) :
    rememberContext s t = { t with pipe := pipeRemembering s } := by
  simp only [rememberContext, h]
  rfl

/-- `mtspr` past its privilege check, but for a TBL value that makes a timer bit rise and a DBCR0 value that asks for a reset. -/
theorem moveToSpr_eq {s : State} (hq : quiet s = true) {n : BitVec 10} {v : Word}
    (htbl : n = 0x11C#10 → (fitRises s v || watchdogRises s v) = false) (hdbcr0 : n = 0x3F2#10 → field v 2 2 = 0#2) :
    moveToSpr n v s =
      { ((sprOf n).bind (storedSpr v s)).getD s with
          pc := s.pc + 4#32, pipe := if n ∈ fetchSprs then pipeRemembering s else s.pipe } := by
  unfold moveToSpr
  simp only [advance_quiet hq]
  cases hn : sprOf n with
  | none =>
    have hf : n ∉ fetchSprs := by simp [mem_fetchSprs_iff, hn]
    simp [hf]
  | some r =>
    have hw : writeSpr r v s = ((storedSpr v s r).getD s, false) :=
      writeSpr_eq_storedSpr (fun h => htbl ((sprOf_eq_some_iff rfl).mp (h ▸ hn)))
        (fun h => hdbcr0 ((sprOf_eq_some_iff rfl).mp (h ▸ hn)))
    have hf : n ∈ fetchSprs ↔ r.fetchSide = true := by simp [mem_fetchSprs_iff, hn]
    have hp := pipe_storedSpr v s r
    simp only [hw, hf, Option.bind_some]
    cases r.fetchSide
    · simp [hp]
    · simp [rememberContext_eq hp]

theorem exec_mtspr {s : State} {n : BitVec 10} (h : msrPR s = false ∨ userWritable n = true) (rs : Reg) :
    exec (.mtspr rs n) s = .next (moveToSpr n (gpr s rs) s) := by
  have hp : (msrPR s && !userWritable n) = false := by rcases h with h | h <;> simp [h]
  change execMtspr rs n s = _
  simp [execMtspr, hp]

/-- `mtspr` to TBL goes on to the next instruction unless the watchdog resets the core (R569, R702). -/
theorem exec_mtspr_tbl {s : State} (h : msrPR s = false) (rs : Reg) :
    exec (.mtspr rs 0x11C#10) s =
      .next (if (writeSpr .tblWrite (gpr s rs) s).2 then (writeSpr .tblWrite (gpr s rs) s).1
        else advance s (writeSpr .tblWrite (gpr s rs) s).1) :=
  exec_mtspr (.inl h) rs

/-- Settles O53: away from a timer bit that rises and a reset asked for, a write leaves the entry of its register in one table of
states (`moveToSpr_eq`, `lookup_sprTable`); a TBL value steps the FIT, then the watchdog, which sets bits
(`bit_or_timerBits`) or resets the core; and a device written is the one that its number answers with
(`lookup_dcrPut`). -/
theorem registerWrites : Obligations.RegisterWrites := by
  intro s rs hq
  refine ⟨fun n hn hdbcr0 htbl => ?_, fun hn hr => ?_, fun hn hr => ?_, fun n hn => ?_⟩
  · have he := exec_mtspr (hn.imp_right (userWritable_iff n).mpr) rs
    rw [moveToSpr_eq hq htbl hdbcr0, ← lookup_sprTable] at he
    exact he
  · have he := exec_mtspr_tbl hn rs
    rw [writeSpr_tblWrite_of_no_reset hr, if_neg Bool.false_ne_true, advance_quiet hq] at he
    exact ⟨_, he, fun k hk => bit_or_timerBits s _ hk, rfl⟩
  · obtain ⟨kind, hcode, hw⟩ := writeSpr_tblWrite_of_reset hr
    have he := exec_mtspr_tbl hn rs
    rw [hw, if_pos rfl] at he
    exact ⟨_, he, rfl, rfl, coreReset_wrs _ _ _, (coreReset_mrr _ _ _).trans hcode, coreReset_wrc _ _ _⟩
  · have he := exec_mtdcr hn rs n
    rw [moveToDcr, dcrFind_eq_lookup, advance_quiet hq] at he
    refine ⟨_, he, ?_, ?_⟩
    · cases s.dcr.lookup n.toNat <;> rfl
    · cases hd : s.dcr.lookup n.toNat with
      | none => rfl
      | some d =>
        cases d with
        | word w => exact lookup_dcrPut hd
        | readOnly w => rfl
        | clearOnes w => exact lookup_dcrPut hd
        | device id k => rfl

end Sys2Proof.Machine
end

section
/-! SUPPORT. The invariant of every step (R32, R44, R130, R181, R189, R191, R796) and the reservation (R103): what it is for a state to
keep them, and that the shared operations do. -/

namespace Sys2Proof.Machine

/-! ### Words that are clear under a mask -/

theorem and_clear {w m : Word} (v : Word) (h : w &&& m = 0#32) : (v &&& w) &&& m = 0#32 := by
  rw [BitVec.and_assoc, h, BitVec.and_zero]

theorem clear_and {w m : Word} (v : Word) (h : w &&& m = 0#32) : (w &&& v) &&& m = 0#32 := by
  rw [BitVec.and_comm w v, and_clear v h]

theorem or_clear {v w m : Word} (hv : v &&& m = 0#32) (hw : w &&& m = 0#32) : (v ||| w) &&& m = 0#32 := by
  rw [BitVec.and_or_distrib_right, hv, hw, BitVec.or_zero]

theorem ite_clear {v w m : Word} (b : Bool) (hv : v &&& m = 0#32) (hw : w &&& m = 0#32) :
    (if b then v else w) &&& m = 0#32 := by
  cases b <;> assumption

theorem xor_clear {v w m : Word} (hv : v &&& m = 0#32) (hw : w &&& m = 0#32) : (v ^^^ w) &&& m = 0#32 := by
  refine BitVec.eq_of_getLsbD_eq fun i _ => ?_
  have hv' := congrArg (·.getLsbD i) hv
  have hw' := congrArg (·.getLsbD i) hw
  simp only [BitVec.getLsbD_and, BitVec.getLsbD_xor, BitVec.getLsbD_zero] at hv' hw' ⊢
  cases hm : m.getLsbD i <;> simp_all

theorem setBit_clear {w m : Word} {i : Nat} (b : Bool) (hw : w &&& m = 0#32) (hi : weight i &&& m = 0#32) :
    setBit w i b &&& m = 0#32 := by
  cases b
  · exact clear_and _ hw
  · exact or_clear hw hi

/-! ### Aligned addresses (R32) -/

theorem aligned_iff (a : Word) : aligned a = true ↔ a &&& 3#32 = 0#32 := beq_iff_eq

theorem aligned_wordAligned (a : Word) : aligned (wordAligned a) = true :=
  (aligned_iff _).mpr (and_clear a (by decide))

theorem and_three_toNat (a : Word) : (a &&& 3#32).toNat = a.toNat % 4 := by
  rw [BitVec.toNat_and]
  exact Nat.and_two_pow_sub_one_eq_mod a.toNat 2

theorem aligned_iff_mod (a : Word) : aligned a = true ↔ a.toNat % 4 = 0 := by
  rw [aligned_iff, ← and_three_toNat, ← BitVec.toNat_inj]
  rfl

theorem aligned_add_four {a : Word} (h : aligned a = true) : aligned (a + 4#32) = true := by
  rw [aligned_iff_mod] at h ⊢
  rw [BitVec.toNat_add, BitVec.toNat_ofNat]
  omega

/-! ### The invariant, part by part -/

/-- The reserved bits of each register are 0 (D1, D11). -/
structure ReservedZero (s : State) : Prop where
  xer   : s.xer &&& 0x1FFFFF80#32 = 0#32
  srr0  : s.exc.srr0 &&& 0x00000003#32 = 0#32
  srr2  : s.exc.srr2 &&& 0x00000003#32 = 0#32
  evpr  : s.exc.evpr &&& 0x0000FFFF#32 = 0#32
  esr   : s.exc.esr &&& 0x70337FFF#32 = 0#32
  tsr   : s.tmr.tsr &&& 0x03FFFFFF#32 = 0#32
  tcr   : s.tmr.tcr &&& 0x003FFFFF#32 = 0#32
  pid   : s.mmu.pid &&& 0xFFFFFF00#32 = 0#32
  ccr0  : s.attr.ccr0 &&& 0xFC0CF0EE#32 = 0#32
  dbcr0 : s.dbg.dbcr0 &&& 0x00003FFE#32 = 0#32
  dbcr1 : s.dbg.dbcr1 &&& 0x003000FF#32 = 0#32
  dbsr  : s.dbg.dbsr &&& 0x0003FCFF#32 = 0#32

theorem reservedZero_iff (s : State) : reservedZero s = true ↔ ReservedZero s := by
  simp only [reservedZero, Bool.and_eq_true, beq_iff_eq]
  constructor
  · rintro ⟨⟨⟨⟨⟨⟨⟨⟨⟨⟨⟨h1, h2⟩, h3⟩, h4⟩, h5⟩, h6⟩, h7⟩, h8⟩, h9⟩, h10⟩, h11⟩, h12⟩
    exact ⟨h1, h2, h3, h4, h5, h6, h7, h8, h9, h10, h11, h12⟩
  · rintro ⟨h1, h2, h3, h4, h5, h6, h7, h8, h9, h10, h11, h12⟩
    exact ⟨⟨⟨⟨⟨⟨⟨⟨⟨⟨⟨h1, h2⟩, h3⟩, h4⟩, h5⟩, h6⟩, h7⟩, h8⟩, h9⟩, h10⟩, h11⟩, h12⟩

/-- Storage, the caches and the writes under way are as the invariant asks (R130, R181, R191, R796). -/
structure StorageOk (s : State) : Prop where
  mem    : memOk s = true
  dcache : dcacheOk s = true
  icache : icacheOk s = true
  late   : s.sto.late.length ≤ 5

/-- The invariant, part by part. -/
structure Invariant (s : State) : Prop where
  aligned  : aligned s.pc = true
  reserved : ReservedZero s
  tied     : tiedOff s = true
  storage  : StorageOk s

theorem inv_iff (s : State) : inv s = true ↔ Invariant s := by
  simp only [inv, lateOk, Bool.and_eq_true, decide_eq_true_eq, reservedZero_iff]
  constructor
  · rintro ⟨⟨⟨⟨⟨⟨h1, h2⟩, h3⟩, h4⟩, h5⟩, h6⟩, h7⟩
    exact ⟨h1, h2, h3, h4, h5, h6, h7⟩
  · rintro ⟨h1, h2, h3, h4, h5, h6, h7⟩
    exact ⟨⟨⟨⟨⟨⟨h1, h2⟩, h3⟩, h4⟩, h5⟩, h6⟩, h7⟩

/-! ### Keeping the invariant, the parameters and the reservation -/

/-- `t` has the parameters of `s`, and the invariant if `s` has it. -/
structure KeepsInv (s t : State) : Prop where
  params : t.params = s.params
  inv    : inv s = true → inv t = true

/-- `t` has the reservation of `s` too. -/
structure Keeps (s t : State) : Prop extends KeepsInv s t where
  reserve : t.reserve = s.reserve

theorem KeepsInv.trans {s t u : State} (h : KeepsInv s t) (g : KeepsInv t u) : KeepsInv s u :=
  ⟨g.params.trans h.params, fun hi => g.inv (h.inv hi)⟩

theorem Keeps.refl (s : State) : Keeps s s := ⟨⟨rfl, id⟩, rfl⟩

theorem Keeps.trans {s t u : State} (h : Keeps s t) (g : Keeps t u) : Keeps s u :=
  ⟨h.toKeepsInv.trans g.toKeepsInv, g.reserve.trans h.reserve⟩

theorem Keeps.ite {s t u : State} {c : Prop} [Decidable c] (ht : Keeps s t) (hu : Keeps s u) :
    Keeps s (if c then t else u) := by
  split <;> assumption

theorem inv_aligned {s : State} (h : inv s = true) : aligned s.pc = true := ((inv_iff s).mp h).aligned

theorem Keeps.of_inv {s t : State} (hp : t.params = s.params) (hr : t.reserve = s.reserve)
    (h : Invariant s → Invariant t) : Keeps s t :=
  ⟨⟨hp, fun hi => (inv_iff t).mpr (h ((inv_iff s).mp hi))⟩, hr⟩

/-- An update of registers: only they have to be looked at. -/
theorem Keeps.of_registers {s t : State} (hp : t.params = s.params) (hr : t.reserve = s.reserve)
    (hs : t.sto = s.sto) (ha : Invariant s → Machine.aligned t.pc = true)
    (hz : ReservedZero s → ReservedZero t) (hm : tiedOff s = true → tiedOff t = true) : Keeps s t := by
  refine .of_inv hp hr fun h => ⟨ha h, hz h.reserved, hm h.tied, ?_⟩
  obtain ⟨h1, h2, h3, h4⟩ := h.storage
  refine ⟨?_, ?_, ?_, hs ▸ h4⟩
  · simpa only [memOk, hs] using h1
  · simpa only [dcacheOk, hs, hp] using h2
  · simpa only [icacheOk, hs, hp] using h3

/-! ### Updates of registers that the invariant says nothing of -/

theorem keeps_drawn (n : Nat) (s : State) : Keeps s (drawn n s) := ⟨⟨rfl, id⟩, rfl⟩
theorem keeps_setGpr (r : Reg) (v : Word) (s : State) : Keeps s (setGpr r v s) := ⟨⟨rfl, id⟩, rfl⟩
theorem keeps_cr (v : Word) (s : State) : Keeps s { s with cr := v } := ⟨⟨rfl, id⟩, rfl⟩
theorem keeps_setDear (v : Word) (s : State) : Keeps s (setDear v s) := ⟨⟨rfl, id⟩, rfl⟩
theorem keeps_setRun (r : DebugRun) (s : State) : Keeps s (setRun r s) := ⟨⟨rfl, id⟩, rfl⟩
theorem keeps_pipe (p : Pipe) (s : State) : Keeps s { s with pipe := p } := ⟨⟨rfl, id⟩, rfl⟩
theorem keeps_inp (i : Inputs) (s : State) : Keeps s { s with inp := i } := ⟨⟨rfl, id⟩, rfl⟩
theorem keeps_dcr (d : DcrSpace) (s : State) : Keeps s { s with dcr := d } := ⟨⟨rfl, id⟩, rfl⟩
theorem keeps_env (e : List (List EnvInput)) (s : State) : Keeps s { s with env := e } := ⟨⟨rfl, id⟩, rfl⟩
theorem keeps_links (c l : Word) (s : State) : Keeps s { s with ctr := c, lr := l } := ⟨⟨rfl, id⟩, rfl⟩
theorem keeps_icdbdr (v : Word) (b : Bool) (s : State) : Keeps s { s with icdbdr := v, icdbdrOpen := b } := ⟨⟨rfl, id⟩, rfl⟩
theorem keeps_icdbdrOpen (b : Bool) (s : State) : Keeps s { s with icdbdrOpen := b } := ⟨⟨rfl, id⟩, rfl⟩
theorem keeps_setCrField (n : BitVec 3) (v : BitVec 4) (s : State) : Keeps s (setCrField n v s) := keeps_cr _ s
theorem keeps_setCrBit (n : BitVec 5) (b : Bool) (s : State) : Keeps s (setCrBit n b s) := keeps_cr _ s
theorem keeps_rememberContext (u s : State) : Keeps s (rememberContext u s) := keeps_pipe _ s

theorem keeps_recordCr0 (rc : Bool) (v : Word) (s : State) : Keeps s (recordCr0 rc v s) :=
  .ite (keeps_setCrField _ _ s) (.refl s)

theorem keeps_recordCr0Free (rc : Bool) (v : Word) (s : State) : Keeps s (recordCr0Free rc v s) :=
  .ite (keeps_setCrField _ _ s) (.refl s)

theorem keeps_undefinedCr0 (x31 : Bool) (s : State) : Keeps s (undefinedCr0 x31 s) :=
  .ite ((keeps_cr _ s).trans (keeps_drawn 1 _)) (.refl s)

theorem keeps_freeGpr (rt : Reg) (s : State) : Keeps s (freeGpr rt s) := (keeps_setGpr rt _ s).trans (keeps_drawn 1 _)

/-! ### Updates of registers that it speaks of -/

theorem keeps_pc {a : Word} {s : State} (h : inv s = true → aligned a = true) : Keeps s { s with pc := a } :=
  .of_registers rfl rfl rfl (fun hi => h ((inv_iff s).mpr hi)) (fun h => { h with }) id

/-- The pc of a later state takes an address that is aligned where the invariant held before. -/
theorem Keeps.setPc {a : Word} {s t : State} (h : Keeps s t) (ha : inv s = true → aligned a = true) :
    Keeps s { t with pc := a } :=
  ⟨⟨h.params, fun hi => (keeps_pc fun _ => ha hi).inv (h.inv hi)⟩, h.reserve⟩

theorem keeps_xer {v : Word} {s : State} (h : s.xer &&& 0x1FFFFF80#32 = 0#32 → v &&& 0x1FFFFF80#32 = 0#32) :
    Keeps s { s with xer := v } :=
  .of_registers rfl rfl rfl (·.aligned) (fun hz => { hz with xer := h hz.xer }) id

theorem keeps_setCA (c : Bool) (s : State) : Keeps s (setCA c s) := keeps_xer fun h => setBit_clear c h (by decide)

theorem keeps_setOv (oe ov : Bool) (s : State) : Keeps s (setOv oe ov s) :=
  .ite (keeps_xer fun h => setBit_clear _ (setBit_clear _ h (by decide)) (by decide)) (.refl s)

theorem keeps_deliver (rt : Reg) (v : Word) (ca : Option Bool) (ov oe rc : Bool) (s : State) :
    Keeps s (deliver rt v ca ov oe rc s) := by
  refine .trans ?_ ((keeps_setOv oe ov _).trans (keeps_recordCr0 rc v _))
  cases ca with
  | none => exact keeps_setGpr rt v s
  | some c => exact (keeps_setGpr rt v s).trans (keeps_setCA c _)

theorem keeps_deliverRa (ra : Reg) (v : Word) (rc : Bool) (s : State) : Keeps s (deliverRa ra v rc s) :=
  (keeps_setGpr ra v s).trans (keeps_recordCr0 rc v _)

theorem keeps_esr {v : Word} {s : State} (h : s.exc.esr &&& 0x70337FFF#32 = 0#32 → v &&& 0x70337FFF#32 = 0#32) :
    Keeps s (setEsr v s) :=
  .of_registers rfl rfl rfl (·.aligned) (fun hz => { hz with esr := h hz.esr }) id

theorem keeps_setDbsrBits {bits : Word} (h : bits &&& 0x0003FCFF#32 = 0#32) (s : State) : Keeps s (setDbsrBits bits s) :=
  .of_registers rfl rfl rfl (·.aligned) (fun hz => { hz with dbsr := or_clear hz.dbsr h }) id

/-- An MSR whose relocation bits are clear where they were, or wherever the MMU is tied off, keeps the tie-off (R189). -/
theorem keeps_msr {v : Word} {s : State}
    (h : s.params.mmuEnabled = false → bit s.msr 26 = false → bit s.msr 27 = false → bit v 26 = false ∧ bit v 27 = false) :
    Keeps s { s with msr := v } := by
  refine .of_registers rfl rfl rfl (·.aligned) (fun hz => { hz with }) fun ht => ?_
  simp only [tiedOff, msrIR, msrDR, Bool.or_eq_true, Bool.and_eq_true, Bool.not_eq_true'] at ht ⊢
  cases he : s.params.mmuEnabled with
  | true => exact .inl rfl
  | false =>
    obtain ⟨hir, hdr⟩ := ht.resolve_left (by simp [he])
    exact .inr (h he hir hdr)

theorem keeps_setMsr (v : Word) (s : State) : Keeps s (setMsr v s) := by
  refine keeps_msr fun he _ _ => ?_
  have h : ∀ i ∈ [26, 27], bit (~~~(weight 26 ||| weight 27)) i = false := by decide
  simp [he, h]

theorem keeps_msr_bit {i : Nat} (b : Bool) (s : State) (hi : i < 26) : Keeps s { s with msr := setBit s.msr i b } :=
  keeps_msr fun _ hir hdr => by
    simp [bit_setBit _ b (Nat.lt_trans hi (by decide : 26 < 32)), hir, hdr, Nat.ne_of_lt hi, show i ≠ 27 by omega]

/-! ### Debug events, interrupts and completion -/

theorem aligned_vectorAddress (s : State) {off : Word} (h : off &&& 3#32 = 0#32) : aligned (vectorAddress s off) = true :=
  (aligned_iff _).mpr (or_clear (and_clear _ (by decide)) h)

theorem keeps_enter {off : Word} (h : off &&& 3#32 = 0#32) (c : IntClass) (a : Word) (s : State) :
    Keeps s (enter c off a s) := by
  have hw : wordAligned a &&& 3#32 = 0#32 := and_clear a (by decide)
  refine .of_registers (by simp) (by simp) (by simp) (fun _ => aligned_vectorAddress s h) (fun hz => ?_) (fun ht => ?_)
  · cases c
    · exact { hz with srr0 := hw }
    · exact { hz with srr2 := hw }
    · exact { hz with srr2 := hw }
  · simp only [tiedOff, msrIR, msrDR, Bool.or_eq_true, Bool.and_eq_true, Bool.not_eq_true'] at ht ⊢
    exact ht.imp id fun ⟨hir, hdr⟩ => ⟨by simp [enter, hir], by simp [enter, hdr]⟩

theorem keeps_recordEvent {bits : Word} (h : bits &&& 0x0003FCFF#32 = 0#32) (mode s : State) :
    Keeps s (recordEvent mode bits s) :=
  keeps_setDbsrBits (ite_clear _ (or_clear h (by decide)) h) s

theorem Keeps.debugEvent {bits a : Word} {s t : State} (ht : Keeps s t) (mode : State)
    (h : bits &&& 0x0003FCFF#32 = 0#32) (ha : inv s = true → aligned a = true) :
    Keeps s (debugEvent mode bits a t) := by
  have hr := ht.trans (keeps_recordEvent h mode t)
  rcases debugEvent_cases mode bits a t with ⟨_, e⟩ | ⟨_, _, e⟩ | ⟨_, _, _, _, e⟩ | ⟨_, _, _, _, e⟩ | ⟨_, _, _, _, e⟩ |
      ⟨_, _, _, _, e⟩ <;> rw [e]
  · exact ht
  · exact (hr.setPc ha).trans (keeps_setRun _ _)
  · exact hr.trans (keeps_enter (by decide) _ _ _)
  · exact hr
  · exact (hr.setPc ha).trans (keeps_setRun _ _)
  · exact hr

/-- An event before execution acts, or the operation runs once it is recorded (R725). -/
theorem beforeEvent_cases {bits : Word} {k : State → State} {s : State} (h : bits &&& 0x0003FCFF#32 = 0#32) :
    Keeps s (beforeEvent bits k s) ∨ ∃ u, Keeps s u ∧ beforeEvent bits k s = k u := by
  unfold beforeEvent
  split
  · exact .inr ⟨s, .refl s, rfl⟩
  · split
    · exact .inl ((Keeps.refl s).debugEvent s h inv_aligned)
    · exact .inr ⟨_, keeps_recordEvent h s s, rfl⟩

theorem keeps_beforeEvent {bits : Word} {k : State → State} {s : State} (h : bits &&& 0x0003FCFF#32 = 0#32)
    (hk : ∀ u, u.params = s.params → Keeps u (k u)) : Keeps s (beforeEvent bits k s) := by
  rcases beforeEvent_cases (k := k) h with h | ⟨u, hu, e⟩
  · exact h
  · exact e ▸ hu.trans (hk u hu.params)

theorem keeps_takeInterrupt {off : Word} (h : off &&& 3#32 = 0#32) (c : IntClass) (a : Word) (s : State) :
    Keeps s (takeInterrupt c off a s) :=
  (keeps_enter h c a s).trans (.ite ((Keeps.refl _).debugEvent _ (by decide) inv_aligned) (.refl _))

theorem keeps_programInterrupt {cause : Word} (h : cause &&& 0x70337FFF#32 = 0#32) (s : State) :
    Keeps s (programInterrupt cause s) :=
  (keeps_esr fun hz => or_clear (clear_and _ hz) h).trans (keeps_takeInterrupt (by decide) _ _ _)

theorem keeps_alignmentInterrupt (ea : Word) (s : State) : Keeps s (alignmentInterrupt ea s) :=
  (keeps_setDear ea s).trans (keeps_takeInterrupt (by decide) _ _ _)

theorem dataFaultEsr_clear (store : Bool) (f : DataFault) {s : State} (h : s.exc.esr &&& 0x70337FFF#32 = 0#32) :
    dataFaultEsr store f s &&& 0x70337FFF#32 = 0#32 := by
  have hb : ∀ (b : Bool) {w : Word}, w &&& 0x70337FFF#32 = 0#32 → (if b then w else 0#32) &&& 0x70337FFF#32 = 0#32 :=
    fun b _ hw => ite_clear b hw (by decide)
  cases f with
  | tlbMiss => exact or_clear (clear_and _ h) (hb _ (by decide))
  | storage dst diz u0f =>
    exact or_clear (or_clear (or_clear (clear_and _ h) (hb _ (by decide))) (hb _ (by decide))) (hb _ (by decide))

theorem keeps_dataInterrupt (store : Bool) (ea : Word) (f : DataFault) (s : State) :
    Keeps s (dataInterrupt store ea f s) := by
  refine ((keeps_esr (dataFaultEsr_clear store f)).trans (keeps_setDear ea _)).trans (keeps_takeInterrupt ?_ _ _ _)
  cases f
  · decide
  · exact (by decide : 0x0300#32 &&& 3#32 = 0#32)

theorem completionBits_clear (s : State) : completionBits s &&& 0x0003FCFF#32 = 0#32 :=
  ite_clear _ (by decide) (by decide)

theorem Keeps.complete {nia dvc : Word} {s t : State} (h : Keeps s t) (mode : State) (hn : inv s = true → aligned nia = true)
    (hd : dvc &&& 0x0003FCFF#32 = 0#32) : Keeps s (complete mode nia dvc t) :=
  (h.setPc hn).debugEvent mode (or_clear (completionBits_clear mode) hd) hn

theorem inv_aligned_next {s : State} (h : inv s = true) : aligned (s.pc + 4#32) = true := aligned_add_four (inv_aligned h)

theorem Keeps.advance {s t : State} (h : Keeps s t) : Keeps s (advance s t) := h.complete s inv_aligned_next (by decide)

theorem keeps_privileged {k : State → State} {s : State} (h : Keeps s (k s)) : Keeps s (privileged k s) :=
  .ite (keeps_programInterrupt (by decide) s) h

end Sys2Proof.Machine
end

section
/-! SUPPORT. Storage, the caches and the line buffer stay as the invariant asks, whatever the parameters (R130, R181, R182, R184, R191,
R796): one lemma for the replacement of a way, from which every access and every operation on lines follows. -/

namespace Sys2Proof.Machine

/-! ### Work on storage -/

/-- `t` is `s` with storage, the inputs and the counter of free values changed, storage still being as the invariant asks. -/
structure StorageWork (s t : State) : Prop where
  rest   : t = { s with sto := t.sto, inp := t.inp, free := t.free }
  mem    : memOk s = true → memOk t = true
  dcache : dcacheOk s = true → dcacheOk t = true
  icache : icacheOk s = true → icacheOk t = true
  late   : s.sto.late.length ≤ 5 → t.sto.late.length ≤ 5

theorem StorageWork.refl (s : State) : StorageWork s s := ⟨rfl, id, id, id, id⟩

theorem StorageWork.trans {s t u : State} (h : StorageWork s t) (g : StorageWork t u) : StorageWork s u := by
  refine ⟨?_, g.mem ∘ h.mem, g.dcache ∘ h.dcache, g.icache ∘ h.icache, g.late ∘ h.late⟩
  rw [g.rest, h.rest]

theorem StorageWork.ite {s t u : State} {b : Bool} (ht : StorageWork s t) (hu : StorageWork s u) :
    StorageWork s (if b then t else u) := by
  cases b <;> assumption

theorem StorageWork.params {s t : State} (h : StorageWork s t) : t.params = s.params := by rw [h.rest]
theorem StorageWork.dbg {s t : State} (h : StorageWork s t) : t.dbg = s.dbg := by rw [h.rest]
theorem StorageWork.reserve {s t : State} (h : StorageWork s t) : t.reserve = s.reserve := by rw [h.rest]

theorem StorageWork.keeps {s t : State} (h : StorageWork s t) : Keeps s t := by
  refine .of_inv h.params h.reserve fun hi => ⟨?_, ?_, ?_,
    ⟨h.mem hi.storage.mem, h.dcache hi.storage.dcache, h.icache hi.storage.icache, h.late hi.storage.late⟩⟩
  · rw [h.rest]
    exact hi.aligned
  · rw [h.rest]
    exact { hi.reserved with }
  · rw [h.rest]
    exact hi.tied

/-- Only bytes of storage and the writes under way have to be looked at where the caches stay. -/
theorem StorageWork.of_bytes {s t : State} (hr : t = { s with sto := t.sto, inp := t.inp, free := t.free })
    (hd : t.sto.dcache = s.sto.dcache) (hi : t.sto.icache = s.sto.icache) (hm : memOk s = true → memOk t = true)
    (hl : s.sto.late.length ≤ 5 → t.sto.late.length ≤ 5) : StorageWork s t := by
  have hp : t.params = s.params := by rw [hr]
  refine ⟨hr, hm, fun h => ?_, fun h => ?_, hl⟩
  · simpa only [dcacheOk, hd, hp] using h
  · simpa only [icacheOk, hi, hp] using h

/-! ### Bytes of storage and writes under way -/

theorem work_drawn (n : Nat) (s : State) : StorageWork s (drawn n s) := .of_bytes rfl rfl rfl id id

theorem work_clearBuffer (s : State) : StorageWork s (clearBuffer s) := .of_bytes rfl rfl rfl id id

theorem work_dropBuffer (ra : Word) (s : State) : StorageWork s (dropBuffer ra s) := .ite (work_clearBuffer s) (.refl s)

theorem work_inp (i : Inputs) (s : State) : StorageWork s { s with inp := i } := .of_bytes rfl rfl rfl id id

theorem work_reportDataError (s : State) : StorageWork s (reportDataError s) :=
  .ite (work_inp _ s) ((work_inp _ s).trans (work_drawn 1 _))

theorem work_setMemByte (ra : Word) (b : Byte) (s : State) : StorageWork s (setMemByte ra b s) :=
  .of_bytes rfl rfl rfl (memOk_setMemByte · ra b) id

theorem work_setMemBytes (ra : Word) (bs : List Byte) (s : State) : StorageWork s (setMemBytes ra bs s) := by
  induction bs generalizing ra s with
  | nil => exact .refl s
  | cons b bs ih => exact (work_setMemByte ra b s).trans (ih _ _)

theorem work_noteLate (direct : Bool) (ra : Word) (n : Nat) (s : State) : StorageWork s (noteLate direct ra n s) :=
  .of_bytes rfl rfl rfl id fun _ => List.length_take_le _ _

theorem work_allPerformed (s : State) : StorageWork s (allPerformed s) := .of_bytes rfl rfl rfl id fun _ => Nat.zero_le _

theorem work_settleStores (s : State) : StorageWork s (settleStores s) :=
  .of_bytes rfl rfl rfl id fun h => by simpa [settleStores] using h

theorem work_busWrite (direct : Bool) (ra : Word) (bs : List Byte) (s : State) : StorageWork s (busWrite direct ra bs s) := by
  have h := (work_noteLate direct ra bs.length s).trans (work_setMemBytes ra bs _)
  exact .ite (h.trans (work_reportDataError _)) h

theorem work_outsideByte (ra : Word) (b : Byte) (s : State) : StorageWork s (outsideByte ra b s) :=
  .of_bytes rfl rfl rfl (memOk_setMemByte · ra b) fun h => by simpa [outsideByte, setMemByte] using h

theorem work_outsideBytes (bs : List (Word × Byte)) (s : State) : StorageWork s (outsideBytes bs s) := by
  induction bs generalizing s with
  | nil => exact .refl s
  | cons o bs ih => exact (work_outsideByte o.1 o.2 s).trans (ih _)

theorem work_busTurn (s : State) : StorageWork s (busTurn s) := by
  unfold busTurn
  split
  · exact .refl s
  · exact (work_inp _ s).trans (work_outsideBytes _ _)

theorem work_busLeftOver (s : State) : StorageWork s (busLeftOver s) := by
  unfold busLeftOver
  split
  · exact .refl s
  · exact (work_inp _ s).trans (work_outsideBytes _ _)

theorem work_busRead (ra : Word) (n : Nat) (s : State) : StorageWork s (busRead ra n s).2 := by
  unfold busRead
  split
  · exact (work_drawn n s).trans (work_reportDataError _)
  · exact .refl s

/-! ### The data cache: one way replaced -/

theorem work_setDSet {s : State} {k : Nat} {d : DSet} (hk : k < s.params.dcacheSize.classes)
    (hd : dcacheOk s = true → d.ok s.params.dcacheSize.classes k = true) : StorageWork s (setDSet k d s) :=
  ⟨rfl, id, fun h => dcacheOk_setDSet h hk (hd h), id, id⟩

/-- A class stays right when a way keeps its line, whatever else becomes of it. -/
theorem DSet.ok_put_same {n k : Nat} {d : DSet} (hd : d.ok n k = true) (w b : Bool) (x : DLine)
    (hl : x.line = (d.get w).line) (hv : x.valid = true → (d.get w).valid = true) :
    DSet.ok n k { d.put w x with lruB := b } = true := by
  refine DSet.ok_put hd w b x (fun hx ho => hl ▸ DSet.other_line hd w (hv hx) ho) fun hx => hl ▸ ?_
  have hw := hv hx
  simp only [DSet.ok, Bool.and_eq_true, Bool.or_eq_true, Bool.not_eq_true', beq_iff_eq] at hd
  obtain ⟨⟨ha, hb⟩, _⟩ := hd
  cases w
  · exact ha.resolve_left (by simpa [DSet.get] using hw)
  · exact hb.resolve_left (by simpa [DSet.get] using hw)

theorem work_sameLine {s : State} {k : Nat} (hk : k < s.params.dcacheSize.classes) (w b : Bool) (x : DLine)
    (hl : x.line = ((dSet s k).get w).line) (hv : x.valid = true → ((dSet s k).get w).valid = true) :
    StorageWork s (setDSet k { (dSet s k).put w x with lruB := b } s) :=
  work_setDSet hk fun h => DSet.ok_put_same (dcacheOk_dSet h k) w b x hl hv

theorem work_touchWay {s : State} {k : Nat} (hk : k < s.params.dcacheSize.classes) (w : Bool) :
    StorageWork s (touchWay k w s) := work_sameLine hk w _ _ rfl id

theorem dClass_lt_of_dWay {s : State} {ra : Word} {w : Bool} (h : dWay s ra = some w) :
    dClass s ra < s.params.dcacheSize.classes := dClass_lt (dWay_get h).1 ra

theorem work_writeCached {s : State} {ra : Word} {w : Bool} (h : dWay s ra = some w) (bs : List Byte) (dirty : Bool) :
    StorageWork s (writeCached ra w bs dirty s) := by
  unfold writeCached
  dsimp only
  rw [DSet.put_lruB]
  exact work_sameLine (dClass_lt_of_dWay h) w _ _ rfl id

theorem work_dropLine (ra : Word) (s : State) : StorageWork s (dropLine ra s) := by
  unfold dropLine
  split
  · rename_i w hw
    dsimp only
    rw [DSet.put_lruB]
    exact work_sameLine (dClass_lt_of_dWay hw) w _ _ rfl (by simp)
  · exact .refl s

theorem work_dropClass (ra : Word) (s : State) : StorageWork s (dropClass ra s) := by
  unfold dropClass
  split
  · exact .refl s
  · rename_i hn
    exact work_setDSet (dClass_lt hn ra) fun _ => by simp [DSet.ok]

theorem busWrite_dcache_eq (direct : Bool) (ra : Word) (bs : List Byte) (s : State) :
    (busWrite direct ra bs s).sto.dcache = s.sto.dcache := by
  have h : (setMemBytes ra bs (noteLate direct ra bs.length s)).sto.dcache = s.sto.dcache := by rw [setMemBytes_eq]; rfl
  have hr (u : State) : (reportDataError u).sto.dcache = u.sto.dcache := by unfold reportDataError; split <;> rfl
  unfold busWrite
  dsimp only
  split
  · rw [hr, h]
  · exact h

theorem dSet_busWrite (direct : Bool) (ra : Word) (bs : List Byte) (s : State) (k : Nat) :
    dSet (busWrite direct ra bs s) k = dSet s k := by
  unfold dSet
  rw [busWrite_dcache_eq]

theorem work_cleanLine (ra : Word) (s : State) : StorageWork s (cleanLine ra s) := by
  unfold cleanLine
  split
  · rename_i w hw
    dsimp only
    split
    · have hb := work_busWrite false (lineBase ((dSet s (dClass s ra)).get w).line) ((dSet s (dClass s ra)).get w).data.toList s
      rw [DSet.put_lruB]
      refine hb.trans (work_sameLine (hb.params ▸ dClass_lt_of_dWay hw) w _ _ ?_ ?_)
      · rw [dSet_busWrite]
      · rw [dSet_busWrite]
        exact id
    · exact .refl s
  · exact .refl s

theorem work_castOut (k : Nat) (s : State) : StorageWork s (castOut k s) := .ite (work_busWrite _ _ _ s) (.refl s)

theorem dSet_castOut (k j : Nat) (s : State) : dSet (castOut k s) j = dSet s j := by
  unfold castOut
  dsimp only
  split
  · exact dSet_busWrite _ _ _ s j
  · rfl

/-- An address that hits nothing has its line in no way of its class. -/
theorem line_ne_of_dWay_none {s : State} {ra : Word} (hn : s.params.dcacheSize.classes ≠ 0) (h : dWay s ra = none) (w : Bool)
    (hv : ((dSet s (dClass s ra)).get w).valid = true) : ((dSet s (dClass s ra)).get w).line ≠ lineOf ra := by
  simp only [dWay, hn, if_false, DSet.way, Bool.and_eq_true, beq_iff_eq] at h
  intro he
  split_ifs at h with ha hb
  cases w
  · exact ha ⟨hv, he⟩
  · exact hb ⟨hv, he⟩

theorem work_installLine {s : State} {ra : Word} (hn : s.params.dcacheSize.classes ≠ 0) (h : dWay s ra = none)
    (v : Vector Byte 32) (dirty : Bool) : StorageWork s (installLine ra v dirty s) := by
  have hc := work_castOut (dClass s ra) s
  unfold installLine
  refine hc.trans (work_setDSet (hc.params ▸ dClass_lt hn ra) fun hd => ?_)
  refine DSet.ok_put (dcacheOk_dSet hd _) _ _ _ (fun _ ho => ?_) fun _ => ?_
  · rw [dSet_castOut] at ho ⊢
    exact line_ne_of_dWay_none hn h _ ho
  · rw [hc.params]
    exact (dClass_eq s ra).symm

theorem work_establishLine {s : State} (ra : Word) (hn : s.params.dcacheSize.classes ≠ 0) (v : Vector Byte 32) :
    StorageWork s (establishLine ra v s) := by
  unfold establishLine
  split
  · rename_i w hw
    exact work_sameLine (dClass_lt_of_dWay hw) w _ _ (dWay_get hw).2.2.symm fun _ => (dWay_get hw).2.1
  · rename_i hw
    exact work_installLine hn hw v true

theorem busRead_dcache_eq (ra : Word) (n : Nat) (s : State) : (busRead ra n s).2.sto.dcache = s.sto.dcache := by
  unfold busRead
  split
  · unfold reportDataError
    split <;> rfl
  · rfl

theorem work_fillLine {s : State} {ra : Word} (hn : s.params.dcacheSize.classes ≠ 0) (h : dWay s ra = none) :
    StorageWork s (fillLine ra s) := by
  have hb := (work_clearBuffer s).trans (work_busRead (lineBase (lineOf ra)) 32 (clearBuffer s))
  refine hb.trans (work_installLine (hb.params ▸ hn) ?_ _ _)
  rw [dWay_congr (busRead_dcache_eq _ _ (clearBuffer s)) hb.params]
  exact h

/-! ### One load or store -/

theorem work_buffer (b : Option LineBuffer) (s : State) : StorageWork s { s with sto := { s.sto with buffer := b } } :=
  .of_bytes rfl rfl rfl id id

theorem work_uncachedRead (ra : Word) (x : Attrs) (n : Nat) (s : State) : StorageWork s (uncachedRead ra x n s).2 := by
  have hr := work_busRead ra n s
  have hl := work_busRead (lineBase (lineOf ra)) 32
  unfold uncachedRead
  split
  · exact hr
  · split
    · split
      · exact .refl s
      · split
        · exact ((work_clearBuffer s).trans (hl _)).trans (work_buffer _ _)
        · exact hr
    · split
      · exact (hl s).trans (work_buffer _ _)
      · exact hr

theorem dWay_of_dSeen {s : State} {x : Attrs} {ra : Word} {w : Bool} (h : dSeen s x ra = some w) : dWay s ra = some w :=
  (Option.filter_eq_some_iff.mp h).1

theorem dWay_of_dSeen_none {s : State} {x : Attrs} {ra : Word} (h : dSeen s x ra = none) (hi : x.i = false) :
    dWay s ra = none := by
  cases hw : dWay s ra with
  | none => rfl
  | some w => simp [dSeen, hw, hi] at h

theorem work_dataRead (ra : Word) (x : Attrs) (n : Nat) (s : State) : StorageWork s (dataRead ra x n s).2 := by
  unfold dataRead
  split
  · exact work_drawn n s
  · split
    · rename_i w hw
      split
      · exact (work_drawn 1 s).trans (work_uncachedRead _ _ _ _)
      · exact work_touchWay (dClass_lt_of_dWay (dWay_of_dSeen hw)) w
    · rename_i hw
      split
      · exact work_uncachedRead _ _ _ _
      · rename_i hc
        simp only [Bool.or_eq_true, decide_eq_true_eq, not_or, Bool.not_eq_true] at hc
        have hf := work_fillLine hc.2 (dWay_of_dSeen_none hw hc.1.1)
        dsimp only
        split
        · exact hf
        · exact hf.trans (work_uncachedRead _ _ _ _)

theorem work_storeHit {s : State} {ra : Word} {w : Bool} (h : dWay s ra = some w) (x : Attrs) (bs : List Byte) :
    StorageWork s (storeHit ra x w bs s) := by
  have hw := work_writeCached h bs (!x.w)
  have ht := hw.trans (work_touchWay (hw.params ▸ dClass_lt_of_dWay h) w)
  exact .ite (ht.trans (work_busWrite _ _ _ _)) ht

theorem work_storeThrough (ra : Word) (x : Attrs) (bs : List Byte) (s : State) : StorageWork s (storeThrough ra x bs s) := by
  unfold storeThrough
  split
  · exact (work_drawn _ s).trans (work_busWrite _ _ _ _)
  · split
    · rename_i w hw
      have hc := (work_drawn 1 s).trans
        (work_writeCached (s := drawn 1 s) (dWay_of_dSeen hw) bs (bit (freeNow s) 29))
      split
      · exact .ite (.ite (hc.trans (work_busWrite _ _ _ _)) hc) ((work_drawn 1 s).trans (work_busWrite _ _ _ _))
      · exact work_storeHit (dWay_of_dSeen hw) x bs
    · rename_i hw
      split
      · exact work_busWrite _ _ _ s
      · rename_i hc
        simp only [Bool.or_eq_true, decide_eq_true_eq, not_or, Bool.not_eq_true] at hc
        have hf := work_fillLine hc.2 (dWay_of_dSeen_none hw hc.1.1)
        dsimp only
        split
        · rename_i v hv
          exact hf.trans (work_storeHit hv x bs)
        · exact hf.trans (work_busWrite _ _ _ _)

theorem work_dataWrite (ra : Word) (x : Attrs) (bs : List Byte) (s : State) : StorageWork s (dataWrite ra x bs s) :=
  (work_dropBuffer ra s).trans (work_storeThrough ra x bs _)

theorem work_loadUnits (us : List UnitAccess) (s : State) : StorageWork s (loadUnits us s).2 := by
  induction us generalizing s with
  | nil => exact .refl s
  | cons u us ih => exact ((work_busTurn s).trans (work_dataRead _ _ _ _)).trans (ih _)

theorem work_storeUnits (us : List UnitAccess) (bs : List Byte) (s : State) : StorageWork s (storeUnits us bs s) := by
  induction us generalizing bs s with
  | nil => exact .refl s
  | cons u us ih => exact ((work_busTurn s).trans (work_dataWrite _ _ _ _)).trans (ih _ _)

end Sys2Proof.Machine
end

section
/-! SUPPORT. Laws of the instruction cache and of reading ahead (R95, R176, R181, R184, R203, R204): what a line put into the cache does
to every address, and that each line the fetcher leaves there is an old one or one that it has read. -/

namespace Sys2Proof.Machine

/-! ### Classes -/

/-- The line of a class of the instruction cache that holds a line number. -/
def ISet.find (d : ISet) (l : BitVec 27) : Option ILine := (d.way l).map d.get

theorem ISet.find_eq (d : ISet) (l : BitVec 27) :
    d.find l = if d.a.valid = true ∧ d.a.line = l then some d.a else if d.b.valid = true ∧ d.b.line = l then some d.b
      else none := by
  simp only [ISet.find, ISet.way, Bool.and_eq_true, beq_iff_eq]
  split
  · simp [ISet.get]
  · split <;> simp [ISet.get]

theorem ISet.ok_iff (n k : Nat) (d : ISet) :
    d.ok n k = true ↔ (d.a.valid = true → d.a.line.toNat % n = k) ∧ (d.b.valid = true → d.b.line.toNat % n = k) ∧
      ¬ (d.a.valid = true ∧ d.b.valid = true ∧ d.a.line = d.b.line) := by
  simp only [ISet.ok, Bool.and_eq_true, Bool.or_eq_true, Bool.not_eq_true', beq_iff_eq, Bool.and_eq_false_iff,
    beq_eq_false_iff_ne]
  grind

/-- A class with one way replaced by a line that the other way does not hold: what a line number finds afterwards. -/
theorem ISet.find_put {n k : Nat} {d : ISet} (hd : d.ok n k = true) (w b : Bool) (x : ILine)
    (hx : x.valid = true → (d.get (!w)).valid = true → (d.get (!w)).line ≠ x.line) (l : BitVec 27) :
    ISet.find { d.put w x with lruB := b } l =
      if x.valid = true ∧ l = x.line then some x
      else if (d.get w).valid = true ∧ l = (d.get w).line then none else d.find l := by
  obtain ⟨-, -, hdup⟩ := (ISet.ok_iff n k d).mp hd
  rw [ISet.find_eq, ISet.find_eq]
  cases w
  · simp only [ISet.put, ISet.get, Bool.not_false, if_true, Bool.false_eq_true, if_false] at hx ⊢
    grind
  · simp only [ISet.put, ISet.get, Bool.not_true, if_true, Bool.false_eq_true, if_false] at hx ⊢
    grind

theorem ISet.ok_put {n k : Nat} {d : ISet} (hd : d.ok n k = true) (w b : Bool) (x : ILine)
    (hx : x.valid = true → (d.get (!w)).valid = true → (d.get (!w)).line ≠ x.line)
    (hk : x.valid = true → x.line.toNat % n = k) :
    ISet.ok n k { d.put w x with lruB := b } = true := by
  rw [ISet.ok_iff] at hd ⊢
  cases w
  · simp only [ISet.put, ISet.get, Bool.not_false, if_true, Bool.false_eq_true, if_false] at hx ⊢
    grind
  · simp only [ISet.put, ISet.get, Bool.not_true, if_true, Bool.false_eq_true, if_false] at hx ⊢
    grind

/-- A class stays right when a way keeps its line, whatever else becomes of it. -/
theorem ISet.ok_put_same {n k : Nat} {d : ISet} (hd : d.ok n k = true) (w b : Bool) (x : ILine)
    (hl : x.line = (d.get w).line) (hv : x.valid = true → (d.get w).valid = true) :
    ISet.ok n k { d.put w x with lruB := b } = true := by
  rw [ISet.ok_iff] at hd ⊢
  cases w
  · simp only [ISet.put, ISet.get, Bool.false_eq_true, if_false] at hl hv ⊢
    grind
  · simp only [ISet.put, ISet.get, if_true] at hl hv ⊢
    grind

theorem ISet.put_lruB (d : ISet) (w : Bool) (x : ILine) : d.put w x = { d.put w x with lruB := d.lruB } := by cases w <;> rfl

/-! ### The cache -/

theorem iClass_eq (s : State) (a : Word) : iClass s a = (lineOf a).toNat % s.params.icacheSize.classes := by
  rw [iClass, classOf, lineOf_toNat]

theorem iClass_lt {s : State} (hn : s.params.icacheSize.classes ≠ 0) (a : Word) :
    iClass s a < s.params.icacheSize.classes := by
  rw [iClass_eq]
  exact Nat.mod_lt _ (by omega)

/-- The canonical form of the instruction cache, and what it says of each entry. -/
theorem icacheOk_iff (s : State) :
    icacheOk s = true ↔ mapWf ISet.empty s.sto.icache = true ∧ s.sto.icache.all (fun kd =>
      decide (kd.1 < s.params.icacheSize.classes) && kd.2.ok s.params.icacheSize.classes kd.1) = true := by
  simp only [icacheOk, Bool.and_eq_true]

theorem icacheOk_iSet {s : State} (h : icacheOk s = true) (k : Nat) :
    (iSet s k).ok s.params.icacheSize.classes k = true := by
  obtain ⟨_, hall⟩ := (icacheOk_iff s).mp h
  refine mapGet_all (p := fun kd : Nat × ISet => kd.2.ok s.params.icacheSize.classes kd.1) ?_ (by simp [ISet.ok, ISet.empty, ILine.empty])
  rw [List.all_eq_true] at hall ⊢
  exact fun x hx => (Bool.and_eq_true_iff.mp (hall x hx)).2

theorem iSet_setISet {s : State} (h : icacheOk s = true) (k : Nat) (d : ISet) (j : Nat) :
    iSet (setISet k d s) j = if j = k then d else iSet s j := mapGet_mapSet k j d ((icacheOk_iff s).mp h).1

theorem icacheOk_setISet {s : State} (h : icacheOk s = true) {k : Nat} {d : ISet}
    (hk : k < s.params.icacheSize.classes) (hd : d.ok s.params.icacheSize.classes k = true) :
    icacheOk (setISet k d s) = true := by
  obtain ⟨hwf, hall⟩ := (icacheOk_iff s).mp h
  exact (icacheOk_iff _).mpr ⟨mapWf_mapSet _ _ hwf, all_mapSet hall fun _ => by simpa [hk] using hd⟩

theorem work_setISet {s : State} {k : Nat} {d : ISet} (hk : k < s.params.icacheSize.classes)
    (hd : icacheOk s = true → d.ok s.params.icacheSize.classes k = true) : StorageWork s (setISet k d s) :=
  ⟨rfl, id, id, fun h => icacheOk_setISet h hk (hd h), id⟩

/-- A hit names a valid line that holds the address, in a cache that has an array. -/
theorem iWay_get {s : State} {a : Word} {w : Bool} (h : iWay s a = some w) :
    s.params.icacheSize.classes ≠ 0 ∧ ((iSet s (iClass s a)).get w).valid = true ∧
      ((iSet s (iClass s a)).get w).line = lineOf a := by
  simp only [iWay, ISet.way, Bool.and_eq_true, beq_iff_eq] at h
  split_ifs at h with hn ha hb <;> cases h
  · exact ⟨hn, ha⟩
  · exact ⟨hn, hb⟩

/-- An address that hits nothing has its line in no way of its class. -/
theorem instrLine_ne_of_iWay_none {s : State} {ra : Word} (hn : s.params.icacheSize.classes ≠ 0) (h : iWay s ra = none)
    (w : Bool) (hv : ((iSet s (iClass s ra)).get w).valid = true) :
    ((iSet s (iClass s ra)).get w).line ≠ lineOf ra := by
  simp only [iWay, hn, if_false, ISet.way, Bool.and_eq_true, beq_iff_eq] at h
  intro he
  split_ifs at h with ha hb
  cases w
  · exact ha ⟨hv, he⟩
  · exact hb ⟨hv, he⟩

theorem instrCopy_eq (s : State) (a : Word) :
    instrCopy s a = if s.params.icacheSize.classes = 0 then none
      else ((iSet s (iClass s a)).find (lineOf a)).map fun l => lineWord l.words a := by
  simp only [instrCopy, iWay, ISet.find]
  split
  · rfl
  · rw [Option.map_map]
    rfl

theorem instrCopy_none_iff (s : State) (a : Word) : instrCopy s a = none ↔ iWay s a = none := by simp [instrCopy]

/-! ### One line touched, dropped or put in -/

theorem work_touchInstrWay {s : State} {k : Nat} (hk : k < s.params.icacheSize.classes) (w : Bool) :
    StorageWork s (touchInstrWay k w s) :=
  work_setISet hk fun h => ISet.ok_put_same (icacheOk_iSet h k) w _ _ rfl id

theorem instrCopy_setISet {s : State} (h : icacheOk s = true) (hn : s.params.icacheSize.classes ≠ 0) (k : Nat) (d : ISet)
    (a : Word) : instrCopy (setISet k d s) a =
      ((if iClass s a = k then d else iSet s (iClass s a)).find (lineOf a)).map fun l => lineWord l.words a := by
  rw [← iSet_setISet h, instrCopy_eq, if_neg (show (setISet k d s).params.icacheSize.classes ≠ 0 from hn)]
  rfl

theorem instrCopy_touchInstrWay {s : State} (h : icacheOk s = true) (hn : s.params.icacheSize.classes ≠ 0) (k : Nat)
    (w : Bool) (a : Word) : instrCopy (touchInstrWay k w s) a = instrCopy s a := by
  have hfind (d : ISet) (l : BitVec 27) :
      (ISet.find { d.put w { d.get w with undef := false } with lruB := !w } l).map (fun l => lineWord l.words a) =
        (d.find l).map fun l => lineWord l.words a := by
    rw [ISet.find_eq, ISet.find_eq]
    cases w
    · simp only [ISet.put, ISet.get, Bool.false_eq_true, if_false]
      split <;> simp
    · simp only [ISet.put, ISet.get, if_true]
      grind
  rw [touchInstrWay, instrCopy_setISet h hn, instrCopy_eq, if_neg hn]
  split
  · rename_i hk
    rw [hfind, hk]
  · rfl

theorem work_dropInstrLine (ra : Word) (s : State) : StorageWork s (dropInstrLine ra s) := by
  unfold dropInstrLine
  split
  · rename_i w hw
    dsimp only
    rw [ISet.put_lruB]
    exact work_setISet (iClass_lt (iWay_get hw).1 ra) fun h => ISet.ok_put_same (icacheOk_iSet h _) w _ _ rfl (by simp)
  · exact .refl s

theorem work_installInstrLine {s : State} {ra : Word} (hn : s.params.icacheSize.classes ≠ 0) (h : iWay s ra = none)
    (v : Vector Word 8) : StorageWork s (installInstrLine ra v s) :=
  work_setISet (iClass_lt hn ra) fun hi => ISet.ok_put (icacheOk_iSet hi _) _ _ _
    (fun _ ho => instrLine_ne_of_iWay_none hn h _ ho) fun _ => (iClass_eq s ra).symm

/-- A line put in where it was absent: its words are found at its addresses, and every other address finds what it did, or
nothing. -/
theorem instrCopy_installInstrLine {s : State} (hi : icacheOk s = true) {ra : Word} (hn : s.params.icacheSize.classes ≠ 0)
    (h : iWay s ra = none) (v : Vector Word 8) (a : Word) :
    (lineOf a = lineOf ra → instrCopy (installInstrLine ra v s) a = some (lineWord v a)) ∧
      (lineOf a ≠ lineOf ra → instrCopy (installInstrLine ra v s) a = instrCopy s a ∨
        instrCopy (installInstrLine ra v s) a = none) := by
  have hput := ISet.find_put (icacheOk_iSet hi (iClass s ra)) (iSet s (iClass s ra)).lruB (!(iSet s (iClass s ra)).lruB)
    { valid := true, line := lineOf ra, words := v, undef := false }
    (fun _ ho => instrLine_ne_of_iWay_none hn h _ ho) (lineOf a)
  rw [installInstrLine, instrCopy_setISet hi hn, instrCopy_eq, if_neg hn]
  by_cases hc : iClass s a = iClass s ra
  · rw [if_pos hc, hput, hc]
    refine ⟨fun hl => by simp [hl], fun hl => ?_⟩
    rw [if_neg (by simp [hl])]
    split
    · exact .inr rfl
    · exact .inl rfl
  · rw [if_neg hc]
    exact ⟨fun hl => absurd (by rw [iClass_eq, iClass_eq, hl]) hc, fun _ => .inl rfl⟩

theorem dropInstrClasses_ok {n : Nat} {m : List (Nat × ISet)}
    (h : m.all (fun kd => decide (kd.1 < n) && kd.2.ok n kd.1) = true) :
    mapWf ISet.empty (dropInstrClasses m) = true ∧
      (dropInstrClasses m).all (fun kd => decide (kd.1 < n) && kd.2.ok n kd.1) = true := by
  induction m with
  | nil => exact ⟨rfl, rfl⟩
  | cons kd m ih =>
    obtain ⟨k, d⟩ := kd
    simp only [List.all_cons, Bool.and_eq_true, decide_eq_true_eq] at h
    obtain ⟨hwf, hall⟩ := ih h.2
    exact ⟨mapWf_mapSet _ _ hwf, all_mapSet hall fun _ => by simp [ISet.ok, h.1.1]⟩

theorem work_dropInstrCache (s : State) : StorageWork s (dropInstrCache s) :=
  ⟨rfl, id, id, fun h => (icacheOk_iff _).mpr (dropInstrClasses_ok ((icacheOk_iff s).mp h).2), id⟩

/-! ### Storage as the fetcher finds it -/

theorem foldl_undo_eq (ws : List LateWrite) (s : State) :
    ws.foldl undo s = { s with sto := { s.sto with mem := (ws.foldl undo s).sto.mem } } := by
  have hb (os : List (Word × Byte)) (s : State) : os.foldl (fun s o => setMemByte o.1 o.2 s) s =
      { s with sto := { s.sto with mem := (os.foldl (fun s o => setMemByte o.1 o.2 s) s).sto.mem } } := by
    induction os generalizing s with
    | nil => rfl
    | cons o os ih => rw [List.foldl_cons, ih]; rfl
  induction ws generalizing s with
  | nil => rfl
  | cons w ws ih =>
    rw [List.foldl_cons, ih, undo, hb]

/-- What undoing writes leaves in storage depends on storage alone. -/
theorem foldl_undo_mem {s t : State} (h : t.sto.mem = s.sto.mem) (ws : List LateWrite) :
    (ws.foldl undo t).sto.mem = (ws.foldl undo s).sto.mem := by
  have hb (os : List (Word × Byte)) (s t : State) (h : t.sto.mem = s.sto.mem) :
      (os.foldl (fun s o => setMemByte o.1 o.2 s) t).sto.mem = (os.foldl (fun s o => setMemByte o.1 o.2 s) s).sto.mem := by
    induction os generalizing s t with
    | nil => exact h
    | cons o os ih => exact ih _ _ (by simp only [setMemByte, h])
  induction ws generalizing s t with
  | nil => exact h
  | cons w ws ih => exact ih (hb _ _ _ h)

/-- The writes that `withoutWrites` undoes. -/
def lateNear (s : State) (ra : Word) (inhibited : Bool) (k : Nat) : List LateWrite :=
  ((s.sto.late.filter (fun w => w.old.any (fun o => decide (lineOf o.1 = lineOf ra)))).takeWhile
    (fun w => !inhibited || !w.settled)).take k

theorem withoutWrites_eq (s : State) (ra : Word) (inhibited : Bool) (k : Nat) :
    withoutWrites s ra inhibited k = (lateNear s ra inhibited k).foldl undo s := rfl

theorem withoutWrites_line {a b : Word} (h : lineOf a = lineOf b) (s : State) (inhibited : Bool) (k : Nat) :
    withoutWrites s a inhibited k = withoutWrites s b inhibited k := by
  simp only [withoutWrites, h]

theorem withoutWrites_params (s : State) (ra : Word) (inhibited : Bool) (k : Nat) :
    (withoutWrites s ra inhibited k).params = s.params := by
  rw [withoutWrites_eq, foldl_undo_eq]

/-- The words that a line of storage as the fetcher finds it gives are a matter of storage and the writes under way. -/
theorem memWord_withoutWrites_congr {s t : State} (hm : t.sto.mem = s.sto.mem) (hl : t.sto.late = s.sto.late)
    (ra : Word) (inhibited : Bool) (k : Nat) (a : Word) (e : Bool) :
    memWord (withoutWrites t ra inhibited k) a e = memWord (withoutWrites s ra inhibited k) a e := by
  have h := foldl_undo_mem hm (lateNear s ra inhibited k)
  have ht : lateNear t ra inhibited k = lateNear s ra inhibited k := by simp only [lateNear, hl]
  simp only [memWord, memByte, withoutWrites_eq, ht, h]

theorem wordAligned_toNat (a : Word) : (wordAligned a).toNat = a.toNat / 4 * 4 := by
  have h : wordAligned a + (a &&& 3#32) = a := by
    rw [BitVec.add_eq_or_of_and_eq_zero]
    · rw [wordAligned, ← BitVec.and_or_distrib_left, show (0xFFFFFFFC#32 ||| 3#32) = BitVec.allOnes 32 by decide,
        BitVec.and_allOnes]
    · rw [wordAligned, BitVec.and_assoc, ← BitVec.and_assoc 0xFFFFFFFC#32, BitVec.and_comm 0xFFFFFFFC#32,
        BitVec.and_assoc a, show (0xFFFFFFFC#32 &&& 3#32) = 0#32 by decide, BitVec.and_zero, BitVec.and_zero]
  have h' := congrArg BitVec.toNat h
  rw [BitVec.toNat_add, and_three_toNat] at h'
  have hw : (wordAligned a).toNat % 4 = 0 := (aligned_iff_mod _).mp (aligned_wordAligned a)
  have := (wordAligned a).isLt
  have := a.isLt
  omega

/-- A line read from storage gives at each of its addresses the word that stands there. -/
theorem lineWord_memLine {l : BitVec 27} {a : Word} (h : lineOf a = l) (m : State) (e : Bool) :
    lineWord (memLine m l e) a = memWord m (wordAligned a) e := by
  have hw : wordAligned a = lineBase l + BitVec.ofNat 32 (4 * ((lineOffset a).toNat / 4)) := by
    apply BitVec.eq_of_toNat_eq
    rw [wordAligned_toNat, BitVec.toNat_add, lineBase_toNat, ← h, lineOf_toNat, lineOffset_toNat, BitVec.toNat_ofNat]
    have := a.isLt
    omega
  have hword : ∀ j (hj : j < 8), (memLine m l e)[j] = memWord m (lineBase l + BitVec.ofNat 32 (4 * j)) e := by
    intro j hj
    interval_cases j <;> simp [memLine]
  have hj : (lineOffset a).toNat / 4 < 8 := by
    have := lineOffset_lt a
    omega
  rw [hw, ← hword _ hj]
  simp only [lineWord, Nat.mod_eq_of_lt hj]

end Sys2Proof.Machine
end

section
/-! SUPPORT. What a read by the fetcher leaves in the instruction cache (R176, R184, R203, R204): a line it held, or the line read,
from storage as the fetcher may find it. -/

namespace Sys2Proof.Machine

/-! ### One read -/

/-- A read that a fetch from cachable storage may be, and the line it would fill (R184, R203). -/
structure CachableRead (s : State) (ea : Word) (f : Fetch) (y : Xlate) : Prop where
  xlate  : xlateFetch s ea = some y
  exec   : execOk s y = true
  inhib  : y.attrs.i = false
  place  : f.ra = y.ra
  filled : ∀ v, f.fill = some v → ccrFWOA s = false ∧ s.params.icacheSize.classes ≠ 0 ∧
    busErrorIn s .fetch (lineBase (lineOf y.ra)) 32 = false ∧
    ∃ k, v = memLine (withoutWrites s y.ra false k) (lineOf y.ra) y.attrs.e

theorem instrFill_eq_some {s : State} {ra : Word} {e : Bool} {v : Vector Word 8} (h : instrFill s ra e = some v) :
    s.params.icacheSize.classes ≠ 0 ∧ busErrorIn s .fetch (lineBase (lineOf ra)) 32 = false ∧
      v = memLine s (lineOf ra) e := by
  simp only [instrFill] at h
  split at h
  · cases h
  · rename_i hc
    simp only [Bool.or_eq_true, decide_eq_true_eq, not_or, Bool.not_eq_true] at hc
    exact ⟨hc.1, hc.2, (Option.some.inj h).symm⟩

theorem busErrorIn_congr {s t : State} (h : t.params = s.params) (k : BusKind) (ra : Word) (n : Nat) :
    busErrorIn t k ra n = busErrorIn s k ra n := by
  simp only [busErrorIn, busError, h]

theorem cachable_of_mem_fetchUnder {s : State} {ea : Word} {f : Fetch} (hf : f ∈ fetchUnder ea s)
    (hc : f.cachable = true) : ∃ y, CachableRead s ea f y := by
  unfold fetchUnder at hf
  split at hf
  · rw [List.mem_singleton.mp hf] at hc
    cases hc
  · rename_i y hy
    split at hf
    · rename_i he
      unfold fetchWords at hf
      dsimp only at hf
      split at hf
      · split at hf
        · rcases List.mem_append.mp hf with h | h
          · obtain ⟨m, _, rfl⟩ := List.mem_map.mp h
            cases hc
          · rw [List.mem_singleton.mp h] at hc
            cases hc
        · rename_i hi
          obtain rfl := List.mem_singleton.mp hf
          exact ⟨y, hy, he, by simpa using hi, rfl, fun v hv => by cases hv⟩
      · obtain ⟨m, hm, rfl⟩ := List.mem_map.mp hf
        have hi : y.attrs.i = false := by simpa using hc
        refine ⟨y, hy, he, hi, rfl, fun v hv => ?_⟩
        rw [hi] at hm
        obtain ⟨k, rfl⟩ := fetchImages_mem hm
        simp only [hi, Bool.false_or] at hv
        split at hv
        · cases hv
        · rename_i hw
          obtain ⟨hn, hb, hv⟩ := instrFill_eq_some hv
          rw [withoutWrites_params] at hn
          rw [busErrorIn_congr (withoutWrites_params s _ _ _)] at hb
          exact ⟨by simpa using hw, hn, hb, k, hv⟩
    · rw [List.mem_singleton.mp hf] at hc
      cases hc

/-- What a read does to the instruction cache: nothing, the use of a line that it holds, or a line put in (R184). -/
theorem afterFetch_cases (f : Fetch) (s : State) :
    afterFetch f s = s ∨
      (∃ w, iWay s f.ra = some w ∧ afterFetch f s = touchInstrWay (iClass s f.ra) w s) ∨
      ∃ v, f.cachable = true ∧ f.fill = some v ∧ iWay s f.ra = none ∧ s.params.icacheSize.classes ≠ 0 ∧
        afterFetch f s = installInstrLine f.ra v s := by
  unfold afterFetch
  split
  · rename_i hc
    cases hw : iWay s f.ra with
    | some w => exact .inr (.inl ⟨w, rfl, rfl⟩)
    | none =>
      cases hf : f.fill with
      | none => exact .inl rfl
      | some v =>
        dsimp only
        split
        · exact .inl rfl
        · rename_i hn
          exact .inr (.inr ⟨v, hc, rfl, rfl, hn, rfl⟩)
  · exact .inl rfl

theorem work_afterFetch (f : Fetch) (s : State) : StorageWork s (afterFetch f s) := by
  rcases afterFetch_cases f s with h | ⟨w, hw, h⟩ | ⟨v, _, _, hw, hn, h⟩ <;> rw [h]
  · exact .refl s
  · exact work_touchInstrWay (iClass_lt (iWay_get hw).1 _) w
  · exact work_installInstrLine hn hw v

/-- A read that puts no line into the instruction cache leaves every address finding what it did. -/
theorem instrCopy_afterFetch {s : State} (hi : icacheOk s = true) (f : Fetch) (a : Word)
    (h : ∀ v, f.cachable = true → f.fill = some v → s.params.icacheSize.classes ≠ 0 → iWay s f.ra ≠ none) :
    instrCopy (afterFetch f s) a = instrCopy s a := by
  rcases afterFetch_cases f s with e | ⟨w, hw, e⟩ | ⟨v, hc, hv, hw, hn, _⟩
  · rw [e]
  · rw [e, instrCopy_touchInstrWay hi (iWay_get hw).1]
  · exact absurd hw (h v hc hv hn)

theorem work_readInstr (views : List State) (ea : Word) (s : State) : StorageWork s (readInstr views ea s).2 := by
  obtain ⟨n, hn⟩ := pick_state (.stopped .miss) (views.flatMap (fetchUnder ea)) s
  simp only [readInstr, hn]
  exact (work_drawn n s).trans (work_afterFetch _ _)

theorem work_fillInstrLine {s : State} {ra : Word} (e : Bool) (h : iWay s ra = none) : StorageWork s (fillInstrLine ra e s) := by
  have hne : (fetchImages s ra false).map (fun m => instrFill m ra e) ≠ [] := by simp [fetchImages]
  obtain ⟨n, hn⟩ := pick_state none ((fetchImages s ra false).map (fun m => instrFill m ra e)) s
  have hmem := pick_mem none hne s
  unfold fillInstrLine
  split
  · rename_i v u hp
    rw [hp] at hn hmem
    obtain ⟨m, hm, hv⟩ := List.mem_map.mp hmem
    obtain ⟨k, rfl⟩ := fetchImages_mem hm
    have hc := (instrFill_eq_some hv).1
    rw [withoutWrites_params] at hc
    dsimp only at hn
    rw [hn]
    exact (work_drawn n s).trans (work_installInstrLine (s := drawn n s) hc h v)
  · rename_i u hp
    rw [hp] at hn
    dsimp only at hn
    rw [hn]
    exact work_drawn n s

/-! ### Reading ahead -/

theorem keeps_enqueue (ea : Word) (f : Fetched) (s : State) : Keeps s (enqueue ea f s) := keeps_pipe _ s

theorem keeps_prefetch (n : Nat) (ea : Word) (s : State) : Keeps s (prefetch n ea s) := by
  induction n generalizing ea s with
  | zero => exact .refl s
  | succ n ih =>
    rw [prefetch]
    split
    · exact ih _ _
    · split
      · exact .refl s
      · split
        · exact (((keeps_drawn 1 s).trans (work_readInstr _ _ _).keeps).trans (keeps_enqueue _ _ _)).trans (ih _ _)
        · exact keeps_drawn 1 s

theorem keeps_readAhead (ea : Word) (s : State) : Keeps s (readAhead ea s) :=
  (keeps_pipe _ s).trans (keeps_prefetch _ _ _)

/-- What an address finds in the instruction cache is a line of the word read at one of some addresses, as `ReadsAhead` puts it
(R184, R203). -/
def FilledFrom (s : State) (window : List Word) (a : Word) (found : Option Word) : Prop :=
  bit s.attr.ccr0 23 = false ∧ s.params.icacheSize.classes ≠ 0 ∧
    ∃ b ∈ window, ∃ y k, xlateFetch s b = some y ∧ execOk s y = true ∧ y.attrs.i = false ∧ lineOf y.ra = lineOf a ∧
      found = some (memWord (withoutWrites s a false k) (wordAligned a) y.attrs.e)

/-- The instruction cache of `t` is that of `s` but for lines displaced and lines read at some addresses. -/
structure LinesFrom (s t : State) (window : List Word) : Prop where
  ok    : icacheOk t = true
  lines : ∀ a, instrCopy t a = instrCopy s a ∨ instrCopy t a = none ∨ FilledFrom s window a (instrCopy t a)

/-- The reads that the fetcher may make do not depend on what it has read. -/
theorem FilledFrom.of_fetcherStep {s t : State} (h : FetcherStep s t) {window : List Word} {a : Word} {found : Option Word}
    (hf : FilledFrom t window a found) : FilledFrom s window a found := by
  obtain ⟨hw, hn, b, hb, y, k, hy, he, hi, hl, hv⟩ := hf
  rw [memWord_withoutWrites_congr (s := s) (by rw [h]) (by rw [h])] at hv
  rw [h] at hw hn hy he
  exact ⟨hw, hn, b, hb, y, k, hy, he, hi, hl, hv⟩

theorem LinesFrom.trans {s t u : State} {window : List Word} (h : LinesFrom s t window) (hs : FetcherStep s t)
    (g : LinesFrom t u window) : LinesFrom s u window := by
  refine ⟨g.ok, fun a => ?_⟩
  rcases g.lines a with e | e | e
  · rw [e]
    exact h.lines a
  · exact .inr (.inl e)
  · exact .inr (.inr (e.of_fetcherStep hs))

theorem LinesFrom.refl {s : State} (h : icacheOk s = true) (window : List Word) : LinesFrom s s window := ⟨h, fun _ => .inl rfl⟩

/-- A line put in by a read at an address is a line of the word read there. -/
theorem linesFrom_afterFetch {s : State} (h : icacheOk s = true) {ea : Word} {window : List Word} (hea : ea ∈ window)
    {f : Fetch} (hf : f ∈ fetchUnder ea s) (n : Nat) : LinesFrom s (afterFetch f { s with free := n }) window := by
  have hd : icacheOk { s with free := n } = true := h
  refine ⟨(work_afterFetch f _).icache hd, fun a => ?_⟩
  rcases afterFetch_cases f { s with free := n } with e | ⟨w, hw, e⟩ | ⟨v, hc, hv, hw, hn, e⟩
  · exact .inl (by rw [e]; rfl)
  · exact .inl (by rw [e, instrCopy_touchInstrWay hd (iWay_get hw).1]; rfl)
  · obtain ⟨y, hy⟩ := cachable_of_mem_fetchUnder hf hc
    obtain ⟨hwoa, _, _, k, rfl⟩ := hy.filled v hv
    obtain ⟨hin, hout⟩ := instrCopy_installInstrLine hd hn hw (memLine (withoutWrites s y.ra false k) (lineOf y.ra) y.attrs.e) a
    rw [← e, hy.place] at hin hout
    by_cases hl : lineOf a = lineOf y.ra
    · refine .inr (.inr ⟨hwoa, hn, ea, hea, y, k, hy.xlate, hy.exec, hy.inhib, hl.symm, ?_⟩)
      rw [hin hl, lineWord_memLine hl, withoutWrites_line hl]
    · exact (hout hl).imp id .inl

/-- Where the fetcher takes the machine as it is, what it may read ahead under is that or nothing. -/
theorem aheadViews_nil {s : State} (h : s.pipe.contexts = []) (ea : Word) :
    aheadViews ea s = if mayReadAhead ea s then [s] else [] := by
  simp [aheadViews, fetchViews_nil h, List.filter_singleton]

theorem fetchUnder_ne_nil (ea : Word) (s : State) : fetchUnder ea s ≠ [] := by
  unfold fetchUnder fetchWords fetchImages
  grind

/-- A word read ahead is put in the queue, and its line comes from the read. -/
theorem linesFrom_readInstr {s : State} (h : icacheOk s = true) {ea : Word} {window : List Word} (hea : ea ∈ window) :
    LinesFrom s (readInstr [s] ea (drawn 1 s)).2 window := by
  have hne : [s].flatMap (fetchUnder ea) ≠ [] := by simpa using fetchUnder_ne_nil ea s
  obtain ⟨f, hf, n, e⟩ := readInstr_mem (s := drawn 1 s) hne
  rw [e]
  exact linesFrom_afterFetch h hea (by simpa using hf) _

theorem linesFrom_prefetch {s : State} (hc : s.pipe.contexts = []) (hi : icacheOk s = true) (window : List Word) (n : Nat)
    (ea : Word) (hw : ∀ j < n, ea + BitVec.ofNat 32 (4 * j) ∈ window) : LinesFrom s (prefetch n ea s) window := by
  induction n generalizing ea s with
  | zero => exact .refl hi window
  | succ n ih =>
    have hea : ea ∈ window := by simpa using hw 0 (by omega)
    have hnext : ∀ j < n, ea + 4#32 + BitVec.ofNat 32 (4 * j) ∈ window := by
      intro j hj
      have h := hw (j + 1) (by omega)
      rwa [Nat.mul_add, Nat.add_comm, BitVec.ofNat_add, ← BitVec.add_assoc] at h
    rw [prefetch]
    split
    · exact ih hc hi _ hnext
    · split
      · exact .refl hi window
      · rename_i hv
        have hview : aheadViews ea s = [s] := by
          rw [aheadViews_nil hc] at hv ⊢
          split at hv
          · rename_i hm
            rw [if_pos hm]
          · simp at hv
        split
        · have hr := readInstr_step [s] ea (drawn 1 s)
          have hl := linesFrom_readInstr hi hea
          rw [hview]
          generalize readInstr [s] ea (drawn 1 s) = r at hr hl
          have hq : LinesFrom s (enqueue ea r.1 r.2) window := ⟨hl.ok, hl.lines⟩
          have hs : FetcherStep s (enqueue ea r.1 r.2) := by
            refine .trans (t := drawn 1 s) rfl (hr.trans rfl)
          exact hq.trans hs (ih (by rw [hs]; exact hc) hq.ok _ hnext)
        · exact ⟨hi, fun _ => .inl rfl⟩

/-- The prefetch queue cut down to the words of an address and the two after it. -/
def inWindow (ea : Word) (s : State) : State :=
  { s with pipe := { s.pipe with queue := s.pipe.queue.filter fun q => [ea, ea + 4#32, ea + 8#32].contains q.1 } }

theorem window_mem (ea : Word) : ∀ j < 3, ea + BitVec.ofNat 32 (4 * j) ∈ [ea, ea + 4#32, ea + 8#32] := by
  intro j hj
  interval_cases j <;> simp

theorem linesFrom_readAhead {s : State} (hc : s.pipe.contexts = []) (hi : icacheOk s = true) (ea : Word) :
    LinesFrom s (readAhead ea s) [ea, ea + 4#32, ea + 8#32] :=
  .trans (t := inWindow ea s) ⟨hi, fun _ => .inl rfl⟩ rfl (linesFrom_prefetch (s := inWindow ea s) hc hi _ 3 ea (window_mem ea))

theorem regionBit_eq (r ea : Word) : regionBit r ea = bit r (ea.toNat / 2 ^ 27) := by
  have h : (field ea 0 5).toNat = ea.toNat / 2 ^ 27 := by
    simp only [field, BitVec.extractLsb'_toNat, Nat.shiftRight_eq_div_pow]
    have := ea.isLt
    omega
  rw [regionBit, h]

/-- From guarded storage in real mode nothing is read ahead (R176). -/
theorem aheadViews_guarded {s : State} (hc : s.pipe.contexts = []) (hir : bit s.msr 26 = false) {ea : Word}
    (hg : bit s.attr.sgr (ea.toNat / 2 ^ 27) = true) : aheadViews ea s = [] := by
  have hx : xlateFetch s ea = some (xlateReal s s.attr.iccr ea) := by simp [xlateFetch, xlate, msrIR, hir]
  have hr : regionBit s.attr.sgr ea = true := (regionBit_eq _ _).trans hg
  rw [aheadViews_nil hc, if_neg (by simp [mayReadAhead, hx, xlateReal, hr])]

/-- READING AHEAD, as the statements put it: with no earlier fetch state left, the fetcher changes the queue, the instruction cache
and the counter of free values alone, and each line there is an old one or one that it has read (R176, R184, R204). -/
theorem readsAhead_readAhead {s : State} (hc : s.pipe.contexts = []) (hi : icacheOk s = true) (ea : Word) :
    ReadsAhead s (readAhead ea s) ea := by
  refine ⟨readAhead_step ea s, readAhead_queue ea s, (linesFrom_readAhead hc hi ea).lines, fun hir hg => ?_⟩
  have hp : readAhead ea s = inWindow ea s := prefetch_guarded 3 ea (inWindow ea s) fun j hj =>
    aheadViews_guarded (s := inWindow ea s) hc hir (hg _ (window_mem ea j hj))
  rw [hp]
  rfl

end Sys2Proof.Machine
end

section
/-! SUPPORT. Every instruction, every input and every step keep the invariant and the parameters, and the reservation but for the
instructions that are there to change it and the resets. -/

namespace Sys2Proof.Machine

/-! ### Arithmetic, branches, cache operations, barriers -/

theorem keeps_sumTo (rt : Reg) (a b : Word) (c ca oe rc : Bool) (s : State) : Keeps s (sumTo rt a b c ca oe rc s) :=
  keeps_deliver _ _ _ _ _ _ s

theorem keeps_accumulateSigned (rt : Reg) (prod : Word) (saturate oe rc : Bool) (s : State) :
    Keeps s (accumulateSigned rt prod saturate oe rc s) := by
  unfold accumulateSigned
  exact keeps_deliver _ _ _ _ _ _ s

theorem keeps_accumulateUnsigned (rt : Reg) (prod : Word) (saturate oe rc : Bool) (s : State) :
    Keeps s (accumulateUnsigned rt prod saturate oe rc s) := by
  unfold accumulateUnsigned
  exact keeps_deliver _ _ _ _ _ _ s

theorem keeps_divideUndefined (rt : Reg) (oe rc : Bool) (s : State) : Keeps s (divideUndefined rt oe rc s) :=
  (((keeps_setGpr _ _ s).trans (keeps_setOv oe true _)).trans (keeps_recordCr0Free rc _ _)).trans (keeps_drawn 2 _)

theorem branchBits_clear (s : State) : branchBits s &&& 0x0003FCFF#32 = 0#32 := ite_clear _ (by decide) (by decide)

theorem keeps_branchTo {taken : Bool} {target : Word} (h : aligned target = true) (ctr : Word) (lk : Bool) (s : State) :
    Keeps s (branchTo taken target ctr lk s) := by
  refine keeps_beforeEvent (ite_clear _ (branchBits_clear s) (by decide)) fun u _ => ?_
  have hl := keeps_links ctr (if lk then u.pc + 4#32 else u.lr) u
  refine Keeps.complete ?_ u (fun hi => ?_) (by decide)
  · exact .ite (hl.trans (keeps_pipe _ _)) hl
  · cases taken
    · exact inv_aligned_next hi
    · exact h

theorem keeps_branchCtrFree (lk : Bool) (s : State) : Keeps s (branchCtrFree lk s) :=
  ((keeps_links _ _ s).trans (keeps_drawn 2 _)).complete s (fun _ => aligned_wordAligned _) (by decide)

theorem keeps_afterCheck {store : Bool} {ea : Word} {r : Except DataFault Xlate} {k : Xlate → State → State} {s : State}
    (h : ∀ x, Keeps s (k x s)) : Keeps s (afterCheck store ea r k s) := by
  cases r with
  | error f => exact keeps_dataInterrupt store ea f s
  | ok x => exact h x

theorem dacBit_clear (s : State) (store two : Bool) : dacBit s store two &&& 0x0003FCFF#32 = 0#32 := by
  cases store <;> cases two <;> exact ite_clear _ (by decide) (by decide)

theorem cacheDacBits_clear (s : State) (store : Bool) (ea : Word) : cacheDacBits s store ea &&& 0x0003FCFF#32 = 0#32 :=
  or_clear (ite_clear _ (dacBit_clear _ _ _) (by decide)) (ite_clear _ (dacBit_clear _ _ _) (by decide))

theorem dacBits_clear (s : State) (store : Bool) (eas : List Word) : dacBits s store eas &&& 0x0003FCFF#32 = 0#32 :=
  or_clear (ite_clear _ (dacBit_clear _ _ _) (by decide)) (ite_clear _ (dacBit_clear _ _ _) (by decide))

theorem dvcBits_clear (s : State) (store : Bool) (us : List (Word × List Byte)) :
    dvcBits s store us &&& 0x0003FCFF#32 = 0#32 :=
  or_clear (ite_clear _ (dacBit_clear _ _ _) (by decide)) (ite_clear _ (dacBit_clear _ _ _) (by decide))

theorem keeps_cacheStep {events : Word} {x31 : Bool} {op : State → State} {s : State} (h : events &&& 0x0003FCFF#32 = 0#32)
    (ho : ∀ u, u.params = s.params → Keeps u (op u)) : Keeps s (cacheStep events x31 op s) := by
  refine keeps_beforeEvent h fun u hu => ?_
  have hb := (work_busTurn u).keeps
  exact ((hb.trans (ho _ (hb.params.trans hu))).trans (keeps_undefinedCr0 x31 _)).advance

theorem keeps_touchLine (x : Xlate) (s : State) : Keeps s (touchLine x s) := by
  unfold touchLine
  split
  · exact .refl s
  · rename_i hc
    simp only [Bool.or_eq_true, beq_iff_eq, Option.isSome_iff_ne_none, not_or, not_not] at hc
    exact (work_fillLine hc.1.2 hc.2).keeps

theorem keeps_touchData (ea : Word) (x31 : Bool) (s : State) : Keeps s (touchData ea x31 s) := by
  unfold touchData
  split
  · exact keeps_cacheStep (cacheDacBits_clear _ _ _) fun u _ => keeps_touchLine _ u
  · exact (keeps_undefinedCr0 x31 s).advance

theorem keeps_allocateLine (x : Xlate) (s : State) : Keeps s (allocateLine x s) := by
  unfold allocateLine
  split
  · exact .refl s
  · rename_i hc
    simp only [Bool.or_eq_true, beq_iff_eq, Option.isSome_iff_ne_none, not_or, not_not] at hc
    exact .ite ((work_drawn 33 s).trans (work_installLine (s := drawn 33 s) hc.1.2 hc.2 _ _)).keeps (keeps_drawn 1 s)

theorem keeps_allocateData (ea : Word) (x31 : Bool) (s : State) : Keeps s (allocateData ea x31 s) := by
  unfold allocateData
  split
  · exact keeps_cacheStep (cacheDacBits_clear _ _ _) fun u _ => keeps_allocateLine _ u
  · exact (keeps_undefinedCr0 x31 s).advance

theorem keeps_zeroLine (ea : Word) (x31 : Bool) (x : Xlate) (s : State) : Keeps s (zeroLine ea x31 x s) := by
  unfold zeroLine
  split
  · exact keeps_alignmentInterrupt ea s
  · rename_i hc
    simp only [Bool.or_eq_true, beq_iff_eq, not_or] at hc
    refine keeps_cacheStep (cacheDacBits_clear _ _ _) fun u hu => ?_
    have hb := work_dropBuffer x.ra u
    exact (hb.trans (work_establishLine x.ra (by rw [hb.params, hu]; exact hc.2) _)).keeps

theorem keeps_readDataArray (rt : Reg) (ra : Word) (s : State) : Keeps s (readDataArray rt ra s) := by
  unfold readDataArray
  split
  · exact keeps_freeGpr rt s
  · exact keeps_setGpr _ _ s

theorem keeps_readData (rt : Reg) (ea : Word) (x31 : Bool) (x : Xlate) (s : State) : Keeps s (readData rt ea x31 x s) := by
  unfold readData
  split
  · exact keeps_alignmentInterrupt ea s
  · exact keeps_cacheStep (by decide) fun u _ => keeps_readDataArray _ _ u

theorem keeps_touchInstr (ea : Word) (x31 : Bool) (s : State) : Keeps s (touchInstr ea x31 s) := by
  unfold touchInstr
  split
  · rename_i x _
    refine keeps_cacheStep (cacheDacBits_clear _ _ _) fun u _ => ?_
    split
    · exact .refl u
    · rename_i hc
      simp only [Bool.or_eq_true, Option.isSome_iff_ne_none, not_or, not_not] at hc
      exact (work_fillInstrLine _ hc.2).keeps
  · exact (keeps_undefinedCr0 x31 s).advance

theorem keeps_readInstrArray (ra : Word) (s : State) : Keeps s (readInstrArray ra s) := by
  unfold readInstrArray
  split
  · exact (keeps_icdbdr _ _ s).trans (keeps_drawn 1 _)
  · exact keeps_icdbdr _ _ s

theorem keeps_storageBarrier (s : State) : Keeps s (storageBarrier s) :=
  ((work_clearBuffer s).trans (work_allPerformed _)).keeps

theorem keeps_contextBarrier (s : State) : Keeps s (contextBarrier s) :=
  ((keeps_pipe Pipe.empty s).trans (work_settleStores _).keeps).trans (keeps_icdbdrOpen false _)

/-! ### Loads and stores -/

/-- A load either goes no further than an event or a fault, or writes its registers after its accesses and completes. -/
theorem loadBytes_cases (ea : Word) (n : Nat) {part : List (Byte × Bool) → State → State}
    (done : List (Byte × Bool) → State → State) (s : State) (hp : ∀ bs u, Keeps u (part bs u)) :
    Keeps s (loadBytes ea n part done s) ∨
      ∃ u v bs k dvc, Keeps s u ∧ Keeps u v ∧ dvc &&& 0x0003FCFF#32 = 0#32 ∧
        loadBytes ea n part done s = complete u (u.pc + 4#32) dvc (drawn k (done bs v)) := by
  unfold loadBytes
  split
  · refine .inl (keeps_beforeEvent (dacBits_clear _ _ _) fun u _ => ?_)
    unfold faultedLoad
    split
    · exact keeps_dataInterrupt _ _ _ u
    · exact (((keeps_drawn 1 u).trans (work_loadUnits _ _).keeps).trans (hp _ _)).trans (keeps_dataInterrupt _ _ _ _)
  · refine (beforeEvent_cases (dacBits_clear _ _ _)).imp id fun ⟨u, hu, e⟩ => ?_
    exact ⟨u, _, _, _, _, hu, (work_loadUnits _ u).keeps, dvcBits_clear _ _ _, e⟩

theorem keeps_loadBytes (ea : Word) (n : Nat) {part done : List (Byte × Bool) → State → State} (s : State)
    (hp : ∀ bs u, Keeps u (part bs u)) (hd : ∀ bs u, Keeps u (done bs u)) : Keeps s (loadBytes ea n part done s) := by
  rcases loadBytes_cases ea n done s hp with h | ⟨u, v, bs, k, dvc, hu, hv, hc, e⟩
  · exact h
  · rw [e]
    exact hu.trans (((hv.trans (hd bs v)).trans (keeps_drawn k _)).complete u inv_aligned_next hc)

/-- A store either goes no further than an event or a fault, or writes its registers after its accesses and completes. -/
theorem storeBytes_cases (ea : Word) (n : Nat) (bytes : List Bool → List Byte) (done : State → State) (s : State) :
    Keeps s (storeBytes ea n bytes done s) ∨
      ∃ u v k dvc, Keeps s u ∧ Keeps u v ∧ dvc &&& 0x0003FCFF#32 = 0#32 ∧
        storeBytes ea n bytes done s = complete u (u.pc + 4#32) dvc (drawn k (done v)) := by
  unfold storeBytes
  split
  · refine .inl (keeps_beforeEvent (dacBits_clear _ _ _) fun u _ => ?_)
    unfold faultedStore
    split
    · exact keeps_dataInterrupt _ _ _ u
    · exact ((keeps_drawn 1 u).trans (work_storeUnits _ _ _).keeps).trans (keeps_dataInterrupt _ _ _ _)
  · refine (beforeEvent_cases (dacBits_clear _ _ _)).imp id fun ⟨u, hu, e⟩ => ?_
    exact ⟨u, _, _, _, hu, (work_storeUnits _ _ u).keeps, dvcBits_clear _ _ _, e⟩

theorem keeps_storeBytes (ea : Word) (n : Nat) (bytes : List Bool → List Byte) {done : State → State} (s : State)
    (hd : ∀ u, Keeps u (done u)) : Keeps s (storeBytes ea n bytes done s) := by
  rcases storeBytes_cases ea n bytes done s with h | ⟨u, v, k, dvc, hu, hv, hc, e⟩
  · exact h
  · rw [e]
    exact hu.trans (((hv.trans (hd v)).trans (keeps_drawn k _)).complete u inv_aligned_next hc)

theorem keeps_loadScalar (rt : Reg) (ea : Word) (n : Nat) (f : LoadForm) (x31 : Bool) (s : State) :
    Keeps s (loadScalar rt ea n f x31 s) :=
  keeps_loadBytes ea n s (fun _ u => .refl u) fun _ u => (keeps_setGpr _ _ u).trans (keeps_undefinedCr0 x31 _)

theorem keeps_loadUpdateWrite (rt ra : Reg) (ea v : Word) (s : State) : Keeps s (loadUpdateWrite rt ra ea v s) := by
  unfold loadUpdateWrite
  split
  · exact (keeps_setGpr _ _ s).trans (keeps_drawn 1 _)
  · exact (keeps_setGpr _ _ s).trans (keeps_setGpr _ _ _)

theorem keeps_loadScalarUpdate (rt ra : Reg) (ea : Word) (n : Nat) (f : LoadForm) (x31 : Bool) (s : State) :
    Keeps s (loadScalarUpdate rt ra ea n f x31 s) :=
  keeps_loadBytes ea n s (fun _ u => .refl u) fun _ u =>
    (keeps_loadUpdateWrite _ _ _ _ u).trans (keeps_undefinedCr0 x31 _)

theorem keeps_loadWords (fuel r : Nat) (skip : Nat → Bool) (bs : List (Byte × Bool)) (s : State) :
    Keeps s (loadWords fuel r skip bs s) := by
  induction fuel generalizing r bs s with
  | zero => exact .refl s
  | succ fuel ih =>
    rw [loadWords]
    split
    · exact .refl s
    · exact (Keeps.ite (.refl s) (keeps_setGpr _ _ s)).trans (ih _ _ _)

theorem keeps_loadString (fuel : Nat) (r : Reg) (skip : Reg → Bool) (bs : List Byte) (s : State) :
    Keeps s (loadString fuel r skip bs s) := by
  induction fuel generalizing r bs s with
  | zero => exact .refl s
  | succ fuel ih =>
    rw [loadString]
    split
    · exact .refl s
    · exact (Keeps.ite (.refl s) (keeps_setGpr _ _ s)).trans (ih _ _ _)

theorem keeps_loadStringBytes (rt : Reg) (ea : Word) (n : Nat) (base : Reg → Bool) (x31 : Bool) (s : State) :
    Keeps s (loadStringBytes rt ea n base x31 s) :=
  keeps_loadBytes ea n s (fun _ u => keeps_loadString _ _ _ _ u) fun _ u =>
    (keeps_loadString _ _ _ _ u).trans (keeps_undefinedCr0 x31 _)

theorem keeps_loadNothing (ea : Word) (s : State) : Keeps s (loadNothing ea s) := by
  unfold loadNothing
  split
  · exact .ite (work_reportDataError s).keeps (.refl s)
  · exact .refl s

theorem keeps_storeScalar (ea : Word) (msb : List Byte) (x31 : Bool) (s : State) : Keeps s (storeScalar ea msb x31 s) :=
  keeps_storeBytes ea _ _ s fun u => keeps_undefinedCr0 x31 u

theorem keeps_storeScalarUpdate (ra : Reg) (ea : Word) (msb : List Byte) (x31 : Bool) (s : State) :
    Keeps s (storeScalarUpdate ra ea msb x31 s) :=
  keeps_storeBytes ea _ _ s fun u => (keeps_setGpr _ _ u).trans (keeps_undefinedCr0 x31 _)

/-- Relations of the other parts do not see the reservation. -/
theorem Keeps.withReserve {s t : State} (h : Keeps s t) (b : Bool) :
    Keeps { s with reserve := b } { t with reserve := b } := ⟨⟨h.params, h.inv⟩, rfl⟩

theorem keepsInv_of_reserved {s t : State} {b : Bool} (h : Keeps { s with reserve := b } t) : KeepsInv s t := ⟨h.params, h.inv⟩

/-- `lwarx` keeps the reservation or sets it (R103). -/
theorem loadReserve_cases (rt : Reg) (ea : Word) (x31 : Bool) (s : State) :
    Keeps s (loadReserve rt ea x31 s) ∨ Keeps { s with reserve := true } (loadReserve rt ea x31 s) := by
  unfold loadReserve
  split
  · exact .inl (keeps_dataInterrupt _ _ _ s)
  · split
    · exact .inl (keeps_alignmentInterrupt ea s)
    · refine (loadBytes_cases ea 4 _ s fun _ u => .refl u).imp id fun ⟨u, v, bs, k, dvc, hu, hv, hc, e⟩ => ?_
      rw [e]
      have hd := (keeps_setGpr rt (scalarOf bs) { v with reserve := true }).trans (keeps_undefinedCr0 x31 _)
      exact (hu.withReserve true).trans
        ((((hv.withReserve true).trans hd).trans (keeps_drawn k _)).complete u inv_aligned_next hc)

/-- `stwcx.` with the reservation keeps it or clears it (R103). -/
theorem storeConditional_cases (ea v : Word) (s : State) :
    Keeps s (storeConditional ea v s) ∨ Keeps { s with reserve := false } (storeConditional ea v s) := by
  unfold storeConditional
  split
  · exact .inl (keeps_dataInterrupt _ _ _ s)
  · split
    · exact .inl (keeps_alignmentInterrupt ea s)
    · refine (storeBytes_cases ea 4 _ _ s).imp id fun ⟨u, v, k, dvc, hu, hv, hc, e⟩ => ?_
      rw [e]
      exact (hu.withReserve false).trans
        ((((hv.withReserve false).trans (keeps_setCrField _ _ _)).trans (keeps_drawn k _)).complete u inv_aligned_next hc)

theorem keeps_storeRefused (ea : Word) (s : State) : Keeps s (storeRefused ea s) := by
  unfold storeRefused
  split
  · exact keeps_alignmentInterrupt ea s
  · exact (keeps_setCrField _ _ s).advance

/-! ### SPRs, the TLB and the MSR, traps -/

theorem keeps_tsr {bits : Word} {s : State} (h : bits &&& 0x03FFFFFF#32 = 0#32) : Keeps s (setTsrBits bits s) :=
  .of_registers rfl rfl rfl (·.aligned) (fun hz => { hz with tsr := or_clear hz.tsr h }) id

theorem keeps_writeTlb (n : BitVec 6) (w : Word) (ws : Bool) (s : State) : Keeps s (writeTlb n w ws s) :=
  .trans (t := setTlbEntry n (if ws then tlbSetLo (tlbEntry s n) w else tlbSetHi (tlbEntry s n) w s.mmu.pid) s)
    ⟨⟨rfl, id⟩, rfl⟩ (keeps_rememberContext s _)

theorem keeps_invalidateTlb (s : State) : Keeps s (invalidateTlb s) := ⟨⟨rfl, id⟩, rfl⟩

theorem setWidth_clear (t : BitVec 8) : t.setWidth 32 &&& 0xFFFFFF00#32 = 0#32 := by
  revert t
  decide

theorem keeps_readTlb (rt : Reg) (n : BitVec 6) (ws : Bool) (s : State) : Keeps s (readTlb rt n ws s) := by
  unfold readTlb
  split
  · exact keeps_setGpr _ _ s
  · refine Keeps.trans (t := { setGpr rt (tlbHi (tlbEntry s n)) s with mmu := { s.mmu with pid := (tlbEntry s n).tid.setWidth 32 } })
      ?_ (keeps_rememberContext s _)
    exact .of_registers rfl rfl rfl (·.aligned) (fun hz => { hz with pid := setWidth_clear _ }) id

theorem keeps_searchTlb (rt : Reg) (ea : Word) (rc : Bool) (s : State) : Keeps s (searchTlb rt ea rc s) := by
  unfold searchTlb
  split
  · rename_i i _ _
    have h := keeps_setGpr rt (BitVec.ofNat 32 i) s
    exact .ite (h.trans (keeps_setCrField _ _ _)) h
  · exact .ite ((keeps_freeGpr rt s).trans (keeps_setCrField _ _ _)) (keeps_freeGpr rt s)

theorem keeps_privilegedStep {x31 : Bool} {op : State → State} {s : State} (h : Keeps s (op s)) :
    Keeps s (privilegedStep x31 op s) :=
  keeps_privileged (h.trans (keeps_undefinedCr0 x31 _)).advance

theorem keeps_tlbStep {x31 : Bool} {op : State → State} {s : State} (h : Keeps s (op s)) : Keeps s (tlbStep x31 op s) :=
  .ite (keeps_privilegedStep h) (keeps_programInterrupt (by decide) s)

theorem keeps_returnFrom (a m : Word) (s : State) : Keeps s (returnFrom a m s) := by
  have h := ((keeps_pc (s := s) fun _ => aligned_wordAligned a).trans (keeps_pipe Pipe.empty _)).trans (keeps_setMsr m _)
  unfold returnFrom
  dsimp only
  split
  · exact h.trans (keeps_setRun _ _)
  · exact h

theorem returnFrom_pc (a m : Word) (s : State) : (returnFrom a m s).pc = wordAligned a := by
  unfold returnFrom
  dsimp only
  split <;> rfl

theorem keeps_returnStep (a m : Word) (x31 : Bool) (s : State) : Keeps s (returnStep a m x31 s) :=
  ((keeps_returnFrom a m s).trans (keeps_undefinedCr0 x31 _)).complete s
    (fun _ => by rw [returnFrom_pc]; exact aligned_wordAligned a) (by decide)

theorem keeps_systemCall (s : State) : Keeps s (systemCall s) := by
  have he : Keeps s (enter .noncritical 0x0C00#32 (s.pc + 4#32) s) := keeps_enter (by decide) _ _ s
  exact he.trans ((Keeps.refl _).debugEvent _ (or_clear (completionBits_clear s) (ite_clear _ (by decide) (by decide))) inv_aligned)

theorem keeps_trap (s : State) : Keeps s (trap s) := by
  unfold trap
  split
  · exact (Keeps.refl s).debugEvent s (by decide) inv_aligned
  · split
    · exact (keeps_recordEvent (by decide) s s).trans (keeps_programInterrupt (by decide) _)
    · exact keeps_programInterrupt (by decide) s

theorem keeps_moveFromDcr (rt : Reg) (n : BitVec 10) (s : State) : Keeps s (moveFromDcr rt n s) := by
  unfold moveFromDcr
  split
  · exact (keeps_setGpr _ _ s).trans (keeps_dcr _ _)
  · exact keeps_freeGpr rt s

theorem keeps_moveToDcr (n : BitVec 10) (v : Word) (s : State) : Keeps s (moveToDcr n v s) := by
  unfold moveToDcr
  split
  · exact keeps_dcr _ s
  · exact .refl s

theorem keeps_moveFromSpr (rt : Reg) (n : BitVec 10) (s : State) : Keeps s (moveFromSpr rt n s) := by
  unfold moveFromSpr
  split
  · exact keeps_setGpr _ _ s
  · exact keeps_freeGpr rt s

/-! ### Resets (R112, R114, R760) -/

theorem freeLineNumber_mod {c n : Nat} (hc : c < n) (hn : n ∣ 2 ^ 27) (w : Word) : (freeLineNumber n c w).toNat % n = c := by
  rw [freeLineNumber, BitVec.toNat_ofNat, Nat.mod_mod_of_dvd _ hn, Nat.mul_comm, Nat.mul_add_mod, Nat.mod_eq_of_lt hc]

theorem classes_dvd (c : CacheSize) (h : c.classes ≠ 0) : c.classes ∣ 2 ^ 27 := by
  cases c
  · exact absurd rfl h
  all_goals decide

theorem freeDSet_ok {n c : Nat} (hc : c < n) (hn : n ∣ 2 ^ 27) (r : Nat → Word) : (freeDSet n r c).ok n c = true := by
  have hl := freeLineNumber_mod hc hn
  simp only [DSet.ok, freeDSet, freeDLine, hl, beq_self_eq_true, Bool.or_true, Bool.true_and]
  grind

theorem freeISet_ok {n c : Nat} (hc : c < n) (hn : n ∣ 2 ^ 27) (r : Nat → Word) : (freeISet n r c).ok n c = true := by
  have hl := freeLineNumber_mod hc hn
  simp only [ISet.ok, freeISet, freeILine, hl, beq_self_eq_true, Bool.or_true, Bool.true_and]
  grind

/-- A map filled key by key is in canonical form, and its entries are what was written. -/
theorem foldl_mapSet_ok {α : Type} [DecidableEq α] {d : α} {p : Nat × α → Bool} {f : Nat → α} (ks : List Nat)
    (hf : ∀ k ∈ ks, p (k, f k) = true) {m : List (Nat × α)} (hw : mapWf d m = true) (hm : m.all p = true) :
    mapWf d (ks.foldl (fun m k => mapSet d m k (f k)) m) = true ∧
      (ks.foldl (fun m k => mapSet d m k (f k)) m).all p = true := by
  induction ks generalizing m with
  | nil => exact ⟨hw, hm⟩
  | cons k ks ih =>
    exact ih (fun j hj => hf j (List.mem_cons_of_mem _ hj)) (mapWf_mapSet _ _ hw)
      (all_mapSet hm fun _ => hf k List.mem_cons_self)

theorem dcacheOk_coreReset (kind : ResetKind) (wrs : Word) (s : State) : dcacheOk (coreReset kind wrs s) = true := by
  refine Bool.and_eq_true_iff.mpr (foldl_mapSet_ok (m := []) _ (fun k hk => ?_) rfl rfl)
  have hlt : k < s.params.dcacheSize.classes := List.mem_range.mp hk
  exact Bool.and_eq_true_iff.mpr ⟨decide_eq_true hlt, freeDSet_ok hlt (classes_dvd _ (Nat.ne_of_gt (Nat.zero_lt_of_lt hlt))) _⟩

theorem icacheOk_coreReset (kind : ResetKind) (wrs : Word) (s : State) : icacheOk (coreReset kind wrs s) = true := by
  refine Bool.and_eq_true_iff.mpr (foldl_mapSet_ok (m := []) _ (fun k hk => ?_) rfl rfl)
  have hlt : k < s.params.icacheSize.classes := List.mem_range.mp hk
  exact Bool.and_eq_true_iff.mpr ⟨decide_eq_true hlt, freeISet_ok hlt (classes_dvd _ (Nat.ne_of_gt (Nat.zero_lt_of_lt hlt))) _⟩

theorem reservedZero_coreReset (kind : ResetKind) {wrs : Word} (h : wrs &&& 0x03FFFFFF#32 = 0#32) (s : State) :
    ReservedZero (coreReset kind wrs s) where
  xer := and_clear _ (by decide)
  srr0 := and_clear _ (by decide)
  srr2 := and_clear _ (by decide)
  evpr := and_clear _ (by decide)
  esr := (by decide : 0#32 &&& 0x70337FFF#32 = 0#32)
  tsr := or_clear (and_clear _ (by decide)) h
  tcr := and_clear _ (by decide)
  pid := and_clear _ (by decide)
  ccr0 := (by decide : 0x00700000#32 &&& 0xFC0CF0EE#32 = 0#32)
  dbcr0 := and_clear _ (by decide)
  dbcr1 := (by decide : 0#32 &&& 0x003000FF#32 = 0#32)
  dbsr := or_clear (and_clear _ (by decide)) (by cases kind <;> decide)

/-- A reset keeps the invariant and the parameters: what it leaves undefined is drawn within them. -/
theorem keepsInv_coreReset (kind : ResetKind) (w : Word) (s : State) :
    KeepsInv s (coreReset kind (w &&& 0x30000000#32) s) := by
  refine ⟨rfl, fun hi => (inv_iff _).mpr ⟨(by decide : aligned 0xFFFFFFFC#32 = true), reservedZero_coreReset kind (and_clear _ (by decide)) s, ?_, ?_⟩⟩
  · have h : ∀ i < 32, bit 0#32 i = false := by decide
    simp [tiedOff, msrIR, msrDR, coreReset, resetRegisters, h]
  · exact ⟨((inv_iff s).mp hi).storage.mem, dcacheOk_coreReset _ _ _, icacheOk_coreReset _ _ _, Nat.zero_le _⟩

/-! ### Timers (R700 to R712) -/

/-- What keeps the invariant in any case, and the reservation unless it says that it reset the core. -/
def KeepsOrResets (s : State) (r : State × Bool) : Prop := KeepsInv s r.1 ∧ (r.2 = false → r.1.reserve = s.reserve)

theorem Keeps.orResets {s t : State} {b : Bool} (h : Keeps s t) : KeepsOrResets s (t, b) := ⟨h.toKeepsInv, fun _ => h.reserve⟩

theorem keepsOrResets_reset (kind : ResetKind) (w : Word) (s : State) :
    KeepsOrResets s (coreReset kind (w &&& 0x30000000#32) s, true) := ⟨keepsInv_coreReset kind w s, fun h => by cases h⟩

theorem KeepsOrResets.after {s t : State} {r : State × Bool} (h : Keeps s t) (g : KeepsOrResets t r) : KeepsOrResets s r :=
  ⟨h.toKeepsInv.trans g.1, fun hr => (g.2 hr).trans h.reserve⟩

/-- One after the other, with a flag that tells whether either reset the core. -/
theorem KeepsOrResets.andThen {s : State} {r q : State × Bool} (h : KeepsOrResets s r) (g : KeepsOrResets r.1 q) :
    KeepsOrResets s (q.1, r.2 || q.2) := by
  refine ⟨h.1.trans g.1, fun hr => ?_⟩
  obtain ⟨h1, h2⟩ := Bool.or_eq_false_iff.mp hr
  exact (g.2 h2).trans (h.2 h1)

theorem keeps_timeBase (u l : Word) (s : State) : Keeps s { s with tmr := { s.tmr with tbl := l, tbu := u } } :=
  ⟨⟨rfl, id⟩, rfl⟩

theorem keeps_pit (p r : Word) (s : State) : Keeps s { s with tmr := { s.tmr with pit := p, pitReload := r } } :=
  ⟨⟨rfl, id⟩, rfl⟩

theorem keepsOrResets_watchdogTimeout (s : State) : KeepsOrResets s (watchdogTimeout s) := by
  unfold watchdogTimeout
  split
  · exact (keeps_tsr (by decide)).orResets
  · split
    · exact (keeps_tsr (by decide)).orResets
    · split
      · exact keepsOrResets_reset _ _ s
      · exact (Keeps.refl s).orResets

theorem keepsOrResets_tblChanged (old new : Word) (s : State) : KeepsOrResets s (tblChanged old new s) := by
  have hf : Keeps s (fitStep old new s) := .ite (keeps_tsr (by decide)) (.refl s)
  unfold tblChanged
  dsimp only
  split
  · exact .after hf (keepsOrResets_watchdogTimeout _)
  · exact hf.orResets

theorem keeps_pitStep (s : State) : Keeps s (pitStep s) := by
  unfold pitStep
  split
  · exact .refl s
  · split
    · exact (keeps_pit _ _ s).trans (keeps_tsr (by decide))
    · exact keeps_pit _ _ s

theorem keepsOrResets_timerClock (s : State) : KeepsOrResets s (timerClock s) := by
  unfold timerClock
  split
  · exact (Keeps.refl s).orResets
  · exact .after ((keeps_timeBase _ _ s).trans (keeps_pitStep _)) (keepsOrResets_tblChanged _ _ _)

theorem keepsOrResets_timerClocks (n : Nat) (s : State) : KeepsOrResets s (timerClocks n s) := by
  induction n generalizing s with
  | zero => exact (Keeps.refl s).orResets
  | succ n ih => exact (keepsOrResets_timerClock s).andThen (ih _)

/-! ### Writes of special registers (R575) -/

/-- A write to registers other than the pc and the MSR: only their reserved bits have to be looked at. -/
theorem keepsOrResets_of_reserved {s t : State} (hz : ReservedZero s → ReservedZero t) (hp : t.params = s.params := by rfl)
    (hr : t.reserve = s.reserve := by rfl) (hs : t.sto = s.sto := by rfl) (hpc : t.pc = s.pc := by rfl)
    (hm : t.msr = s.msr := by rfl) : KeepsOrResets s (t, false) :=
  (Keeps.of_registers hp hr hs (fun h => hpc ▸ h.aligned) hz fun h => by
    simpa only [tiedOff, msrIR, msrDR, hm, hp] using h).orResets

theorem keepsOrResets_writeDbcr0 (v : Word) (s : State) : KeepsOrResets s (writeDbcr0 v s) := by
  unfold writeDbcr0
  split
  · exact keepsOrResets_reset _ _ s
  · exact keepsOrResets_of_reserved fun hz => { hz with dbcr0 := and_clear v (by decide) }

theorem keepsOrResets_writeSpr (r : Spr) (v : Word) (s : State) : KeepsOrResets s (writeSpr r v s) := by
  cases r
  case dbcr0 => exact keepsOrResets_writeDbcr0 v s
  case tblWrite => exact .after (keeps_timeBase s.tmr.tbu v s) (keepsOrResets_tblChanged _ _ _)
  case xer => exact keepsOrResets_of_reserved fun hz => { hz with xer := and_clear v (by decide) }
  case srr0 => exact keepsOrResets_of_reserved fun hz => { hz with srr0 := and_clear v (by decide) }
  case srr2 => exact keepsOrResets_of_reserved fun hz => { hz with srr2 := and_clear v (by decide) }
  case pid => exact keepsOrResets_of_reserved fun hz => { hz with pid := and_clear v (by decide) }
  case ccr0 => exact keepsOrResets_of_reserved fun hz => { hz with ccr0 := and_clear v (by decide) }
  case dbcr1 => exact keepsOrResets_of_reserved fun hz => { hz with dbcr1 := and_clear v (by decide) }
  case esr => exact keepsOrResets_of_reserved fun hz => { hz with esr := and_clear v (by decide) }
  case evpr => exact keepsOrResets_of_reserved fun hz => { hz with evpr := and_clear v (by decide) }
  case dbsr => exact keepsOrResets_of_reserved fun hz => { hz with dbsr := clear_and _ hz.dbsr }
  case tsr => exact keepsOrResets_of_reserved fun hz => { hz with tsr := clear_and _ hz.tsr }
  case tcr =>
    exact keepsOrResets_of_reserved fun hz =>
      { hz with tcr := or_clear (and_clear v (by decide)) (and_clear _ (by decide)) }
  all_goals exact Keeps.orResets ⟨⟨rfl, id⟩, rfl⟩

/-- A write of DBCR0 or of TBL may reset the core, no other (R702, R744). -/
theorem writeSpr_resets {r : Spr} (h1 : r ≠ .dbcr0) (h2 : r ≠ .tblWrite) (v : Word) (s : State) : (writeSpr r v s).2 = false := by
  cases r
  case dbcr0 => exact absurd rfl h1
  case tblWrite => exact absurd rfl h2
  all_goals rfl

/-- `mtspr` keeps the invariant; only numbers of DBCR0 and TBL can touch the reservation (R113). -/
theorem keeps_moveToSpr (n : BitVec 10) (v : Word) (s : State) :
    KeepsInv s (moveToSpr n v s) ∧
      (n ≠ 0x3F2#10 → n ≠ 0x11C#10 → (moveToSpr n v s).reserve = s.reserve) := by
  unfold moveToSpr
  cases hn : sprOf n with
  | none => exact ⟨(Keeps.refl s).advance.toKeepsInv, fun _ _ => (Keeps.refl s).advance.reserve⟩
  | some r =>
    obtain ⟨hinv, hres⟩ := keepsOrResets_writeSpr r v s
    dsimp only
    cases hw : (writeSpr r v s).2 with
    | true =>
      refine ⟨hinv, fun h1 h2 => ?_⟩
      have hf := writeSpr_resets (fun h => h1 ((sprOf_eq_some_iff rfl).mp (h ▸ hn)))
        (fun h => h2 ((sprOf_eq_some_iff rfl).mp (h ▸ hn))) v s
      rw [hf] at hw
      cases hw
    | false =>
      have hk : Keeps s (writeSpr r v s).1 := ⟨hinv, hres hw⟩
      have ha := (Keeps.ite (c := r.fetchSide = true) (hk.trans (keeps_rememberContext s _)) hk).advance
      exact ⟨ha.toKeepsInv, fun _ _ => ha.reserve⟩

end Sys2Proof.Machine
end

section
/-! SUPPORT. Every instruction, every input and every step keep the invariant and the parameters; the reservation is changed by the
instructions that are there to change it and by resets alone (R32, R44, R103, R130, R181, R191). -/

namespace Sys2Proof.Machine

/-! ### Instructions -/

/-- The instructions that may change the reservation: `lwarx`, `stwcx.`, and `mtspr` to DBCR0 and TBL, which may reset the core
(R103, R113). -/
def mayChangeReserve : Instr → Bool
  | .lwarx .. => true
  | .stwcxRc .. => true
  | .mtspr _ n => n == 0x3F2#10 || n == 0x11C#10
  | _ => false

/-- The instruction answers with a next state that keeps the invariant, and the reservation if the instruction is not one that may
change it. -/
def ExecKeeps (i : Instr) (s : State) : Prop :=
  ∃ t, exec i s = .next t ∧ KeepsInv s t ∧ (mayChangeReserve i = false → t.reserve = s.reserve)

theorem ExecKeeps.of_keeps {i : Instr} {s t : State} (h : exec i s = .next t) (k : Keeps s t) : ExecKeeps i s :=
  ⟨t, h, k.toKeepsInv, fun _ => k.reserve⟩

theorem ExecKeeps.of_ite {i : Instr} {s t u : State} {c : Prop} [Decidable c]
    (h : exec i s = if c then .next t else .next u) (kt : Keeps s t) (ku : Keeps s u) : ExecKeeps i s := by
  split at h
  · exact .of_keeps h kt
  · exact .of_keeps h ku

/-- EVERY INSTRUCTION keeps the invariant, group by group as the meanings share their operations. -/
theorem exec_keeps (i : Instr) (s : State) : ExecKeeps i s := by
  cases i
  -- loads and stores
  case lbz | lbzx | lha | lhax | lhz | lhzx | lwz | lwzx | lhbrx | lwbrx =>
    exact .of_keeps rfl (keeps_loadScalar _ _ _ _ _ s)
  case lbzu | lbzux | lhau | lhaux | lhzu | lhzux | lwzu | lwzux =>
    exact .of_keeps rfl (keeps_loadScalarUpdate _ _ _ _ _ _ s)
  case lmw => exact .of_keeps rfl (keeps_loadBytes _ _ s (fun _ u => keeps_loadWords _ _ _ _ u) fun _ u => keeps_loadWords _ _ _ _ u)
  case lswi => exact .of_keeps rfl (keeps_loadStringBytes _ _ _ _ _ s)
  case lswx =>
    exact .of_ite rfl ((keeps_loadNothing _ s).trans (keeps_undefinedCr0 _ _)).advance (keeps_loadStringBytes _ _ _ _ _ s)
  case stb | stbx | sth | sthx | stw | stwx | sthbrx | stwbrx => exact .of_keeps rfl (keeps_storeScalar _ _ _ s)
  case stbu | stbux | sthu | sthux | stwu | stwux => exact .of_keeps rfl (keeps_storeScalarUpdate _ _ _ _ s)
  case stmw => exact .of_keeps rfl (keeps_storeBytes _ _ _ s fun u => .refl u)
  case stswi => exact .of_keeps rfl (keeps_storeBytes _ _ _ s fun u => keeps_undefinedCr0 _ u)
  case stswx =>
    exact .of_ite rfl (keeps_undefinedCr0 _ s).advance (keeps_storeBytes _ _ _ s fun u => keeps_undefinedCr0 _ u)
  case lwarx =>
    refine ⟨_, rfl, ?_, fun h => by cases h⟩
    exact (loadReserve_cases _ _ _ s).elim (·.toKeepsInv) keepsInv_of_reserved
  case stwcxRc rs ra rb =>
    cases hr : s.reserve with
    | false => exact .of_keeps (show execStwcxRc rs ra rb s = _ from if_neg (by simp [hr])) (keeps_storeRefused _ s)
    | true =>
      refine ⟨_, show execStwcxRc rs ra rb s = _ from if_pos hr, ?_, fun h => by cases h⟩
      exact (storeConditional_cases _ _ s).elim (·.toKeepsInv) keepsInv_of_reserved
  -- results in registers
  case add | addc | adde | subf | subfc | subfe | addme | addze | subfme | subfze | addic | addicRc | subfic =>
    exact .of_keeps rfl (keeps_sumTo _ _ _ _ _ _ _ s).advance
  case neg | mullw | mulhw | mulhwu | mulchw | mulchwu | mulhhw | mulhhwu | mullhw | mullhwu =>
    exact .of_keeps rfl (keeps_deliver _ _ _ _ _ _ s).advance
  case macchw | macchws | machhw | machhws | maclhw | maclhws | nmacchw | nmacchws | nmachhw | nmachhws | nmaclhw | nmaclhws =>
    exact .of_keeps rfl (keeps_accumulateSigned _ _ _ _ _ s).advance
  case macchwu | macchwsu | machhwu | machhwsu | maclhwu | maclhwsu =>
    exact .of_keeps rfl (keeps_accumulateUnsigned _ _ _ _ _ s).advance
  case divw | divwu => exact .of_ite rfl (keeps_divideUndefined _ _ _ s).advance (keeps_deliver _ _ _ _ _ _ s).advance
  case addi | addis | mulli => exact .of_keeps rfl (keeps_setGpr _ _ s).advance
  case and | andc | eqv | nand | nor | or | orc | xor | cntlzw | extsb | extsh | andiRc | andisRc | ori | oris | xori | xoris |
      rlwimi | rlwinm | rlwnm | slw | srw =>
    exact .of_keeps rfl (keeps_deliverRa _ _ _ s).advance
  case sraw | srawi => exact .of_keeps rfl ((keeps_setCA _ s).trans (keeps_deliverRa _ _ _ _)).advance
  -- the CR
  case cmp | cmpl => exact .of_keeps rfl ((keeps_setCrField _ _ s).trans (keeps_undefinedCr0 _ _)).advance
  case cmpi | cmpli | mcrf => exact .of_keeps rfl (keeps_setCrField _ _ s).advance
  case crand | crandc | creqv | crnand | crnor | cror | crorc | crxor => exact .of_keeps rfl (keeps_setCrBit _ _ s).advance
  case mtcrf => exact .of_keeps rfl (keeps_cr _ s).advance
  case mcrxr bf x31 =>
    have hx := (keeps_setCrField bf (crBits (xerSO s) (bit s.xer 1) (xerCA s) false) s).trans
      (keeps_xer (v := s.xer &&& 0x1FFFFFFF#32) fun h => clear_and _ h)
    exact .of_keeps rfl (hx.trans (keeps_undefinedCr0 x31 _)).advance
  case mfcr => exact .of_keeps rfl ((keeps_setGpr _ _ s).trans (keeps_undefinedCr0 _ _)).advance
  -- branches, system call and traps
  case b | bc | bclr => exact .of_keeps rfl (keeps_branchTo (aligned_wordAligned _) _ _ s)
  case bcctr => exact .of_ite rfl (keeps_branchTo (aligned_wordAligned _) _ _ s) (keeps_branchCtrFree _ s)
  case sc => exact .of_keeps rfl (keeps_systemCall s)
  case tw => exact .of_ite rfl (keeps_trap s) (keeps_undefinedCr0 _ s).advance
  case twi => exact .of_ite rfl (keeps_trap s) (Keeps.refl s).advance
  -- cache control
  case dcba => exact .of_keeps rfl (keeps_allocateData _ _ s)
  case dcbf =>
    exact .of_keeps rfl (keeps_afterCheck fun _ => keeps_cacheStep (cacheDacBits_clear _ _ _) fun u _ =>
      ((work_cleanLine _ u).trans (work_dropLine _ _)).keeps)
  case dcbi =>
    exact .of_keeps rfl (keeps_privileged (keeps_afterCheck fun _ => keeps_cacheStep (cacheDacBits_clear _ _ _) fun u _ =>
      ((work_dropBuffer _ u).trans (work_dropLine _ _)).keeps))
  case dcbst =>
    exact .of_keeps rfl (keeps_afterCheck fun _ => keeps_cacheStep (cacheDacBits_clear _ _ _) fun u _ =>
      (work_cleanLine _ u).keeps)
  case dcbt | dcbtst => exact .of_keeps rfl (keeps_touchData _ _ s)
  case dcbz => exact .of_keeps rfl (keeps_afterCheck fun _ => keeps_zeroLine _ _ _ s)
  case dccci =>
    exact .of_keeps rfl (keeps_privileged (keeps_afterCheck fun _ => keeps_cacheStep (by decide) fun u _ =>
      ((work_dropBuffer _ u).trans (work_dropClass _ _)).keeps))
  case icbi =>
    exact .of_keeps rfl (keeps_afterCheck fun _ => keeps_cacheStep (cacheDacBits_clear _ _ _) fun u _ =>
      (work_dropInstrLine _ u).keeps)
  case icbt => exact .of_keeps rfl (keeps_privileged (keeps_touchInstr _ _ s))
  case iccci =>
    exact .of_keeps rfl (keeps_privileged (keeps_afterCheck fun _ => keeps_cacheStep (by decide) fun u _ =>
      (work_dropInstrCache u).keeps))
  case icread =>
    exact .of_keeps rfl (keeps_privileged (keeps_afterCheck fun _ => keeps_cacheStep (by decide) fun u _ =>
      keeps_readInstrArray _ u))
  case dcread => exact .of_keeps rfl (keeps_privileged (keeps_afterCheck fun _ => keeps_readData _ _ _ _ s))
  -- the MSR, interrupts and the TLB
  case mfmsr => exact .of_keeps rfl (keeps_privilegedStep (keeps_setGpr _ _ s))
  case mtmsr => exact .of_keeps rfl (keeps_privilegedStep ((keeps_setMsr _ s).trans (keeps_rememberContext s _)))
  case rfi | rfci => exact .of_keeps rfl (keeps_privileged (keeps_returnStep _ _ _ s))
  case wrtee | wrteei => exact .of_keeps rfl (keeps_privilegedStep (keeps_msr_bit _ s (by decide)))
  case tlbia => exact .of_keeps rfl (keeps_tlbStep (keeps_invalidateTlb s))
  case tlbre => exact .of_keeps rfl (keeps_tlbStep (keeps_readTlb _ _ _ s))
  case tlbsx => exact .of_keeps rfl (keeps_tlbStep (keeps_searchTlb _ _ _ s))
  case tlbsync => exact .of_keeps rfl (keeps_tlbStep (.refl s))
  case tlbwe => exact .of_keeps rfl (keeps_tlbStep (keeps_writeTlb _ _ _ s))
  -- barriers and moves
  case eieio | sync => exact .of_keeps rfl ((keeps_storageBarrier s).trans (keeps_undefinedCr0 _ _)).advance
  case isync => exact .of_keeps rfl ((keeps_contextBarrier s).trans (keeps_undefinedCr0 _ _)).advance
  case mfdcr => exact .of_keeps rfl (keeps_privileged (keeps_moveFromDcr _ _ s).advance)
  case mtdcr => exact .of_keeps rfl (keeps_privileged (keeps_moveToDcr _ _ s).advance)
  case mfspr => exact .of_ite rfl (keeps_programInterrupt (by decide) s) (keeps_moveFromSpr _ _ s).advance
  case mtspr rs n =>
    obtain ⟨hinv, hres⟩ := keeps_moveToSpr n (gpr s rs) s
    by_cases hp : (msrPR s && !userWritable n) = true
    · exact .of_keeps (show execMtspr rs n s = _ from if_pos hp) (keeps_programInterrupt (by decide) s)
    · refine ⟨_, show execMtspr rs n s = _ from if_neg hp, hinv, fun h => ?_⟩
      obtain ⟨h1, h2⟩ : n ≠ 0x3F2#10 ∧ n ≠ 0x11C#10 := by simpa [mayChangeReserve] using h
      exact hres h1 h2
  case mftb => exact .of_keeps rfl (Keeps.ite (keeps_setGpr _ _ s) (.ite (keeps_setGpr _ _ s) (keeps_freeGpr _ s))).advance

/-! ### Inputs, interrupts and the step -/

theorem keepsOrResets_applyInput (e : EnvInput) (s : State) : KeepsOrResets s (applyInput e s) := by
  cases e with
  | clocks n => exact keepsOrResets_timerClocks n s
  | criticalInput a => exact (keeps_inp _ s).orResets
  | externalInput a => exact (keeps_inp _ s).orResets
  | unconditionalEvent =>
    exact (Keeps.ite ((Keeps.refl s).debugEvent s (by decide) inv_aligned) (keeps_recordEvent (by decide) s s)).orResets
  | resetRequest kind => exact keepsOrResets_reset kind _ s
  | clearWaitEnable => exact (keeps_msr_bit false s (by decide)).orResets
  | debugHalt => exact (keeps_setRun _ s).orResets
  | debugRelease => exact (keeps_setRun _ s).orResets
  | busWrite bytes => exact (work_outsideBytes bytes s).keeps.orResets
  | busInside turns => exact (keeps_inp _ s).orResets
  | dcrChange n d => exact (keeps_dcr _ s).orResets
  | speculativeFetch ea => exact (work_readInstr _ _ s).keeps.orResets

theorem keepsOrResets_applyInputs (es : List EnvInput) (s : State) : KeepsOrResets s (applyInputs es s) := by
  induction es generalizing s with
  | nil => exact (Keeps.refl s).orResets
  | cons e es ih => exact (keepsOrResets_applyInput e s).andThen (ih _)

theorem keeps_asyncInterrupt {s t : State} (h : asyncInterrupt s = some t) : Keeps s t := by
  unfold asyncInterrupt at h
  split_ifs at h <;> cases h
  · exact (keeps_inp _ s).trans (keeps_takeInterrupt (by decide) _ _ _)
  · exact keeps_enter (by decide) _ _ s
  all_goals exact keeps_takeInterrupt (by decide) _ _ s

/-- How a word is run: an instruction executed, or the program interrupt (R226, R240). -/
def RunsFrom (s : State) (o : Host.Outcome State Fault Refusal) : Prop :=
  ∀ t, o = .next t → Keeps s t ∨ ∃ i u, Keeps s u ∧ exec i u = .next t

theorem RunsFrom.after {s u : State} {o : Host.Outcome State Fault Refusal} (h : Keeps s u) (g : RunsFrom u o) :
    RunsFrom s o := fun t ht => (g t ht).imp h.trans fun ⟨i, v, hv, he⟩ => ⟨i, v, h.trans hv, he⟩

theorem runsFrom_next {s t : State} (h : Keeps s t) : RunsFrom s (.next t) := fun u hu => by
  cases hu
  exact .inl h

theorem runsFrom_runWord (w : Word) (s : State) : RunsFrom s (runWord w s) := by
  unfold runWord
  split
  · exact fun t ht => .inr ⟨_, s, .refl s, ht⟩
  · exact runsFrom_next (keeps_programInterrupt (by decide) s)

theorem runsFrom_runFetched (w : Word) (err : Bool) (s : State) : RunsFrom s (runFetched w err s) := by
  unfold runFetched
  split
  · split
    · have he : Keeps s (setEsr esrMCI s) := keeps_esr fun _ => by decide
      exact runsFrom_next (he.trans (keeps_takeInterrupt (by decide) _ _ _))
    · have he : Keeps s (setEsr (s.exc.esr ||| esrMCI) s) := keeps_esr fun h => or_clear h (by decide)
      exact .after ((he.trans (keeps_drawn 1 _)).trans (keeps_readAhead _ _)) (runsFrom_runWord _ _)
  · exact .after (keeps_readAhead _ s) (runsFrom_runWord _ _)

theorem keeps_fetchRefused (zone : Bool) (s : State) : Keeps s (fetchRefused zone s) := by
  have hz (h : s.exc.esr &&& 0x70337FFF#32 = 0#32) :
      ((s.exc.esr &&& esrMCI) ||| (if zone then esrDIZ else 0#32)) &&& 0x70337FFF#32 = 0#32 :=
    or_clear (clear_and _ h) (ite_clear _ (by decide) (by decide))
  exact (keeps_esr hz).trans (keeps_takeInterrupt (by decide) _ _ _)

theorem keeps_fetchAtPc (s : State) : Keeps s (fetchAtPc s).2 := by
  unfold fetchAtPc
  split
  · exact .refl s
  · exact (work_readInstr _ _ s).keeps

theorem runsFrom_runAtPc (s : State) : RunsFrom s (runAtPc s) := by
  refine .after (keeps_fetchAtPc s) ?_
  unfold runAtPc runFetch
  split
  · exact runsFrom_next (keeps_takeInterrupt (by decide) _ _ _)
  · exact runsFrom_next (keeps_fetchRefused _ _)
  · exact runsFrom_runFetched _ _ _

theorem keeps_toggleRanges (e : IacEvents) (s : State) : Keeps s (toggleRanges e s) := by
  have ht : ((if e.toggle12 then weight 11 else 0#32) ||| (if e.toggle34 then weight 15 else 0#32)) &&& 0x00003FFE#32 = 0#32 :=
    or_clear (ite_clear _ (by decide) (by decide)) (ite_clear _ (by decide) (by decide))
  exact .of_registers rfl rfl rfl (·.aligned) (fun hz => { hz with dbcr0 := xor_clear hz.dbcr0 ht }) id

theorem iacBits_clear (s : State) : iacBits s &&& 0x0003FCFF#32 = 0#32 := by
  have hb (b : Bool) {w : Word} (h : w &&& 0x0003FCFF#32 = 0#32) : eventBit b w &&& 0x0003FCFF#32 = 0#32 :=
    ite_clear b h (by decide)
  exact or_clear (or_clear (or_clear (hb _ (by decide)) (hb _ (by decide))) (hb _ (by decide))) (hb _ (by decide))

theorem runsFrom_runInstruction (s : State) : RunsFrom s (runInstruction s) := by
  have hne : (fetchViews s).map iacEvents ≠ [] := by simp [fetchViews]
  obtain ⟨n, hn⟩ := pick_state (iacEvents s) ((fetchViews s).map iacEvents) s
  obtain ⟨v, _, hv⟩ := List.mem_map.mp (pick_mem (iacEvents s) hne s)
  unfold runInstruction
  generalize pick (iacEvents s) ((fetchViews s).map iacEvents) s = r at hn hv
  have hc : r.1.bits &&& 0x0003FCFF#32 = 0#32 := hv ▸ iacBits_clear v
  have hr : Keeps s r.2 := hn ▸ keeps_drawn n s
  have ht := hr.trans (keeps_toggleRanges r.1 r.2)
  dsimp only
  split
  · exact .after hr (runsFrom_runAtPc _)
  · split
    · exact runsFrom_next (ht.debugEvent _ hc inv_aligned)
    · exact .after (ht.trans (keeps_recordEvent hc _ _)) (runsFrom_runAtPc _)

theorem runsFrom_runCore (idle : Bool) (s : State) : RunsFrom s (runCore idle s) := by
  have hstop : RunsFrom s (if idle then .fault .debugStop else .next s) := by
    cases idle
    · exact runsFrom_next (.refl s)
    · exact fun t ht => by cases ht
  unfold runCore
  split
  · exact hstop
  · split
    · rename_i t ht
      exact runsFrom_next (keeps_asyncInterrupt ht)
    · split
      · exact hstop
      · split
        · exact runsFrom_next (.refl s)
        · exact runsFrom_runInstruction s

/-- THE STEP: an input resets the core, or all else keeps the invariant, the parameters and the reservation up to one instruction
executed (R611). -/
theorem step_cases {s t : State} (h : step s = .next t) :
    Keeps s t ∨ (∃ i u, Keeps s u ∧ exec i u = .next t) ∨
      ∃ es u, s.env.head? = some es ∧ Keeps s u ∧ applyInputs es u = (t, true) := by
  have hl := (work_busLeftOver s).keeps
  have henv : (busLeftOver s).env = s.env := by rw [(work_busLeftOver s).rest]
  unfold step runStep at h
  dsimp only at h
  rw [henv] at h
  split at h
  · exact (RunsFrom.after hl (runsFrom_runCore _ _) t h).imp id .inl
  · rename_i es rest he
    have hu := (hl.trans (keeps_readAhead (busLeftOver s).pc _)).trans (keeps_env rest _)
    have ha := keepsOrResets_applyInputs es { readAhead (busLeftOver s).pc (busLeftOver s) with env := rest }
    split at h
    · rename_i hr
      cases h
      exact .inr (.inr ⟨es, _, by rw [he]; rfl, hu, Prod.ext rfl hr⟩)
    · rename_i hr
      have hk := hu.trans ⟨ha.1, ha.2 (by simpa using hr)⟩
      exact (RunsFrom.after hk (runsFrom_runCore _ _) t h).imp id .inl

/-- Settles O11: a step is an instruction executed, inputs that reset the core, or work that keeps the invariant, and instructions and
inputs keep it too. -/
theorem stepKeepsInv : Obligations.StepKeepsInv := by
  intro s t hi h
  have hk : KeepsInv s t := by
    rcases step_cases h with hk | ⟨i, u, hu, he⟩ | ⟨es, u, _, hu, he⟩
    · exact hk.toKeepsInv
    · obtain ⟨v, hv, hk, _⟩ := exec_keeps i u
      cases hv.symm.trans he
      exact hu.toKeepsInv.trans hk
    · have hr := (keepsOrResets_applyInputs es u).1
      rw [he] at hr
      exact hu.toKeepsInv.trans hr
  exact ⟨hk.inv hi, hk.params⟩

end Sys2Proof.Machine
end

section
/-! SUPPORT. The statements about reset and the reservation (R103, R110 to R113). -/

namespace Sys2Proof.Machine

/-! ### Reset (R110 to R113) -/

/-- Settles O8: the values stand in `State.reset`. -/
theorem resetValues : Obligations.ResetValues := by
  refine ⟨rfl, rfl, rfl, rfl, rfl, rfl, rfl, rfl, rfl, rfl, ?_, ?_, ?_, ?_, ?_, ?_, rfl, ?_⟩ <;> decide

/-- Settles O10: every part of the invariant is evaluated on `State.reset`. -/
theorem resetInv : Obligations.ResetInv :=
  (inv_iff _).mpr ⟨by decide, (reservedZero_iff _).mp (by decide), by decide, by decide, by decide, by decide, by decide⟩

theorem moveToSpr_dbcr0_reset {v : Word} (h : field v 2 2 ≠ 0#2) (s : State) :
    ∃ kind : ResetKind, field (kind.code <<< 8) 22 2 = field v 2 2 ∧
      moveToSpr 0x3F2#10 v s = coreReset kind (keptWrs s) s := by
  obtain ⟨kind, hk, hc⟩ := resetKindOf_of_ne_zero h
  refine ⟨kind, hc, ?_⟩
  have hw : writeDbcr0 v s = (coreReset kind (keptWrs s) s, true) := by simp [writeDbcr0, hk]
  change (if (writeDbcr0 v s).2 = true then (writeDbcr0 v s).1 else _) = _
  rw [hw]
  rfl

/-- A bit that a mask takes out is 0. -/
theorem bit_and_mask {m : Word} {i : Nat} (h : bit m i = false) (w : Word) : bit (w &&& m) i = false := by
  rw [bit_and, h, Bool.and_false]

/-- Settles O9: the write runs `coreReset`, whose fields hold the values of R112 or are masked. -/
theorem softwareReset : Obligations.SoftwareReset := by
  intro s rs hp hr
  obtain ⟨kind, hcode, hm⟩ := moveToSpr_dbcr0_reset hr s
  have he := exec_mtspr (n := 0x3F2#10) (.inl hp) rs
  rw [hm] at he
  refine ⟨_, he, rfl, rfl, rfl, rfl, ?_, ?_, ?_, coreReset_wrs kind s.tmr.tsr s, ?_, ?_, rfl,
    (coreReset_mrr kind _ s).trans hcode, rfl, rfl, fun a => rfl⟩
  · exact bit_and_mask (m := 0xCF800000#32) (by decide) _
  · exact bit_and_mask (m := 0xCF800000#32) (by decide) _
  · exact bit_and_mask (m := 0xCF800000#32) (by decide) _
  · exact bit_and_mask (m := 0x4FFFC001#32) (by decide) _
  · change field (_ &&& 0x4FFFC001#32) 2 2 = 0#2
    rw [field_and, show field 0x4FFFC001#32 2 2 = 0#2 by decide, BitVec.and_zero]

/-! ### The reservation (R103) -/

/-- In a quiet state a load whose accesses pass their checks makes them, writes its registers and goes on. -/
theorem loadBytes_quiet {s : State} {ea : Word} {n : Nat} {part done : List (Byte × Bool) → State → State}
    (hq : quiet s = true) (hok : (checkUnits s false (units ea n)).2 = none) (hd : ∀ bs t, (done bs t).dbg = t.dbg) :
    ∃ bs t, loadBytes ea n part done s = { done bs t with pc := s.pc + 4#32 } := by
  generalize hus : checkUnits s false (units ea n) = r at hok
  obtain ⟨us, f⟩ := r
  dsimp only at hok
  subst hok
  have hq' : quiet (done (loadUnits us s).1 (loadUnits us s).2) = true := by
    rw [quiet_congr ((hd _ _).trans (work_loadUnits us s).dbg)]
    exact hq
  refine ⟨(loadUnits us s).1, (loadUnits us s).2, ?_⟩
  simp only [loadBytes, hus, dacBits_quiet hq, beforeEvent_zero, dvcBits_quiet hq', dvcDraw_quiet hq',
    complete_plain (quiet_dbIC hq)]
  rfl

theorem storeBytes_quiet {s : State} {ea : Word} {n : Nat} {bytes : List Bool → List Byte} {done : State → State}
    (hq : quiet s = true) (hok : (checkUnits s true (units ea n)).2 = none) (hd : ∀ t, (done t).dbg = t.dbg) :
    ∃ t, storeBytes ea n bytes done s = { done t with pc := s.pc + 4#32 } := by
  generalize hus : checkUnits s true (units ea n) = r at hok
  obtain ⟨us, f⟩ := r
  dsimp only at hok
  subst hok
  have hq' : quiet (done (storeUnits us (bytes (unitOrders us)) s)) = true := by
    rw [quiet_congr ((hd _).trans (work_storeUnits us _ s).dbg)]
    exact hq
  refine ⟨storeUnits us (bytes (unitOrders us)) s, ?_⟩
  simp only [storeBytes, hus, dacBits_quiet hq, beforeEvent_zero, dvcBits_quiet hq', dvcDraw_quiet hq',
    complete_plain (quiet_dbIC hq)]
  rfl

/-- An aligned word is one access. -/
theorem units_word {ea : Word} (h : ea.toNat % 4 = 0) : units ea 4 = [(ea, 4)] := by
  simp [units, splitUnits, h]

theorem lowBits_aligned {ea : Word} (h : ea.toNat % 4 = 0) : ea.extractLsb' 0 2 = 0#2 := by
  apply BitVec.eq_of_toNat_eq
  simpa using h

/-- An aligned word whose access passes its check is that access. -/
theorem checkUnits_word {s : State} {store : Bool} {ea : Word} (ha : ea.toNat % 4 = 0)
    (h : (checkUnits s store (units ea 4)).2 = none) :
    ∃ x, unitXlate s store ea = .ok x ∧ (checkUnits s store (units ea 4)).1 = [{ ea := ea, n := 4, x := x }] := by
  rw [units_word ha] at h ⊢
  cases hx : unitXlate s store ea with
  | error f => simp [checkUnits, hx] at h
  | ok x => exact ⟨x, rfl, by simp [checkUnits, hx]⟩

theorem execLwarx_aligned {s : State} (hq : quiet s = true) (rt ra rb : Reg) (x31 : Bool) (ha : (eaX s ra rb).toNat % 4 = 0)
    (h : (checkUnits s false (units (eaX s ra rb) 4)).2 = none) :
    ∃ t, exec (.lwarx rt ra rb x31) s = .next t ∧ t.reserve = true ∧ t.pc = s.pc + 4#32 := by
  obtain ⟨x, hx, -⟩ := checkUnits_word ha h
  have hx : loadXlate s (eaX s ra rb) = .ok x := hx
  refine ⟨loadReserve rt (eaX s ra rb) x31 s, rfl, ?_⟩
  simp only [loadReserve, hx, lowBits_aligned ha, ne_eq, not_true_eq_false, if_false]
  obtain ⟨bs, t, e⟩ := loadBytes_quiet (part := fun _ t => t)
    (done := fun bs t => undefinedCr0 x31 (setGpr rt (scalarOf bs) { t with reserve := true })) hq h (by simp)
  rw [e]
  exact ⟨by simp, rfl⟩

theorem execStwcxRc_refused {s : State} (hq : quiet s = true) (hr : s.reserve = false) (rs ra rb : Reg)
    (ha : (eaX s ra rb).toNat % 4 = 0) :
    ∃ t, exec (.stwcxRc rs ra rb) s = .next t ∧ t.reserve = false ∧ t.pc = s.pc + 4#32 ∧ t.sto = s.sto := by
  refine ⟨_, show execStwcxRc rs ra rb s = _ from if_neg (by simp [hr]), ?_⟩
  rw [storeRefused, lowBits_aligned ha, if_neg (by simp), advance_quiet hq]
  exact ⟨hr, rfl, rfl⟩

/-- The bytes that a word store gives to its one access. -/
theorem scalarBytes_word (msb : List Byte) (u : UnitAccess) (h : u.n = 4) :
    scalarBytes msb (unitOrders [u]) = if storeOrder [u] then msb.reverse else msb := by
  simp [scalarBytes, unitOrders, storeOrder, orderBytes, h, List.replicate_succ]
  rfl

/-- What `stwcx.` does once its word is stored: the reservation is cleared and CR0[EQ] set. -/
def reservationSpent (t : State) : State :=
  setCrField 0#3 (crBits false false true (xerSO t)) { t with reserve := false }

theorem storeConditional_aligned {s : State} {ea : Word} {x : Xlate} (v : Word) (ha : ea.toNat % 4 = 0)
    (hx : unitXlate s true ea = .ok x) :
    storeConditional ea v s = storeBytes ea 4 (scalarBytes (wordBytes v)) reservationSpent s := by
  have hx : storeXlate s ea = .ok x := hx
  simp only [storeConditional, hx, lowBits_aligned ha, ne_eq, not_true_eq_false, if_false]
  rfl

theorem execStwcxRc_stores {s : State} (hq : quiet s = true) (hr : s.reserve = true) (rs ra rb : Reg)
    (ha : (eaX s ra rb).toNat % 4 = 0) (h : (checkUnits s true (units (eaX s ra rb) 4)).2 = none) :
    ∃ t, exec (.stwcxRc rs ra rb) s = .next t ∧ t.reserve = false ∧ t.pc = s.pc + 4#32 ∧
      (Cached s → plain s (checkUnits s true (units (eaX s ra rb) 4)).1 = true →
        ∀ a, dataByte t a = storeUnitsView (dataByte s) (checkUnits s true (units (eaX s ra rb) 4)).1
          (if storeOrder (checkUnits s true (units (eaX s ra rb) 4)).1 then (wordBytes (gpr s rs)).reverse
            else wordBytes (gpr s rs)) a) := by
  obtain ⟨x, hx, hus⟩ := checkUnits_word ha h
  have hbytes := hus ▸ scalarBytes_word (wordBytes (gpr s rs)) { ea := eaX s ra rb, n := 4, x := x } rfl
  obtain ⟨t, e⟩ := storeBytes_quiet (bytes := scalarBytes (wordBytes (gpr s rs))) (done := reservationSpent) hq h fun _ => rfl
  refine ⟨_, show execStwcxRc rs ra rb s = _ from if_pos hr, ?_⟩
  rw [storeConditional_aligned _ ha hx, ← hbytes]
  refine ⟨by rw [e]; rfl, by rw [e], fun hc hp a => ?_⟩
  obtain ⟨u, e', -, -, hview, -⟩ :=
    storeBytes_spec (eaX s ra rb) 4 (scalarBytes (wordBytes (gpr s rs))) reservationSpent hq hc h hp fun _ => rfl
  rw [e', ← hview a]
  rfl

/-- Only the instructions that may change the reservation do; `lwarx` does not clear it, and `stwcx.` without it does not set it. -/
theorem exec_reserve {i : Instr} {s t : State} (h : exec i s = .next t) (h1 : ∀ rs, i ≠ .mtspr rs 0x3F2#10)
    (h2 : ∀ rs, i ≠ .mtspr rs 0x11C#10) :
    t.reserve = s.reserve ∨ (t.reserve = true ∧ ∃ rt ra rb x, i = .lwarx rt ra rb x) ∨
      (s.reserve = true ∧ ∃ rs ra rb, i = .stwcxRc rs ra rb) := by
  obtain ⟨u, hu, -, hkeep⟩ := exec_keeps i s
  cases hu.symm.trans h
  cases hm : mayChangeReserve i with
  | false => exact .inl (hkeep hm)
  | true =>
    unfold mayChangeReserve at hm
    split at hm
    · rename_i rt ra rb x
      cases h
      exact (loadReserve_cases rt (eaX s ra rb) x s).imp (·.reserve) fun hk => .inl ⟨hk.reserve, rt, ra, rb, x, rfl⟩
    · rename_i rs ra rb
      cases hr : s.reserve with
      | true => exact .inr (.inr ⟨rfl, rs, ra, rb, rfl⟩)
      | false =>
        cases (show execStwcxRc rs ra rb s = _ from if_neg (by simp [hr])).symm.trans h
        exact .inl ((keeps_storeRefused _ s).reserve.trans hr)
    · rename_i rs n
      simp only [Bool.or_eq_true, beq_iff_eq] at hm
      rcases hm with rfl | rfl
      · exact absurd rfl (h1 rs)
      · exact absurd rfl (h2 rs)
    · cases hm

/-- Settles O13: what each instruction may do to the reservation, the two instructions in a quiet state, and the step, which leaves it
but for one instruction executed or a reset. -/
theorem reservationRule : Obligations.ReservationRule := by
  refine ⟨fun i s t h h1 h2 => ?_, fun s r ra rb x31 hq => ?_, fun s t h => ?_⟩
  · rcases exec_reserve h h1 h2 with e | ⟨ht, hi⟩ | ⟨hs, hi⟩
    · rw [e]
      exact ⟨fun a b => absurd b (by simp [a]), fun a b => absurd b (by simp [a])⟩
    · exact ⟨fun _ _ => hi, fun _ b => absurd b (by simp [ht])⟩
    · exact ⟨fun a _ => absurd a (by simp [hs]), fun _ _ => hi⟩
  · intro ea w msb us ha
    refine ⟨execLwarx_aligned hq r ra rb x31 ha, fun hok => ?_⟩
    cases hr : s.reserve with
    | false =>
      obtain ⟨t, he, hres, hpc, hsto⟩ := execStwcxRc_refused hq hr r ra rb ha
      exact ⟨t, he, hres, hpc, fun _ => hsto, fun h => by cases h⟩
    | true =>
      obtain ⟨t, he, hres, hpc, hview⟩ := execStwcxRc_stores hq hr r ra rb ha hok
      exact ⟨t, he, hres, hpc, fun h => (by cases h), fun _ => hview⟩
  · rcases step_cases h with hk | ⟨i, u, hu, he⟩ | ⟨es, u, hes, hu, he⟩
    · exact .inl hk.reserve
    · exact .inr (.inl ⟨i, u, hu.reserve, he⟩)
    · exact .inr (.inr ⟨es, u, hes, hu.reserve, he⟩)

end Sys2Proof.Machine
end

section
/-! SUPPORT. The compares and the privileged instructions (R34, R440 to R444, R641, R681). -/

namespace Sys2Proof.Machine

/-! ### CR fields (R34) -/

theorem bit_ushiftRight (w : Word) (n : Nat) {k : Nat} (hk : k < 32) : bit (w >>> n) k = (decide (n ≤ k) && bit w (k - n)) := by
  rw [bit, BitVec.getMsbD_ushiftRight]
  by_cases h : n ≤ k <;> simp [bit, h, hk, Nat.not_lt.mpr, Nat.lt_of_not_le]

theorem bit_topFour {j : Nat} (hj : j < 32) : bit 0xF0000000#32 j = decide (j < 4) := by
  interval_cases j <;> decide

theorem bit_topField (v : BitVec 4) (j : Nat) : bit (v.setWidth 32 <<< 28) j = v.getMsbD j := by
  by_cases hj : j < 4
  · interval_cases j <;> simp [bit, BitVec.getMsbD]
  · rw [bit, BitVec.getMsbD_shiftLeft, BitVec.getMsbD_setWidth]
    simp

/-- Writing a CR field writes its four bits, the first of them LT. -/
theorem bit_putCrField (cr : Word) (n : BitVec 3) (v : BitVec 4) {k : Nat} (hk : k < 32) :
    bit (putCrField cr n v) k =
      if 4 * n.toNat ≤ k ∧ k < 4 * n.toNat + 4 then v.getMsbD (k - 4 * n.toNat) else bit cr k := by
  rw [putCrField, bit_or, bit_and, bit_not _ hk, bit_ushiftRight _ _ hk, bit_ushiftRight _ _ hk, bit_topFour (by omega), bit_topField]
  by_cases hlo : 4 * n.toNat ≤ k
  · by_cases hhi : k < 4 * n.toNat + 4
    · simp [hlo, hhi, show k - 4 * n.toNat < 4 by omega]
    · simp [hlo, hhi, show ¬ k - 4 * n.toNat < 4 by omega, BitVec.getMsbD]
  · simp [hlo]

theorem bit_undefinedCr0 {x31 : Bool} {k : Nat} (hk : k < 32) (h : x31 = false ∨ 4 ≤ k) (s : State) :
    bit (undefinedCr0 x31 s).cr k = bit s.cr k := by
  cases x31 with
  | false => rfl
  | true =>
    have h4 : 4 ≤ k := h.resolve_left (by simp)
    change bit ((s.cr &&& ~~~0xF0000000#32) ||| (freeNow s &&& 0xF0000000#32)) k = bit s.cr k
    rw [bit_or, bit_and, bit_and, bit_not _ hk, bit_topFour hk]
    simp [Nat.not_lt.mpr h4]

theorem crBits_getMsbD (lt gt eq so : Bool) :
    (crBits lt gt eq so).getMsbD 0 = lt ∧ (crBits lt gt eq so).getMsbD 1 = gt ∧ (crBits lt gt eq so).getMsbD 2 = eq ∧
      (crBits lt gt eq so).getMsbD 3 = so := by
  revert lt gt eq so
  decide

/-! ### The compares (R440 to R444) -/

/-- The four bits that comparing two numbers gives: less, greater, equal and XER[SO]. -/
def orderBits (x y : Int) (so : Bool) : BitVec 4 := crBits (decide (x < y)) (decide (y < x)) (decide (x = y)) so

theorem compareSigned_eq (a b : Word) (so : Bool) : compareSigned a b so = orderBits a.toInt b.toInt so := by
  simp [compareSigned, orderBits, BitVec.slt, BitVec.toInt_inj]

theorem compareUnsigned_eq (a b : Word) (so : Bool) : compareUnsigned a b so = orderBits a.toNat b.toNat so := by
  simp [compareUnsigned, orderBits, BitVec.ult, BitVec.toNat_inj]

theorem toInt_sext16 (v : BitVec 16) : (sext16 v).toInt = v.toInt := by
  simp [sext16, BitVec.toInt_signExtend_of_le]

theorem toNat_zext16 (v : BitVec 16) : (zext16 v).toNat = v.toNat := by
  simp [zext16, BitVec.toNat_setWidth]
  omega

/-- What a compare does to a quiet state: one CR field takes the four bits of the comparison, with bit 31 set CR0 is left
open, and nothing else changes. -/
theorem compare_spec {s : State} (hq : quiet s = true) (bf : BitVec 3) (x31 : Bool) (x y : Int) {i : Instr}
    (he : exec i s = .next (advance s (undefinedCr0 x31 (setCrField bf (orderBits x y (xerSO s)) s)))) :
    ∃ t, exec i s = .next t ∧
      (x31 = false ∨ bf ≠ 0#3 →
        bit t.cr (4 * bf.toNat) = decide (x < y) ∧ bit t.cr (4 * bf.toNat + 1) = decide (y < x) ∧
          bit t.cr (4 * bf.toNat + 2) = decide (x = y) ∧ bit t.cr (4 * bf.toNat + 3) = bit s.xer 0) ∧
      (∀ k, k < 32 → (k < 4 * bf.toNat ∨ 4 * bf.toNat + 4 ≤ k) → (x31 = false ∨ 4 ≤ k) → bit t.cr k = bit s.cr k) ∧
      (∀ a, dataByte t a = dataByte s a) ∧ t = { s with cr := t.cr, pc := s.pc + 4#32, free := t.free } := by
  rw [advance_quiet hq] at he
  refine ⟨_, he, fun h => ?_, fun k hk hout h => ?_, fun a => by cases x31 <;> rfl, by cases x31 <;> rfl⟩
  · have hbf : bf.toNat < 8 := bf.isLt
    have hopen : x31 = false ∨ 4 ≤ 4 * bf.toNat := h.imp_right fun h0 => by
      have : bf.toNat ≠ 0 := fun e => h0 (BitVec.eq_of_toNat_eq e)
      omega
    have written (j : Nat) (hj : j < 4) : bit (undefinedCr0 x31 (setCrField bf (orderBits x y (xerSO s)) s)).cr
        (4 * bf.toNat + j) = (orderBits x y (xerSO s)).getMsbD j := by
      rw [bit_undefinedCr0 (by omega) (hopen.imp_right fun h => by omega), setCrField_cr, bit_putCrField _ _ _ (by omega),
        if_pos ⟨by omega, by omega⟩, Nat.add_sub_cancel_left]
    obtain ⟨hlt, hgt, heq, hso⟩ := crBits_getMsbD (decide (x < y)) (decide (y < x)) (decide (x = y)) (xerSO s)
    exact ⟨(written 0 (by decide)).trans hlt, (written 1 (by decide)).trans hgt, (written 2 (by decide)).trans heq,
      (written 3 (by decide)).trans hso⟩
  · change bit (undefinedCr0 x31 _).cr k = _
    rw [bit_undefinedCr0 hk h, setCrField_cr, bit_putCrField _ _ _ hk, if_neg (by omega)]

/-- Settles O26: each of the four is `compare_spec` at its two numbers. -/
theorem compares : Obligations.Compares := by
  intro s bf ra rb im x31 hq
  iterate 4 rw [List.forall_mem_cons]
  refine ⟨compare_spec hq bf x31 _ _ ?_, compare_spec hq bf false _ _ ?_, compare_spec hq bf x31 _ _ ?_,
    compare_spec hq bf false _ _ ?_, List.forall_mem_nil _⟩
  · rw [← compareSigned_eq]
    rfl
  · rw [← toInt_sext16, ← compareSigned_eq]
    rfl
  · rw [← compareUnsigned_eq]
    rfl
  · rw [← toNat_zext16, ← compareUnsigned_eq]
    rfl

/-! ### Privileged instructions (R641, R681) -/

/-- What an instruction does that is only trapped: the program interrupt with one ESR cause bit (R641). -/
def Traps (s : State) (i : Instr) (cause : Word) : Prop :=
  ∃ t, exec i s = .next t ∧ EntersNoncritical s t 0x0700#32 (wordAligned s.pc) ∧
    t.exc.esr = (s.exc.esr &&& 0x80000000#32) ||| cause ∧ t.exc.dear = s.exc.dear

/-- A noncritical interrupt of a quiet state away from debug wait enters at its vector, with the ESR and DEAR given it. -/
theorem takeInterrupt_enters {s : State} (hq : quiet s = true) (hw : s.dbg.run ≠ .debugWait) (off esr : Word) :
    let t := takeInterrupt .noncritical off s.pc (setEsr esr s)
    EntersNoncritical s t off (wordAligned s.pc) ∧ t.exc.esr = esr ∧ t.exc.dear = s.exc.dear := by
  have hq' : dbEDE (setEsr esr s) = false := quiet_dbEDE hq
  rw [takeInterrupt_plain hq', enter_noncritical _ _ (setEsr esr s) hw]
  exact ⟨⟨rfl, rfl, rfl, rfl, rfl, rfl, rfl, rfl⟩, rfl, rfl⟩

theorem traps_of_exec {s : State} (hq : quiet s = true) (hw : s.dbg.run ≠ .debugWait) {i : Instr} {cause : Word}
    (he : exec i s = .next (programInterrupt cause s)) : Traps s i cause :=
  ⟨_, he, takeInterrupt_enters hq hw _ _⟩

theorem tlbStep_user {s : State} (hm : s.params.mmuEnabled = true) (hp : msrPR s = true) (x31 : Bool) (op : State → State) :
    tlbStep x31 op s = programInterrupt esrPPR s := by
  rw [tlbStep, if_pos hm]
  exact privileged_user hp _

theorem tlbStep_off {s : State} (hm : s.params.mmuEnabled = false) (x31 : Bool) (op : State → State) :
    tlbStep x31 op s = programInterrupt esrPIL s := by simp [tlbStep, hm]

/-- The TLB instructions. -/
def tlbInstrs (rt ra rb : Reg) (e x31 : Bool) : List Instr :=
  [.tlbia x31, .tlbre rt ra e x31, .tlbsx rt ra rb e, .tlbsync x31, .tlbwe rt ra e x31]

/-- Each of the TLB instructions is one `tlbStep`. -/
theorem exec_tlbInstrs (rt ra rb : Reg) (e x31 : Bool) (s : State) :
    ∀ i ∈ tlbInstrs rt ra rb e x31, ∃ x op, exec i s = .next (tlbStep x op s) := by
  simp only [tlbInstrs, List.forall_mem_cons]
  exact ⟨⟨_, _, rfl⟩, ⟨_, _, rfl⟩, ⟨_, _, rfl⟩, ⟨_, _, rfl⟩, ⟨_, _, rfl⟩, List.forall_mem_nil _⟩

/-- The instructions that are privileged whatever their operands, but for the TLB instructions. -/
def privilegedInstrs (rt ra rb : Reg) (n : BitVec 10) (e x31 : Bool) : List Instr :=
  [.dcbi ra rb x31, .dccci ra rb x31, .dcread rt ra rb x31, .icbt ra rb x31, .iccci ra rb x31, .icread ra rb x31,
    .mfdcr rt n, .mfmsr rt x31, .mtdcr rt n, .mtmsr rt x31, .rfci x31, .rfi x31, .wrtee rt x31, .wrteei e x31]

/-- Each of them is `privileged` of its effect. -/
theorem exec_privilegedInstrs (rt ra rb : Reg) (n : BitVec 10) (e x31 : Bool) (s : State) :
    ∀ i ∈ privilegedInstrs rt ra rb n e x31, ∃ k, exec i s = .next (privileged k s) := by
  simp only [privilegedInstrs, List.forall_mem_cons]
  exact ⟨⟨_, rfl⟩, ⟨_, rfl⟩, ⟨_, rfl⟩, ⟨_, rfl⟩, ⟨_, rfl⟩, ⟨_, rfl⟩, ⟨_, rfl⟩, ⟨_, rfl⟩, ⟨_, rfl⟩, ⟨_, rfl⟩, ⟨_, rfl⟩, ⟨_, rfl⟩,
    ⟨_, rfl⟩, ⟨_, rfl⟩, List.forall_mem_nil _⟩

theorem exec_mfspr_user {s : State} {n : BitVec 10} (hp : msrPR s = true) (hn : userReadable n ≠ true) (rt : Reg) :
    exec (.mfspr rt n) s = .next (programInterrupt esrPPR s) := by
  change execMfspr rt n s = _
  simp [execMfspr, hp, hn]

theorem exec_mtspr_user {s : State} {n : BitVec 10} (hp : msrPR s = true) (hn : userWritable n ≠ true) (rs : Reg) :
    exec (.mtspr rs n) s = .next (programInterrupt esrPPR s) := by
  change execMtspr rs n s = _
  simp [execMtspr, hp, hn]

/-- Settles O55: each instruction reduces to `programInterrupt`, the privileged ones in the problem state, the TLB
instructions with the MMU tied off. -/
theorem privilegedTraps : Obligations.PrivilegedTraps := by
  intro s rt ra rb n e x31 hq hw user tlb traps
  refine ⟨fun hp => ?_, fun hm i hi => ?_⟩
  · have hp : msrPR s = true := hp
    refine List.forall_mem_append.mpr ⟨List.forall_mem_append.mpr ⟨List.forall_mem_append.mpr ⟨?_, ?_⟩, ?_⟩, ?_⟩
    · intro i hi
      obtain ⟨k, hk⟩ := exec_privilegedInstrs rt ra rb n e x31 s i hi
      exact traps_of_exec hq hw (hk.trans (congrArg _ (privileged_user hp k)))
    · split
      · next hm =>
        intro i hi
        obtain ⟨x, op, hk⟩ := exec_tlbInstrs rt ra rb e x31 s i hi
        exact traps_of_exec hq hw (hk.trans (congrArg _ (tlbStep_user hm hp x op)))
      · exact List.forall_mem_nil _
    · split
      · exact List.forall_mem_nil _
      · next hn =>
        refine List.forall_mem_singleton.mpr (traps_of_exec hq hw (exec_mfspr_user hp (fun h => hn ?_) rt))
        exact List.mem_append.mp ((userReadable_iff n).mp h)
    · split
      · exact List.forall_mem_nil _
      · next hn =>
        exact List.forall_mem_singleton.mpr (traps_of_exec hq hw (exec_mtspr_user hp (fun h => hn ((userWritable_iff n).mp h)) rt))
  · obtain ⟨x, op, hk⟩ := exec_tlbInstrs rt ra rb e x31 s i hi
    exact traps_of_exec hq hw (hk.trans (congrArg _ (tlbStep_off hm x op)))

end Sys2Proof.Machine
end

section
/-! SUPPORT. Translation and the permission of a fetch, and the interrupts of a fetch (R151 to R154, R160, R162, R621, R635, R636,
R657). -/

namespace Sys2Proof.Machine

/-! ### The matching entry (R151, R152, R154) -/

/-- The bytes of a page of an entry (Table 7-1). -/
def pageBytes (t : TlbEntry) : Nat := 1024 * 4 ^ t.size.toNat

theorem two_pow_pageShift (t : TlbEntry) : 2 ^ pageShift t.size = pageBytes t := by
  rw [pageShift, pageBytes, Nat.pow_add, Nat.pow_mul]

theorem pageNumber_shift (v n : Nat) : (v / 1024) >>> (2 * n) = v / (1024 * 4 ^ n) := by
  rw [Nat.shiftRight_eq_div_pow, Nat.pow_mul, Nat.div_div_eq_div_mul]

theorem tlbMatches_iff (pid ea : Word) (t : TlbEntry) :
    tlbMatches pid ea t = true ↔ t.v = true ∧ (t.tid = 0#8 ∨ t.tid.toNat = pid.toNat % 256) ∧
      t.epn.toNat * 1024 / pageBytes t = ea.toNat / pageBytes t := by
  have htid : t.tid = field pid 24 8 ↔ t.tid.toNat = pid.toNat % 256 := by
    rw [BitVec.toNat_eq, field_toNat]
    simp
  have hpage : t.epn >>> (2 * t.size.toNat) = field ea 0 22 >>> (2 * t.size.toNat) ↔
      t.epn.toNat * 1024 / pageBytes t = ea.toNat / pageBytes t := by
    have hea : (field ea 0 22).toNat = ea.toNat / 1024 := by
      rw [field_toNat]
      have := ea.isLt
      omega
    have hepn := pageNumber_shift (t.epn.toNat * 1024) t.size.toNat
    rw [Nat.mul_div_cancel _ (by decide)] at hepn
    rw [BitVec.toNat_eq, BitVec.toNat_ushiftRight, BitVec.toNat_ushiftRight, hea, pageNumber_shift, hepn]
    rfl
  simp only [tlbMatches, Bool.and_eq_true, Bool.or_eq_true, beq_iff_eq, htid, hpage, and_assoc]

theorem matches_iff (s : State) (ea : Word) (m : Fin 64) : Matches s ea m ↔ tlbMatches s.mmu.pid ea s.mmu.tlb[m] = true :=
  (tlbMatches_iff _ _ _).symm

theorem tlbSearch_none {pid ea : Word} {l : List TlbEntry} (h : ∀ t ∈ l, tlbMatches pid ea t ≠ true) (n : Nat) :
    tlbSearch pid ea l n = none := by
  induction l generalizing n with
  | nil => rfl
  | cons t ts ih =>
    obtain ⟨ht, hts⟩ := List.forall_mem_cons.mp h
    rw [tlbSearch, if_neg ht, ih hts]

theorem tlbSearch_first {pid ea : Word} {l : List TlbEntry} {i : Nat} (hi : i < l.length) (h : tlbMatches pid ea l[i] = true)
    (hf : ∀ j (hj : j < i), tlbMatches pid ea l[j] ≠ true) (n : Nat) : tlbSearch pid ea l n = some (n + i, l[i]) := by
  induction l generalizing n i with
  | nil => simp at hi
  | cons t ts ih =>
    cases i with
    | zero => rw [tlbSearch, if_pos (show tlbMatches pid ea t = true from h)]; rfl
    | succ i =>
      rw [tlbSearch, if_neg (show tlbMatches pid ea t ≠ true from hf 0 (Nat.succ_pos i)),
        ih (Nat.lt_of_succ_lt_succ hi) h (fun j hj => hf (j + 1) (Nat.succ_lt_succ hj)), Nat.add_assoc, Nat.add_comm 1 i]
      rfl

theorem tlbLookup_none {s : State} {ea : Word} (h : ∀ n, ¬ Matches s ea n) : tlbLookup s ea = none := by
  refine tlbSearch_none (fun t ht hm => ?_) 0
  obtain ⟨i, hi, rfl⟩ := List.mem_iff_getElem.mp ht
  have hi : i < 64 := by simpa using hi
  exact h ⟨i, hi⟩ ((matches_iff s ea ⟨i, hi⟩).mpr (by simpa using hm))

theorem tlbLookup_first {s : State} {ea : Word} {n : Fin 64} (h : FirstMatch s ea n) :
    tlbLookup s ea = some (n.val, s.mmu.tlb[n]) := by
  obtain ⟨hm, hf⟩ := h
  have hl := tlbSearch_first (pid := s.mmu.pid) (ea := ea) (l := s.mmu.tlb.toList) (i := n.val) (by simp)
    (by simpa using (matches_iff s ea n).mp hm)
    (fun j hj hm' => hf ⟨j, by omega⟩ hj ((matches_iff s ea ⟨j, by omega⟩).mpr (by simpa using hm'))) 0
  simpa [tlbLookup] using hl

/-! ### The real address and the zone (R152, R160) -/

theorem and_not_allOnes_shiftLeft (w : Word) (k : Nat) : w &&& ~~~(BitVec.allOnes 32 <<< k) = BitVec.ofNat 32 (w.toNat % 2 ^ k) := by
  apply BitVec.eq_of_getLsbD_eq
  intro i hi
  simp only [BitVec.getLsbD_and, BitVec.getLsbD_not, BitVec.getLsbD_shiftLeft, BitVec.getLsbD_allOnes, BitVec.getLsbD_ofNat,
    Nat.testBit_mod_two_pow, hi, decide_true, Bool.true_and]
  by_cases h : i < k
  · simp [h, BitVec.getLsbD]
  · simp [h, show i - k < 32 by omega]

/-- The real address through an entry: the page of its RPN, and the place in the page of the effective address (R152). -/
theorem realAddress_toNat (t : TlbEntry) (ea : Word) :
    (realAddress t ea).toNat = t.rpn.toNat * 1024 / pageBytes t * pageBytes t + ea.toNat % pageBytes t := by
  have hrpn : t.rpn.toNat * 1024 < 2 ^ 32 := by have := t.rpn.isLt; omega
  have hpage : t.rpn.toNat * 1024 / 2 ^ pageShift t.size * 2 ^ pageShift t.size < 2 ^ 32 :=
    Nat.lt_of_le_of_lt (Nat.div_mul_le_self _ _) hrpn
  have hoff : ea.toNat % 2 ^ pageShift t.size < 2 ^ pageShift t.size := Nat.mod_lt _ (Nat.two_pow_pos _)
  have hea : ea.toNat % 2 ^ pageShift t.size < 2 ^ 32 := Nat.lt_of_le_of_lt (Nat.mod_le _ _) ea.isLt
  have hbase : (((t.rpn.setWidth 32 <<< 10) >>> pageShift t.size <<< pageShift t.size : Word)).toNat =
      t.rpn.toNat * 1024 / 2 ^ pageShift t.size * 2 ^ pageShift t.size := by
    rw [BitVec.toNat_shiftLeft, BitVec.toNat_ushiftRight, BitVec.toNat_shiftLeft, BitVec.toNat_setWidth, Nat.shiftLeft_eq,
      Nat.shiftLeft_eq, Nat.shiftRight_eq_div_pow, Nat.mod_eq_of_lt (a := t.rpn.toNat) (by omega), Nat.mod_eq_of_lt hrpn,
      Nat.mod_eq_of_lt hpage]
  rw [realAddress, and_not_allOnes_shiftLeft, BitVec.toNat_or, hbase, BitVec.toNat_ofNat, Nat.mod_eq_of_lt hea,
    ← two_pow_pageShift, Nat.mul_comm, Nat.two_pow_add_eq_or_of_lt hoff]

theorem zoneField_toNat (s : State) (e : TlbEntry) : (zoneField s.mmu.zpr e.zsel).toNat = zoneNat s e := by
  have hz := e.zsel.isLt
  rw [zoneField, field_toNat, zoneNat, show 32 - 2 * e.zsel.toNat - 2 = 2 * (15 - e.zsel.toNat) by omega, Nat.pow_mul]
  rfl

theorem zone_beq (s : State) (e : TlbEntry) (c : BitVec 2) : (zoneField s.mmu.zpr e.zsel == c) = (zoneNat s e == c.toNat) := by
  rw [← zoneField_toNat, Bool.eq_iff_iff, beq_iff_eq, beq_iff_eq, BitVec.toNat_eq]

/-- The zone of an entry denies the problem state all access (R160). -/
def entryDenied (s : State) (e : TlbEntry) : Bool := bit s.msr 17 && zoneNat s e == 0

/-- `exec_ok` of R162 for a page that an entry maps. -/
def entryAllowed (s : State) (e : TlbEntry) : Bool :=
  !e.g && !entryDenied s e && (e.ex || zoneNat s e == 3 || (!bit s.msr 17 && zoneNat s e == 2))

theorem zoneDenied_xlateTlb (s : State) (e : TlbEntry) (ea : Word) : zoneDenied s (xlateTlb s e ea) = entryDenied s e := by
  simp only [zoneDenied, xlateTlb, zone_beq, entryDenied]
  rfl

theorem execOk_xlateTlb (s : State) (e : TlbEntry) (ea : Word) : execOk s (xlateTlb s e ea) = entryAllowed s e := by
  rw [execOk, zoneDenied_xlateTlb]
  simp only [zoneFull, xlateTlb, zone_beq, entryAllowed, Bool.false_or, Bool.or_assoc]
  rfl

/-! ### A fetch with nothing of an earlier state left (R203, R204) -/

/-- With nothing of an earlier state left, a step whose fetch can be one read alone runs what that read gives. -/
theorem step_fetched {s : State} (hr : ready s = true) (hf : fresh s = true) {f : Fetch} (h : fetchUnder s.pc s = [f]) :
    step s = runFetch f.gives (afterFetch f s) := by
  obtain ⟨hc, hq, -⟩ := (fresh_iff s).mp hf
  rw [step_ready hr hc, runAtPc, fetchAtPc_now hq, fetchViews_nil hc, readInstr_single (f := f) (by simp [h])]

theorem ready_running {s : State} (hr : ready s = true) : s.dbg.run ≠ .debugWait := by
  obtain ⟨-, -, hrun, -⟩ := (ready_iff s).mp hr
  simp [hrun]

theorem xlateFetch_on {s : State} (h : bit s.msr 26 = true) (ea : Word) :
    xlateFetch s ea = (tlbLookup s ea).map fun nt => xlateTlb s nt.2 ea := if_pos h

theorem xlateFetch_off {s : State} (h : bit s.msr 26 = false) (ea : Word) :
    xlateFetch s ea = some (xlateReal s s.attr.iccr ea) := if_neg (by simp [msrIR, h])

theorem step_fetchMiss {s : State} (hr : ready s = true) (hf : fresh s = true) (h : xlateFetch s s.pc = none) :
    step s = .next (takeInterrupt .noncritical 0x1200#32 s.pc s) :=
  step_fetched hr hf (show fetchUnder s.pc s = [.stopped .miss] by simp [fetchUnder, h])

theorem step_fetchRefused {s : State} (hr : ready s = true) (hf : fresh s = true) {x : Xlate} (h : xlateFetch s s.pc = some x)
    (he : execOk s x = false) : step s = .next (fetchRefused (zoneDenied s x) s) :=
  step_fetched hr hf (show fetchUnder s.pc s = [.stopped (.refused (zoneDenied s x))] by simp [fetchUnder, h, he])

/-! ### A fetch that meets a bus error (R621) -/

theorem hits_fetch_iff (r : BusErrorRange) (ra : Word) :
    r.hits .fetch ra = true ↔ r.onFetch = true ∧ r.lo.toNat ≤ ra.toNat ∧ ra.toNat ≤ r.hi.toNat := by
  simp only [BusErrorRange.hits, Bool.and_eq_true, decide_eq_true_eq]
  exact and_comm

theorem busErrorIn_fetch_iff (s : State) (ra : Word) (n : Nat) :
    busErrorIn s .fetch ra n = true ↔ MeetsBusError s (·.onFetch) ra n := by
  simp only [busErrorIn, busError, List.any_eq_true, List.mem_range, hits_fetch_iff, MeetsBusError]
  constructor
  · rintro ⟨j, hj, r, hr, hk, hlo, hhi⟩
    exact ⟨r, hr, hk, j, hj, hlo, hhi⟩
  · rintro ⟨r, hr, hk, j, hj, hlo, hhi⟩
    exact ⟨j, hj, r, hr, hk, hlo, hhi⟩

/-- A word in error is a line in error. -/
theorem busErrorIn_line {s : State} {ra : Word} (ha : ra.toNat % 4 = 0) (h : busErrorIn s .fetch ra 4 = true) :
    busErrorIn s .fetch (lineBase (lineOf ra)) 32 = true := by
  simp only [busErrorIn, List.any_eq_true, List.mem_range] at h ⊢
  obtain ⟨j, hj, he⟩ := h
  have hoff : (lineOffset ra).toNat = ra.toNat % 32 := lineOffset_toNat ra
  refine ⟨(lineOffset ra).toNat + j, by omega, ?_⟩
  have hb : lineBase (lineOf ra) + BitVec.ofNat 32 ((lineOffset ra).toNat + j) = ra + BitVec.ofNat 32 j := by
    have hbase : (lineBase (lineOf ra)).toNat = 32 * (ra.toNat / 32) := by rw [lineBase_toNat, lineOf_toNat]
    bv_omega
  rw [hb]
  exact he

theorem runFetched_checked {s : State} (hme : bit s.msr 19 = true) (w : Word) :
    runFetched w true s = .next (takeInterrupt .machineCheck 0x0200#32 s.pc (setEsr esrMCI s)) := by
  simp [runFetched, msrME, hme]

theorem runFetched_unchecked {s : State} (hme : bit s.msr 19 = false) (w : Word) :
    runFetched w true s =
      runWord (freeNow s) (readAhead (s.pc + 4#32) (drawn 1 (setEsr (s.exc.esr ||| esrMCI) s))) := by
  simp [runFetched, msrME, hme]

theorem xlateFetch_aligned {s : State} (ha : aligned s.pc = true) {x : Xlate} (hx : xlateFetch s s.pc = some x) :
    x.ra.toNat % 4 = 0 := by
  have hpc := (aligned_iff_mod _).mp ha
  have hmod := xlate_mod hx
  omega

/-- A fetch from storage that meets a bus error runs as one and fills no line. -/
theorem step_fetchBusError {s : State} (hr : ready s = true) (hf : fresh s = true) (ha : aligned s.pc = true) {x : Xlate}
    (hx : xlateFetch s s.pc = some x) (he : execOk s x = true) (hw : iWay s x.ra = none)
    (hb : MeetsBusError s (·.onFetch) x.ra 4) : ∃ w, step s = runFetched w true s := by
  have hb := (busErrorIn_fetch_iff s x.ra 4).mpr hb
  obtain ⟨-, -, hl⟩ := (fresh_iff s).mp hf
  have hseen : iSeen s x.attrs x.ra = none := by simp [iSeen, hw]
  have hfill : instrFill s x.ra x.attrs.e = none := by
    simp [instrFill, busErrorIn_line (xlateFetch_aligned ha hx) hb]
  have hfetch := (fetchUnder_ok hx he).trans (fetchWords_miss hseen (missable_performed hl _ _))
  refine ⟨memWord s x.ra x.attrs.e, ?_⟩
  rw [step_fetched hr hf hfetch, hb]
  simp [afterFetch, hw, hfill, runFetch]

/-- Settles O6: the lookup of the entry (`tlbLookup_none`, `tlbLookup_first`), the permission (`execOk_xlateTlb`), and what a
step makes of the one read that the fetch can be. -/
theorem fetchFaults : Obligations.FetchFaults := by
  intro s hr hf hq ha user
  have hrun := ready_running hr
  refine ⟨fun hir => ⟨fun hno => ?_, fun n hn => ?_⟩, fun hir => ⟨_, xlateFetch_off hir s.pc, rfl, rfl⟩, fun x hx he hw hb => ?_⟩
  · have hx : xlateFetch s s.pc = none := by rw [xlateFetch_on hir, tlbLookup_none hno]; rfl
    exact ⟨_, step_fetchMiss hr hf hx, takeInterrupt_enters hq hrun 0x1200#32 s.exc.esr⟩
  · have hx : xlateFetch s s.pc = some (xlateTlb s s.mmu.tlb[n] s.pc) := by
      rw [xlateFetch_on hir, tlbLookup_first hn]
      rfl
    have hok := execOk_xlateTlb s s.mmu.tlb[n] s.pc
    refine ⟨fun hd => ?_, fun ha => ⟨_, hx, hok.trans ha, rfl, rfl, realAddress_toNat _ s.pc⟩⟩
    have hs := step_fetchRefused hr hf hx (hok.trans hd)
    rw [zoneDenied_xlateTlb] at hs
    obtain ⟨henter, hesr, hdear⟩ := takeInterrupt_enters hq hrun 0x0400#32
      ((s.exc.esr &&& esrMCI) ||| (if entryDenied s s.mmu.tlb[n] then esrDIZ else 0#32))
    exact ⟨_, hs, henter, hdear, hesr⟩
  · obtain ⟨w, hs⟩ := step_fetchBusError hr hf ha hx he hw hb
    rw [hs]
    refine ⟨fun hme => ?_, fun hme hi => ⟨freeNow s, _, runFetched_unchecked hme w, ?_⟩⟩
    · have hq' : dbEDE (setEsr esrMCI s) = false := quiet_dbEDE hq
      rw [runFetched_checked hme, takeInterrupt_plain hq', enter_machineCheck _ _ (setEsr esrMCI s) hrun]
      rfl
    · obtain ⟨hc, -, -⟩ := (fresh_iff s).mp hf
      exact readsAhead_readAhead (s := drawn 1 (setEsr (s.exc.esr ||| esrMCI) s)) hc hi _

end Sys2Proof.Machine
end

section
/-! SUPPORT. A timer clock (R700 to R711), and the inputs from outside at a boundary (R104, R190, R690, R712, R730, R741, R760). -/

namespace Sys2Proof.Machine

/-! ### The PIT and the time base (R700, R704) -/

/-- The PIT after a clock: it counts down to 0, or takes the reload value as it leaves 1 (R704). -/
def pitNext (s : State) : Word :=
  if s.tmr.pit = 1#32 ∧ bit s.tmr.tcr 9 = true then s.tmr.pitReload else if s.tmr.pit = 0#32 then 0#32 else s.tmr.pit - 1#32

/-- The TSR bit that the PIT sets at a clock (R704). -/
def pitBits (s : State) : Word := if s.tmr.pit = 1#32 then tsrPIS else 0#32

theorem bit_pitBits (s : State) {k : Nat} (hk : k < 32) : bit (pitBits s) k = (k == 4 && s.tmr.pit == 1#32) := by
  by_cases h : s.tmr.pit = 1#32 <;> simp [pitBits, h, tsrPIS, bit_weight_beq, hk, bit_zero]

theorem pitStep_eq (s : State) :
    pitStep s = { s with tmr := { s.tmr with pit := pitNext s, tsr := s.tmr.tsr ||| pitBits s } } := by
  by_cases h0 : s.tmr.pit = 0#32
  · have hn : pitNext s = s.tmr.pit := by simp [pitNext, h0]
    have hb : pitBits s = 0#32 := by simp [pitBits, h0]
    rw [pitStep, if_pos h0, hn, hb, BitVec.or_zero]
  · by_cases h1 : s.tmr.pit = 1#32
    · have hn : pitNext s = if bit s.tmr.tcr 9 then s.tmr.pitReload else 0#32 := by
        by_cases ha : bit s.tmr.tcr 9 = true <;> simp [pitNext, h1, ha]
      have hb : pitBits s = tsrPIS := if_pos h1
      rw [pitStep, if_neg h0, if_pos h1, hn, hb]
      rfl
    · have hn : pitNext s = s.tmr.pit - 1#32 := by simp [pitNext, h0, h1]
      have hb : pitBits s = 0#32 := if_neg h1
      rw [pitStep, if_neg h0, if_neg h1, hn, hb, BitVec.or_zero]

/-- A clock's work on TBU and the PIT, before TBL counts and the FIT and the watchdog look at it. -/
def counted (s : State) : State :=
  { s with tmr := { s.tmr with
      tbu := if s.tmr.tbl + 1#32 = 0#32 then s.tmr.tbu + 1#32 else s.tmr.tbu
      pit := pitNext s
      tsr := s.tmr.tsr ||| pitBits s } }

/-- A clock that is not frozen does what a write of the next TBL value does, once TBU and the PIT have counted (R702). -/
theorem timerClock_counts {s : State} (h : timersFrozen s = false) :
    timerClock s = writeSpr .tblWrite (s.tmr.tbl + 1#32) (counted s) := by
  rw [timerClock, if_neg (by simp [h])]
  simp only [pitStep_eq]
  rfl

theorem timerClock_frozen {s : State} (h : timersFrozen s = true) : timerClock s = (s, false) := if_pos h

theorem bit_counted_tsr (s : State) {k : Nat} (hk : k < 32) :
    bit (counted s).tmr.tsr k = (bit s.tmr.tsr k || (k == 4 && s.tmr.pit == 1#32)) := by
  rw [show (counted s).tmr.tsr = s.tmr.tsr ||| pitBits s from rfl, bit_or, bit_pitBits s hk]

/-- The PIT sets no bit that the watchdog looks at. -/
theorem tblResets_counted (s : State) (v : Word) : tblResets (counted s) v = tblResets s v := by
  have h0 : bit (counted s).tmr.tsr 0 = bit s.tmr.tsr 0 := by simp [bit_counted_tsr]
  have h1 : bit (counted s).tmr.tsr 1 = bit s.tmr.tsr 1 := by simp [bit_counted_tsr]
  rw [tblResets, h0, h1]
  rfl

/-- The time base counts as one number of 64 bits (R700). -/
theorem timeBase_succ (u l : Word) :
    (if l + 1#32 = 0#32 then u + 1#32 else u).toNat * 2 ^ 32 + (l + 1#32).toNat = (u.toNat * 2 ^ 32 + l.toNat + 1) % 2 ^ 64 := by
  have hu := u.isLt
  have hl := l.isLt
  split <;> bv_omega

theorem fitBit_eq (c : BitVec 2) : 23 - 4 * c.toNat = match c.toNat with | 0 => 23 | 1 => 19 | 2 => 15 | _ => 11 := by
  revert c
  decide

theorem watchdogBit_eq (c : BitVec 2) : 15 - 4 * c.toNat = match c.toNat with | 0 => 15 | 1 => 11 | 2 => 7 | _ => 3 := by
  revert c
  decide

theorem timersFrozen_eq (s : State) : timersFrozen s = (bit s.dbg.dbcr0 31 && (s.dbg.dbsr &&& 0xFFEC0000#32) != 0#32) := by
  rw [timersFrozen, show dbsrEvents = 0xFFEC0000#32 by decide]
  rfl

/-- A clock that resets nothing: the time base, the PIT and the TSR, and nothing else. -/
theorem timerClock_plain {s : State} (hf : timersFrozen s = false) (hr : tblResets s (s.tmr.tbl + 1#32) = false) :
    timerClock s =
      ({ counted s with tmr := { (counted s).tmr with
          tbl := s.tmr.tbl + 1#32, tsr := (counted s).tmr.tsr ||| timerBits (counted s) (s.tmr.tbl + 1#32) } }, false) := by
  rw [timerClock_counts hf, writeSpr_tblWrite_of_no_reset ((tblResets_counted s _).trans hr)]

theorem timerClock_resets {s : State} (hf : timersFrozen s = false) (hr : tblResets s (s.tmr.tbl + 1#32) = true) :
    ∃ kind : ResetKind, field (kind.code <<< 8) 22 2 = field s.tmr.tcr 2 2 ∧
      timerClock s =
        (coreReset kind (s.tmr.tcr &&& 0x30000000#32) (tblWritten (counted s) (s.tmr.tbl + 1#32)), true) := by
  obtain ⟨kind, hcode, e⟩ := writeSpr_tblWrite_of_reset ((tblResets_counted s (s.tmr.tbl + 1#32)).trans hr)
  exact ⟨kind, hcode, (timerClock_counts hf).trans e⟩

/-- The TSR after a clock that resets nothing, bit by bit: what the PIT, the FIT and the watchdog set (R704 to R707). -/
theorem bit_timerClock_tsr {s : State} (hf : timersFrozen s = false) (hr : tblResets s (s.tmr.tbl + 1#32) = false) {k : Nat}
    (hk : k < 32) :
    bit (timerClock s).1.tmr.tsr k =
      (bit s.tmr.tsr k || (k == 4 && s.tmr.pit == 1#32) || (k == 5 && fitRises s (s.tmr.tbl + 1#32)) ||
        (k == 0 && watchdogRises s (s.tmr.tbl + 1#32)) || (k == 1 && watchdogRises s (s.tmr.tbl + 1#32) && bit s.tmr.tsr 0)) := by
  have h0 : bit (counted s).tmr.tsr 0 = bit s.tmr.tsr 0 := by simp [bit_counted_tsr]
  rw [timerClock_plain hf hr]
  refine (bit_or_timerBits (counted s) _ hk).trans ?_
  rw [bit_counted_tsr s hk, h0]
  rfl

end Sys2Proof.Machine
end

section
/-! SUPPORT. What each input from outside does at a boundary (R104, R176, R184, R190, R690, R712, R730, R741, R760). -/

namespace Sys2Proof.Machine

/-! ### Bytes that another bus master writes (R190) -/

theorem outsideBytes_eq (bs : List (Word × Byte)) (s : State) :
    ∃ m l, outsideBytes bs s = { s with sto := { s.sto with mem := m, late := l } } := by
  induction bs generalizing s with
  | nil => exact ⟨s.sto.mem, s.sto.late, rfl⟩
  | cons o bs ih =>
    obtain ⟨m, l, e⟩ := ih (outsideByte o.1 o.2 s)
    exact ⟨m, l, e⟩

/-- Of the bytes written to an address the last one is found there. -/
theorem memByte_outsideBytes {s : State} (h : memOk s = true) (bs : List (Word × Byte)) (a : Word) :
    memByte (outsideBytes bs s) a = (bs.reverse.lookup a).getD (memByte s a) := by
  induction bs generalizing s with
  | nil => rfl
  | cons o bs ih =>
    obtain ⟨ra, b⟩ := o
    have hbyte : memByte (outsideByte ra b s) a = if a = ra then b else memByte s a := memByte_setMemByte h ra b a
    change memByte (outsideBytes bs (outsideByte ra b s)) a = _
    rw [ih (s := outsideByte ra b s) (memOk_setMemByte h ra b), hbyte, List.reverse_cons, List.lookup_append]
    cases bs.reverse.lookup a with
    | some c => rfl
    | none =>
      by_cases ha : a = ra
      · simp [ha]
      · simp [ha, List.lookup_cons, beq_false_of_ne ha]

/-! ### The unconditional event (R730) -/

/-- The unconditional event sets DBSR[UDE], with DBSR[IDE] where internal mode has MSR[DE] = 0, and stops the core or puts it in
debug wait by the mode. -/
theorem applyInput_unconditionalEvent (s : State) :
    applyInput .unconditionalEvent s =
      ({ s with dbg := { s.dbg with
          run := if dbEDM s then .stopped else if debugWaitMode s then .debugWait else s.dbg.run
          dbsr := s.dbg.dbsr ||| 0x08000000#32 ||| (if dbIDM s && !msrDE s then 0x00100000#32 else 0#32) } }, false) := by
  have hbits : (if (dbIDM s && !msrDE s) = true then dbsrUDE ||| dbsrIDE else dbsrUDE) =
      0x08000000#32 ||| (if (dbIDM s && !msrDE s) = true then 0x00100000#32 else 0#32) := by
    split <;> decide
  have hne : dbsrUDE ≠ 0#32 := by decide
  have hrec : recordEvent s dbsrUDE s = setDbsrBits (0x08000000#32 ||| if dbIDM s && !msrDE s then 0x00100000#32 else 0#32) s := by
    rw [recordEvent, hbits]
  cases he : dbEDM s with
  | true => simp [applyInput, he, debugEvent, hne, hrec, setDbsrBits, setRun, BitVec.or_assoc]
  | false =>
    cases hw : debugWaitMode s with
    | true =>
      have hi : dbIDM s = false := by
        simp only [debugWaitMode, Bool.and_eq_true, Bool.not_eq_true'] at hw
        exact hw.1.1.1
      simp [applyInput, he, hw, hi, debugEvent, hne, hrec, setDbsrBits, setRun]
    | false => simp [applyInput, he, hw, hrec, setDbsrBits, BitVec.or_assoc]

/-! ### A read by the fetcher ahead of the program (R176, R184) -/

/-- The line that a read ahead fills, as O59 puts it: it may be read, is absent and meets no bus error. -/
structure FillsLine (s : State) (ea : Word) (y : Xlate) : Prop where
  xlate     : xlateFetch s ea = some y
  exec      : execOk s y = true
  inhib     : y.attrs.i = false
  unguarded : (y.real && y.attrs.g) = false
  absent    : instrCopy s y.ra = none
  fills     : bit s.attr.ccr0 23 = false
  array     : s.params.icacheSize.classes ≠ 0
  noError   : ¬ MeetsBusError s (·.onFetch) (lineBase (lineOf y.ra)) 32

theorem speculate_not {s : State} (hc : s.pipe.contexts = []) {ea : Word} (h : mayReadAhead ea s = false) : speculate ea s = s := by
  rw [speculate, aheadViews_nil hc, h]
  rfl

theorem speculate_reads {s : State} (hc : s.pipe.contexts = []) {ea : Word} (h : mayReadAhead ea s = true) :
    ∃ f ∈ fetchUnder ea s, ∃ n, speculate ea s = afterFetch f { s with free := s.free + n } := by
  have hne : [s].flatMap (fetchUnder ea) ≠ [] := by simpa using fetchUnder_ne_nil ea s
  obtain ⟨f, hf, n, e⟩ := readInstr_mem (s := s) hne
  refine ⟨f, by simpa using hf, n, ?_⟩
  rw [speculate, aheadViews_nil hc, h, if_pos rfl, e]

/-- A read that fills a line is one of its words, from storage as the fetcher may find it. -/
theorem FillsLine.read {s : State} {ea : Word} {y : Xlate} (h : FillsLine s ea y) {f : Fetch} (hf : f ∈ fetchUnder ea s) :
    f.cachable = true ∧ f.ra = y.ra ∧ ∃ k, f.fill = some (memLine (withoutWrites s y.ra false k) (lineOf y.ra) y.attrs.e) := by
  have hw : iWay s y.ra = none := (instrCopy_none_iff s y.ra).mp h.absent
  have hseen : iSeen s y.attrs y.ra = none := by simp [iSeen, hw]
  have hb : busErrorIn s .fetch (lineBase (lineOf y.ra)) 32 = false :=
    Bool.eq_false_iff.mpr fun hb => h.noError ((busErrorIn_fetch_iff _ _ _).mp hb)
  rw [fetchUnder_ok h.xlate h.exec] at hf
  simp only [fetchWords, hseen, h.inhib] at hf
  obtain ⟨m, hm, rfl⟩ := List.mem_map.mp hf
  obtain ⟨k, rfl⟩ := fetchImages_mem hm
  refine ⟨rfl, rfl, k, ?_⟩
  have hwoa : ccrFWOA s = false := h.fills
  simp [hwoa, instrFill, withoutWrites_params, h.array, busErrorIn_congr (withoutWrites_params s _ _ _), hb]

/-- A read ahead fills the line of its address, or leaves every address finding what it did. -/
theorem readsLine_speculate {s : State} (hc : s.pipe.contexts = []) (hi : icacheOk s = true) (ea : Word) :
    ReadsLine s (speculate ea s) ea := by
  refine ⟨fun y hy => ?_, fun hno a => ?_⟩
  · obtain ⟨hx, he, hinh, hung, habs, hfwoa, harr, herr⟩ := hy
    have hfl : FillsLine s ea y := ⟨hx, he, hinh, hung, habs, hfwoa, harr, herr⟩
    obtain ⟨f, hf, n, e⟩ := speculate_reads hc (ea := ea) (by simp [mayReadAhead, hx, hung])
    obtain ⟨hcach, hra, k, hfill⟩ := hfl.read hf
    have hw : iWay { s with free := s.free + n } y.ra = none := (instrCopy_none_iff s y.ra).mp habs
    have hins : speculate ea s =
        installInstrLine y.ra (memLine (withoutWrites s y.ra false k) (lineOf y.ra) y.attrs.e) { s with free := s.free + n } := by
      rw [e]
      simp [afterFetch, hcach, hra, hw, hfill, harr]
    refine ⟨k, fun a => ?_⟩
    obtain ⟨hin, hout⟩ := instrCopy_installInstrLine (s := { s with free := s.free + n }) hi harr hw
      (memLine (withoutWrites s y.ra false k) (lineOf y.ra) y.attrs.e) a
    rw [← hins] at hin hout
    split
    · next hl => rw [hin hl, lineWord_memLine hl, withoutWrites_line hl]
    · next hl => exact hout hl
  · cases hm : mayReadAhead ea s with
    | false => rw [speculate_not hc hm]
    | true =>
      obtain ⟨f, hf, n, e⟩ := speculate_reads hc hm
      rw [e]
      refine instrCopy_afterFetch (s := { s with free := s.free + n }) hi f a fun v hcach hv harr hw => ?_
      obtain ⟨y, hy⟩ := cachable_of_mem_fetchUnder hf hcach
      obtain ⟨hfwoa, -, hb, -⟩ := hy.filled v hv
      rw [hy.place] at hw
      refine hno y ⟨hy.xlate, hy.exec, hy.inhib, ?_, (instrCopy_none_iff s y.ra).mpr hw, hfwoa, harr, fun hmeet => ?_⟩
      · simpa only [mayReadAhead, hy.xlate, Bool.not_eq_true'] using hm
      · rw [(busErrorIn_fetch_iff _ _ _).mpr hmeet] at hb
        cases hb

/-- The inputs still to come make no difference to what is read. -/
theorem ReadsLine.of_env {s t : State} {env : List (List EnvInput)} {ea : Word} (h : ReadsLine { s with env := env } t ea) :
    ReadsLine s t ea := by
  obtain ⟨hfill, hnot⟩ := h
  refine ⟨fun y hy => ?_, fun hno => hnot hno⟩
  obtain ⟨k, hk⟩ := hfill y hy
  refine ⟨k, fun a => ?_⟩
  have ha := hk a
  rwa [memWord_withoutWrites_congr (s := s) (t := { s with env := env }) rfl rfl] at ha

theorem speculate_eq (ea : Word) (s : State) :
    ∃ ic n, speculate ea s = { s with sto := { s.sto with icache := ic }, free := n } := by
  obtain ⟨ic, n, e⟩ := readInstr_eq (aheadViews ea s) ea s
  exact ⟨ic, _, e⟩

/-! ### A step whose boundary brings one input (R104, R712) -/

/-- What the fetcher may have read ahead by a boundary. -/
def Ahead (s r : State) : Prop :=
  r = { s with pipe := { s.pipe with queue := r.pipe.queue }, sto := { s.sto with icache := r.sto.icache }, free := r.free } ∧
    (s.pipe.contexts = [] → icacheOk s = true → ReadsAhead s r s.pc)

theorem ahead_readAhead (s : State) : Ahead s (readAhead s.pc s) :=
  ⟨readAhead_step s.pc s, fun hc hi => readsAhead_readAhead hc hi s.pc⟩

/-- A step that goes on with the core's own work after what an input does. -/
def GoesOn (s : State) (rest : List (List EnvInput)) (act : State → State) : Prop :=
  ∃ r, Ahead s r ∧ step s = runCore false { act r with env := rest }

/-- The state that an input finds. -/
def atBoundary (s : State) (rest : List (List EnvInput)) : State := { readAhead s.pc s with env := rest }

section
variable {s : State} {rest : List (List EnvInput)} {e : EnvInput}

/-- A step whose boundary brings one input applies it, and goes on unless it was a reset. -/
theorem step_input (he : s.env = [e] :: rest) (hb : s.inp.bus = []) :
    step s =
      if (applyInput e (atBoundary s rest)).2 then .next (applyInput e (atBoundary s rest)).1
      else runCore false (applyInput e (atBoundary s rest)).1 := by
  have hbus : busLeftOver s = s := by simp [busLeftOver, hb]
  simp only [step, runStep, hbus, he, applyInputs, Bool.or_false]
  rfl

/-- An input that is no reset leaves the core to its own work. -/
theorem goesOn_of_applyInput (he : s.env = [e] :: rest) (hb : s.inp.bus = []) {act : State → State}
    (h : applyInput e (atBoundary s rest) = ({ act (readAhead s.pc s) with env := rest }, false)) : GoesOn s rest act := by
  refine ⟨_, ahead_readAhead s, ?_⟩
  rw [step_input he hb, h]
  rfl

theorem step_clock (he : s.env = [.clocks 1] :: rest) (hb : s.inp.bus = []) :
    step s = if (timerClock (atBoundary s rest)).2 then .next (timerClock (atBoundary s rest)).1
      else runCore false (timerClock (atBoundary s rest)).1 := by
  rw [step_input he hb]
  simp [applyInput, timerClocks]

theorem goesOn_unconditionalEvent (he : s.env = [.unconditionalEvent] :: rest) (hb : s.inp.bus = []) :
    GoesOn s rest fun r => { r with dbg := { r.dbg with
      run := if dbEDM s then .stopped else if debugWaitMode s then .debugWait else s.dbg.run
      dbsr := r.dbg.dbsr ||| 0x08000000#32 ||| (if dbIDM s && !msrDE s then 0x00100000#32 else 0#32) } } := by
  refine goesOn_of_applyInput he hb ((applyInput_unconditionalEvent _).trans ?_)
  rw [atBoundary, readAhead_eq]
  rfl

theorem goesOn_busWrite {bytes : List (Word × Byte)} (he : s.env = [.busWrite bytes] :: rest) (hb : s.inp.bus = [])
    (hm : memOk s = true) :
    ∃ m l, GoesOn s rest (fun r => { r with sto := { r.sto with mem := m, late := l } }) ∧
      ∀ a, memByte { s with sto := { s.sto with mem := m } } a = (bytes.reverse.lookup a).getD (memByte s a) := by
  obtain ⟨m, l, e⟩ := outsideBytes_eq bytes (atBoundary s rest)
  have hmem : (atBoundary s rest).sto.mem = s.sto.mem := by rw [atBoundary, readAhead_eq]
  have hbyte (a : Word) : memByte (atBoundary s rest) a = memByte s a := by simp only [memByte, hmem]
  have hm' : memOk (atBoundary s rest) = true := by simpa only [memOk, hmem] using hm
  refine ⟨m, l, goesOn_of_applyInput he hb (Prod.ext e rfl), fun a => ?_⟩
  rw [← hbyte a, ← memByte_outsideBytes hm' bytes a, e]
  rfl

theorem dcrPut_of_none {n : Nat} {m : DcrSpace} (h : m.lookup n = none) (d : DcrDevice) : dcrPut n d m = m := by
  induction m with
  | nil => rfl
  | cons p m ih =>
    obtain ⟨j, f⟩ := p
    by_cases hj : n = j
    · simp [hj] at h
    · rw [List.lookup_cons, beq_false_of_ne hj] at h
      rw [dcrPut, if_neg (Ne.symm hj), ih h]

theorem goesOn_dcrChange {n : Nat} {d : DcrDevice} (he : s.env = [.dcrChange n d] :: rest) (hb : s.inp.bus = []) :
    ∃ m, GoesOn s rest (fun r => { r with dcr := m }) ∧
      ∀ k, m.lookup k = if k = n ∧ s.dcr.lookup n ≠ none then some d else s.dcr.lookup k := by
  refine ⟨dcrPut n d s.dcr, goesOn_of_applyInput he hb (by rw [atBoundary, readAhead_eq]; rfl), fun k => ?_⟩
  cases hl : s.dcr.lookup n with
  | none => simp [dcrPut_of_none hl]
  | some f => simp [lookup_dcrPut hl]

theorem goesOn_speculativeFetch {ea : Word} (he : s.env = [.speculativeFetch ea] :: rest) (hb : s.inp.bus = []) :
    ∃ r c n, Ahead s r ∧
      let u : State := { r with sto := { r.sto with icache := c }, free := n }
      step s = runCore false { u with env := rest } ∧ (s.pipe.contexts = [] → icacheOk s = true → ReadsLine r u ea) := by
  obtain ⟨c, n, e⟩ := speculate_eq ea (atBoundary s rest)
  refine ⟨_, c, n, ahead_readAhead s, ?_, fun hc hi => .of_env (env := rest) ?_⟩
  · rw [step_input he hb]
    exact congrArg (runCore false) e
  · have hc' : (atBoundary s rest).pipe.contexts = [] := by
      rw [atBoundary, readAhead_eq]
      exact hc
    have hr := readsLine_speculate hc' (linesFrom_readAhead hc hi s.pc).ok ea
    rw [e] at hr
    exact hr

theorem step_resetRequest {kind : ResetKind} (he : s.env = [.resetRequest kind] :: rest) (hb : s.inp.bus = []) :
    ∃ t, step s = .next t ∧ t.pc = 0xFFFFFFFC#32 ∧ t.msr = 0#32 ∧
      field t.dbg.dbsr 22 2 = field (kind.code <<< 8) 22 2 ∧ field t.tmr.tsr 2 2 = field s.tmr.tsr 2 2 := by
  refine ⟨_, step_input he hb, rfl, rfl, coreReset_mrr kind _ _, (coreReset_wrs kind _ _).trans ?_⟩
  rw [atBoundary, readAhead_eq]

/-- A stopped core counts the clock and does nothing else. -/
theorem step_clock_stopped (he : s.env = [.clocks 1] :: rest) (hb : s.inp.bus = []) (hs : s.dbg.run = .stopped)
    (hft : bit s.dbg.dbcr0 31 = false) (h2 : bit s.tmr.tcr 2 = false) (h3 : bit s.tmr.tcr 3 = false) :
    ∃ t, step s = .next t ∧ t.pc = s.pc ∧ t.gpr = s.gpr ∧ t.tmr.tbl = s.tmr.tbl + 1#32 := by
  have hwrc : field s.tmr.tcr 2 2 = 0#2 := by
    rw [bit_toNat _ (by decide), decide_eq_false_iff_not] at h2 h3
    rw [BitVec.toNat_eq, field_toNat]
    simp only [BitVec.toNat_ofNat]
    omega
  have hfrozen : timersFrozen (atBoundary s rest) = false := by
    rw [atBoundary, readAhead_eq, timersFrozen_eq]
    simp [hft]
  have hresets (v : Word) : tblResets (atBoundary s rest) v = false := by
    rw [atBoundary, readAhead_eq]
    simp [tblResets, hwrc]
  have hrun : (counted (atBoundary s rest)).dbg.run = .stopped := by
    rw [atBoundary, readAhead_eq]
    exact hs
  rw [step_clock he hb, timerClock_plain hfrozen (hresets _)]
  refine ⟨_, if_pos hrun, ?_⟩
  rw [atBoundary, readAhead_eq]
  exact ⟨rfl, rfl, rfl⟩

end

/-- Settles O59: a clock is a write of the next TBL value once TBU and the PIT have counted (`timerClock_counts`), and each input
is one state after what the fetcher has read ahead (`goesOn_of_applyInput`). -/
theorem timerClockAndInputs : Obligations.TimerClock := by
  refine ⟨fun s => ?_, fun s rest e he hb => ?_⟩
  · intro r old new rises fit dog frozen resets
    have hfit : fitRises s new = fit := congrArg rises (fitBit_eq (field old.tcr 6 2))
    have hdog : watchdogRises s new = dog := congrArg rises (watchdogBit_eq (field old.tcr 0 2))
    have hfrozen : timersFrozen s = frozen := timersFrozen_eq s
    have hresets : tblResets s new = resets := by rw [tblResets, hdog]
    refine ⟨fun hf => timerClock_frozen (hfrozen.trans hf), fun hf hr => ?_, fun hf hr => ?_⟩
    · obtain ⟨kind, hcode, e⟩ := timerClock_resets (hfrozen.trans hf) (hresets.trans hr)
      rw [show r = _ from e]
      exact ⟨rfl, rfl, rfl, coreReset_wrs kind _ _, (coreReset_mrr kind _ _).trans hcode, coreReset_wrc kind _ _⟩
    · have htsr (k : Nat) (hk : k < 32) := bit_timerClock_tsr (hfrozen.trans hf) (hresets.trans hr) hk
      have e : r = _ := timerClock_plain (hfrozen.trans hf) (hresets.trans hr)
      rw [hfit, hdog] at htsr
      refine ⟨congrArg Prod.snd e, ?_, congrArg (·.1.tmr.pit) e, htsr, by rw [e]; rfl⟩
      rw [e]
      exact timeBase_succ _ _
  · refine ⟨fun h => ?_, fun _ h => ?_, fun _ h => ?_, fun h => ?_, fun h => ?_, fun h => ?_, fun _ h => ?_, fun _ h hm => ?_,
      fun _ _ h => ?_, fun _ h => ?_, fun kind h => ?_, fun h => ?_, fun hs h hft h2 h3 => ?_⟩ <;> subst h
    · exact ⟨_, ahead_readAhead s, step_clock he hb⟩
    · exact goesOn_of_applyInput he hb rfl
    · exact goesOn_of_applyInput he hb rfl
    · exact goesOn_of_applyInput he hb rfl
    · exact goesOn_of_applyInput he hb rfl
    · exact goesOn_of_applyInput he hb rfl
    · exact goesOn_of_applyInput he hb rfl
    · exact goesOn_busWrite he hb hm
    · exact goesOn_dcrChange he hb
    · exact goesOn_speculativeFetch he hb
    · obtain ⟨t, hs, hpc, hmsr, hmrr, hwrs⟩ := step_resetRequest he hb
      refine ⟨t, hs, hpc, hmsr, hmrr.trans ?_, hwrs⟩
      cases kind <;> rfl
    · exact goesOn_unconditionalEvent he hb
    · exact step_clock_stopped he hb hs hft h2 h3

end Sys2Proof.Machine
end

section
/-! SUPPORT. The asynchronous interrupts in the order of the priority table, and the wait state (R604 to R607, R610, R622, R625, R650,
R652 to R654, R690, R742). -/

namespace Sys2Proof.Machine

/-- The interrupts that come after the machine check, in falling priority: whether each is due, whether it is critical, and its
vector (R610). -/
def asyncTable (s : State) : List (Bool × Bool × Word) :=
  [(debugDue s, true, 0x2000#32), (criticalDue s, true, 0x0100#32), (watchdogDue s, true, 0x1020#32),
   (externalDue s, false, 0x0500#32), (fitDue s, false, 0x1010#32), (pitDue s, false, 0x1000#32)]

/-- The kind of entry of a row of the table. -/
def tableClass (critical : Bool) : IntClass := if critical then .critical else .noncritical

/-- Without the exception event the interrupt taken is the machine check, else the first of the table that is due. -/
theorem asyncInterrupt_eq {s : State} (he : dbEDE s = false) :
    asyncInterrupt s =
      if dataCheckDue s then
        some (enter .machineCheck 0x0200#32 s.pc { s with inp := { s.inp with dataMachineCheck := false } })
      else ((asyncTable s).find? (·.1)).map fun e => enter (tableClass e.2.1) e.2.2 s.pc s := by
  have plain (c : IntClass) (off : Word) := takeInterrupt_plain (c := c) (off := off) (a := s.pc) he
  have check := takeInterrupt_plain (c := .machineCheck) (off := 0x0200#32) (a := s.pc)
    (s := { s with inp := { s.inp with dataMachineCheck := false } }) he
  rw [asyncInterrupt, check]
  simp only [plain, asyncTable, List.find?_cons]
  cases dataCheckDue s
  case true => rfl
  cases debugDue s
  case true => rfl
  cases criticalDue s
  case true => rfl
  cases watchdogDue s
  case true => rfl
  cases externalDue s
  case true => rfl
  cases fitDue s
  case true => rfl
  cases pitDue s <;> rfl

/-- A step with no input at its boundary is the core's own work (R611). -/
theorem step_noInput {s : State} (he : s.env = []) (hb : s.inp.bus = []) : step s = runCore true s := by
  have hl : busLeftOver s = s := by simp [busLeftOver, hb]
  simp only [step, runStep, hl, he]

theorem step_async {s t : State} (he : s.env = []) (hb : s.inp.bus = []) (hr : s.dbg.run = .running)
    (ha : asyncInterrupt s = some t) : step s = .next t := by
  simp [step_noInput he hb, runCore, hr, ha]

/-- In the wait state with no interrupt due and no input the machine stays as it is (R690). -/
theorem step_waits {s : State} (he : s.env = []) (hb : s.inp.bus = []) (hr : s.dbg.run = .running)
    (ha : asyncInterrupt s = none) (hw : msrWE s = true) : step s = .next s := by
  simp [step_noInput he hb, runCore, hr, ha, hw]

/-- Entry at a row of the table, out of debug wait (R604, R605). -/
theorem enter_tableClass (critical : Bool) (off a : Word) {s : State} (h : s.dbg.run ≠ .debugWait) :
    enter (tableClass critical) off a s =
      { s with exc := if critical then { s.exc with srr2 := wordAligned a, srr3 := s.msr }
                      else { s.exc with srr0 := wordAligned a, srr1 := s.msr },
               msr := s.msr &&& (if critical then 0x00001000#32 else 0x00021200#32),
               pc := vectorAddress s off, pipe := Pipe.empty } := by
  cases critical
  · exact enter_noncritical off a s h
  · exact enter_critical off a s h

/-- Settles O58: the interrupt taken is the machine check or the first row of the table that is due (`asyncInterrupt_eq`). -/
theorem asynchronousInterrupts : Obligations.AsynchronousInterrupts := by
  intro s he hb hr hede check debug table
  have hnw : s.dbg.run ≠ .debugWait := by simp [hr]
  have htable : table = asyncTable s := by
    have statusLast (status enable msr : Bool) : (status && enable && msr) = (enable && msr && status) := by
      rw [Bool.and_assoc, Bool.and_comm]
    simp only [table, statusLast (bit s.tmr.tsr _)]
    rfl
  have hasync := asyncInterrupt_eq hede
  rw [htable]
  refine ⟨fun hc => ?_, fun hc => ?_⟩
  · rw [if_pos (show dataCheckDue s = true from hc)] at hasync
    rw [step_async he hb hr hasync]
    exact congrArg Host.Outcome.next (enter_machineCheck _ _ { s with inp := { s.inp with dataMachineCheck := false } } hnw)
  · rw [if_neg (show ¬ dataCheckDue s = true from Bool.eq_false_iff.mp hc)] at hasync
    refine ⟨fun e hfind => ?_, fun hnone hwait => ?_⟩
    · rw [hfind] at hasync
      rw [step_async he hb hr hasync]
      exact congrArg Host.Outcome.next (enter_tableClass _ _ _ hnw)
    · rw [hnone] at hasync
      exact step_waits he hb hr hasync hwait

end Sys2Proof.Machine
end

section
/-! SUPPORT. The branches, the returns from interrupt, the barriers and the moves of CR and XER (R195, R204, R450 to R456, R532, R533,
R560 to R565, R670). -/

namespace Sys2Proof.Machine

/-! ### Branches (R450 to R454, R456) -/

/-- The decision of a conditional branch (R456). -/
theorem branchTaken_iff (s : State) (bo bi : BitVec 5) :
    branchTaken s bo bi = true ↔
      (bo.getMsbD 2 = true ∨ (if bo.getMsbD 3 then countAfter bo s.ctr = 0#32 else countAfter bo s.ctr ≠ 0#32)) ∧
        (bo.getMsbD 0 = true ∨ bit s.cr bi.toNat = bo.getMsbD 1) := by
  have hcount : ctrOk bo (countAfter bo s.ctr) = true ↔
      bo.getMsbD 2 = true ∨ (if bo.getMsbD 3 then countAfter bo s.ctr = 0#32 else countAfter bo s.ctr ≠ 0#32) := by
    cases h : bo.getMsbD 3 <;> simp [ctrOk, h]
  have hcond : condOk bo (crBit s bi) = true ↔ bo.getMsbD 0 = true ∨ bit s.cr bi.toNat = bo.getMsbD 1 := by
    simp [condOk, crBit]
  rw [branchTaken, Bool.and_eq_true, hcount, hcond]

/-- A branch of a quiet state writes CTR, LR with LK, and the pc, and a taken one discards the prefetch queue (R204, R450). -/
theorem branchTo_quiet {s : State} (hq : quiet s = true) (taken : Bool) (target ctr : Word) (lk : Bool) :
    branchTo taken target ctr lk s =
      { s with ctr := ctr, lr := if lk then s.pc + 4#32 else s.lr, pc := if taken then target else s.pc + 4#32,
               pipe := if taken then { s.pipe with queue := [] } else s.pipe } := by
  have hev : (if taken then branchBits s else 0#32) = 0#32 := by simp [branchBits, quiet_dbBT hq]
  rw [branchTo, hev, beforeEvent_zero]
  cases taken <;> exact complete_plain (quiet_dbIC hq) _ _

/-- Settles O29: each form is `branchTo` at its decision, target and count. -/
theorem branches : Obligations.Branches := by
  intro s bo bi d26 d16 aa lk hq base count holds
  have htaken : branchTaken s bo bi = holds := by
    rw [Bool.eq_iff_iff, branchTaken_iff]
    simp only [holds, decide_eq_true_eq]
    rfl
  have runs {i : Instr} {taken : Bool} {target ctr : Word}
      (h : exec i s = .next (branchTo taken (wordAligned target) ctr lk s)) :
      ∃ t, exec i s = .next t ∧
        t = { s with ctr := ctr, lr := if lk then s.pc + 4#32 else s.lr,
                     pc := if taken then target &&& 0xFFFFFFFC#32 else s.pc + 4#32,
                     pipe := if taken then { s.pipe with queue := [] } else s.pipe } :=
    ⟨_, h, branchTo_quiet hq taken (wordAligned target) ctr lk⟩
  rw [← htaken]
  rw [List.forall_mem_append]
  iterate 3 rw [List.forall_mem_cons]
  refine ⟨⟨runs rfl, runs rfl, runs rfl, List.forall_mem_nil _⟩, ?_⟩
  split
  · rename_i hbo
    exact List.forall_mem_cons.mpr ⟨runs (if_pos hbo), List.forall_mem_nil _⟩
  · exact List.forall_mem_nil _

/-! ### Returns from interrupt (R532, R533, R670) -/

/-- Bit 31 of an X-form opens at most CR0 of the state whose CR is kept (R241). -/
theorem bit31_undefinedCr0 {s u : State} (h : u.cr = s.cr) (x31 : Bool) (pc : Word) :
    Bit31 s { undefinedCr0 x31 u with pc := pc } x31 := by
  refine ⟨fun hx => by subst hx; exact h, fun i hi hi' => ?_⟩
  rw [← h]
  exact bit_undefinedCr0 hi' (.inr hi) u

/-- Away from a handler run out of debug wait a return takes the pc and the MSR, and leaves nothing fetched earlier (R195, R670). -/
theorem returnFrom_running {s : State} (hr : s.dbg.run = .running) (a m : Word) :
    returnFrom a m s =
      { s with pc := wordAligned a, pipe := Pipe.empty
               msr := if s.params.mmuEnabled then m else m &&& ~~~(weight 26 ||| weight 27) } := by
  rw [returnFrom, if_neg (by simp [hr])]
  rfl

/-- A state whose general registers are those of another with one written. -/
theorem writesGpr_of_gpr {s t u : State} {r : Reg} {v : Word} (hu : u.gpr = s.gpr) (h : t.gpr = (setGpr r v u).gpr) :
    WritesGpr s t r v := by
  refine ⟨?_, fun q hne => ?_⟩
  · rw [gpr_congr h, gpr_setGpr_self]
  · rw [gpr_congr h, gpr_setGpr_ne hne.symm, gpr_congr hu]

theorem exec_return {s : State} (hq : quiet s = true) (hp : bit s.msr 17 = false) (hr : s.dbg.run = .running) {i : Instr}
    {a m : Word} {x31 : Bool} (he : exec i s = .next (privileged (fun s => returnStep a m x31 s) s)) :
    ∃ t, exec i s = .next t ∧ t.msr = (if s.params.mmuEnabled then m else m &&& 0xFFFFFFCF#32) ∧
      t.pc = a &&& 0xFFFFFFFC#32 ∧ Bit31 s t x31 ∧
      t = { s with msr := t.msr, pc := t.pc, cr := t.cr, free := t.free, pipe := Pipe.empty } := by
  refine ⟨_, he, ?_⟩
  rw [privileged_supervisor hp, returnStep, complete_plain (quiet_dbIC hq), returnFrom_running hr]
  exact ⟨by simp; rfl, rfl, bit31_undefinedCr0 rfl x31 _, by cases x31 <;> rfl⟩

/-- Settles O48: both are `returnStep` in the supervisor state. -/
theorem returns : Obligations.Returns := by
  intro s x31 hq hp hr
  simp only [List.forall_mem_cons]
  exact ⟨exec_return hq hp hr rfl, exec_return hq hp hr rfl, List.forall_mem_nil _⟩

/-! ### Barriers and moves (R560 to R565) -/

/-- The mask of FXM has the bits of the fields that FXM selects (R565). -/
theorem bit_fieldMask (fxm : BitVec 8) {k : Nat} (hk : k < 32) : bit (fieldMask fxm) k = fxm.getMsbD (k / 4) := by
  have selected (n : Nat) (hn : n ≤ 8) :
      bit ((List.range n).foldl (fun m j => if fxm.getMsbD j then m ||| (0xF0000000#32 >>> (4 * j)) else m) 0#32) k =
        (decide (k / 4 < n) && fxm.getMsbD (k / 4)) := by
    induction n with
    | zero => simp [bit_zero]
    | succ n ih =>
      have hfield : bit (0xF0000000#32 >>> (4 * n)) k = decide (k / 4 = n) := by
        rw [bit_ushiftRight _ _ hk, bit_topFour (by omega)]
        simp only [← Bool.decide_and, decide_eq_decide]
        omega
      have hstep (m : Word) : bit (if fxm.getMsbD n then m ||| (0xF0000000#32 >>> (4 * n)) else m) k =
          (bit m k || (decide (k / 4 = n) && fxm.getMsbD n)) := by
        split <;> simp_all
      rw [List.range_succ, List.foldl_append, List.foldl_cons, List.foldl_nil, hstep, ih (by omega)]
      by_cases h : k / 4 = n
      · simp [h]
      · simp [h, show k / 4 < n + 1 ↔ k / 4 < n by omega]
  rw [fieldMask, selected 8 (le_refl 8)]
  simp [show k / 4 < 8 by omega]

theorem bit_mtcrf (a cr : Word) (fxm : BitVec 8) {k : Nat} (hk : k < 32) :
    bit ((a &&& fieldMask fxm) ||| (cr &&& ~~~(fieldMask fxm))) k = if fxm.getMsbD (k / 4) then bit a k else bit cr k := by
  rw [bit_or, bit_and, bit_and, bit_not _ hk, bit_fieldMask _ hk]
  cases fxm.getMsbD (k / 4) <;> simp

/-- The four bits that a field written and then perhaps opened by bit 31 holds, and the bits outside it (R33, R241). -/
theorem bit_undefinedCr0_field {cr : Word} {bf : BitVec 3} {v : BitVec 4} {u : State} (hu : u.cr = putCrField cr bf v)
    (x31 : Bool) :
    (x31 = false ∨ bf ≠ 0#3 → ∀ j, j < 4 → bit (undefinedCr0 x31 u).cr (4 * bf.toNat + j) = v.getMsbD j) ∧
      ∀ k, k < 32 → (k < 4 * bf.toNat ∨ 4 * bf.toNat + 4 ≤ k) → (x31 = false ∨ 4 ≤ k) →
        bit (undefinedCr0 x31 u).cr k = bit cr k := by
  have hbf : bf.toNat < 8 := bf.isLt
  refine ⟨fun h j hj => ?_, fun k hk hout h => ?_⟩
  · have hopen : x31 = false ∨ 4 ≤ 4 * bf.toNat + j := h.imp_right fun h0 => by
      have : bf.toNat ≠ 0 := fun e => h0 (BitVec.eq_of_toNat_eq e)
      omega
    rw [bit_undefinedCr0 (by omega) hopen, hu, bit_putCrField _ _ _ (by omega), if_pos ⟨by omega, by omega⟩,
      Nat.add_sub_cancel_left]
  · rw [bit_undefinedCr0 hk h, hu, bit_putCrField _ _ _ hk, if_neg (by omega)]

/-- Settles O51: a barrier or a move is its effect, perhaps an opened CR0, and the pc moved on. -/
theorem processorMoves : Obligations.ProcessorMoves := by
  intro s r bf fxm x31 hq settled
  have moves {i : Instr} {u : State} (he : exec i s = .next (advance s (undefinedCr0 x31 u))) :
      exec i s = .next { undefinedCr0 x31 u with pc := s.pc + 4#32 } := by rw [he, advance_quiet hq]
  refine ⟨?_, ⟨_, moves (i := .mfcr r x31) rfl, ?_⟩, ⟨_, congrArg Host.Outcome.next (advance_quiet hq _), ?_⟩,
    ⟨_, moves (i := .mcrxr bf x31) rfl, ?_⟩⟩
  · simp only [List.forall_mem_cons]
    exact ⟨⟨_, moves (i := .eieio x31) rfl, bit31_undefinedCr0 rfl x31 _, rfl, by cases x31 <;> rfl⟩,
      ⟨_, moves (i := .sync x31) rfl, bit31_undefinedCr0 rfl x31 _, rfl, by cases x31 <;> rfl⟩,
      ⟨_, moves (i := .isync x31) rfl, bit31_undefinedCr0 rfl x31 _, rfl, by cases x31 <;> rfl⟩, List.forall_mem_nil _⟩
  · exact ⟨writesGpr_of_gpr rfl (undefinedCr0_gpr x31 _), bit31_undefinedCr0 rfl x31 _, rfl, by cases x31 <;> rfl⟩
  · exact ⟨fun k hk => bit_mtcrf _ _ _ hk, rfl⟩
  · obtain ⟨written, others⟩ := bit_undefinedCr0_field (cr := s.cr) (bf := bf)
      (u := { setCrField bf (crBits (xerSO s) (bit s.xer 1) (xerCA s) false) s with xer := s.xer &&& 0x1FFFFFFF#32 }) rfl x31
    obtain ⟨hso, hov, hca, hzero⟩ := crBits_getMsbD (xerSO s) (bit s.xer 1) (xerCA s) false
    exact ⟨fun h => ⟨(written h 0 (by decide)).trans hso, (written h 1 (by decide)).trans hov,
      (written h 2 (by decide)).trans hca, (written h 3 (by decide)).trans hzero⟩, others, by cases x31 <;> rfl⟩

end Sys2Proof.Machine
end

section
/-! SUPPORT. The TLB search of `tlbsx` and of translation, and real mode (R150 to R154, R170, R178, R514, R542). -/

namespace Sys2Proof.Machine

/-! ### Translation (R150 to R153, R170) -/

/-- What translation through an entry gives: the page's real address, attributes and permissions (R152, R170). -/
structure Through (s : State) (e : TlbEntry) (ea : Word) (x : Xlate) : Prop where
  ra    : x.ra.toNat = e.rpn.toNat * 1024 / pageBytes e * pageBytes e + ea.toNat % pageBytes e
  attrs : x.attrs = { w := e.w, i := e.i, g := e.g, u0 := e.u0, e := e.e }
  real  : x.real = false
  ex    : x.ex = e.ex
  wr    : x.wr = e.wr
  zone  : x.zone.toNat = zoneNat s e

theorem through_xlateTlb (s : State) (e : TlbEntry) (ea : Word) : Through s e ea (xlateTlb s e ea) :=
  ⟨realAddress_toNat e ea, rfl, rfl, rfl, rfl, zoneField_toNat s e⟩

theorem xlate_firstMatch {s : State} {ea : Word} {n : Fin 64} (h : FirstMatch s ea n) (cachable : Word) :
    xlate s true cachable ea = some (xlateTlb s s.mmu.tlb[n] ea) := by
  rw [xlate, if_pos rfl, tlbLookup_first h]
  rfl

theorem xlate_noMatch {s : State} {ea : Word} (h : ∀ n, ¬ Matches s ea n) (cachable : Word) :
    xlate s true cachable ea = none := by
  rw [xlate, if_pos rfl, tlbLookup_none h]
  rfl

theorem xlateData_eq (s : State) (ea : Word) : xlateData s ea = xlate s (bit s.msr 27) s.attr.dccr ea := rfl

theorem xlateIcacheOp_eq (s : State) (ea : Word) : xlateIcacheOp s ea = xlate s (bit s.msr 27) s.attr.iccr ea := rfl

theorem xlateFetch_eq (s : State) (ea : Word) : xlateFetch s ea = xlate s (bit s.msr 26) s.attr.iccr ea := rfl

/-- What an address is in real mode: itself, free of checks, with the attributes of its region (R150, R170). -/
structure RealAddress (s : State) (cachable ea : Word) (x : Xlate) : Prop where
  ra      : x.ra = ea
  real    : x.real = true
  readOk  : readOk s x = true
  writeOk : writeOk s x = true
  execOk  : execOk s x = true
  attrs   : x.attrs = { w := bit s.attr.dcwr (ea.toNat / 2 ^ 27), i := !bit cachable (ea.toNat / 2 ^ 27),
                        g := bit s.attr.sgr (ea.toNat / 2 ^ 27), u0 := bit s.attr.su0r (ea.toNat / 2 ^ 27),
                        e := bit s.attr.sler (ea.toNat / 2 ^ 27) }

theorem xlate_real (s : State) (cachable ea : Word) :
    ∃ x, xlate s false cachable ea = some x ∧ RealAddress s cachable ea x :=
  ⟨xlateReal s cachable ea, rfl, rfl, rfl, rfl, rfl, rfl, by simp only [xlateReal, regionBit_eq]⟩

/-! ### `tlbsx` (R542) -/

/-- CR0 written with LT and GT 0 and SO copied. -/
theorem writesCrField_eq {s t : State} {eq : Bool}
    (h : t.cr = putCrField s.cr 0#3 (crBits false false eq (xerSO s))) :
    WritesCrField s t 0#3 false false eq (bit s.xer 0) := by
  have hbit {k : Nat} (hk : k < 32) := h ▸ bit_putCrField s.cr 0#3 (crBits false false eq (xerSO s)) hk
  obtain ⟨hlt, hgt, heq, hso⟩ := crBits_getMsbD false false eq (xerSO s)
  refine ⟨(hbit (by decide)).trans hlt, (hbit (by decide)).trans hgt, (hbit (by decide)).trans heq,
    (hbit (by decide)).trans hso, fun i hi hout => ?_⟩
  rw [hbit hi, if_neg (by omega)]

/-- What `tlbsx` leaves, whether it finds an entry or not: RT takes a word, and with Rc CR0[EQ] tells which (R542). -/
structure Searched (s t : State) (rt : Reg) (rc eq : Bool) (v : Word) : Prop where
  gpr  : WritesGpr s t rt v
  cr0  : rc = true → WritesCrField s t 0#3 false false eq (bit s.xer 0)
  cr   : rc = false → t.cr = s.cr
  pc   : t.pc = s.pc + 4#32
  rest : t = { s with gpr := t.gpr, pc := t.pc, cr := t.cr, free := t.free }

/-- A word put in RT, with `k` free values drawn and with Rc CR0 recorded. -/
theorem searched_advance {s : State} (hq : quiet s = true) (rt : Reg) (rc eq : Bool) (v : Word) (k : Nat) :
    Searched s
      (advance s (undefinedCr0 false
        (if rc then setCrField 0#3 (crBits false false eq (xerSO s)) (drawn k (setGpr rt v s)) else drawn k (setGpr rt v s))))
      rt rc eq v := by
  rw [advance_quiet hq]
  cases rc
  · exact ⟨writesGpr_of_gpr rfl rfl, nofun, fun _ => rfl, rfl, rfl⟩
  · exact ⟨writesGpr_of_gpr rfl rfl, fun _ => writesCrField_eq rfl, nofun, rfl, rfl⟩

theorem exec_tlbsx {s : State} (hp : bit s.msr 17 = false) (hm : s.params.mmuEnabled = true) (rt ra rb : Reg) (rc : Bool) :
    exec (.tlbsx rt ra rb rc) s = .next (advance s (undefinedCr0 false (searchTlb rt (eaX s ra rb) rc s))) := by
  change Host.Outcome.next (tlbStep false _ s) = _
  rw [tlbStep, if_pos hm, privilegedStep, privileged_supervisor hp]

theorem tlbsx_hit {s : State} (hq : quiet s = true) (hp : bit s.msr 17 = false) (hm : s.params.mmuEnabled = true)
    {rt ra rb : Reg} {rc : Bool} {n : Fin 64} (h : FirstMatch s (eaX s ra rb) n) :
    ∃ t, exec (.tlbsx rt ra rb rc) s = .next t ∧ Searched s t rt rc true (BitVec.ofNat 32 n.val) := by
  refine ⟨_, exec_tlbsx hp hm rt ra rb rc, ?_⟩
  rw [searchTlb, tlbLookup_first h]
  exact searched_advance hq rt rc true _ 0

theorem tlbsx_miss {s : State} (hq : quiet s = true) (hp : bit s.msr 17 = false) (hm : s.params.mmuEnabled = true)
    {rt ra rb : Reg} {rc : Bool} (h : ∀ n, ¬ Matches s (eaX s ra rb) n) :
    ∃ t, exec (.tlbsx rt ra rb rc) s = .next t ∧ Searched s t rt rc false (freeNow s) := by
  refine ⟨_, exec_tlbsx hp hm rt ra rb rc, ?_⟩
  rw [searchTlb, tlbLookup_none h]
  exact searched_advance hq rt rc false _ 1

/-- Settles O50: the search is that of the lowest matching entry (`tlbLookup_first`, `tlbLookup_none`), and real mode is
`xlate_real`. -/
theorem tlbSearches : Obligations.TlbSearches := by
  intro s rt ra rb rc ea page searches region real
  have isReal {cachable : Word} {x : Xlate} (h : RealAddress s cachable ea x) : real cachable x :=
    ⟨h.ra, h.real, h.readOk, h.writeOk, h.execOk, h.attrs⟩
  rw [xlateData_eq, xlateIcacheOp_eq, xlateFetch_eq]
  refine ⟨fun n hn => ?_, fun hn => ?_, fun h => ?_, fun h => ?_, fun h => ?_⟩
  · intro e through
    have passes (cachable : Word) : through (xlate s true cachable ea) :=
      have hx := through_xlateTlb s e ea
      ⟨_, xlate_firstMatch hn cachable, hx.ra, hx.attrs, hx.real, hx.ex, hx.wr, hx.zone⟩
    refine ⟨fun hq hp hm => ?_, fun h => h ▸ passes _, fun h => h ▸ passes _⟩
    obtain ⟨t, he, h⟩ := tlbsx_hit hq hp hm (rt := rt) (rc := rc) hn
    exact ⟨t, he, h.gpr.1, h.gpr.2, h.cr0, h.cr, h.pc, h.rest⟩
  · refine ⟨fun hq hp hm => ?_, fun h => h ▸ xlate_noMatch hn _, fun h => h ▸ xlate_noMatch hn _⟩
    obtain ⟨t, he, h⟩ := tlbsx_miss hq hp hm (rt := rt) (rc := rc) hn
    exact ⟨t, he, trivial, h.gpr.2, h.cr0, h.cr, h.pc, h.rest⟩
  · rw [h]
    rfl
  · rw [h]
    exact ⟨(xlate_real s _ ea).imp fun _ => .imp_right isReal, (xlate_real s _ ea).imp fun _ => .imp_right isReal⟩
  · rw [h]
    exact (xlate_real s _ ea).imp fun _ => .imp_right isReal

end Sys2Proof.Machine
end

section
/-! SUPPORT. The number that bytes stand for (R131). -/

namespace Sys2Proof.Machine

/-- One more byte on the right of a word. -/
theorem shiftLeft_or_byte (n : Nat) (b : Byte) :
    (BitVec.ofNat 32 n <<< 8) ||| b.setWidth 32 = BitVec.ofNat 32 (256 * n + b.toNat) := by
  have hdisj : (BitVec.ofNat 32 n <<< 8) &&& b.setWidth 32 = 0#32 := by
    ext i hi
    by_cases h : i < 8
    · simp [h]
    · simp [h, BitVec.getLsbD_of_ge b i (by omega)]
  rw [← BitVec.add_eq_or_of_and_eq_zero _ _ hdisj]
  apply BitVec.eq_of_toNat_eq
  have := b.isLt
  simp only [BitVec.toNat_add, BitVec.toNat_shiftLeft, BitVec.toNat_ofNat, BitVec.toNat_setWidth, Nat.shiftLeft_eq]
  omega

/-- The word that bytes make is the number they stand for, the first the most significant (R131). -/
theorem bytesWord_eq (bs : List Byte) : bytesWord bs = BitVec.ofNat 32 (bs.foldl (fun n b => 256 * n + b.toNat) 0) := by
  have after (n : Nat) : bs.foldl (fun (acc : Word) b => (acc <<< 8) ||| b.setWidth 32) (BitVec.ofNat 32 n) =
      BitVec.ofNat 32 (bs.foldl (fun n b => 256 * n + b.toNat) n) := by
    induction bs generalizing n with
    | nil => rfl
    | cons b bs ih => rw [List.foldl_cons, List.foldl_cons, shiftLeft_or_byte, ih]
  exact after 0

theorem bytesWord_four (b0 b1 b2 b3 : Byte) : bytesWord [b0, b1, b2, b3] = wordOfBytes b0 b1 b2 b3 := by
  apply BitVec.eq_of_toNat_eq
  have h0 := b0.isLt
  have h1 := b1.isLt
  have h2 := b2.isLt
  have h3 := b3.isLt
  rw [bytesWord_eq, wordOfBytes]
  simp only [List.foldl_cons, List.foldl_nil, BitVec.toNat_ofNat, toNat_append_mul]
  omega

end Sys2Proof.Machine
end

section
/-! SUPPORT. The fetch of a ready machine (R132, R165, R174, R184, R203, R204, R611, R787): what word a read gives, what it does to the
instruction cache, and that reading ahead does not displace the line of the pc, which is the most recently used one of its class until
another line of the window has been put in. -/

namespace Sys2Proof.Machine

/-! ### Addresses of one line (R151, R152, R170) -/

theorem page_of_sameLine {a b : Word} (h : lineOf a = lineOf b) : field a 0 22 = field b 0 22 := by
  rw [lineOf_eq_iff] at h
  apply BitVec.eq_of_toNat_eq
  rw [field_toNat, field_toNat]
  omega

theorem lineOf_realAddress {a b : Word} (h : lineOf a = lineOf b) (t : TlbEntry) :
    lineOf (realAddress t b) = lineOf (realAddress t a) := by
  rw [lineOf_eq_iff] at h ⊢
  have hpage : pageBytes t = 32 * (32 * 4 ^ t.size.toNat) := by rw [pageBytes]; omega
  rw [realAddress_toNat, realAddress_toNat, hpage, Nat.mul_left_comm, Nat.mul_add_div (by decide), Nat.mul_add_div (by decide),
    Nat.mod_mul_right_div_self, Nat.mod_mul_right_div_self, h]

/-- Two addresses of one line are translated alike, into one line. -/
theorem xlate_sameLine {s : State} {on : Bool} {c a b : Word} {x : Xlate} (h : lineOf a = lineOf b)
    (hx : xlate s on c a = some x) : ∃ r, xlate s on c b = some { x with ra := r } ∧ lineOf r = lineOf x.ra := by
  have hp := page_of_sameLine h
  cases on
  · cases hx
    refine ⟨b, ?_, h.symm⟩
    simp only [xlate, Bool.false_eq_true, if_false, xlateReal, regionBit_page hp]
  · simp only [xlate, if_true, Option.map_eq_some_iff] at hx ⊢
    obtain ⟨t, ht, rfl⟩ := hx
    exact ⟨realAddress t.2 b, ⟨t, (tlbLookup_page hp).symm.trans ht, rfl⟩, lineOf_realAddress h t.2⟩

theorem iWay_line {a b : Word} (h : lineOf a = lineOf b) (s : State) : iWay s a = iWay s b := by
  simp only [iWay, iClass_eq, h]

/-! ### What one read may be (R174, R184, R203) -/

/-- The word that a read gives: the cache's, or storage's as the fetcher finds it (R174, R203). -/
theorem mem_fetchWords_gives {s : State} {ra : Word} {x : Attrs} {f : Fetch} (hb : s.params.busErrors = [])
    (hf : f ∈ fetchWords ra x s) :
    ∃ w, f.gives = .word w false ∧ (instrCopy s ra = some w ∨ ∃ k, w = memWord (withoutWrites s ra x.i k) ra x.e) := by
  have herr := busErrorIn_nil hb .fetch ra 4
  have found {m : State} (hm : m ∈ fetchImages s ra x.i) : ∃ k, memWord m ra x.e = memWord (withoutWrites s ra x.i k) ra x.e :=
    (fetchImages_mem hm).imp fun _ e => by rw [e]
  unfold fetchWords at hf
  split at hf
  · rename_i way hw
    have hcopy : instrCopy s ra = some (lineWord ((iSet s (iClass s ra)).get way).words ra) := by
      rw [instrCopy, (Option.filter_eq_some_iff.mp hw).1]
      rfl
    dsimp only at hf
    split at hf
    · rcases List.mem_append.mp hf with hf | hf
      · obtain ⟨m, hm, rfl⟩ := List.mem_map.mp hf
        exact ⟨_, by rw [herr]; rfl, .inr (found hm)⟩
      · rw [List.mem_singleton.mp hf]
        exact ⟨_, by rw [herr]; rfl, .inl hcopy⟩
    · rw [List.mem_singleton.mp hf]
      exact ⟨_, rfl, .inl hcopy⟩
  · obtain ⟨m, hm, rfl⟩ := List.mem_map.mp hf
    exact ⟨_, by rw [herr], .inr (found hm)⟩

/-- A read of cachable storage uses the line of its real address, and one of an absent line brings it unless FWOA is 1 or there is no
array (R184). -/
theorem mem_fetchWords_cachable {s : State} {ra : Word} {x : Attrs} {f : Fetch} (hb : s.params.busErrors = [])
    (hi : x.i = false) (hf : f ∈ fetchWords ra x s) :
    f.cachable = true ∧ f.ra = ra ∧
      (iWay s ra = none → ccrFWOA s = false → s.params.icacheSize.classes ≠ 0 → ∃ v, f.fill = some v) := by
  cases hw : iWay s ra with
  | some way =>
    rw [fetchWords_hit hi hw, List.mem_singleton] at hf
    subst hf
    exact ⟨rfl, rfl, nofun⟩
  | none =>
    have hseen : iSeen s x ra = none := by simp [iSeen, hw]
    simp only [fetchWords, hseen, hi] at hf
    obtain ⟨m, hm, rfl⟩ := List.mem_map.mp hf
    obtain ⟨k, rfl⟩ := fetchImages_mem hm
    refine ⟨rfl, rfl, fun _ hwoa hn => ?_⟩
    simp [hwoa, instrFill, withoutWrites_params, hn, busErrorIn_congr (withoutWrites_params s ra false k), busErrorIn_nil hb]

/-! ### The most recently used line (R184) -/

/-- The line of an address is in the instruction cache, the most recently used one of its class. -/
def MostRecent (s : State) (a : Word) : Prop := ∃ w, iWay s a = some w ∧ (iSet s (iClass s a)).lruB = !w

theorem MostRecent.of_line {s : State} {a b : Word} (h : lineOf a = lineOf b) (hm : MostRecent s a) : MostRecent s b := by
  obtain ⟨w, hw, hl⟩ := hm
  exact ⟨w, iWay_line h s ▸ hw, by rw [iClass_eq, ← h, ← iClass_eq, hl]⟩

theorem iWay_setISet {s : State} (hi : icacheOk s = true) (hn : s.params.icacheSize.classes ≠ 0) (a : Word) (d : ISet) :
    iWay (setISet (iClass s a) d s) a = d.way (lineOf a) := by
  rw [iWay, if_neg (show (setISet (iClass s a) d s).params.icacheSize.classes ≠ 0 from hn),
    show iClass (setISet (iClass s a) d s) a = iClass s a from rfl, iSet_setISet hi, if_pos rfl]

theorem mostRecent_touchInstrWay {s : State} (hi : icacheOk s = true) {a : Word} {w : Bool} (h : iWay s a = some w) :
    MostRecent (touchInstrWay (iClass s a) w s) a := by
  have hn := (iWay_get h).1
  refine ⟨w, ?_, ?_⟩
  · rw [touchInstrWay, iWay_setISet hi hn]
    rw [iWay, if_neg hn] at h
    cases w <;> exact h
  · change (iSet (setISet _ _ s) (iClass s a)).lruB = _
    rw [iSet_setISet hi, if_pos rfl]

theorem mostRecent_installInstrLine {s : State} (hi : icacheOk s = true) {a : Word} (hn : s.params.icacheSize.classes ≠ 0)
    (h : iWay s a = none) (v : Vector Word 8) : MostRecent (installInstrLine a v s) a := by
  refine ⟨(iSet s (iClass s a)).lruB, ?_, ?_⟩
  · have hother := instrLine_ne_of_iWay_none hn h false
    rw [installInstrLine, iWay_setISet hi hn]
    cases hl : (iSet s (iClass s a)).lruB with
    | false => simp [ISet.way, ISet.put]
    | true =>
      have habsent : ¬ ((iSet s (iClass s a)).a.valid = true ∧ (iSet s (iClass s a)).a.line = lineOf a) :=
        fun ⟨hv, he⟩ => hother hv he
      simp [ISet.way, ISet.put, habsent]
  · change (iSet (setISet _ _ s) (iClass s a)).lruB = _
    rw [iSet_setISet hi, if_pos rfl]

/-- A cachable read that finds its line or brings it leaves it the most recently used one. -/
theorem mostRecent_afterFetch {s : State} (hi : icacheOk s = true) {f : Fetch} (hc : f.cachable = true)
    (hn : s.params.icacheSize.classes ≠ 0) (hf : iWay s f.ra = none → ∃ v, f.fill = some v) :
    MostRecent (afterFetch f s) f.ra := by
  rw [afterFetch, if_pos hc]
  cases hw : iWay s f.ra with
  | some w => exact mostRecent_touchInstrWay hi hw
  | none =>
    obtain ⟨v, hv⟩ := hf hw
    simp only [hv, if_neg hn]
    exact mostRecent_installInstrLine hi hn hw v

/-- A line put in displaces the least recently used one of its class, and so not the most recently used one. -/
theorem MostRecent.instrCopy_install {s : State} (hi : icacheOk s = true) {a b ra : Word} (hm : MostRecent s a)
    (hb : lineOf b = lineOf a) (h : iWay s ra = none) (v : Vector Word 8) :
    instrCopy (installInstrLine ra v s) b = instrCopy s b := by
  obtain ⟨w, hw, hl⟩ := hm.of_line hb.symm
  obtain ⟨hn, hv, hline⟩ := iWay_get hw
  have hne : lineOf b ≠ lineOf ra := fun e => by rw [iWay_line e, h] at hw; cases hw
  rw [installInstrLine, instrCopy_setISet hi hn, instrCopy_eq, if_neg hn]
  by_cases hc : iClass s b = iClass s ra
  · have hkeep : ¬ (((iSet s (iClass s b)).get (!w)).valid = true ∧ lineOf b = ((iSet s (iClass s b)).get (!w)).line) := by
      intro ⟨hv', he⟩
      have hdup := ((ISet.ok_iff _ _ _).mp (icacheOk_iSet hi (iClass s b))).2.2
      rw [← hline] at he
      cases w
      · exact hdup ⟨hv, hv', he⟩
      · exact hdup ⟨hv', hv, he.symm⟩
    rw [if_pos hc, ISet.find_put (icacheOk_iSet hi (iClass s ra)) _ _ _
      (fun _ ho => instrLine_ne_of_iWay_none hn h _ ho), if_neg (by simp [hne]), ← hc, hl, if_neg hkeep]
  · rw [if_neg hc]

theorem MostRecent.instrCopy_afterFetch {s : State} (hi : icacheOk s = true) {a b : Word} (hm : MostRecent s a)
    (hb : lineOf b = lineOf a) (f : Fetch) : instrCopy (afterFetch f s) b = instrCopy s b := by
  rcases afterFetch_cases f s with e | ⟨w, hw, e⟩ | ⟨v, -, -, hw, -, e⟩ <;> rw [e]
  · exact instrCopy_touchInstrWay hi (iWay_get hw).1 _ _ _
  · exact hm.instrCopy_install hi hb hw v

/-! ### Reading ahead, line by line (R184, R204) -/

/-- A read at an effective address puts no line into the instruction cache: what it could put in is there. -/
def LinePresent (s : State) (ea : Word) : Prop :=
  ∀ y, xlateFetch s ea = some y → execOk s y = true → y.attrs.i = false → ccrFWOA s = false →
    s.params.icacheSize.classes ≠ 0 → iWay s y.ra ≠ none

theorem LinePresent.of_line {s : State} {a b : Word} (h : lineOf a = lineOf b) (hp : LinePresent s a) : LinePresent s b := by
  intro y hy he hi hwoa hn
  obtain ⟨r, hx, hr⟩ := xlate_sameLine h.symm hy
  rw [← iWay_line hr]
  exact hp _ hx he hi hwoa hn

theorem LinePresent.of_step {s t : State} {a : Word} (h : FetcherStep s t) (hcopy : ∀ b, instrCopy t b = instrCopy s b)
    (hp : LinePresent s a) : LinePresent t a := by
  intro y hy he hi hwoa hn
  rw [Ne, ← instrCopy_none_iff, hcopy, instrCopy_none_iff]
  rw [h] at hy he hwoa hn
  exact hp y hy he hi hwoa hn

theorem LinePresent.instrCopy_afterFetch {s : State} (hi : icacheOk s = true) {ea : Word} (hp : LinePresent s ea) {f : Fetch}
    (hf : f ∈ fetchUnder ea s) (a : Word) : instrCopy (afterFetch f s) a = instrCopy s a := by
  refine Machine.instrCopy_afterFetch hi f a fun v hc hv hn => ?_
  obtain ⟨y, hy⟩ := cachable_of_mem_fetchUnder hf hc
  rw [hy.place]
  exact hp y hy.xlate hy.exec hy.inhib (hy.filled v hv).1 hn

theorem afterFetch_step (f : Fetch) (s : State) : FetcherStep s (afterFetch f s) := by
  obtain ⟨ic, e⟩ := afterFetch_eq f s
  rw [e]
  rfl

/-- Once an address has been read its line is there, if it could be put in. -/
theorem linePresent_afterFetch {s : State} (hb : s.params.busErrors = []) (hi : icacheOk s = true) {ea : Word} {f : Fetch}
    (hf : f ∈ fetchUnder ea s) : LinePresent (afterFetch f s) ea := by
  intro y hy he hinh hwoa hn
  rw [afterFetch_step f s] at hy he hwoa hn
  have hx : xlateFetch s ea = some y := hy
  rw [fetchUnder_ok hx he] at hf
  obtain ⟨hc, hra, hfill⟩ := mem_fetchWords_cachable hb hinh hf
  obtain ⟨w, hw, -⟩ := mostRecent_afterFetch hi hc hn fun h => hfill (hra ▸ h) hwoa hn
  rw [← hra, hw]
  nofun

/-- A read at an address of the most recently used line leaves it that. -/
theorem MostRecent.afterFetch {s : State} (hi : icacheOk s = true) {a ea : Word} (hm : MostRecent s a)
    (hline : ∀ y, xlateFetch s ea = some y → lineOf y.ra = lineOf a) {f : Fetch} (hf : f ∈ fetchUnder ea s) :
    MostRecent (afterFetch f s) a := by
  cases hc : f.cachable with
  | false => rwa [Machine.afterFetch, if_neg (by simp [hc])]
  | true =>
    obtain ⟨y, hy⟩ := cachable_of_mem_fetchUnder hf hc
    have hra : lineOf f.ra = lineOf a := by rw [hy.place, hline y hy.xlate]
    obtain ⟨w, hw, -⟩ := hm
    refine (mostRecent_afterFetch hi hc (iWay_get hw).1 fun h => ?_).of_line hra
    rw [iWay_line hra, hw] at h
    cases h

/-- Drawing free values before a read or after it is the same. -/
theorem afterFetch_drawn (f : Fetch) (k : Nat) (s : State) : afterFetch f (drawn k s) = drawn k (afterFetch f s) := by
  unfold afterFetch
  split
  · rw [show iWay (drawn k s) f.ra = iWay s f.ra from rfl]
    cases iWay s f.ra with
    | some w => rfl
    | none =>
      cases f.fill with
      | none => rfl
      | some v => exact (apply_ite (drawn k) (s.params.icacheSize.classes = 0) s (installInstrLine f.ra v s)).symm
  · rfl

theorem drawn_drawn (j k : Nat) (s : State) : drawn k (drawn j s) = drawn (j + k) s := by
  simp [drawn, Nat.add_assoc]

/-- The machine once a word has been read ahead and put in the queue. -/
def readWord (ea : Word) (f : Fetch) (k : Nat) (s : State) : State := enqueue ea f.gives (drawn k (afterFetch f s))

theorem readWord_step (ea : Word) (f : Fetch) (k : Nat) (s : State) : FetcherStep s (readWord ea f k s) := by
  rw [readWord, afterFetch_step f s]
  rfl

theorem icacheOk_readWord {s : State} (hi : icacheOk s = true) (ea : Word) (f : Fetch) (k : Nat) :
    icacheOk (readWord ea f k s) = true := (work_afterFetch f s).icache hi

/-- What one more word to read ahead comes to: it is passed over, the reading ends, or it is read (R176, R204). -/
theorem prefetch_cases {s : State} (hc : s.pipe.contexts = []) (n : Nat) (ea : Word) :
    prefetch (n + 1) ea s = prefetch n (ea + 4#32) s ∨ (∃ k, prefetch (n + 1) ea s = drawn k s) ∨
      ∃ f ∈ fetchUnder ea s, ∃ k, prefetch (n + 1) ea s = prefetch n (ea + 4#32) (readWord ea f k s) := by
  rw [prefetch]
  split
  · exact .inl rfl
  · cases hm : mayReadAhead ea s with
    | false => exact .inr (.inl ⟨0, by rw [aheadViews_nil hc, hm]; rfl⟩)
    | true =>
      rw [aheadViews_nil hc, hm, if_pos rfl, if_neg (by simp)]
      split
      · have hne : [s].flatMap (fetchUnder ea) ≠ [] := by simpa using fetchUnder_ne_nil ea s
        obtain ⟨f, hf, n', e⟩ := readInstr_mem (s := drawn 1 s) hne
        refine .inr (.inr ⟨f, by simpa using hf, 1 + n', ?_⟩)
        rw [e, readWord, ← afterFetch_drawn, ← drawn_drawn]
        rfl
      · exact .inr (.inl ⟨1, rfl⟩)

theorem next_word (ea : Word) (j : Nat) : ea + BitVec.ofNat 32 (4 * (j + 1)) = ea + 4#32 + BitVec.ofNat 32 (4 * j) := by
  rw [Nat.mul_add, Nat.add_comm, BitVec.ofNat_add, ← BitVec.add_assoc]

/-- Where every line is there already, reading ahead leaves every address finding what it did. -/
theorem instrCopy_prefetch_present {s : State} (hc : s.pipe.contexts = []) (hi : icacheOk s = true) (n : Nat) (ea : Word)
    (h : ∀ j < n, LinePresent s (ea + BitVec.ofNat 32 (4 * j))) (a : Word) : instrCopy (prefetch n ea s) a = instrCopy s a := by
  induction n generalizing ea s with
  | zero => rfl
  | succ n ih =>
    have hhead : LinePresent s ea := by simpa using h 0 (by omega)
    have htail (j : Nat) (hj : j < n) : LinePresent s (ea + 4#32 + BitVec.ofNat 32 (4 * j)) :=
      next_word ea j ▸ h (j + 1) (by omega)
    rcases prefetch_cases hc n ea with e | ⟨k, e⟩ | ⟨f, hf, k, e⟩ <;> rw [e]
    · exact ih hc hi _ htail
    · rfl
    · have hcopy (b : Word) : instrCopy (readWord ea f k s) b = instrCopy s b := hhead.instrCopy_afterFetch hi hf b
      have hstep := readWord_step ea f k s
      rw [ih (by rw [hstep]; exact hc) (icacheOk_readWord hi ea f k) _ fun j hj => (htail j hj).of_step hstep hcopy, hcopy]

/-- Reading ahead keeps the most recently used line, where the words to read are of that line first and of one other line then. -/
theorem instrCopy_prefetch_recent {s : State} (hb : s.params.busErrors = []) (hc : s.pipe.contexts = []) (hi : icacheOk s = true)
    {a b : Word} (hm : MostRecent s a) (hab : lineOf b = lineOf a) (n : Nat) (ea : Word)
    (h : ∀ j < n, (∀ y, xlateFetch s (ea + BitVec.ofNat 32 (4 * j)) = some y → lineOf y.ra = lineOf a) ∨
      ∀ k < n, j ≤ k → lineOf (ea + BitVec.ofNat 32 (4 * j)) = lineOf (ea + BitVec.ofNat 32 (4 * k))) :
    instrCopy (prefetch n ea s) b = instrCopy s b := by
  induction n generalizing ea s with
  | zero => rfl
  | succ n ih =>
    have htail (j : Nat) (hj : j < n) :
        (∀ y, xlateFetch s (ea + 4#32 + BitVec.ofNat 32 (4 * j)) = some y → lineOf y.ra = lineOf a) ∨
          ∀ k < n, j ≤ k →
            lineOf (ea + 4#32 + BitVec.ofNat 32 (4 * j)) = lineOf (ea + 4#32 + BitVec.ofNat 32 (4 * k)) := by
      rw [← next_word]
      refine (h (j + 1) (by omega)).imp_right fun hk k hkn hjk => ?_
      rw [← next_word]
      exact hk (k + 1) (by omega) (by omega)
    rcases prefetch_cases hc n ea with e | ⟨k, e⟩ | ⟨f, hf, k, e⟩ <;> rw [e]
    · exact ih hb hc hi hm _ htail
    · rfl
    · have hstep := readWord_step ea f k s
      have hcopy : instrCopy (readWord ea f k s) b = instrCopy s b := hm.instrCopy_afterFetch hi hab f
      have hc' : (readWord ea f k s).pipe.contexts = [] := by rw [hstep]; exact hc
      have hi' := icacheOk_readWord hi ea f k
      have hhead := h 0 (by omega)
      simp only [Nat.mul_zero, BitVec.add_zero] at hhead
      rw [← hcopy]
      rcases hhead with hline | hline
      · refine ih (by rw [hstep]; exact hb) hc' hi' (hm.afterFetch hi hline hf) _ fun j hj => (htail j hj).imp_left ?_
        intro hl y hy
        rw [hstep] at hy
        exact hl y hy
      · have hpresent : LinePresent (readWord ea f k s) ea := linePresent_afterFetch hb hi hf
        refine instrCopy_prefetch_present hc' hi' n _ (fun j hj => ?_) b
        rw [← next_word]
        exact hpresent.of_line (hline (j + 1) (by omega) (by omega))

/-- The words after the pc that are not of its line are of one other line. -/
theorem window_lines (pc : Word) {j k : Nat} (hk : k < 3) (hjk : j ≤ k)
    (h : lineOf (pc + 4#32 + BitVec.ofNat 32 (4 * j)) ≠ lineOf pc) :
    lineOf (pc + 4#32 + BitVec.ofNat 32 (4 * j)) = lineOf (pc + 4#32 + BitVec.ofNat 32 (4 * k)) := by
  rw [Ne, lineOf_eq_iff] at h
  rw [lineOf_eq_iff]
  simp only [BitVec.toNat_add, BitVec.toNat_ofNat] at h ⊢
  have := pc.isLt
  omega

/-- READING AHEAD KEEPS THE LINE OF THE PC: once a cachable fetch at an address has been made, the three words after it leave every
address of the line fetched from finding what it did (R184, R204). -/
theorem instrCopy_readAhead_pc {s : State} (hb : s.params.busErrors = []) (hc : s.pipe.contexts = []) (hi : icacheOk s = true)
    {pc : Word} {x : Xlate} (hx : xlateFetch s pc = some x) (he : execOk s x = true) (hinh : x.attrs.i = false) {f : Fetch}
    (hf : f ∈ fetchUnder pc s) {b : Word} (hbx : lineOf b = lineOf x.ra) :
    instrCopy (readAhead (pc + 4#32) (afterFetch f s)) b = instrCopy (afterFetch f s) b := by
  have hstep := afterFetch_step f s
  have hi' : icacheOk (afterFetch f s) = true := (work_afterFetch f s).icache hi
  have hc' : (inWindow (pc + 4#32) (afterFetch f s)).pipe.contexts = [] := by rw [hstep]; exact hc
  change instrCopy (prefetch 3 _ (inWindow (pc + 4#32) (afterFetch f s))) b = instrCopy (inWindow (pc + 4#32) (afterFetch f s)) b
  by_cases hfill : ccrFWOA s = false ∧ s.params.icacheSize.classes ≠ 0
  · rw [fetchUnder_ok hx he] at hf
    obtain ⟨hcach, hra, hbrings⟩ := mem_fetchWords_cachable hb hinh hf
    have hm : MostRecent (inWindow (pc + 4#32) (afterFetch f s)) x.ra :=
      hra ▸ mostRecent_afterFetch hi hcach hfill.2 fun h => hbrings (hra ▸ h) hfill.1 hfill.2
    refine instrCopy_prefetch_recent (by rw [hstep]; exact hb) hc' hi' hm hbx 3 _ fun j hj => ?_
    by_cases hl : lineOf (pc + 4#32 + BitVec.ofNat 32 (4 * j)) = lineOf pc
    · refine .inl fun y hy => ?_
      rw [hstep] at hy
      obtain ⟨r, hr, hline⟩ := xlate_sameLine hl.symm hx
      cases hr.symm.trans hy
      exact hline
    · exact .inr fun k hk hjk => window_lines pc hk hjk hl
  · refine instrCopy_prefetch_present hc' hi' 3 _ (fun j _ y _ _ _ hwoa hn => absurd ⟨?_, ?_⟩ hfill) b
    · rw [hstep] at hwoa
      exact hwoa
    · rw [hstep] at hn
      exact hn

/-! ### The step (R132, R204, R611) -/

/-- A ready machine without bus errors and without a word queued for the pc runs the word that one of the reads gives, once the fetcher
has read ahead. -/
theorem step_reads {s : State} (hr : ready s = true) (hc : s.pipe.contexts = []) (hq : ∀ q ∈ s.pipe.queue, q.1 ≠ s.pc)
    (hb : s.params.busErrors = []) {x : Xlate} (hx : xlateFetch s s.pc = some x) (he : execOk s x = true) :
    ∃ f ∈ fetchUnder s.pc s, ∃ w n, f.gives = .word w false ∧
      (instrCopy s x.ra = some w ∨ ∃ k, w = memWord (withoutWrites s x.ra x.attrs.i k) x.ra x.attrs.e) ∧
      step s = runWord w (readAhead (s.pc + 4#32) (afterFetch f { s with free := s.free + n })) := by
  have hne : (fetchViews s).flatMap (fetchUnder s.pc) ≠ [] := by simpa [fetchViews_nil hc] using fetchUnder_ne_nil s.pc s
  obtain ⟨f, hf, n, e⟩ := readInstr_mem (s := s) hne
  have hf : f ∈ fetchUnder s.pc s := by simpa [fetchViews_nil hc] using hf
  have hfw := hf
  rw [fetchUnder_ok hx he] at hfw
  obtain ⟨w, hw, hfrom⟩ := mem_fetchWords_gives hb hfw
  refine ⟨f, hf, w, n, hw, hfrom, ?_⟩
  have hpc : (afterFetch f { s with free := s.free + n }).pc = s.pc := by rw [afterFetch_step f]
  simp [step_ready hr hc, runAtPc, fetchAtPc_now hq, e, hw, runFetch, runFetched, hpc]

/-- Reading ahead after a fetch. -/
theorem readsAhead_afterFetch {s : State} (hc : s.pipe.contexts = []) (hi : icacheOk s = true) (f : Fetch) (ea : Word) :
    ReadsAhead (afterFetch f s) (readAhead ea (afterFetch f s)) ea :=
  readsAhead_readAhead (by rw [afterFetch_step f s]; exact hc) ((work_afterFetch f s).icache hi) ea

/-- The one read of cachable storage with nothing of an earlier state left: the word run, and the line that it uses (R132, R184). -/
theorem fetchWords_fresh {s : State} (hl : s.sto.late = []) (hb : s.params.busErrors = []) {ra : Word} {x : Attrs}
    (hinh : x.i = false) :
    ∃ f, fetchWords ra x s = [f] ∧ f.gives = .word ((instrCopy s ra).getD (memWord s ra x.e)) false ∧ f.cachable = true ∧
      f.ra = ra ∧ (iWay s ra = none → f.fill = if ccrFWOA s then none else instrFill s ra x.e) := by
  cases hw : iWay s ra with
  | some way =>
    refine ⟨_, fetchWords_hit hinh hw, ?_, rfl, rfl, nofun⟩
    simp [instrCopy, hw]
  | none =>
    refine ⟨_, fetchWords_miss (by simp [iSeen, hw]) (missable_performed hl _ _), ?_, by simp [hinh], rfl, fun _ => by simp [hinh]⟩
    rw [busErrorIn_nil hb, (instrCopy_none_iff s ra).mpr hw]
    rfl

/-- What the fetch of an absent line leaves: that line filled with storage's words, unless FWOA is 1 or there is no array (R184). -/
theorem afterFetch_absent {s : State} (hb : s.params.busErrors = []) {f : Fetch} {ra : Word} {e : Bool} (hcach : f.cachable = true)
    (hra : f.ra = ra) (hw : iWay s ra = none) (hfill : f.fill = if ccrFWOA s then none else instrFill s ra e) :
    (ccrFWOA s = true ∨ s.params.icacheSize.classes = 0 → afterFetch f s = s) ∧
      (ccrFWOA s = false → s.params.icacheSize.classes ≠ 0 → afterFetch f s = installInstrLine ra (memLine s (lineOf ra) e) s) := by
  rw [afterFetch, if_pos hcach, hra, hw, hfill]
  refine ⟨fun h => ?_, fun hwoa hn => ?_⟩
  · rcases h with h | h
    · rw [h]
      rfl
    · simp [instrFill, h]
  · simp [hwoa, instrFill, hn, busErrorIn_nil hb]

/-- Settles O5: the word is the queued one, or that of a read (`step_reads`); with nothing of an earlier state left there is one read
(`fetchWords_fresh`), and reading ahead keeps the line fetched from (`instrCopy_readAhead_pc`). -/
theorem stepRunsFetched : Obligations.StepRunsFetched := by
  intro s hr hc hb hi after
  refine ⟨fun w hw => ?_, fun x hq hx he => ⟨fun hf hinh => ?_, ?_⟩⟩
  · obtain ⟨q, hfind, hqw⟩ := Option.map_eq_some_iff.mp hw
    refine ⟨readAhead (s.pc + 4#32) s, ?_, readsAhead_readAhead hc hi _⟩
    rw [step_ready hr hc, runAtPc, fetchAtPc_queued hfind, hqw]
    rfl
  · intro w
    obtain ⟨-, -, hlate⟩ := (fresh_iff s).mp hf
    obtain ⟨f, hfw, hgives, hcach, hra, hfill⟩ := fetchWords_fresh hlate hb hinh (ra := x.ra)
    have hmem : f ∈ fetchUnder s.pc s := by rw [fetchUnder_ok hx he, hfw]; exact List.mem_singleton_self f
    have hafter : after (afterFetch f s).sto.icache 0 = afterFetch f s := by
      obtain ⟨ic, e⟩ := afterFetch_eq f s
      simp only [after, e, Nat.add_zero]
    refine ⟨(afterFetch f s).sto.icache, readAhead (s.pc + 4#32) (afterFetch f s), step_word hr hc hq hx he hfw hgives, ?_⟩
    rw [hafter]
    refine ⟨readsAhead_afterFetch hc hi f _, fun a ha => instrCopy_readAhead_pc hb hc hi hx he hinh hmem ha, fun hhit a => ?_,
      fun hmiss => ?_⟩
    · exact instrCopy_afterFetch hi f a fun _ _ _ _ hnone => hhit ((instrCopy_none_iff s x.ra).mpr (hra ▸ hnone))
    · have hw := (instrCopy_none_iff s x.ra).mp hmiss
      obtain ⟨hnot, hputs⟩ := afterFetch_absent hb hcach hra hw (hfill hw)
      refine ⟨fun h => by rw [hnot h], fun hwoa hn a => ?_⟩
      obtain ⟨hin, hout⟩ := instrCopy_installInstrLine hi hn hw (memLine s (lineOf x.ra) x.attrs.e) a
      rw [hputs hwoa hn]
      split
      · next hl => rw [hin hl, lineWord_memLine hl]
      · next hl => exact hout hl
  · obtain ⟨f, -, w, n, -, hfrom, hstep⟩ := step_reads hr hc hq hb hx he
    have hafter : after (afterFetch f { s with free := s.free + n }).sto.icache n = afterFetch f { s with free := s.free + n } := by
      obtain ⟨ic, e⟩ := afterFetch_eq f { s with free := s.free + n }
      simp only [after, e]
    refine ⟨w, (afterFetch f { s with free := s.free + n }).sto.icache, n, _, hstep, ?_, hfrom⟩
    rw [hafter]
    exact readsAhead_afterFetch (s := { s with free := s.free + n }) hc hi f _

/-! ### The instruction at the pc (R132, R220) -/

/-- A list of four bytes in storage order decodes to what their word decodes to. -/
theorem decode_bytesWord {e : Bool} {b0 b1 b2 b3 : Byte} {i : Instr} {rest : List Byte}
    (h : decodeBytes (orderBytes e [b0, b1, b2, b3]) = .ok (i, rest)) :
    decode (bytesWord (orderBytes e [b0, b1, b2, b3])) = .ok i := by
  have four {c0 c1 c2 c3 : Byte} (h : decodeBytes [c0, c1, c2, c3] = .ok (i, rest)) :
      decode (bytesWord [c0, c1, c2, c3]) = .ok i := by
    rw [bytesWord_four]
    rw [decodeBytes] at h
    split at h
    · next hd =>
      cases h
      exact hd
    · cases h
  cases e
  · exact four h
  · exact four h

/-- Settles O4: of caching inhibited storage with every write settled there is one read, of storage itself (`fetchWords_miss`), which
leaves the instruction cache alone. -/
theorem stepRunsDecoded : Obligations.StepRunsDecoded := by
  intro s x i rest hr hi hc hq hlate hb hx he hinh hundef _ hdec
  have hseen : iSeen s x.attrs x.ra = none := by
    rw [iSeen, Option.filter_eq_none_iff]
    intro way hw
    simp [hinh, hundef way hw]
  have hfw := fetchWords_miss (s := s) hseen (hinh ▸ missable_settled hlate (lineOf x.ra))
  have hword := decode_bytesWord hdec
  refine ⟨readAhead (s.pc + 4#32) s, ?_, readsAhead_readAhead hc hi _⟩
  rw [step_word hr hc hq hx he hfw (by rw [busErrorIn_nil hb]), afterFetch, if_neg (by simp [hinh])]
  rw [runWord, show decode (memWord s x.ra x.attrs.e) = .ok i from hword]

end Sys2Proof.Machine
end

section
/-! SUPPORT. The loads (R131, R133, R141, R200, R270 to R290): the number that the bytes loaded stand for, and what a load whose accesses
are plain leaves. -/

namespace Sys2Proof.Machine

/-! ### The accesses of an operand that passes its checks (R141) -/

theorem splitUnits_sum {fuel : Nat} (ea : Word) {n : Nat} (h : n ≤ fuel) : ((splitUnits fuel ea n).map (·.2)).sum = n := by
  induction fuel generalizing ea n with
  | zero => simp [splitUnits]; omega
  | succ fuel ih =>
    rw [splitUnits]
    split
    · simp [*]
    · have hlt : ea.toNat % 4 < 4 := Nat.mod_lt _ (by decide)
      rw [List.map_cons, List.sum_cons, ih _ (by omega)]
      omega

/-- Where no access fails its check, the accesses are all those of the operand. -/
theorem checkUnits_all {s : State} {store : Bool} {us : List (Word × Nat)} (h : (checkUnits s store us).2 = none) :
    (checkUnits s store us).1.map (fun u => (u.ea, u.n)) = us := by
  induction us with
  | nil => rfl
  | cons p us ih =>
    obtain ⟨ea, n⟩ := p
    rw [checkUnits] at h ⊢
    split at h
    · cases h
    · exact congrArg _ (ih h)

theorem unitTotal_checked {s : State} {store : Bool} {ea : Word} {n : Nat} (h : (checkUnits s store (units ea n)).2 = none) :
    unitTotal (checkUnits s store (units ea n)).1 = n := by
  have hall := congrArg (fun l => (l.map (·.2)).sum) (checkUnits_all h)
  rw [List.map_map] at hall
  exact hall.trans (splitUnits_sum ea (le_refl n))

theorem units_pos (s : State) (store : Bool) (ea : Word) (n : Nat) : ∀ u ∈ (checkUnits s store (units ea n)).1, 0 < u.n :=
  fun u hu => (splitUnits_word n ea n _ (checkUnits_mem u hu).1).1

theorem length_viewUnits (s : State) (us : List UnitAccess) : (viewUnits s us).length = unitTotal us := by
  simp [viewUnits, unitTotal, List.length_flatMap]

/-! ### The value loaded (R131, R276, R289, R290) -/

theorem length_orderBytes (e : Bool) (bs : List Byte) : (orderBytes e bs).length = bs.length := by
  cases e <;> simp [orderBytes]

theorem scalarOf_order (bs : List (Byte × Bool)) : scalarOf bs = bytesWord (orderBytes (firstOrder bs) (bs.map (·.1))) := by
  cases bs <;> rfl

theorem scalarOf_eq (bs : List (Byte × Bool)) :
    scalarOf bs = BitVec.ofNat 32 (scalarNat (firstOrder bs) (bs.map (·.1))) := by
  rw [scalarOf_order, bytesWord_eq]
  rfl

theorem halfBytes_bytesWord (b0 b1 : Byte) : halfBytes (bytesWord [b0, b1]) = [b0, b1] := by
  have h0 := b0.isLt
  have h1 := b1.isLt
  rw [bytesWord_eq]
  simp only [halfBytes, List.foldl_cons, List.foldl_nil, List.cons.injEq, and_true]
  refine ⟨BitVec.eq_of_toNat_eq ?_, BitVec.eq_of_toNat_eq ?_⟩ <;>
    simp only [BitVec.extractLsb'_toNat, BitVec.toNat_ofNat, Nat.shiftRight_eq_div_pow] <;> omega

theorem wordBytes_bytesWord (b0 b1 b2 b3 : Byte) : wordBytes (bytesWord [b0, b1, b2, b3]) = [b0, b1, b2, b3] := by
  have h0 := b0.isLt
  have h1 := b1.isLt
  have h2 := b2.isLt
  have h3 := b3.isLt
  rw [bytesWord_eq]
  simp only [wordBytes, List.foldl_cons, List.foldl_nil, List.cons.injEq, and_true]
  refine ⟨BitVec.eq_of_toNat_eq ?_, BitVec.eq_of_toNat_eq ?_, BitVec.eq_of_toNat_eq ?_, BitVec.eq_of_toNat_eq ?_⟩ <;>
    simp only [BitVec.extractLsb'_toNat, BitVec.toNat_ofNat, Nat.shiftRight_eq_div_pow] <;> omega

/-- The number loaded, as the instruction leaves it: in the byte order of the storage or the opposite one, and with zeros or a
halfword's sign on the left. -/
def loadedWord (algebraic reversed : Bool) (bs : List (Byte × Bool)) : Word :=
  let v := scalarNat (firstOrder bs != reversed) (bs.map (·.1))
  if algebraic then (BitVec.ofNat 16 v).signExtend 32 else BitVec.ofNat 32 v

/-- A form leaves the number loaded of an operand of `n` bytes so. -/
def LoadForm.Leaves (f : LoadForm) (n : Nat) (algebraic reversed : Bool) : Prop :=
  ∀ bs : List (Byte × Bool), bs.length = n → f.apply (scalarOf bs) = loadedWord algebraic reversed bs

theorem LoadForm.zero_leaves (n : Nat) : LoadForm.zero.Leaves n false false := fun bs _ => by
  simp only [LoadForm.apply, scalarOf_eq, loadedWord, Bool.bne_false, Bool.false_eq_true, if_false]

theorem LoadForm.algebraic_leaves (n : Nat) : LoadForm.algebraic.Leaves n true false := fun bs _ => by
  have hlow (v : Nat) : lowHalf (BitVec.ofNat 32 v) = BitVec.ofNat 16 v := by
    apply BitVec.eq_of_toNat_eq
    rw [lowHalf, field_toNat, BitVec.toNat_ofNat, BitVec.toNat_ofNat]
    omega
  simp only [LoadForm.apply, scalarOf_eq, loadedWord, Bool.bne_false, if_true, sext16, hlow]

/-- Bytes in the opposite order stand for the number loaded in the opposite byte order. -/
theorem bytesWord_opposite (e : Bool) (bs : List Byte) :
    bytesWord (orderBytes e bs).reverse = BitVec.ofNat 32 (scalarNat (e != true) bs) := by
  rw [bytesWord_eq]
  cases e <;> simp [orderBytes, scalarNat]

theorem LoadForm.halfReversed_leaves : LoadForm.halfReversed.Leaves 2 false true := fun bs hbs => by
  have hlen : (orderBytes (firstOrder bs) (bs.map (·.1))).length = 2 := by rw [length_orderBytes, List.length_map, hbs]
  obtain ⟨b0, b1, e⟩ := List.length_eq_two.mp hlen
  rw [LoadForm.apply, scalarOf_order, e, halfBytes_bytesWord, ← e, bytesWord_opposite]
  rfl

theorem LoadForm.wordReversed_leaves : LoadForm.wordReversed.Leaves 4 false true := fun bs hbs => by
  have hlen : (orderBytes (firstOrder bs) (bs.map (·.1))).length = 4 := by rw [length_orderBytes, List.length_map, hbs]
  obtain ⟨b0, b1, b2, b3, e⟩ := List.length_eq_four.mp hlen
  rw [LoadForm.apply, scalarOf_order, e, wordBytes_bytesWord, ← e, bytesWord_opposite]
  rfl

end Sys2Proof.Machine
end

section
/-! SUPPORT. Bus errors of data accesses (R620, R622): with MSR[ME] = 1 an access that meets one leaves the data machine check pending,
and no access takes a pending one away. -/

namespace Sys2Proof.Machine

/-! ### What the work on storage keeps of the pending check and of the line buffer -/

/-- What the work of the data side keeps: a pending data machine check stays pending, where CCR0[LWL] is 0 an empty line buffer stays
empty, and the instruction cache is not reached (R203). -/
structure DataSide (s t : State) : Prop where
  check  : s.inp.dataMachineCheck = true → t.inp.dataMachineCheck = true
  buffer : ccrLWL s = false → s.sto.buffer = none → t.sto.buffer = none
  attr   : t.attr = s.attr
  icache : t.sto.icache = s.sto.icache

theorem DataSide.refl (s : State) : DataSide s s := ⟨id, fun _ h => h, rfl, rfl⟩

theorem DataSide.trans {s t u : State} (h : DataSide s t) (g : DataSide t u) : DataSide s u := by
  refine ⟨g.check ∘ h.check, fun hl hb => g.buffer ?_ (h.buffer hl hb), g.attr.trans h.attr, g.icache.trans h.icache⟩
  rw [ccrLWL, h.attr]
  exact hl

theorem DataSide.lwl {s t : State} (h : DataSide s t) : ccrLWL t = ccrLWL s := by rw [ccrLWL, ccrLWL, h.attr]

theorem DataSide.lwoa {s t : State} (h : DataSide s t) : ccrLWOA t = ccrLWOA s := by rw [ccrLWOA, ccrLWOA, h.attr]

theorem DataSide.ite {s t u : State} {c : Prop} [Decidable c] (ht : DataSide s t) (hu : DataSide s u) :
    DataSide s (if c then t else u) := by
  split
  · exact ht
  · exact hu

theorem dataSide_reportDataError (s : State) : DataSide s (reportDataError s) := by
  unfold reportDataError
  split
  · exact ⟨fun _ => rfl, fun _ h => h, rfl, rfl⟩
  · exact ⟨fun h => by simp [h], fun _ h => h, rfl, rfl⟩

theorem dataSide_drawn (n : Nat) (s : State) : DataSide s (drawn n s) := ⟨id, fun _ h => h, rfl, rfl⟩

theorem dataSide_setDSet (k : Nat) (d : DSet) (s : State) : DataSide s (setDSet k d s) := ⟨id, fun _ h => h, rfl, rfl⟩

theorem dataSide_clearBuffer (s : State) : DataSide s (clearBuffer s) := ⟨id, fun _ _ => rfl, rfl, rfl⟩

theorem dataSide_dropBuffer (ra : Word) (s : State) : DataSide s (dropBuffer ra s) :=
  .ite (dataSide_clearBuffer s) (.refl s)

theorem dataSide_setMemBytes (ra : Word) (bs : List Byte) (s : State) : DataSide s (setMemBytes ra bs s) := by
  rw [setMemBytes_eq]
  exact ⟨id, fun _ h => h, rfl, rfl⟩

theorem dataSide_busWrite (direct : Bool) (ra : Word) (bs : List Byte) (s : State) : DataSide s (busWrite direct ra bs s) := by
  have hbytes : DataSide s (setMemBytes ra bs (noteLate direct ra bs.length s)) :=
    .trans (t := noteLate direct ra bs.length s) ⟨id, fun _ h => h, rfl, rfl⟩ (dataSide_setMemBytes ra bs _)
  exact .ite (hbytes.trans (dataSide_reportDataError _)) hbytes

theorem dataSide_busRead (ra : Word) (n : Nat) (s : State) : DataSide s (busRead ra n s).2 := by
  unfold busRead
  split
  · exact (dataSide_drawn n s).trans (dataSide_reportDataError _)
  · exact .refl s

theorem outsideBytes_inp (bs : List (Word × Byte)) (s : State) :
    (outsideBytes bs s).inp = s.inp ∧ (outsideBytes bs s).sto.buffer = s.sto.buffer ∧ (outsideBytes bs s).attr = s.attr ∧
      (outsideBytes bs s).sto.dcache = s.sto.dcache ∧ (outsideBytes bs s).sto.icache = s.sto.icache := by
  obtain ⟨m, l, e⟩ := outsideBytes_eq bs s
  rw [e]
  exact ⟨rfl, rfl, rfl, rfl, rfl⟩

theorem dataSide_busTurn (s : State) : DataSide s (busTurn s) := by
  unfold busTurn
  split
  · exact .refl s
  · rename_i bs rest _
    obtain ⟨hinp, hbuf, hattr, -, hicache⟩ := outsideBytes_inp bs { s with inp := { s.inp with bus := rest } }
    exact ⟨fun h => by rw [hinp]; exact h, fun _ h => hbuf.trans h, hattr, hicache⟩

theorem dataSide_installLine (ra : Word) (data : Vector Byte 32) (dirty : Bool) (s : State) :
    DataSide s (installLine ra data dirty s) :=
  (DataSide.ite (dataSide_busWrite _ _ _ s) (.refl s)).trans (dataSide_setDSet _ _ _)

theorem dataSide_fillLine (ra : Word) (s : State) : DataSide s (fillLine ra s) :=
  ((dataSide_clearBuffer s).trans (dataSide_busRead _ _ _)).trans (dataSide_installLine ra _ false _)

/-- With CCR0[LWL] = 0 and the line buffer empty a read that goes to storage is one over the bus (R183). -/
theorem uncachedRead_bus {s : State} (hl : ccrLWL s = false) (hb : s.sto.buffer = none) (ra : Word) (x : Attrs) (n : Nat) :
    uncachedRead ra x n s = busRead ra n s := by
  simp [uncachedRead, hb, hl]

theorem dataSide_uncachedRead (ra : Word) (x : Attrs) (n : Nat) (s : State) : DataSide s (uncachedRead ra x n s).2 := by
  by_cases h : ccrLWL s = false ∧ s.sto.buffer = none
  · rw [uncachedRead_bus h.1 h.2]
    exact dataSide_busRead ra n s
  · have hline (u : State) (hu : DataSide s u) (b : Option LineBuffer) :
        DataSide s { u with sto := { u.sto with buffer := b } } :=
      ⟨hu.check, fun hl hb => absurd ⟨hl, hb⟩ h, hu.attr, hu.icache⟩
    unfold uncachedRead
    split
    · exact dataSide_busRead ra n s
    · split
      · split
        · exact .refl s
        · split
          · exact hline _ ((dataSide_clearBuffer s).trans (dataSide_busRead _ _ _)) _
          · exact dataSide_busRead ra n s
      · split
        · exact hline _ (dataSide_busRead _ _ _) _
        · exact dataSide_busRead ra n s

theorem dataSide_dataRead (ra : Word) (x : Attrs) (n : Nat) (s : State) : DataSide s (dataRead ra x n s).2 := by
  unfold dataRead
  split
  · exact dataSide_drawn n s
  · split
    · split
      · exact (dataSide_drawn 1 s).trans (dataSide_uncachedRead ra x n _)
      · exact dataSide_setDSet _ _ s
    · split
      · exact dataSide_uncachedRead ra x n s
      · dsimp only
        split
        · exact dataSide_fillLine ra s
        · exact (dataSide_fillLine ra s).trans (dataSide_uncachedRead ra x n _)

theorem dataSide_storeHit (ra : Word) (x : Attrs) (way : Bool) (bs : List Byte) (s : State) :
    DataSide s (storeHit ra x way bs s) := by
  have hline : DataSide s (touchWay (dClass s ra) way (writeCached ra way bs (!x.w) s)) :=
    (dataSide_setDSet _ _ s).trans (dataSide_setDSet _ _ _)
  exact .ite (hline.trans (dataSide_busWrite _ _ _ _)) hline

theorem dataSide_storeThrough (ra : Word) (x : Attrs) (bs : List Byte) (s : State) :
    DataSide s (storeThrough ra x bs s) := by
  unfold storeThrough
  split
  · exact (dataSide_drawn _ s).trans (dataSide_busWrite _ _ _ _)
  · split
    · split
      · have hcached (u : State) (c : Bool) (way : Bool) : DataSide u (writeCached ra way bs c u) := dataSide_setDSet _ _ u
        exact .ite (.ite (((dataSide_drawn 1 s).trans (hcached _ _ _)).trans (dataSide_busWrite _ _ _ _))
          ((dataSide_drawn 1 s).trans (hcached _ _ _))) ((dataSide_drawn 1 s).trans (dataSide_busWrite _ _ _ _))
      · exact dataSide_storeHit _ _ _ _ s
    · split
      · exact dataSide_busWrite _ _ _ s
      · dsimp only
        split
        · exact (dataSide_fillLine ra s).trans (dataSide_storeHit _ _ _ _ _)
        · exact (dataSide_fillLine ra s).trans (dataSide_busWrite _ _ _ _)

theorem dataSide_dataWrite (ra : Word) (x : Attrs) (bs : List Byte) (s : State) : DataSide s (dataWrite ra x bs s) :=
  (dataSide_dropBuffer ra s).trans (dataSide_storeThrough ra x bs _)

theorem dataSide_loadUnits (us : List UnitAccess) (s : State) : DataSide s (loadUnits us s).2 := by
  induction us generalizing s with
  | nil => exact .refl s
  | cons u us ih => exact ((dataSide_busTurn s).trans (dataSide_dataRead _ _ _ _)).trans (ih _)

theorem dataSide_storeUnits (us : List UnitAccess) (bs : List Byte) (s : State) : DataSide s (storeUnits us bs s) := by
  induction us generalizing bs s with
  | nil => exact .refl s
  | cons u us ih => exact ((dataSide_busTurn s).trans (dataSide_dataWrite _ _ _ _)).trans (ih _ _)

/-! ### Accesses that meet a bus error (R622) -/

/-- The range predicate of an access kind. -/
def BusKind.answers : BusKind → BusErrorRange → Bool
  | .fetch => (·.onFetch)
  | .load => (·.onLoad)
  | .store => (·.onStore)

theorem BusErrorRange.hits_iff (r : BusErrorRange) (k : BusKind) (ra : Word) :
    r.hits k ra = true ↔ k.answers r = true ∧ r.lo.toNat ≤ ra.toNat ∧ ra.toNat ≤ r.hi.toNat := by
  have hkind : r.hits k ra = (decide (r.lo.toNat ≤ ra.toNat) && decide (ra.toNat ≤ r.hi.toNat) && k.answers r) := by
    cases k <;> rfl
  rw [hkind, Bool.and_eq_true, Bool.and_eq_true, decide_eq_true_eq, decide_eq_true_eq, and_comm]

theorem busErrorIn_iff (s : State) (k : BusKind) (ra : Word) (n : Nat) :
    busErrorIn s k ra n = true ↔ MeetsBusError s k.answers ra n := by
  simp only [busErrorIn, busError, List.any_eq_true, List.mem_range, BusErrorRange.hits_iff, MeetsBusError]
  constructor
  · rintro ⟨j, hj, r, hr, hk, hlo, hhi⟩
    exact ⟨r, hr, hk, j, hj, hlo, hhi⟩
  · rintro ⟨r, hr, hk, j, hj, hlo, hhi⟩
    exact ⟨j, hj, r, hr, hk, hlo, hhi⟩

theorem reportDataError_check {s : State} (h : msrME s = true) : (reportDataError s).inp.dataMachineCheck = true := by
  rw [reportDataError, if_pos h]

theorem busRead_check {s : State} (h : msrME s = true) {ra : Word} {n : Nat} (he : busErrorIn s .load ra n = true) :
    (busRead ra n s).2.inp.dataMachineCheck = true := by
  rw [busRead, if_pos he]
  exact reportDataError_check h

theorem busWrite_check {s : State} (h : msrME s = true) {direct : Bool} {ra : Word} {bs : List Byte}
    (he : busErrorIn s .store ra bs.length = true) : (busWrite direct ra bs s).inp.dataMachineCheck = true := by
  refine (show busWrite direct ra bs s = _ from if_pos he) ▸ reportDataError_check ?_
  rw [setMemBytes_eq]
  exact h

end Sys2Proof.Machine
end

section
/-! SUPPORT. Plain loads and stores (R131, R171, R182, R270 to R318): what a load or store whose accesses pass their checks leaves, for the
forms of file 40, and the same with a bus error (R622). -/

namespace Sys2Proof.Machine

/-! ### What an instruction writes besides storage -/

/-- A byte reads as the data cache and storage say, whatever else differs. -/
theorem dataByte_of_sto {t u : State} (hs : u.sto = t.sto) (hp : u.params = t.params) (a : Word) : dataByte u a = dataByte t a := by
  cases t; cases u; subst hs hp; rfl

theorem memByte_of_sto {t u : State} (hs : u.sto = t.sto) (a : Word) : memByte u a = memByte t a := by
  rw [memByte, memByte, hs]

/-- Only registers, pc, CR and the counter of free values are written once the accesses are made. -/
def WritesUser (done : State → State) : Prop :=
  ∀ t, done t = { t with gpr := (done t).gpr, cr := (done t).cr, free := (done t).free }

theorem writesUser_undefinedCr0 (x31 : Bool) : WritesUser (undefinedCr0 x31) := fun t => by cases x31 <;> rfl

theorem writesUser_setGpr (r : Reg) (v : Word) (x31 : Bool) : WritesUser (fun t => undefinedCr0 x31 (setGpr r v t)) :=
  fun t => by cases x31 <;> rfl

theorem WritesUser.dbg {done : State → State} (h : WritesUser done) (t : State) : (done t).dbg = t.dbg := by rw [h t]

theorem WritesUser.sto {done : State → State} (h : WritesUser done) (t : State) : (done t).sto = t.sto := by rw [h t]

theorem WritesUser.params {done : State → State} (h : WritesUser done) (t : State) : (done t).params = t.params := by rw [h t]

/-- Accesses and then registers, pc, CR and free values are all that an access instruction changes. -/
theorem WritesUser.onlyAccess {done : State → State} (h : WritesUser done) {s t : State}
    (ht : t = { s with sto := { s.sto with mem := t.sto.mem, dcache := t.sto.dcache, late := t.sto.late } }) (pc : Word) :
    OnlyAccess s { done t with pc := pc } := by
  rw [OnlyAccess, h t, ht]

/-! ### Stores -/

/-- Accesses that do not touch an address leave it as it reads. -/
theorem storeUnitsView_untouched {us : List UnitAccess} {bs : List Byte} (hin : ∀ u ∈ us, (lineOffset u.x.ra).toNat + u.n ≤ 32)
    {a : Word} (h : touched us a = false) (m : Word → Byte) : storeUnitsView m us bs a = m a := by
  induction us generalizing m bs with
  | nil => rfl
  | cons u us ih =>
    have hu := hin u List.mem_cons_self
    have hlen : (bs.take u.n).length ≤ u.n := List.length_take_le _ _
    rw [touched, List.any_cons, Bool.or_eq_false_iff, List.any_eq_false] at h
    rw [storeUnitsView, ih (fun v hv => hin v (List.mem_cons_of_mem _ hv)) h.2, storeView_eq _ _ _ _ (by omega), dif_neg]
    intro hlt
    refine h.1 (a - u.x.ra).toNat (List.mem_range.mpr (by omega)) ?_
    rw [BitVec.ofNat_toNat, BitVec.setWidth_eq, beq_iff_eq]
    bv_omega

/-- The bytes of accesses are stored: every address reads as they say, storage itself holds those of write-through and caching
inhibited storage, and the writes newly under way are direct where every access is caching inhibited. -/
structure Stored (s t : State) (us : List UnitAccess) (bs : List Byte) : Prop where
  view    : ∀ a, dataByte t a = storeUnitsView (dataByte s) us bs a
  other   : ∀ a, touched us a = false → dataByte t a = dataByte s a
  through : ∀ u ∈ us, (u.x.attrs.w || u.x.attrs.i) = true → ∀ j, j < u.n →
    memByte t (u.x.ra + BitVec.ofNat 32 j) = dataByte t (u.x.ra + BitVec.ofNat 32 j)
  late    : (∀ u ∈ us, u.x.attrs.i = true) → ∀ l ∈ t.sto.late, l ∈ s.sto.late ∨ l.direct = true

theorem Stored.congr {s t u : State} {us : List UnitAccess} {bs : List Byte} (h : Stored s t us bs) (hs : u.sto = t.sto)
    (hp : u.params = t.params) : Stored s u us bs := by
  have hd := dataByte_of_sto hs hp
  refine ⟨fun a => (hd a).trans (h.view a), fun a ha => (hd a).trans (h.other a ha), fun v hv hx j hj => ?_, fun hi => hs ▸ h.late hi⟩
  rw [memByte_of_sto hs, hd]
  exact h.through v hv hx j hj

/-- THE STORE with what it leaves in storage: `storeBytes_spec` for an operand of at most 128 bytes. -/
theorem storeBytes_stored {s : State} (ea : Word) {n : Nat} (bytes : List Bool → List Byte) (done : State → State)
    (hq : quiet s = true) (hc : Cached s) (hn : n ≤ 128) (hok : (checkUnits s true (units ea n)).2 = none)
    (hp : plain s (checkUnits s true (units ea n)).1 = true) (hd : ∀ t, (done t).dbg = t.dbg)
    (hlen : n ≤ (bytes (unitOrders (checkUnits s true (units ea n)).1)).length) :
    ∃ t, storeBytes ea n bytes done s = { done t with pc := s.pc + 4#32 } ∧
      t = { s with sto := { s.sto with mem := t.sto.mem, dcache := t.sto.dcache, late := t.sto.late } } ∧
      Stored s t (checkUnits s true (units ea n)).1 (bytes (unitOrders (checkUnits s true (units ea n)).1)) := by
  obtain ⟨t, hrun, -, hrest, hview, ht⟩ := storeBytes_spec ea n bytes done hq hc hok hp hd
  refine ⟨t, hrun, hrest, hview, fun a ha => ?_, ht ▸ storeUnits_reaches ea hn hc hp hlen, fun hi => ?_⟩
  · rw [hview, storeUnitsView_untouched (units_inLine s true ea n) ha]
  · rw [ht]
    exact storeUnits_late _ _ hp hi

/-- The bytes of a scalar, in the byte order of its first byte's place (R131). -/
theorem scalarBytes_units {us : List UnitAccess} (hpos : ∀ u ∈ us, 0 < u.n) (msb : List Byte) :
    scalarBytes msb (unitOrders us) = if storeOrder us then msb.reverse else msb := by
  cases us with
  | nil => rfl
  | cons u us =>
    obtain ⟨k, hk⟩ := Nat.exists_eq_succ_of_ne_zero (Nat.ne_of_gt (hpos u List.mem_cons_self))
    rw [unitOrders, List.flatMap_cons, hk, List.replicate_succ]
    rfl

theorem length_scalarBytes (msb : List Byte) (orders : List Bool) : (scalarBytes msb orders).length = msb.length :=
  length_orderBytes _ msb

/-! ### The word of `lwarx` and `stwcx.` (R200, R288, R318) -/

/-- What `lwarx` does with the bytes of its word: the reservation is set and RT written. -/
def reservedLoad (rt : Reg) (x31 : Bool) (bs : List (Byte × Bool)) (t : State) : State :=
  undefinedCr0 x31 (setGpr rt (scalarOf bs) { t with reserve := true })

/-- Settles O34: the word is loaded with the reservation set. -/
theorem loadReserve_settled : Obligations.LoadReserve := by
  intro s rt ra rb x31 hq hc ea us bs ha hok hp
  obtain ⟨x, hx, -⟩ := checkUnits_word ha hok
  have hx : loadXlate s (eaX s ra rb) = .ok x := hx
  have hload : loadReserve rt (eaX s ra rb) x31 s = loadBytes ea 4 (fun _ t => t) (reservedLoad rt x31) s := by
    simp only [loadReserve, hx, show (eaX s ra rb).extractLsb' 0 2 = 0#2 from lowBits_aligned ha, ne_eq, not_true_eq_false, if_false]
    rfl
  obtain ⟨t, hrun, -, hrest, hview⟩ :=
    loadBytes_spec ea 4 (fun _ t => t) (reservedLoad rt x31) hq hc hok hp fun _ t => by simp [reservedLoad]
  refine ⟨_, congrArg Host.Outcome.next (hload.trans hrun), by simp [reservedLoad], ?_, ?_, rfl, fun a => ?_, ?_⟩
  · rw [← scalarOf_eq]
    exact writesGpr_of_gpr (u := t) (by rw [hrest]) (by simp only [reservedLoad, undefinedCr0_gpr]; rfl)
  · exact bit31_undefinedCr0 (by rw [hrest]; rfl) x31 _
  · rw [← hview a]
    exact dataByte_of_sto (by simp [reservedLoad]) (by simp [reservedLoad]) a
  · refine (writesUser_setGpr rt _ x31).onlyAccess (s := { s with reserve := true }) (t := { t with reserve := true }) ?_ _
    rw [hrest]

/-- Settles O40: the store of a word with the reservation given up, or CR0 alone. -/
theorem storeConditional_settled : Obligations.StoreConditional := by
  intro s rs ra rb hq ea w msb us ha
  refine ⟨fun hr hc hok hp => ?_, fun hr => ?_⟩
  · obtain ⟨x, hx, -⟩ := checkUnits_word ha hok
    obtain ⟨t, hrun, hrest, hst⟩ := storeBytes_stored ea (scalarBytes (wordBytes w)) reservationSpent hq hc (by decide) hok hp
      (fun _ => rfl) (by rw [length_scalarBytes]; rfl)
    rw [scalarBytes_units (units_pos s true ea 4)] at hst
    have hst' : Stored s { reservationSpent t with pc := s.pc + 4#32 } us.1 (if storeOrder us.1 then msb.reverse else msb) :=
      hst.congr rfl rfl
    refine ⟨_, show execStwcxRc rs ra rb s = _ from if_pos hr, ?_⟩
    rw [show storeConditional (eaX s ra rb) (gpr s rs) s = _ from (storeConditional_aligned w ha hx).trans hrun]
    refine ⟨rfl, ?_, hst'.view, hst'.other, hst'.through, ?_, rfl, ?_⟩
    · apply writesCrField_eq
      rw [hrest]
      rfl
    · rw [hrest]
      rfl
    · rw [OnlyAccess, hrest]
      rfl
  · refine ⟨_, show execStwcxRc rs ra rb s = _ from if_neg (by simp [hr]), ?_⟩
    rw [storeRefused, show (eaX s ra rb).extractLsb' 0 2 = 0#2 from lowBits_aligned ha, if_neg (by simp), advance_quiet hq]
    exact ⟨writesCrField_eq rfl, rfl, fun _ => rfl, rfl⟩

/-! ### Multiple and string stores (R314 to R316) -/

theorem length_flatMap_four {f : Nat → List Byte} (hf : ∀ k, (f k).length = 4) (m : Nat) :
    ((List.range m).flatMap f).length = 4 * m := by
  simp [List.length_flatMap, hf, Nat.mul_comm]

/-- A list of orders gives a scalar's byte order by its first (R131, D18). -/
theorem scalarBytes_head (msb : List Byte) (orders : List Bool) :
    scalarBytes msb orders = orderBytes (orders.head?.getD false) msb := by
  cases orders <;> rfl

/-- The words that `stmw` stores, each in the byte order of its first byte's place (R131, R314). -/
theorem multipleBytes_eq (s : State) {fuel r : Nat} (orders : List Bool) (h : 32 - r ≤ fuel) :
    multipleBytes s fuel r orders =
      (List.range (32 - r)).flatMap fun k => orderBytes ((orders[4 * k]?).getD false) (wordBytes (gpr s (BitVec.ofNat 5 (r + k)))) := by
  induction fuel generalizing r orders with
  | zero => rw [Nat.le_zero.mp h]; rfl
  | succ fuel ih =>
    rw [multipleBytes]
    split
    · rw [show 32 - r = 0 by omega]; rfl
    · rw [show 32 - r = (32 - (r + 1)) + 1 by omega, List.range_succ_eq_map, List.flatMap_cons, List.flatMap_map, ih _ (by omega),
        scalarBytes_head, List.head?_eq_getElem?]
      have hreg (k : Nat) : r + 1 + k = r + (k + 1) := by omega
      simp only [List.getElem?_drop, hreg, Nat.mul_succ, Nat.add_comm 4]
      rfl

/-- The bytes that the string stores take from the registers (R315, R316). -/
theorem stringBytes_eq (s : State) (fuel : Nat) (r : Reg) (n : Nat) :
    stringBytes s fuel r n = ((List.range fuel).flatMap fun k => wordBytes (gpr s (r + BitVec.ofNat 5 k))).take n := by
  induction fuel generalizing r n with
  | zero => simp [stringBytes]
  | succ fuel ih =>
    rw [stringBytes]
    split
    · simp [*]
    · have hreg (k : Nat) : r + BitVec.ofNat 5 (k + 1) = r + 1#5 + BitVec.ofNat 5 k := by
        rw [Nat.add_comm, BitVec.ofNat_add, ← BitVec.add_assoc]
      rw [ih, List.range_succ_eq_map, List.flatMap_cons, List.flatMap_map, List.take_append]
      simp only [← hreg, BitVec.add_zero]
      rfl

/-- What a multiple or string store of `n` bytes leaves. -/
def StoresMany (s : State) (i : Instr) (ea : Word) (n : Nat) (bs : List UnitAccess → List Byte) (x31 : Bool) : Prop :=
  let us := checkUnits s true (units ea n)
  us.2 = none → plain s us.1 = true →
  ∃ t, exec i s = .next t ∧ (∀ a, dataByte t a = storeUnitsView (dataByte s) us.1 (bs us.1) a) ∧
    (∀ a, touched us.1 a = false → dataByte t a = dataByte s a) ∧
    (∀ u ∈ us.1, (u.x.attrs.w || u.x.attrs.i) = true → ∀ j, j < u.n →
      memByte t (u.x.ra + BitVec.ofNat 32 j) = dataByte t (u.x.ra + BitVec.ofNat 32 j)) ∧
    t.gpr = s.gpr ∧ Bit31 s t x31 ∧ t.pc = s.pc + 4#32 ∧ OnlyAccess s t

theorem storesMany_of {s : State} {i : Instr} {ea : Word} {n : Nat} {bytes : List Bool → List Byte} {x31 : Bool}
    {bs : List UnitAccess → List Byte} (hq : quiet s = true) (hc : Cached s) (hn : n ≤ 128)
    (hrun : exec i s = .next (storeBytes ea n bytes (undefinedCr0 x31) s)) (hbs : ∀ us, bytes (unitOrders us) = bs us)
    (hlen : ∀ us, (bs us).length = n) : StoresMany s i ea n bs x31 := by
  intro hok hp
  have hdone := writesUser_undefinedCr0 x31
  obtain ⟨t, ht, hrest, hst⟩ := storeBytes_stored ea bytes (undefinedCr0 x31) hq hc hn hok hp hdone.dbg
    (by rw [hbs, hlen])
  rw [hbs] at hst
  have hst' : Stored s { undefinedCr0 x31 t with pc := s.pc + 4#32 } _ _ := hst.congr (hdone.sto t) (hdone.params t)
  refine ⟨_, hrun.trans (congrArg Host.Outcome.next ht), hst'.view, hst'.other, hst'.through, ?_, ?_, rfl, hdone.onlyAccess hrest _⟩
  · exact (undefinedCr0_gpr x31 t).trans (by rw [hrest])
  · exact bit31_undefinedCr0 (by rw [hrest]) x31 _

theorem storesMany_string {s : State} (hq : quiet s = true) (hc : Cached s) {i : Instr} {ea : Word} {n : Nat} {rs : Reg} {x31 : Bool}
    (hn : n ≤ 128) (hrun : exec i s = .next (storeBytes ea n (fun _ => stringBytes s 32 rs n) (undefinedCr0 x31) s)) :
    StoresMany s i ea n
      (fun _ => ((List.range 32).flatMap fun k => wordBytes (gpr s (rs + BitVec.ofNat 5 k))).take n) x31 := by
  refine storesMany_of hq hc hn hrun (fun _ => stringBytes_eq s 32 rs n) fun _ => ?_
  rw [List.length_take, length_flatMap_four (fun _ => rfl)]
  omega

theorem storesMany_stmw {s : State} (hq : quiet s = true) (hc : Cached s) (rs ra : Reg) (d : BitVec 16) :
    StoresMany s (.stmw rs ra d) (eaD s ra d) (4 * (32 - rs.toNat))
      (fun us => (List.range (32 - rs.toNat)).flatMap fun k =>
        orderBytes (((unitOrders us)[4 * k]?).getD false) (wordBytes (gpr s (rs + BitVec.ofNat 5 k)))) false := by
  refine storesMany_of (bytes := multipleBytes s 32 rs.toNat) hq hc (by omega) rfl (fun us => ?_) fun _ => ?_
  · rw [multipleBytes_eq s _ (by omega)]
    simp only [BitVec.ofNat_add, BitVec.ofNat_toNat, BitVec.setWidth_eq]
  · exact length_flatMap_four (fun _ => length_orderBytes _ _) _

theorem xerTBC_toNat (s : State) : (xerTBC s).toNat = s.xer.toNat % 128 := by
  rw [xerTBC, field_toNat, show 2 ^ (32 - 25 - 7) = 1 from rfl, Nat.div_one]
  rfl

theorem stringCount_le (nb : BitVec 5) : stringCount nb ≤ 128 := by
  have := nb.isLt
  unfold stringCount
  split <;> omega

/-- Settles O39: each form's bytes, and then the store of them. -/
theorem multipleStores : Obligations.MultipleStores := by
  intro s rs ra rb d nb x31 hq hc base tbc word stream
  rw [List.forall_mem_append]
  iterate 2 rw [List.forall_mem_cons]
  refine ⟨⟨storesMany_stmw hq hc rs ra d, storesMany_string hq hc (stringCount_le nb) rfl, List.forall_mem_nil _⟩, ?_⟩
  split
  · exact List.forall_mem_nil _
  · rename_i h
    have hx : (xerTBC s).toNat = tbc := xerTBC_toNat s
    have hne : xerTBC s ≠ 0#7 := fun e => h (by rw [← hx, e]; rfl)
    refine List.forall_mem_cons.mpr ⟨storesMany_string hq hc (n := tbc) (by omega) ?_, List.forall_mem_nil _⟩
    rw [← hx]
    exact if_neg hne

end Sys2Proof.Machine
end

section
/-! SUPPORT. The scalar loads and stores (R270 to R290, R300 to R313), plain and with a bus error (R620, R622). -/

namespace Sys2Proof.Machine

/-! ### The run of a load or store in a quiet state -/

theorem loadBytes_run {s : State} {ea : Word} {n : Nat} {part done : List (Byte × Bool) → State → State}
    (hq : quiet s = true) (hok : (checkUnits s false (units ea n)).2 = none) (hd : ∀ bs t, (done bs t).dbg = t.dbg) :
    loadBytes ea n part done s =
      { done (loadUnits (checkUnits s false (units ea n)).1 s).1 (loadUnits (checkUnits s false (units ea n)).1 s).2 with
        pc := s.pc + 4#32 } := by
  generalize hus : checkUnits s false (units ea n) = r at hok
  obtain ⟨us, f⟩ := r
  dsimp only at hok
  subst hok
  have hq' : quiet (done (loadUnits us s).1 (loadUnits us s).2) = true := by
    rw [quiet_congr ((hd _ _).trans (work_loadUnits us s).dbg)]
    exact hq
  simp only [loadBytes, hus, dacBits_quiet hq, beforeEvent_zero, dvcBits_quiet hq', dvcDraw_quiet hq',
    complete_plain (quiet_dbIC hq)]
  rfl

theorem storeBytes_run {s : State} {ea : Word} {n : Nat} {bytes : List Bool → List Byte} {done : State → State}
    (hq : quiet s = true) (hok : (checkUnits s true (units ea n)).2 = none) (hd : ∀ t, (done t).dbg = t.dbg) :
    storeBytes ea n bytes done s =
      { done (storeUnits (checkUnits s true (units ea n)).1 (bytes (unitOrders (checkUnits s true (units ea n)).1)) s) with
        pc := s.pc + 4#32 } := by
  generalize hus : checkUnits s true (units ea n) = r at hok
  obtain ⟨us, f⟩ := r
  dsimp only at hok
  subst hok
  have hq' : quiet (done (storeUnits us (bytes (unitOrders us)) s)) = true := by
    rw [quiet_congr ((hd _).trans (work_storeUnits us _ s).dbg)]
    exact hq
  simp only [storeBytes, hus, dacBits_quiet hq, beforeEvent_zero, dvcBits_quiet hq', dvcDraw_quiet hq',
    complete_plain (quiet_dbIC hq)]
  rfl

/-! ### Loads that meet a bus error (R622) -/

/-- Storage work keeps which accesses meet a bus error. -/
theorem StorageWork.busErrorIn {s t : State} (h : StorageWork s t) (k : BusKind) (ra : Word) (n : Nat) :
    busErrorIn t k ra n = busErrorIn s k ra n := by
  simp only [Machine.busErrorIn, busError, h.params]

theorem StorageWork.msrME {s t : State} (h : StorageWork s t) : msrME t = msrME s := by rw [h.rest]; rfl

theorem dWay_busTurn (s : State) (ra : Word) : dWay (busTurn s) ra = dWay s ra := by
  refine dWay_congr ?_ (work_busTurn s).params ra
  unfold busTurn
  split
  · rfl
  · exact (outsideBytes_inp _ _).2.2.2.1

/-- A caching inhibited load that goes to storage and meets a bus error leaves the check pending (R172, R622). -/
theorem dataRead_inhibited_check {s : State} (hme : msrME s = true) (hl : ccrLWL s = false) (hb : s.sto.buffer = none) {ra : Word}
    {x : Attrs} {n : Nat} (hi : x.i = true) (hw : x.w = false) (he : busErrorIn s .load ra n = true) :
    (dataRead ra x n s).2.inp.dataMachineCheck = true := by
  have huncached (t : State) (ht : DataSide s t) (hwork : StorageWork s t) :
      (uncachedRead ra x n t).2.inp.dataMachineCheck = true := by
    rw [uncachedRead_bus (ht.lwl.trans hl) (ht.buffer hl hb)]
    exact busRead_check (hwork.msrME.trans hme) ((hwork.busErrorIn _ _ _).trans he)
  unfold dataRead
  simp only [hi, hw, Bool.false_and, Bool.false_eq_true, if_false, if_true, Bool.true_or]
  split
  · exact huncached (drawn 1 s) (dataSide_drawn 1 s) (work_drawn 1 s)
  · exact huncached s (.refl s) (.refl s)

/-- A line fill that meets a bus error leaves the check pending (R182, R622). -/
theorem fillLine_check {s : State} (hme : msrME s = true) {ra : Word}
    (he : busErrorIn s .load (lineBase (lineOf ra)) 32 = true) : (fillLine ra s).inp.dataMachineCheck = true :=
  (dataSide_installLine ra _ false _).check
    (busRead_check (s := clearBuffer s) hme he)

theorem dataRead_fill_check {s : State} (hme : msrME s = true) {ra : Word} {x : Attrs} {n : Nat} (hi : x.i = false)
    (hway : dWay s ra = none) (hlwoa : ccrLWOA s = false) (hn : s.params.dcacheSize.classes ≠ 0)
    (he : busErrorIn s .load (lineBase (lineOf ra)) 32 = true) : (dataRead ra x n s).2.inp.dataMachineCheck = true := by
  have hseen : dSeen s x ra = none := by rw [dSeen, hway]; rfl
  have hfill := fillLine_check hme he
  simp only [dataRead, hseen, hi, hlwoa, hn, Bool.and_false, Bool.or_false, Bool.false_eq_true, if_false, decide_false]
  split
  · exact hfill
  · exact (dataSide_uncachedRead _ _ _ _).check hfill

theorem loadUnits_inhibited_check {s : State} (hme : msrME s = true) (hl : ccrLWL s = false) (hb : s.sto.buffer = none)
    {us : List UnitAccess} {u : UnitAccess} (hu : u ∈ us) (hi : u.x.attrs.i = true) (hw : u.x.attrs.w = false)
    (he : busErrorIn s .load u.x.ra u.n = true) : (loadUnits us s).2.inp.dataMachineCheck = true := by
  induction us generalizing s with
  | nil => cases hu
  | cons v us ih =>
    have hturn := work_busTurn s
    have kturn := dataSide_busTurn s
    rcases List.mem_cons.mp hu with rfl | hu
    · refine (dataSide_loadUnits us _).check (dataRead_inhibited_check (hturn.msrME.trans hme) (kturn.lwl.trans hl)
        (kturn.buffer hl hb) hi hw ?_)
      exact (hturn.busErrorIn _ _ _).trans he
    · have hwork := hturn.trans (work_dataRead v.x.ra v.x.attrs v.n _)
      have kwork := kturn.trans (dataSide_dataRead v.x.ra v.x.attrs v.n _)
      exact ih (hwork.msrME.trans hme) (kwork.lwl.trans hl) (kwork.buffer hl hb) hu ((hwork.busErrorIn _ _ _).trans he)

theorem loadUnits_fill_check {s : State} (hme : msrME s = true) {us : List UnitAccess} {u : UnitAccess} (hu : us.head? = some u)
    (hi : u.x.attrs.i = false) (hway : dWay s u.x.ra = none) (hlwoa : ccrLWOA s = false) (hn : s.params.dcacheSize.classes ≠ 0)
    (he : busErrorIn s .load (lineBase (lineOf u.x.ra)) 32 = true) : (loadUnits us s).2.inp.dataMachineCheck = true := by
  obtain ⟨us, rfl⟩ := List.head?_eq_some_iff.mp hu
  have hturn := work_busTurn s
  refine (dataSide_loadUnits us _).check (dataRead_fill_check (hturn.msrME.trans hme) hi ((dWay_busTurn s _).trans hway)
    ((dataSide_busTurn s).lwoa.trans hlwoa) ?_ ?_)
  · rw [hturn.params]; exact hn
  · exact (hturn.busErrorIn _ _ _).trans he

/-! ### Stores that meet a bus error (R622) -/

theorem work_dataWrite_pre (ra : Word) (s : State) : StorageWork s (dropBuffer ra (busTurn s)) :=
  (work_busTurn s).trans (work_dropBuffer ra _)

/-- A write-through store writes its bytes to storage, so it meets their bus error (R171, R622). -/
theorem storeThrough_through_check {s : State} (hme : msrME s = true) {ra : Word} {x : Attrs} {bs : List Byte} (hw : x.w = true)
    (he : busErrorIn s .store ra bs.length = true) : (storeThrough ra x bs s).inp.dataMachineCheck = true := by
  have hwrite {direct : Bool} {t : State} {cs : List Byte} (h : StorageWork s t) (hlen : cs.length = bs.length) :
      (busWrite direct ra cs t).inp.dataMachineCheck = true :=
    busWrite_check (h.msrME.trans hme) (by rw [hlen, h.busErrorIn]; exact he)
  have hhit {t : State} (h : StorageWork s t) {way : Bool} (hway : dWay t ra = some way) :
      (storeHit ra x way bs t).inp.dataMachineCheck = true := by
    have hcached := work_writeCached hway bs (!true)
    rw [storeHit, hw]
    exact hwrite ((h.trans hcached).trans (work_touchWay (hcached.params ▸ dClass_lt_of_dWay hway) way)) rfl
  unfold storeThrough
  cases hi : x.i with
  | true =>
    rw [hw]
    exact hwrite (work_drawn _ s) (by simp [freeBytes])
  | false =>
    simp only [hw, Bool.and_false, Bool.false_eq_true, if_false]
    split
    · rename_i way hseen
      exact hhit (.refl s) (dWay_of_dSeen hseen)
    · rename_i hseen
      split
      · exact hwrite (.refl s) rfl
      · rename_i hmiss
        have hfill := work_fillLine (ra := ra) (fun e => hmiss (by simp [e])) (dWay_of_dSeen_none hseen hi)
        split
        · rename_i hway
          exact hhit hfill hway
        · exact hwrite hfill rfl

/-- A caching inhibited store with no cached copy meets the bus error of its bytes (R172, R622). -/
theorem storeThrough_inhibited_check {s : State} (hme : msrME s = true) {ra : Word} {x : Attrs} {bs : List Byte} (hi : x.i = true)
    (hway : dWay s ra = none) (he : busErrorIn s .store ra bs.length = true) :
    (storeThrough ra x bs s).inp.dataMachineCheck = true := by
  cases hw : x.w with
  | true => exact storeThrough_through_check hme hw he
  | false =>
    have hseen : dSeen s x ra = none := by rw [dSeen, hway]; rfl
    simp only [storeThrough, hi, hw, hseen, Bool.false_and, Bool.true_or, Bool.false_eq_true, if_false, if_true]
    exact busWrite_check hme he

theorem storeUnits_through_check {s : State} (hme : msrME s = true) {us : List UnitAccess} {bs : List Byte}
    (hlen : unitTotal us ≤ bs.length) {u : UnitAccess} (hu : u ∈ us) (hw : u.x.attrs.w = true)
    (he : busErrorIn s .store u.x.ra u.n = true) : (storeUnits us bs s).inp.dataMachineCheck = true := by
  induction us generalizing s bs with
  | nil => cases hu
  | cons v us ih =>
    rw [unitTotal, List.map_cons, List.sum_cons] at hlen
    have hpre := work_dataWrite_pre v.x.ra s
    rcases List.mem_cons.mp hu with rfl | hu
    · refine (dataSide_storeUnits us _ _).check (storeThrough_through_check (hpre.msrME.trans hme) hw ?_)
      rw [List.length_take_of_le (by omega), hpre.busErrorIn]
      exact he
    · have hwork := (work_busTurn s).trans (work_dataWrite v.x.ra v.x.attrs (bs.take v.n) _)
      refine ih (hwork.msrME.trans hme) ?_ hu ((hwork.busErrorIn _ _ _).trans he)
      rw [List.length_drop, unitTotal]
      omega

theorem storeUnits_inhibited_check {s : State} (hme : msrME s = true) {us : List UnitAccess} {bs : List Byte}
    (hlen : unitTotal us ≤ bs.length) {u : UnitAccess} (hu : us.head? = some u) (hi : u.x.attrs.i = true)
    (hway : dWay s u.x.ra = none) (he : busErrorIn s .store u.x.ra u.n = true) :
    (storeUnits us bs s).inp.dataMachineCheck = true := by
  obtain ⟨us, rfl⟩ := List.head?_eq_some_iff.mp hu
  rw [unitTotal, List.map_cons, List.sum_cons] at hlen
  have hpre := work_dataWrite_pre u.x.ra s
  refine (dataSide_storeUnits us _ _).check (storeThrough_inhibited_check (hpre.msrME.trans hme) hi ?_ ?_)
  · have hdrop : dWay (dropBuffer u.x.ra (busTurn s)) u.x.ra = dWay (busTurn s) u.x.ra := by
      unfold dropBuffer
      split <;> rfl
    rw [hdrop, dWay_busTurn, hway]
  · rw [List.length_take_of_le (by omega), hpre.busErrorIn]
    exact he

/-! ### The ten loads without update (R270 to R290) -/

/-- What one of the ten loads leaves: with plain accesses, and with a bus error. -/
def Loads (s : State) (rt : Reg) (i : Instr) (ea : Word) (n : Nat) (algebraic reversed x31 : Bool) : Prop :=
  let us := checkUnits s false (units ea n)
  us.2 = none →
  (Cached s → plain s us.1 = true →
    ∃ t, exec i s = .next t ∧ WritesGpr s t rt (loadedWord algebraic reversed (viewUnits s us.1)) ∧ Bit31 s t x31 ∧
      t.pc = s.pc + 4#32 ∧ (∀ a, dataByte t a = dataByte s a) ∧ OnlyAccess s t) ∧
  ((∃ u ∈ us.1, u.x.attrs.i = true ∧ u.x.attrs.w = false ∧ s.sto.buffer = none ∧ ccrLWL s = false ∧
      MeetsBusError s (·.onLoad) u.x.ra u.n) ∨
    (∃ u, us.1.head? = some u ∧ u.x.attrs.i = false ∧ dWay s u.x.ra = none ∧ ccrLWOA s = false ∧
      s.params.dcacheSize.classes ≠ 0 ∧ MeetsBusError s (·.onLoad) (lineBase (lineOf u.x.ra)) 32) →
    ∃ t, exec i s = .next t ∧ (bit s.msr 19 = true → t.inp.dataMachineCheck = true) ∧ (∀ q, q ≠ rt → gpr t q = gpr s q) ∧
      t.exc = s.exc ∧ t.msr = s.msr ∧ Bit31 s t x31 ∧ t.pc = s.pc + 4#32)

/-- What a scalar load does with its bytes. -/
def loadDone (rt : Reg) (form : LoadForm) (x31 : Bool) (bs : List (Byte × Bool)) (t : State) : State :=
  undefinedCr0 x31 (setGpr rt (form.apply (scalarOf bs)) t)

theorem loads_of {s : State} (hq : quiet s = true) {rt : Reg} {i : Instr} {ea : Word} {n : Nat} {form : LoadForm}
    {algebraic reversed x31 : Bool} (hform : form.Leaves n algebraic reversed)
    (hrun : exec i s = .next (loadBytes ea n (fun _ t => t) (loadDone rt form x31) s)) :
    Loads s rt i ea n algebraic reversed x31 := by
  have hdone (bs : List (Byte × Bool)) : WritesUser (loadDone rt form x31 bs) := writesUser_setGpr rt _ x31
  intro hok
  refine ⟨fun hc hp => ?_, fun herr => ?_⟩
  · obtain ⟨t, ht, -, hrest, hview⟩ := loadBytes_spec ea n (fun _ t => t) (loadDone rt form x31) hq hc hok hp fun bs => (hdone bs).dbg
    refine ⟨_, hrun.trans (congrArg _ ht), ?_, ?_, rfl, fun a => ?_, (hdone _).onlyAccess hrest _⟩
    · rw [← hform _ ((length_viewUnits s _).trans (unitTotal_checked hok))]
      exact writesGpr_of_gpr (u := t) (by rw [hrest]) (undefinedCr0_gpr x31 _)
    · exact bit31_undefinedCr0 (by rw [setGpr_cr, hrest]) x31 _
    · exact (dataByte_of_sto ((hdone _).sto t) ((hdone _).params t) a).trans (hview a)
  · refine ⟨_, hrun.trans (congrArg _ (loadBytes_run hq hok fun bs => (hdone bs).dbg)), fun hme => ?_, ?_, ?_, ?_, ?_, rfl⟩
    all_goals generalize hus : (checkUnits s false (units ea n)).1 = us at herr
    all_goals have hwork := work_loadUnits us s
    · refine (congrArg Inputs.dataMachineCheck (undefinedCr0_inp x31 _)).trans ?_
      rcases herr with ⟨u, hu, hi, hw, hb, hl, he⟩ | ⟨u, hu, hi, hway, hlwoa, hn, he⟩
      · exact loadUnits_inhibited_check hme hl hb hu hi hw ((busErrorIn_iff s .load _ _).mpr he)
      · exact loadUnits_fill_check hme hu hi hway hlwoa hn ((busErrorIn_iff s .load _ _).mpr he)
    · exact (writesGpr_of_gpr (u := (loadUnits us s).2) (by rw [hwork.rest]) (undefinedCr0_gpr x31 _)).2
    · exact (undefinedCr0_exc x31 _).trans (by rw [setGpr_exc, hwork.rest])
    · exact (undefinedCr0_msr x31 _).trans (by rw [setGpr_msr, hwork.rest])
    · exact bit31_undefinedCr0 (by rw [setGpr_cr, hwork.rest]) x31 _

/-- Settles O32: each form leaves the number loaded as `loadedWord` says. -/
theorem scalarLoads : Obligations.ScalarLoads := by
  intro s rt ra rb d x31 hq base ed ex
  have zeros {i : Instr} {ea : Word} {n : Nat} {x31 : Bool} :=
    loads_of hq (rt := rt) (i := i) (ea := ea) (x31 := x31) (LoadForm.zero_leaves n)
  have sign {i : Instr} {ea : Word} {n : Nat} {x31 : Bool} :=
    loads_of hq (rt := rt) (i := i) (ea := ea) (x31 := x31) (LoadForm.algebraic_leaves n)
  iterate 10 rw [List.forall_mem_cons]
  exact ⟨zeros rfl, zeros rfl, sign rfl, sign rfl, zeros rfl, zeros rfl, zeros rfl, zeros rfl,
    loads_of hq LoadForm.halfReversed_leaves rfl, loads_of hq LoadForm.wordReversed_leaves rfl, List.forall_mem_nil _⟩

/-! ### The fourteen scalar stores (R300 to R313) -/

/-- What a scalar store does once its bytes are stored: an update form writes the address to RA (R271). -/
def storeDone (update : Bool) (ra : Reg) (ea : Word) (x31 : Bool) (t : State) : State :=
  undefinedCr0 x31 (if update then setGpr ra ea t else t)

theorem storeDone_writesUser (update : Bool) (ra : Reg) (ea : Word) (x31 : Bool) : WritesUser (storeDone update ra ea x31) := by
  cases update
  · exact writesUser_undefinedCr0 x31
  · exact writesUser_setGpr ra ea x31

theorem gpr_storeDone (update : Bool) (ra q : Reg) (ea : Word) (x31 : Bool) (t : State) :
    gpr (storeDone update ra ea x31 t) q = if update = true ∧ q = ra then ea else gpr t q := by
  rw [storeDone, gpr_congr (undefinedCr0_gpr x31 _)]
  cases update
  · simp
  · simp [gpr_setGpr, eq_comm]

/-- What one of the fourteen stores leaves: with plain accesses, and with a bus error. -/
def Stores (s : State) (ra : Reg) (i : Instr) (ea : Word) (msb : List Byte) (reversed update x31 : Bool) : Prop :=
  let us := checkUnits s true (units ea msb.length)
  let bs := if storeOrder us.1 != reversed then msb.reverse else msb
  us.2 = none →
  (Cached s → plain s us.1 = true →
    ∃ t, exec i s = .next t ∧ (∀ a, dataByte t a = storeUnitsView (dataByte s) us.1 bs a) ∧
      (∀ a, touched us.1 a = false → dataByte t a = dataByte s a) ∧
      (∀ u ∈ us.1, (u.x.attrs.w || u.x.attrs.i) = true → ∀ j, j < u.n →
        memByte t (u.x.ra + BitVec.ofNat 32 j) = dataByte t (u.x.ra + BitVec.ofNat 32 j)) ∧
      ((∀ u ∈ us.1, u.x.attrs.i = true) → ∀ l ∈ t.sto.late, l ∈ s.sto.late ∨ l.direct = true) ∧
      (∀ q, gpr t q = if update = true ∧ q = ra then ea else gpr s q) ∧ Bit31 s t x31 ∧ t.pc = s.pc + 4#32 ∧ OnlyAccess s t) ∧
  ((∃ u ∈ us.1, u.x.attrs.w = true ∧ MeetsBusError s (·.onStore) u.x.ra u.n) ∨
    (∃ u, us.1.head? = some u ∧ u.x.attrs.i = true ∧ dWay s u.x.ra = none ∧ MeetsBusError s (·.onStore) u.x.ra u.n) →
    ∃ t, exec i s = .next t ∧ (bit s.msr 19 = true → t.inp.dataMachineCheck = true) ∧
      (∀ q, gpr t q = if update = true ∧ q = ra then ea else gpr s q) ∧ t.exc = s.exc ∧ t.msr = s.msr ∧
      Bit31 s t x31 ∧ t.pc = s.pc + 4#32)

/-- A byte-reverse store stores as one of the other byte order. -/
theorem reversedOrder (order reversed : Bool) (msb : List Byte) :
    (if order then (if reversed then msb.reverse else msb).reverse else if reversed then msb.reverse else msb) =
      if order != reversed then msb.reverse else msb := by
  cases order <;> cases reversed <;> simp

theorem bit31_storeDone {s t : State} (h : t.cr = s.cr) (update : Bool) (ra : Reg) (ea : Word) (x31 : Bool) (pc : Word) :
    Bit31 s { storeDone update ra ea x31 t with pc := pc } x31 :=
  bit31_undefinedCr0 (by cases update <;> exact h) x31 pc

theorem stores_of {s : State} (hq : quiet s = true) {ra : Reg} {i : Instr} {ea : Word} {msb : List Byte}
    {reversed update x31 : Bool} (hlen : msb.length ≤ 128)
    (hrun : exec i s = .next (storeBytes ea msb.length (scalarBytes (if reversed then msb.reverse else msb))
      (storeDone update ra ea x31) s)) : Stores s ra i ea msb reversed update x31 := by
  have hdone := storeDone_writesUser update ra ea x31
  have hbytes : (if reversed then msb.reverse else msb).length = msb.length := by cases reversed <;> simp
  intro hok
  refine ⟨fun hc hp => ?_, fun herr => ?_⟩
  · obtain ⟨t, ht, hrest, hst⟩ := storeBytes_stored ea _ (storeDone update ra ea x31) hq hc hlen hok hp hdone.dbg
      (by rw [length_scalarBytes, hbytes])
    rw [scalarBytes_units (units_pos s true ea _), reversedOrder] at hst
    have hst' := hst.congr (u := { storeDone update ra ea x31 t with pc := s.pc + 4#32 }) (hdone.sto t) (hdone.params t)
    refine ⟨_, hrun.trans (congrArg _ ht), hst'.view, hst'.other, hst'.through, hst'.late, fun q => ?_, ?_, rfl,
      hdone.onlyAccess hrest _⟩
    · refine (gpr_storeDone update ra q ea x31 t).trans ?_
      rw [gpr_congr (show t.gpr = s.gpr by rw [hrest])]
    · exact bit31_storeDone (by rw [hrest]) ..
  · refine ⟨_, hrun.trans (congrArg _ (storeBytes_run hq hok hdone.dbg)), fun hme => ?_, fun q => ?_, ?_, ?_, ?_, rfl⟩
    all_goals generalize hus : (checkUnits s true (units ea msb.length)).1 = us at herr
    all_goals generalize hbs : scalarBytes (if reversed then msb.reverse else msb) (unitOrders us) = bs
    all_goals have hwork := work_storeUnits us bs s
    · have htotal : unitTotal us ≤ bs.length := by
        rw [← hbs, length_scalarBytes, hbytes, ← hus, unitTotal_checked hok]
      refine (congrArg Inputs.dataMachineCheck (congrArg State.inp (hdone (storeUnits us bs s)))).trans ?_
      rcases herr with ⟨u, hu, hw, he⟩ | ⟨u, hu, hi, hway, he⟩
      · exact storeUnits_through_check hme htotal hu hw ((busErrorIn_iff s .store _ _).mpr he)
      · exact storeUnits_inhibited_check hme htotal hu hi hway ((busErrorIn_iff s .store _ _).mpr he)
    · refine (gpr_storeDone update ra q ea x31 _).trans ?_
      rw [gpr_congr (show (storeUnits us bs s).gpr = s.gpr by rw [hwork.rest])]
    · exact (congrArg State.exc (hdone (storeUnits us bs s))).trans (by rw [hwork.rest])
    · exact (congrArg State.msr (hdone (storeUnits us bs s))).trans (by rw [hwork.rest])
    · exact bit31_storeDone (by rw [hwork.rest]) ..

/-- Settles O38: each form stores the low bytes of RS as `stores_of` says. -/
theorem scalarStores : Obligations.ScalarStores := by
  intro s rs ra rb d x31 hq base ed ex ud ux w b1 b2 b4
  have straight {i : Instr} {ea : Word} {msb : List Byte} {update x31 : Bool} :=
    stores_of hq (ra := ra) (i := i) (ea := ea) (msb := msb) (reversed := false) (update := update) (x31 := x31)
  have reversed {i : Instr} {ea : Word} {msb : List Byte} {x31 : Bool} :=
    stores_of hq (ra := ra) (i := i) (ea := ea) (msb := msb) (reversed := true) (update := false) (x31 := x31)
  have h1 : b1.length ≤ 128 := Nat.le_of_ble_eq_true rfl
  have h2 : b2.length ≤ 128 := Nat.le_of_ble_eq_true rfl
  have h4 : b4.length ≤ 128 := Nat.le_of_ble_eq_true rfl
  iterate 14 rw [List.forall_mem_cons]
  exact ⟨straight h1 rfl, straight h1 rfl, straight h1 rfl, straight h1 rfl, straight h2 rfl, straight h2 rfl, straight h2 rfl,
    straight h2 rfl, straight h4 rfl, straight h4 rfl, straight h4 rfl, straight h4 rfl, reversed h2 rfl, reversed h4 rfl,
    List.forall_mem_nil _⟩

end Sys2Proof.Machine
end

section
/-! SUPPORT. String forms with XER[TBC] = 0 (R164, R293, R316). -/

namespace Sys2Proof.Machine

/-- `lswx` of no bytes does nothing, or reports the bus error of the line fill its address would cause (R164, R293). -/
theorem loadNothing_cases (ea : Word) (s : State) :
    loadNothing ea s = s ∨ s.params.busErrors ≠ [] ∧ loadNothing ea s = reportDataError s := by
  unfold loadNothing
  split
  · split
    · rename_i h
      refine .inr ⟨fun e => ?_, rfl⟩
      rw [busErrorIn_nil e, Bool.and_false] at h
      cases h
    · exact .inl rfl
  · exact .inl rfl

/-- A data-side bus error reported changes at most the pending check and the free values (R622). -/
theorem reportDataError_eq (s : State) :
    reportDataError s = { s with inp := { s.inp with dataMachineCheck := (reportDataError s).inp.dataMachineCheck },
                                 free := (reportDataError s).free } := by
  unfold reportDataError
  split <;> rfl

/-- Settles O37: neither form makes an access; `lswx` may report a bus error. -/
theorem emptyStrings : Obligations.EmptyStrings := by
  intro s rt ra rb x31 hq hx
  have htbc : xerTBC s = 0#7 := BitVec.eq_of_toNat_eq ((xerTBC_toNat s).trans hx)
  refine ⟨?_, ?_⟩
  · refine ⟨_, show execStswx rt ra rb x31 s = _ from if_pos htbc, ?_⟩
    rw [advance_quiet hq]
    refine ⟨rfl, bit31_undefinedCr0 rfl x31 _, ?_, dataByte_of_sto (undefinedCr0_sto x31 s) (undefinedCr0_params x31 s)⟩
    rw [OnlyPc, writesUser_undefinedCr0 x31 s, undefinedCr0_gpr]
  · refine ⟨_, show execLswx rt ra rb x31 s = _ from if_pos htbc, ?_⟩
    rw [advance_quiet hq]
    obtain ⟨m, f, hload, hnone⟩ : ∃ m f, loadNothing (eaX s ra rb) s =
        { s with inp := { s.inp with dataMachineCheck := m }, free := f } ∧ (s.params.busErrors = [] → m = s.inp.dataMachineCheck) := by
      rcases loadNothing_cases (eaX s ra rb) s with h | ⟨hne, h⟩
      · exact ⟨_, _, h, fun _ => rfl⟩
      · exact ⟨_, _, h.trans (reportDataError_eq s), fun e => absurd e hne⟩
    rw [hload]
    refine ⟨rfl, bit31_undefinedCr0 rfl x31 _, fun he => ?_,
      dataByte_of_sto (t := s) (undefinedCr0_sto x31 _) (undefinedCr0_params x31 _), ?_⟩
    · rw [OnlyPc, writesUser_undefinedCr0 x31 _, undefinedCr0_gpr, hnone he]
    · rw [writesUser_undefinedCr0 x31 _, undefinedCr0_gpr]

end Sys2Proof.Machine
end

section
/-! SUPPORT. The data cache operations on one line: the touches, `dcba` and `dcbz` (R163, R183, R185, R501, R505 to R507). -/

namespace Sys2Proof.Machine

/-- In a quiet state that no other bus master disturbs a cache operation is its operation on the line, and the next instruction. -/
theorem cacheStep_quiet {s : State} (hq : quiet s = true) (hu : undisturbed s = true) (store : Bool) (ea : Word) (x31 : Bool)
    (op : State → State) :
    cacheStep (cacheDacBits s store ea) x31 op s = { undefinedCr0 x31 (op s) with pc := s.pc + 4#32 } := by
  rw [cacheStep, cacheDacBits_quiet hq, beforeEvent_zero, advance_quiet hq, busTurn_undisturbed hu]

/-! ### What an operation on lines changes -/

/-- At most the bytes of storage, the writes under way, the data cache, the line buffer and the counter of free values differ. -/
def OnlyLines (s t : State) : Prop :=
  t = { s with free := t.free,
               sto := { s.sto with mem := t.sto.mem, dcache := t.sto.dcache, buffer := t.sto.buffer, late := t.sto.late } }

theorem OnlyLines.refl (s : State) : OnlyLines s s := rfl

theorem OnlyLines.trans {s t u : State} (h : OnlyLines s t) (g : OnlyLines t u) : OnlyLines s u := by
  rw [OnlyLines] at h g ⊢
  rw [g, h]

theorem StorageStep.onlyLines {s t : State} (h : StorageStep s t) : OnlyLines s t := by
  rw [OnlyLines, h.rest]

theorem onlyLines_drawn (n : Nat) (s : State) : OnlyLines s (drawn n s) := rfl

theorem onlyLines_clearBuffer (s : State) : OnlyLines s (clearBuffer s) := rfl

theorem onlyLines_dropBuffer (ra : Word) (s : State) : OnlyLines s (dropBuffer ra s) := by
  unfold dropBuffer
  split <;> rfl

theorem OnlyLines.onlyStorage {s t : State} (h : OnlyLines s t) (x31 : Bool) (pc : Word) :
    OnlyStorage s { undefinedCr0 x31 t with pc := pc } := by
  rw [OnlyStorage, writesUser_undefinedCr0 x31 t, undefinedCr0_gpr, h]

theorem OnlyLines.bit31 {s t : State} (h : OnlyLines s t) (x31 : Bool) (pc : Word) :
    Bit31 s { undefinedCr0 x31 t with pc := pc } x31 := bit31_undefinedCr0 (by rw [h]) x31 pc

theorem onlyPc_undefinedCr0 {s t : State} (h : t = { s with free := t.free }) (x31 : Bool) (pc : Word) :
    OnlyPc s { undefinedCr0 x31 t with pc := pc } := by
  rw [OnlyPc, writesUser_undefinedCr0 x31 t, undefinedCr0_gpr, h]

/-- Bit 31 and the next pc change what no address reads as, and no line. -/
theorem dataByte_undefinedCr0 (x31 : Bool) (t : State) (pc : Word) (a : Word) :
    dataByte { undefinedCr0 x31 t with pc := pc } a = dataByte t a :=
  dataByte_of_sto (undefinedCr0_sto x31 t) (undefinedCr0_params x31 t) a

theorem dWay_undefinedCr0 (x31 : Bool) (t : State) (pc : Word) (a : Word) :
    dWay { undefinedCr0 x31 t with pc := pc } a = dWay t a :=
  dWay_congr (congrArg Storage.dcache (undefinedCr0_sto x31 t)) (undefinedCr0_params x31 t) a

/-- The line buffer and the free values play no part in what the cache and storage hold. -/
theorem Cached.congr {s t : State} (h : Cached s) (hm : t.sto.mem = s.sto.mem) (hd : t.sto.dcache = s.sto.dcache)
    (hp : t.params = s.params) : Cached t := by
  have hline := lineAt_congr hd hp
  have hmem (a : Word) : memByte t a = memByte s a := by rw [memByte, memByte, hm]
  refine ⟨by rw [memOk, hm]; exact h.mem, by rw [dcacheOk_congr hd hp]; exact h.dc, ?_⟩
  rw [cleanAgrees_iff]
  intro a l hl hdirty
  rw [hmem, (cleanAgrees_iff s).mp h.clean a l ((hline a).symm.trans hl) hdirty]

/-! ### The touches (R505, R506) -/

theorem touchLine_cases (x : Xlate) (s : State) :
    (touchLine x s = s ∧ (x.attrs.i = true ∨ s.params.dcacheSize.classes = 0 ∨ dWay s x.ra ≠ none)) ∨
      (touchLine x s = fillLine x.ra (clearBuffer s) ∧ s.params.dcacheSize.classes ≠ 0 ∧ dWay s x.ra = none) := by
  unfold touchLine
  split
  · rename_i h
    simp only [Bool.or_eq_true, beq_iff_eq, Option.isSome_iff_ne_none, or_assoc] at h
    exact .inl ⟨rfl, h⟩
  · rename_i h
    simp only [Bool.or_eq_true, beq_iff_eq, Option.isSome_iff_ne_none, not_or, not_not] at h
    exact .inr ⟨rfl, h.1.2, h.2⟩

/-- A touch changes what no address reads as, and leaves a cachable line present. -/
theorem touchLine_spec {s : State} (hc : Cached s) (he : s.params.busErrors = []) (x : Xlate) :
    OnlyLines s (touchLine x s) ∧ (∀ a, dataByte (touchLine x s) a = dataByte s a) ∧
      (x.attrs.i = false → s.params.dcacheSize.classes ≠ 0 → dWay (touchLine x s) x.ra ≠ none) := by
  rcases touchLine_cases x s with ⟨e, h⟩ | ⟨e, hn, hway⟩
  · rw [e]
    exact ⟨.refl s, fun _ => rfl, fun hi hn => (h.resolve_left (by simp [hi])).resolve_left hn⟩
  · have hc' : Cached (clearBuffer s) := hc.congr rfl rfl rfl
    obtain ⟨-, hstep, hline, hview⟩ := fillLine_spec hc' he rfl x.ra hn ((lineAt_none_iff _ _).mpr hway)
    rw [e]
    refine ⟨(onlyLines_clearBuffer s).trans hstep.onlyLines, hview, fun _ _ hnone => ?_⟩
    rw [(lineAt_none_iff _ _).mpr hnone] at hline
    cases hline

/-! ### A line established (R185, R501, R507) -/

/-- What addresses read as depends on the lines' tags, validity and bytes alone. -/
theorem dataByte_setDSet_congr {s : State} (h : dcacheOk s = true) (k : Nat) {d e : DSet} (hway : ∀ l, d.way l = e.way l)
    (hdata : ∀ w, (d.get w).data = (e.get w).data) (a : Word) : dataByte (setDSet k d s) a = dataByte (setDSet k e s) a := by
  have hset (d : DSet) : dSet (setDSet k d s) (dClass s a) = if dClass s a = k then d else dSet s (dClass s a) :=
    dSet_setDSet h k d _
  have hclass (d : DSet) : dClass (setDSet k d s) a = dClass s a := rfl
  have hparams (d : DSet) : (setDSet k d s).params = s.params := rfl
  simp only [dataByte, dWay, hclass, hparams, hset]
  by_cases hk : dClass s a = k
  · simp only [if_pos hk, hway, hdata, memByte_setDSet]
  · simp only [if_neg hk, memByte_setDSet]

/-- A line installed clean reads as one installed dirty. -/
theorem dataByte_installLine_dirty {s : State} (hc : Cached s) (he : s.params.busErrors = []) (ra : Word) (data : Vector Byte 32)
    (dirty : Bool) (a : Word) : dataByte (installLine ra data dirty s) a = dataByte (installLine ra data true s) a := by
  have hok : dcacheOk (castOut (dClass s ra) s) = true := by
    rw [dcacheOk_congr (castOut_dcache he _) (castOut_step he _).params]
    exact hc.dc
  refine dataByte_setDSet_congr hok _ (fun l => ?_) (fun w => ?_) a
  · cases (dSet (castOut (dClass s ra) s) (dClass s ra)).lruB <;> rfl
  · cases (dSet (castOut (dClass s ra) s) (dClass s ra)).lruB <;> cases w <;> rfl

theorem installLine_step {s : State} (he : s.params.busErrors = []) (ra : Word) (data : Vector Byte 32) (dirty : Bool) :
    StorageStep s (installLine ra data dirty s) := by
  have hcast := castOut_step he (dClass s ra)
  exact hcast.trans (StorageStep.putDSet (by rw [hcast.params]; exact he) _ _)

theorem allocateLine_cases (x : Xlate) (s : State) :
    allocateLine x s = s ∨ (x.attrs.i = false ∧ x.attrs.w = false ∧ s.params.dcacheSize.classes ≠ 0 ∧ dWay s x.ra = none ∧
      (allocateLine x s = drawn 1 s ∨
        ∃ data dirty, allocateLine x s = installLine x.ra data dirty (drawn 33 s))) := by
  unfold allocateLine
  split
  · exact .inl rfl
  · rename_i h
    simp only [Bool.or_eq_true, beq_iff_eq, Option.isSome_iff_ne_none, not_or, not_not, Bool.not_eq_true] at h
    obtain ⟨⟨⟨hi, hw⟩, hn⟩, hway⟩ := h
    refine .inr ⟨hi, hw, hn, hway, ?_⟩
    split
    · exact .inr ⟨_, _, rfl⟩
    · exact .inl rfl

/-- `dcba` changes at most the bytes of an absent line in cachable write-back storage (R501, U26). -/
theorem allocateLine_spec {s : State} (hc : Cached s) (he : s.params.busErrors = []) (x : Xlate) :
    OnlyLines s (allocateLine x s) ∧ (x.attrs.i = true ∨ x.attrs.w = true ∨ dWay s x.ra ≠ none → allocateLine x s = s) ∧
      ∀ a, lineOf a ≠ lineOf x.ra → dataByte (allocateLine x s) a = dataByte s a := by
  rcases allocateLine_cases x s with e | ⟨hi, hw, hn, hway, e | ⟨data, dirty, e⟩⟩
  · rw [e]
    exact ⟨.refl s, fun _ => rfl, fun _ _ => rfl⟩
  · rw [e]
    exact ⟨onlyLines_drawn 1 s, fun h => by simp [hi, hw, hway] at h, fun _ _ => rfl⟩
  · have hc' : Cached (drawn 33 s) := hc.congr rfl rfl rfl
    obtain ⟨-, -, -, hview⟩ := installLine_spec hc' he x.ra data true hn ((lineAt_none_iff _ _).mpr hway) nofun
    rw [e]
    refine ⟨(onlyLines_drawn 33 s).trans (installLine_step (s := drawn 33 s) he _ _ _).onlyLines,
      fun h => by simp [hi, hw, hway] at h, fun a ha => ?_⟩
    rw [dataByte_installLine_dirty hc' he, hview, if_neg ha]
    rfl

/-- Settles O43: the touches by `touchLine_spec`, `dcba` by `allocateLine_spec`. -/
theorem lineTouches : Obligations.LineTouches := by
  intro s ra rb x31 hq hu hc he ea ends
  have touches {i : Instr} (hi : exec i s = .next (touchData ea x31 s)) :
      ∃ t, exec i s = .next t ∧ (∀ a, dataByte t a = dataByte s a) ∧
        (∀ x, loadXlate s ea = .ok x → x.attrs.i = false → s.params.dcacheSize.classes ≠ 0 → dWay t x.ra ≠ none) ∧
        (∀ f, loadXlate s ea = .error f → OnlyPc s t) ∧ ends t := by
    refine ⟨_, hi, ?_⟩
    unfold touchData
    cases hx : loadXlate s ea with
    | ok x =>
      obtain ⟨honly, hview, hpresent⟩ := touchLine_spec hc he x
      dsimp only
      rw [cacheStep_quiet hq hu]
      refine ⟨fun a => (dataByte_undefinedCr0 x31 _ _ a).trans (hview a), fun y hy hin hn => ?_, nofun, honly.bit31 x31 _, rfl,
        honly.onlyStorage x31 _⟩
      cases hy
      rw [dWay_undefinedCr0]
      exact hpresent hin hn
    | error f =>
      dsimp only
      rw [advance_quiet hq]
      exact ⟨dataByte_undefinedCr0 x31 s _, nofun, fun _ _ => onlyPc_undefinedCr0 rfl x31 _, (OnlyLines.refl s).bit31 x31 _, rfl,
        (OnlyLines.refl s).onlyStorage x31 _⟩
  refine ⟨List.forall_mem_cons.mpr ⟨touches rfl, List.forall_mem_cons.mpr ⟨touches rfl, List.forall_mem_nil _⟩⟩,
    _, show exec (.dcba ra rb x31) s = .next (allocateData ea x31 s) from rfl, ?_⟩
  have idle : OnlyPc s { undefinedCr0 x31 s with pc := s.pc + 4#32 } := onlyPc_undefinedCr0 rfl x31 _
  have idleEnds : ends { undefinedCr0 x31 s with pc := s.pc + 4#32 } :=
    ⟨(OnlyLines.refl s).bit31 x31 _, rfl, (OnlyLines.refl s).onlyStorage x31 _⟩
  unfold allocateData invalidateXlate
  cases hx : xlateData s ea with
  | none =>
    dsimp only
    rw [advance_quiet hq]
    exact ⟨fun _ => idle, nofun, idleEnds⟩
  | some x =>
    dsimp only
    cases hw : writeOk s x with
    | false =>
      simp only [Bool.false_eq_true, if_false, advance_quiet hq]
      refine ⟨nofun, fun y hy => ⟨fun _ => idle, fun a _ => dataByte_undefinedCr0 x31 s _ a⟩, idleEnds⟩
    | true =>
      obtain ⟨honly, hsame, hview⟩ := allocateLine_spec hc he x
      simp only [if_true, cacheStep_quiet hq hu]
      refine ⟨nofun, fun y hy => ?_, honly.bit31 x31 _, rfl, honly.onlyStorage x31 _⟩
      cases hy
      refine ⟨fun h => ?_, fun a ha => (dataByte_undefinedCr0 x31 _ _ a).trans (hview a ha)⟩
      rw [hsame (h.resolve_left (by simp [hw]))]
      exact idle

/-! ### `dcbz` (R507) -/

/-- A line established, dirty: its addresses find the new bytes, every other address what it did. -/
theorem establishLine_spec {s : State} (hc : Cached s) (he : s.params.busErrors = []) (hn : s.params.dcacheSize.classes ≠ 0)
    (ra : Word) (data : Vector Byte 32) :
    StorageStep s (establishLine ra data s) ∧
      lineAt (establishLine ra data s) ra = some { valid := true, dirty := true, line := lineOf ra, data := data, undef := false } ∧
      ∀ a, dataByte (establishLine ra data s) a = if lineOf a = lineOf ra then lineByte data (lineOffset a).toNat else dataByte s a := by
  unfold establishLine
  cases hway : dWay s ra with
  | none =>
    obtain ⟨-, hstep, hline, hview⟩ := installLine_spec hc he ra data true hn ((lineAt_none_iff s ra).mpr hway) nofun
    exact ⟨hstep, (hline ra).trans (if_pos rfl), hview⟩
  | some way =>
    have hk := dClass_lt hn ra
    obtain ⟨-, hvalid, hold⟩ := dWay_get hway
    have hline := lineAt_replace hc.dc hk way (!way)
      { valid := true, dirty := true, line := lineOf ra, data := data, undef := false }
      (fun _ ho => hold ▸ DSet.other_line (dcacheOk_dSet hc.dc _) way hvalid ho) (fun _ => (dClass_eq s ra).symm)
    simp only [hold, true_and] at hline
    refine ⟨StorageStep.putDSet he _ _, (hline ra).trans (if_pos rfl), fun a => ?_⟩
    by_cases ha : lineOf a = lineOf ra
    · rw [if_pos ha]
      exact dataByte_of_line ((hline a).trans (if_pos ha))
    · rw [if_neg ha, dataByte_eq, dataByte_eq, hline, if_neg ha, if_neg (fun h => ha h.2)]
      rfl

theorem bufferHas_dropBuffer (ra : Word) (s : State) : bufferHas (dropBuffer ra s) ra = false := by
  unfold dropBuffer
  split
  · rfl
  · rename_i h
    exact Bool.eq_false_iff.mpr h

theorem lineByte_zeros (j : Nat) : lineByte (Vector.replicate 32 0#8) j = 0#8 := by
  simp [lineByte]

/-- The way that holds a line, by the line that is hit. -/
theorem dWay_of_lineAt {s : State} {a : Word} {l : DLine} (h : lineAt s a = some l) :
    ∃ way, dWay s a = some way ∧ (dSet s (dClass s a)).get way = l := by
  simpa only [lineAt, Option.map_eq_some_iff] using h

/-- Settles O44: the line buffer drops the line, and the line is established with zero bytes. -/
theorem lineZeroes : Obligations.LineZeroes := by
  intro s ra rb x31 hq hu hc he ea x hx hi hw hn
  have hbuf : Cached (dropBuffer x.ra s) := by
    unfold dropBuffer
    split
    · exact hc.congr rfl rfl rfl
    · exact hc
  have hparams : (dropBuffer x.ra s).params = s.params := (work_dropBuffer x.ra s).params
  have hsame (a : Word) : dataByte (dropBuffer x.ra s) a = dataByte s a := by
    unfold dropBuffer
    split <;> rfl
  obtain ⟨hstep, hline, hview⟩ :=
    establishLine_spec hbuf (by rw [hparams]; exact he) (by rw [hparams]; exact hn) x.ra (Vector.replicate 32 0#8)
  have honly := (onlyLines_dropBuffer x.ra s).trans hstep.onlyLines
  have hrun : exec (.dcbz ra rb x31) s =
      .next { undefinedCr0 x31 (establishLine x.ra (Vector.replicate 32 0#8) (dropBuffer x.ra s)) with pc := s.pc + 4#32 } := by
    change Host.Outcome.next (afterCheck true ea (storeXlate s ea) (zeroLine ea x31) s) = _
    have hn' : (s.params.dcacheSize.classes == 0) = false := by simpa using hn
    rw [hx, afterCheck, zeroLine, hi, hw, hn']
    exact congrArg Host.Outcome.next
      (cacheStep_quiet hq hu true ea x31 fun s => establishLine x.ra (Vector.replicate 32 0#8) (dropBuffer x.ra s))
  generalize hz : establishLine x.ra (Vector.replicate 32 0#8) (dropBuffer x.ra s) = t at hstep hline hview honly hrun
  refine ⟨_, hrun, fun a => ?_, ?_, ?_, honly.bit31 x31 _, rfl, honly.onlyStorage x31 _⟩
  · rw [dataByte_undefinedCr0, hview, lineByte_zeros, hsame]
  · obtain ⟨way, hway, hget⟩ := dWay_of_lineAt
      ((lineAt_congr (s := { undefinedCr0 x31 t with pc := s.pc + 4#32 }) (t := t)
        (congrArg Storage.dcache (undefinedCr0_sto x31 t)) (undefinedCr0_params x31 t) x.ra).trans hline)
    exact ⟨way, hway, by rw [hget]⟩
  · have hb : (undefinedCr0 x31 t).sto.buffer = (dropBuffer x.ra s).sto.buffer := by rw [undefinedCr0_sto, hstep.buffer]
    simp only [bufferHas, hb]
    exact bufferHas_dropBuffer x.ra s

end Sys2Proof.Machine
end

section
/-! SUPPORT. What leaves the instruction cache as it is (R203): every instruction but `icbi`, `icbt`, `iccci` and the `mtspr` that can reset
the core. -/

namespace Sys2Proof.Machine

/-- The instruction cache is left as it is. -/
structure SameIcache (s t : State) : Prop where
  icache : t.sto.icache = s.sto.icache

theorem SameIcache.refl (s : State) : SameIcache s s := ⟨rfl⟩

theorem SameIcache.trans {s t u : State} (h : SameIcache s t) (g : SameIcache t u) : SameIcache s u := ⟨g.icache.trans h.icache⟩

theorem SameIcache.of_sto {s t : State} (h : t.sto = s.sto) : SameIcache s t := ⟨congrArg Storage.icache h⟩

theorem SameIcache.ite {s t u : State} {c : Prop} [Decidable c] (ht : SameIcache s t) (hu : SameIcache s u) :
    SameIcache s (if c then t else u) := by
  split
  · exact ht
  · exact hu

theorem SameIcache.drawn {s t : State} (h : SameIcache s t) (n : Nat) : SameIcache s (drawn n t) := ⟨h.icache⟩

theorem sameIcache_drawn (n : Nat) (s : State) : SameIcache s (drawn n s) := ⟨rfl⟩

theorem DataSide.sameIcache {s t : State} (h : DataSide s t) : SameIcache s t := ⟨h.icache⟩

/-! ### Events and interrupts leave storage alone -/

@[simp] theorem debugEvent_sto (mode : State) (bits a : Word) (s : State) : (debugEvent mode bits a s).sto = s.sto := by
  unfold debugEvent
  split
  · rfl
  · dsimp only
    split
    · rfl
    · split
      · split <;> rfl
      · split <;> rfl

@[simp] theorem complete_sto (mode : State) (nia dvc : Word) (s : State) : (complete mode nia dvc s).sto = s.sto :=
  debugEvent_sto ..

@[simp] theorem advance_sto (s t : State) : (advance s t).sto = t.sto := complete_sto ..

@[simp] theorem takeInterrupt_sto (c : IntClass) (off a : Word) (s : State) : (takeInterrupt c off a s).sto = s.sto := by
  unfold takeInterrupt exceptionEvent
  split
  · exact debugEvent_sto ..
  · rfl

@[simp] theorem programInterrupt_sto (cause : Word) (s : State) : (programInterrupt cause s).sto = s.sto := takeInterrupt_sto ..

@[simp] theorem alignmentInterrupt_sto (ea : Word) (s : State) : (alignmentInterrupt ea s).sto = s.sto := takeInterrupt_sto ..

@[simp] theorem dataInterrupt_sto (store : Bool) (ea : Word) (f : DataFault) (s : State) :
    (dataInterrupt store ea f s).sto = s.sto := takeInterrupt_sto ..

theorem SameIcache.advance {s t : State} (h : SameIcache s t) : SameIcache s (advance s t) := h.trans (.of_sto (advance_sto s t))

theorem sameIcache_complete {mode s t : State} (h : SameIcache s t) (nia dvc : Word) : SameIcache s (complete mode nia dvc t) :=
  h.trans (.of_sto (complete_sto ..))

theorem sameIcache_beforeEvent {k : State → State} (h : ∀ u, SameIcache u (k u)) (bits : Word) (s : State) :
    SameIcache s (beforeEvent bits k s) := by
  unfold beforeEvent
  exact .ite (h s) (.ite (.of_sto (debugEvent_sto ..)) ((SameIcache.of_sto (recordEvent_sto ..)).trans (h _)))

theorem sameIcache_programInterrupt (cause : Word) (s : State) : SameIcache s (programInterrupt cause s) :=
  .of_sto (programInterrupt_sto ..)

theorem sameIcache_privileged {k : State → State} {s : State} (h : SameIcache s (k s)) : SameIcache s (privileged k s) :=
  .ite (sameIcache_programInterrupt _ s) h

theorem sameIcache_undefinedCr0 (x31 : Bool) (s : State) : SameIcache s (undefinedCr0 x31 s) := .of_sto (undefinedCr0_sto x31 s)

theorem SameIcache.bit31 {s t : State} (h : SameIcache s t) (x31 : Bool) : SameIcache s (undefinedCr0 x31 t) :=
  h.trans (sameIcache_undefinedCr0 x31 t)

theorem sameIcache_privilegedStep {x31 : Bool} {op : State → State} {s : State} (h : SameIcache s (op s)) :
    SameIcache s (privilegedStep x31 op s) := sameIcache_privileged (h.bit31 x31).advance

theorem sameIcache_tlbStep {x31 : Bool} {op : State → State} {s : State} (h : SameIcache s (op s)) :
    SameIcache s (tlbStep x31 op s) := .ite (sameIcache_privilegedStep h) (sameIcache_programInterrupt _ s)

/-! ### Loads and stores -/

theorem sameIcache_setGpr (r : Reg) (v : Word) (s : State) : SameIcache s (setGpr r v s) := ⟨rfl⟩

theorem sameIcache_loadUnits (us : List UnitAccess) (s : State) : SameIcache s (loadUnits us s).2 := (dataSide_loadUnits us s).sameIcache

theorem sameIcache_storeUnits (us : List UnitAccess) (bs : List Byte) (s : State) : SameIcache s (storeUnits us bs s) :=
  (dataSide_storeUnits us bs s).sameIcache

theorem sameIcache_faultedLoad (us : List UnitAccess) (ea : Word) (f : DataFault) {part : List (Byte × Bool) → State → State}
    (hp : ∀ bs u, SameIcache u (part bs u)) (s : State) : SameIcache s (faultedLoad us ea f part s) := by
  unfold faultedLoad
  refine .ite (.of_sto (dataInterrupt_sto ..)) ?_
  have hload := (sameIcache_drawn 1 s).trans (sameIcache_loadUnits (us.take (partialCount s us)) (drawn 1 s))
  exact (hload.trans (hp _ _)).trans (.of_sto (dataInterrupt_sto ..))

theorem sameIcache_faultedStore (us : List UnitAccess) (bs : List Byte) (ea : Word) (f : DataFault) (s : State) :
    SameIcache s (faultedStore us bs ea f s) := by
  unfold faultedStore
  refine .ite (.of_sto (dataInterrupt_sto ..)) ?_
  have hstore := (sameIcache_drawn 1 s).trans (sameIcache_storeUnits (us.take (partialCount s us)) bs (drawn 1 s))
  exact hstore.trans (.of_sto (dataInterrupt_sto ..))

theorem sameIcache_loadBytes {ea : Word} {n : Nat} {part done : List (Byte × Bool) → State → State}
    (hp : ∀ bs u, SameIcache u (part bs u)) (hd : ∀ bs u, SameIcache u (done bs u)) (s : State) :
    SameIcache s (loadBytes ea n part done s) := by
  unfold loadBytes
  split
  · exact sameIcache_beforeEvent (sameIcache_faultedLoad _ _ _ hp) _ s
  · refine sameIcache_beforeEvent (fun u => ?_) _ s
    exact sameIcache_complete (((sameIcache_loadUnits _ u).trans (hd _ _)).drawn _) _ _

theorem sameIcache_storeBytes {ea : Word} {n : Nat} {bytes : List Bool → List Byte} {done : State → State}
    (hd : ∀ u, SameIcache u (done u)) (s : State) : SameIcache s (storeBytes ea n bytes done s) := by
  unfold storeBytes
  split
  · exact sameIcache_beforeEvent (sameIcache_faultedStore _ _ _ _) _ s
  · refine sameIcache_beforeEvent (fun u => ?_) _ s
    exact sameIcache_complete (((sameIcache_storeUnits _ _ u).trans (hd _)).drawn _) _ _

theorem sameIcache_loadScalar (rt : Reg) (ea : Word) (n : Nat) (f : LoadForm) (x31 : Bool) (s : State) :
    SameIcache s (loadScalar rt ea n f x31 s) :=
  sameIcache_loadBytes (fun _ => .refl) (fun _ u => (sameIcache_setGpr _ _ u).bit31 x31) s

theorem sameIcache_loadUpdateWrite (rt ra : Reg) (ea v : Word) (s : State) : SameIcache s (loadUpdateWrite rt ra ea v s) := by
  unfold loadUpdateWrite
  split <;> exact ⟨rfl⟩

theorem sameIcache_loadScalarUpdate (rt ra : Reg) (ea : Word) (n : Nat) (f : LoadForm) (x31 : Bool) (s : State) :
    SameIcache s (loadScalarUpdate rt ra ea n f x31 s) :=
  sameIcache_loadBytes (fun _ => .refl) (fun _ u => (sameIcache_loadUpdateWrite _ _ _ _ u).bit31 x31) s

theorem sameIcache_loadWords (fuel r : Nat) (skip : Nat → Bool) (bs : List (Byte × Bool)) (s : State) :
    SameIcache s (loadWords fuel r skip bs s) := by
  induction fuel generalizing r bs s with
  | zero => exact .refl s
  | succ fuel ih =>
    unfold loadWords
    exact .ite (.refl s) (.trans (.ite (.refl s) (sameIcache_setGpr _ _ s)) (ih _ _ _))

theorem sameIcache_loadString (fuel : Nat) (r : Reg) (skip : Reg → Bool) (bs : List Byte) (s : State) :
    SameIcache s (loadString fuel r skip bs s) := by
  induction fuel generalizing r bs s with
  | zero => exact .refl s
  | succ fuel ih =>
    unfold loadString
    exact .ite (.refl s) (.trans (.ite (.refl s) (sameIcache_setGpr _ _ s)) (ih _ _ _))

theorem sameIcache_loadStringBytes (rt : Reg) (ea : Word) (n : Nat) (base : Reg → Bool) (x31 : Bool) (s : State) :
    SameIcache s (loadStringBytes rt ea n base x31 s) :=
  sameIcache_loadBytes (fun _ u => sameIcache_loadString _ _ _ _ u) (fun _ u => (sameIcache_loadString _ _ _ _ u).bit31 x31) s

theorem sameIcache_loadNothing (ea : Word) (s : State) : SameIcache s (loadNothing ea s) := by
  rcases loadNothing_cases ea s with e | ⟨-, e⟩
  · rw [e]
    exact .refl s
  · rw [e]
    exact (dataSide_reportDataError s).sameIcache

theorem sameIcache_loadReserve (rt : Reg) (ea : Word) (x31 : Bool) (s : State) : SameIcache s (loadReserve rt ea x31 s) := by
  unfold loadReserve
  split
  · exact .of_sto (dataInterrupt_sto ..)
  · exact .ite (.of_sto (alignmentInterrupt_sto ..))
      (sameIcache_loadBytes (fun _ => .refl)
        (fun _ u => (SameIcache.mk (s := u) (t := setGpr rt _ { u with reserve := true }) rfl).bit31 x31) s)

theorem sameIcache_storeScalar (ea : Word) (msb : List Byte) (x31 : Bool) (s : State) : SameIcache s (storeScalar ea msb x31 s) :=
  sameIcache_storeBytes (sameIcache_undefinedCr0 x31) s

theorem sameIcache_storeScalarUpdate (ra : Reg) (ea : Word) (msb : List Byte) (x31 : Bool) (s : State) :
    SameIcache s (storeScalarUpdate ra ea msb x31 s) :=
  sameIcache_storeBytes (fun u => (sameIcache_setGpr ra ea u).bit31 x31) s

theorem sameIcache_storeConditional (ea v : Word) (s : State) : SameIcache s (storeConditional ea v s) := by
  unfold storeConditional
  split
  · exact .of_sto (dataInterrupt_sto ..)
  · exact .ite (.of_sto (alignmentInterrupt_sto ..)) (sameIcache_storeBytes (done := reservationSpent) (fun _ => ⟨rfl⟩) s)

theorem sameIcache_storeRefused (ea : Word) (s : State) : SameIcache s (storeRefused ea s) :=
  .ite (.of_sto (alignmentInterrupt_sto ..)) (SameIcache.advance ⟨rfl⟩)

/-! ### Cache operations of the data side -/

theorem sameIcache_cacheStep {op : State → State} (h : ∀ u, SameIcache u (op u)) (events : Word) (x31 : Bool) (s : State) :
    SameIcache s (cacheStep events x31 op s) :=
  sameIcache_beforeEvent (fun u => ((((dataSide_busTurn u).sameIcache).trans (h _)).bit31 x31).advance) events s

theorem sameIcache_afterCheck {store : Bool} {ea : Word} {r : Except DataFault Xlate} {k : Xlate → State → State} {s : State}
    (h : ∀ x, SameIcache s (k x s)) : SameIcache s (afterCheck store ea r k s) := by
  unfold afterCheck
  split
  · exact .of_sto (dataInterrupt_sto ..)
  · exact h _

theorem sameIcache_cleanLine (ra : Word) (s : State) : SameIcache s (cleanLine ra s) := by
  unfold cleanLine
  split
  · exact .ite ((dataSide_busWrite _ _ _ s).trans (dataSide_setDSet _ _ _)).sameIcache (.refl s)
  · exact .refl s

theorem sameIcache_dropLine (ra : Word) (s : State) : SameIcache s (dropLine ra s) := by
  unfold dropLine
  split <;> exact ⟨rfl⟩

theorem sameIcache_dropClass (ra : Word) (s : State) : SameIcache s (dropClass ra s) := .ite ⟨rfl⟩ ⟨rfl⟩

theorem sameIcache_establishLine (ra : Word) (data : Vector Byte 32) (s : State) : SameIcache s (establishLine ra data s) := by
  unfold establishLine
  split
  · exact ⟨rfl⟩
  · exact (dataSide_installLine ra data true s).sameIcache

theorem sameIcache_touchLine (x : Xlate) (s : State) : SameIcache s (touchLine x s) :=
  .ite (.refl s) (dataSide_fillLine x.ra s).sameIcache

theorem sameIcache_allocateLine (x : Xlate) (s : State) : SameIcache s (allocateLine x s) := by
  rcases allocateLine_cases x s with e | ⟨-, -, -, -, e | ⟨data, dirty, e⟩⟩
  · rw [e]
    exact .refl s
  · rw [e]
    exact ⟨rfl⟩
  · rw [e]
    exact (sameIcache_drawn 33 s).trans (dataSide_installLine x.ra data dirty (drawn 33 s)).sameIcache

theorem sameIcache_touchData (ea : Word) (x31 : Bool) (s : State) : SameIcache s (touchData ea x31 s) := by
  unfold touchData
  split
  · exact sameIcache_cacheStep (sameIcache_touchLine _) _ x31 s
  · exact (sameIcache_undefinedCr0 x31 s).advance

theorem sameIcache_allocateData (ea : Word) (x31 : Bool) (s : State) : SameIcache s (allocateData ea x31 s) := by
  unfold allocateData
  split
  · exact sameIcache_cacheStep (sameIcache_allocateLine _) _ x31 s
  · exact (sameIcache_undefinedCr0 x31 s).advance

theorem sameIcache_zeroLine (ea : Word) (x31 : Bool) (x : Xlate) (s : State) : SameIcache s (zeroLine ea x31 x s) :=
  .ite (.of_sto (alignmentInterrupt_sto ..))
    (sameIcache_cacheStep (fun u => (dataSide_dropBuffer x.ra u).sameIcache.trans (sameIcache_establishLine x.ra _ _)) _ x31 s)

theorem sameIcache_readDataArray (rt : Reg) (ra : Word) (s : State) : SameIcache s (readDataArray rt ra s) := by
  unfold readDataArray
  split <;> exact ⟨rfl⟩

theorem sameIcache_readData (rt : Reg) (ea : Word) (x31 : Bool) (x : Xlate) (s : State) : SameIcache s (readData rt ea x31 x s) :=
  .ite (.of_sto (alignmentInterrupt_sto ..)) (sameIcache_cacheStep (sameIcache_readDataArray rt x.ra) _ x31 s)

theorem sameIcache_readInstrArray (ra : Word) (s : State) : SameIcache s (readInstrArray ra s) := .ite ⟨rfl⟩ ⟨rfl⟩

/-! ### Registers, branches, interrupts and moves -/

theorem sameIcache_deliver (rt : Reg) (v : Word) (ca : Option Bool) (ov oe rc : Bool) (s : State) :
    SameIcache s (deliver rt v ca ov oe rc s) := .of_sto (deliver_sto ..)

theorem sameIcache_deliverRa (ra : Reg) (v : Word) (rc : Bool) (s : State) : SameIcache s (deliverRa ra v rc s) :=
  .of_sto (deliverRa_sto ..)

theorem sameIcache_sumTo (rt : Reg) (a b : Word) (c ca oe rc : Bool) (s : State) : SameIcache s (sumTo rt a b c ca oe rc s) :=
  sameIcache_deliver ..

theorem sameIcache_accumulateSigned (rt : Reg) (prod : Word) (saturate oe rc : Bool) (s : State) :
    SameIcache s (accumulateSigned rt prod saturate oe rc s) := by
  unfold accumulateSigned
  exact sameIcache_deliver ..

theorem sameIcache_accumulateUnsigned (rt : Reg) (prod : Word) (saturate oe rc : Bool) (s : State) :
    SameIcache s (accumulateUnsigned rt prod saturate oe rc s) := by
  unfold accumulateUnsigned
  exact sameIcache_deliver ..

theorem sameIcache_setCA (c : Bool) (s : State) : SameIcache s (setCA c s) := ⟨rfl⟩

theorem sameIcache_setCrField (n : BitVec 3) (v : BitVec 4) (s : State) : SameIcache s (setCrField n v s) := ⟨rfl⟩

theorem sameIcache_freeGpr (rt : Reg) (s : State) : SameIcache s (freeGpr rt s) := ⟨rfl⟩

theorem sameIcache_storageBarrier (s : State) : SameIcache s (storageBarrier s) := ⟨rfl⟩

theorem sameIcache_contextBarrier (s : State) : SameIcache s (contextBarrier s) := ⟨rfl⟩

theorem sameIcache_divideUndefined (rt : Reg) (oe rc : Bool) (s : State) : SameIcache s (divideUndefined rt oe rc s) :=
  .of_sto (by simp [divideUndefined])

theorem sameIcache_branchTo (taken : Bool) (target ctr : Word) (lk : Bool) (s : State) :
    SameIcache s (branchTo taken target ctr lk s) := by
  refine sameIcache_beforeEvent (fun u => ?_) _ s
  refine sameIcache_complete ?_ _ _
  split <;> exact ⟨rfl⟩

theorem sameIcache_branchCtrFree (lk : Bool) (s : State) : SameIcache s (branchCtrFree lk s) := by
  refine sameIcache_complete ?_ _ _
  exact ⟨rfl⟩

theorem sameIcache_systemCall (s : State) : SameIcache s (systemCall s) := .of_sto (by simp [systemCall])

theorem sameIcache_trap (s : State) : SameIcache s (trap s) :=
  .ite (.of_sto (debugEvent_sto ..)) (.ite (.of_sto (by simp)) (sameIcache_programInterrupt _ s))

theorem sameIcache_returnStep (a m : Word) (x31 : Bool) (s : State) : SameIcache s (returnStep a m x31 s) := by
  have hreturn : SameIcache s (returnFrom a m s) := .ite ⟨rfl⟩ ⟨rfl⟩
  exact sameIcache_complete (hreturn.bit31 x31) _ _

theorem sameIcache_readTlb (rt : Reg) (n : BitVec 6) (ws : Bool) (s : State) : SameIcache s (readTlb rt n ws s) := .ite ⟨rfl⟩ ⟨rfl⟩

theorem sameIcache_searchTlb (rt : Reg) (ea : Word) (rc : Bool) (s : State) : SameIcache s (searchTlb rt ea rc s) := by
  unfold searchTlb
  split
  · exact .ite ⟨rfl⟩ ⟨rfl⟩
  · exact .ite ⟨rfl⟩ ⟨rfl⟩

theorem sameIcache_moveFromSpr (rt : Reg) (n : BitVec 10) (s : State) : SameIcache s (moveFromSpr rt n s) := by
  unfold moveFromSpr
  split <;> exact ⟨rfl⟩

theorem sameIcache_moveFromDcr (rt : Reg) (n : BitVec 10) (s : State) : SameIcache s (moveFromDcr rt n s) := by
  unfold moveFromDcr
  split <;> exact ⟨rfl⟩

theorem sameIcache_moveToDcr (n : BitVec 10) (v : Word) (s : State) : SameIcache s (moveToDcr n v s) := by
  unfold moveToDcr
  split <;> exact ⟨rfl⟩

/-- Only a write of DBCR0 or of TBL, which may reset the core, reaches the caches (R113). -/
theorem sameIcache_writeSpr {r : Spr} (h1 : r ≠ .dbcr0) (h2 : r ≠ .tblWrite) (v : Word) (s : State) :
    SameIcache s (writeSpr r v s).1 := by
  cases r
  case dbcr0 => exact absurd rfl h1
  case tblWrite => exact absurd rfl h2
  all_goals exact ⟨rfl⟩

theorem sameIcache_moveToSpr {n : BitVec 10} (h1 : n ≠ 0x3F2#10) (h2 : n ≠ 0x11C#10) (v : Word) (s : State) :
    SameIcache s (moveToSpr n v s) := by
  unfold moveToSpr
  cases hn : sprOf n with
  | none => exact (SameIcache.refl s).advance
  | some r =>
    have hr1 : r ≠ .dbcr0 := fun h => h1 ((sprOf_eq_some_iff rfl).mp (h ▸ hn))
    have hr2 : r ≠ .tblWrite := fun h => h2 ((sprOf_eq_some_iff rfl).mp (h ▸ hn))
    have hw := sameIcache_writeSpr hr1 hr2 v s
    exact .ite hw (SameIcache.ite (hw.trans ⟨rememberContext_sto s _ ▸ rfl⟩) hw).advance

/-! ### Every instruction -/

/-- The instructions that may reach the instruction cache: `icbi`, `icbt`, `iccci`, and `mtspr` to DBCR0 and TBL, which may reset the
core. -/
def reachesIcache : Instr → Bool
  | .icbi .. | .icbt .. | .iccci .. => true
  | .mtspr _ n => n == 0x3F2#10 || n == 0x11C#10
  | _ => false

/-- The instruction answers with a next state that has the instruction cache as it was. -/
def ExecSameIcache (i : Instr) (s : State) : Prop := ∃ t, exec i s = .next t ∧ SameIcache s t

theorem ExecSameIcache.of_same {i : Instr} {s t : State} (h : exec i s = .next t) (k : SameIcache s t) : ExecSameIcache i s := ⟨t, h, k⟩

theorem ExecSameIcache.of_ite {i : Instr} {s t u : State} {c : Prop} [Decidable c]
    (h : exec i s = if c then .next t else .next u) (kt : SameIcache s t) (ku : SameIcache s u) : ExecSameIcache i s := by
  split at h
  · exact .of_same h kt
  · exact .of_same h ku

/-- No instruction but those reaches the instruction cache, group by group as the meanings share their operations. -/
theorem exec_sameIcache (i : Instr) (s : State) (h : reachesIcache i = false) : ExecSameIcache i s := by
  cases i
  case icbi | icbt | iccci => cases h
  -- loads and stores
  case lbz | lbzx | lha | lhax | lhz | lhzx | lwz | lwzx | lhbrx | lwbrx => exact .of_same rfl (sameIcache_loadScalar _ _ _ _ _ s)
  case lbzu | lbzux | lhau | lhaux | lhzu | lhzux | lwzu | lwzux => exact .of_same rfl (sameIcache_loadScalarUpdate _ _ _ _ _ _ s)
  case lmw => exact .of_same rfl (sameIcache_loadBytes (fun _ => sameIcache_loadWords _ _ _ _) (fun _ => sameIcache_loadWords _ _ _ _) s)
  case lswi => exact .of_same rfl (sameIcache_loadStringBytes _ _ _ _ _ s)
  case lswx =>
    exact .of_ite rfl ((sameIcache_loadNothing _ s).bit31 _).advance (sameIcache_loadStringBytes _ _ _ _ _ s)
  case lwarx => exact .of_same rfl (sameIcache_loadReserve _ _ _ s)
  case stb | stbx | sth | sthx | stw | stwx | sthbrx | stwbrx => exact .of_same rfl (sameIcache_storeScalar _ _ _ s)
  case stbu | stbux | sthu | sthux | stwu | stwux => exact .of_same rfl (sameIcache_storeScalarUpdate _ _ _ _ s)
  case stmw => exact .of_same rfl (sameIcache_storeBytes .refl s)
  case stswi => exact .of_same rfl (sameIcache_storeBytes (sameIcache_undefinedCr0 _) s)
  case stswx => exact .of_ite rfl (sameIcache_undefinedCr0 _ s).advance (sameIcache_storeBytes (sameIcache_undefinedCr0 _) s)
  case stwcxRc => exact .of_ite rfl (sameIcache_storeConditional _ _ s) (sameIcache_storeRefused _ s)
  -- results in registers
  case add | addc | adde | subf | subfc | subfe | addme | addze | subfme | subfze | addic | addicRc | subfic =>
    exact .of_same rfl (sameIcache_sumTo _ _ _ _ _ _ _ s).advance
  case neg | mullw | mulhw | mulhwu | mulchw | mulchwu | mulhhw | mulhhwu | mullhw | mullhwu =>
    exact .of_same rfl (sameIcache_deliver _ _ _ _ _ _ s).advance
  case macchw | macchws | machhw | machhws | maclhw | maclhws | nmacchw | nmacchws | nmachhw | nmachhws | nmaclhw | nmaclhws =>
    exact .of_same rfl (sameIcache_accumulateSigned _ _ _ _ _ s).advance
  case macchwu | macchwsu | machhwu | machhwsu | maclhwu | maclhwsu =>
    exact .of_same rfl (sameIcache_accumulateUnsigned _ _ _ _ _ s).advance
  case divw | divwu => exact .of_ite rfl (sameIcache_divideUndefined _ _ _ s).advance (sameIcache_deliver _ _ _ _ _ _ s).advance
  case addi | addis | mulli => exact .of_same rfl (sameIcache_setGpr _ _ s).advance
  case and | andc | eqv | nand | nor | or | orc | xor | cntlzw | extsb | extsh | andiRc | andisRc | ori | oris | xori | xoris |
      rlwimi | rlwinm | rlwnm | slw | srw =>
    exact .of_same rfl (sameIcache_deliverRa _ _ _ s).advance
  case sraw | srawi => exact .of_same rfl ((sameIcache_setCA _ s).trans (sameIcache_deliverRa _ _ _ _)).advance
  -- the CR
  case cmp | cmpl => exact .of_same rfl ((sameIcache_setCrField _ _ s).bit31 _).advance
  case mcrxr bf x31 =>
    have hmove : SameIcache s
        { setCrField bf (crBits (xerSO s) (bit s.xer 1) (xerCA s) false) s with xer := s.xer &&& 0x1FFFFFFF#32 } := ⟨rfl⟩
    exact .of_same rfl (hmove.bit31 x31).advance
  case cmpi | cmpli | mcrf | crand | crandc | creqv | crnand | crnor | cror | crorc | crxor | mtcrf =>
    exact .of_same rfl (SameIcache.advance ⟨rfl⟩)
  case mfcr => exact .of_same rfl ((sameIcache_setGpr _ _ s).bit31 _).advance
  -- branches, system call and traps
  case b | bc | bclr => exact .of_same rfl (sameIcache_branchTo _ _ _ _ s)
  case bcctr => exact .of_ite rfl (sameIcache_branchTo _ _ _ _ s) (sameIcache_branchCtrFree _ s)
  case sc => exact .of_same rfl (sameIcache_systemCall s)
  case tw => exact .of_ite rfl (sameIcache_trap s) (sameIcache_undefinedCr0 _ s).advance
  case twi => exact .of_ite rfl (sameIcache_trap s) (SameIcache.refl s).advance
  -- cache control
  case dcba => exact .of_same rfl (sameIcache_allocateData _ _ s)
  case dcbf =>
    exact .of_same rfl (sameIcache_afterCheck fun _ => sameIcache_cacheStep
      (fun u => (sameIcache_cleanLine _ u).trans (sameIcache_dropLine _ _)) _ _ s)
  case dcbi =>
    exact .of_same rfl (sameIcache_privileged (sameIcache_afterCheck fun _ => sameIcache_cacheStep
      (fun u => (dataSide_dropBuffer _ u).sameIcache.trans (sameIcache_dropLine _ _)) _ _ s))
  case dcbst => exact .of_same rfl (sameIcache_afterCheck fun _ => sameIcache_cacheStep (sameIcache_cleanLine _) _ _ s)
  case dcbt | dcbtst => exact .of_same rfl (sameIcache_touchData _ _ s)
  case dcbz => exact .of_same rfl (sameIcache_afterCheck fun _ => sameIcache_zeroLine _ _ _ s)
  case dccci =>
    exact .of_same rfl (sameIcache_privileged (sameIcache_afterCheck fun _ => sameIcache_cacheStep
      (fun u => (dataSide_dropBuffer _ u).sameIcache.trans (sameIcache_dropClass _ _)) _ _ s))
  case icread =>
    exact .of_same rfl (sameIcache_privileged (sameIcache_afterCheck fun _ => sameIcache_cacheStep (sameIcache_readInstrArray _) _ _ s))
  case dcread => exact .of_same rfl (sameIcache_privileged (sameIcache_afterCheck fun _ => sameIcache_readData _ _ _ _ s))
  -- the MSR, interrupts and the TLB
  case mfmsr | mtmsr | wrtee | wrteei => exact .of_same rfl (sameIcache_privilegedStep ⟨rfl⟩)
  case rfi | rfci => exact .of_same rfl (sameIcache_privileged (sameIcache_returnStep _ _ _ s))
  case tlbia | tlbsync | tlbwe => exact .of_same rfl (sameIcache_tlbStep ⟨rfl⟩)
  case tlbre => exact .of_same rfl (sameIcache_tlbStep (sameIcache_readTlb _ _ _ s))
  case tlbsx => exact .of_same rfl (sameIcache_tlbStep (sameIcache_searchTlb _ _ _ s))
  -- barriers and moves
  case eieio | sync => exact .of_same rfl ((sameIcache_storageBarrier s).bit31 _).advance
  case isync => exact .of_same rfl ((sameIcache_contextBarrier s).bit31 _).advance
  case mfdcr => exact .of_same rfl (sameIcache_privileged (sameIcache_moveFromDcr _ _ s).advance)
  case mtdcr => exact .of_same rfl (sameIcache_privileged (sameIcache_moveToDcr _ _ s).advance)
  case mfspr => exact .of_ite rfl (sameIcache_programInterrupt _ s) (sameIcache_moveFromSpr _ _ s).advance
  case mtspr =>
    simp only [reachesIcache, Bool.or_eq_false_iff, beq_eq_false_iff_ne] at h
    exact .of_ite rfl (sameIcache_programInterrupt _ s) (sameIcache_moveToSpr h.1 h.2 _ s)
  case mftb =>
    exact .of_same rfl
      (SameIcache.ite (sameIcache_setGpr _ _ s) (.ite (sameIcache_setGpr _ _ s) (sameIcache_freeGpr _ s))).advance

/-- Settles O14: an instruction that is none of those named does not reach the instruction cache. -/
theorem instructionCacheRule : Obligations.InstructionCacheRule := by
  intro i s t ht hicbi hicbt hiccci hdbcr0 htbl
  have hreach : reachesIcache i = false := by
    unfold reachesIcache
    split
    · exact absurd rfl (hicbi _ _ _)
    · exact absurd rfl (hicbt _ _ _)
    · exact absurd rfl (hiccci _ _ _)
    · rename_i rs n
      simp only [Bool.or_eq_false_iff, beq_eq_false_iff_ne]
      exact ⟨fun e => hdbcr0 rs (by rw [e]), fun e => htbl rs (by rw [e])⟩
    · rfl
  obtain ⟨u, hu, hsame⟩ := exec_sameIcache i s hreach
  cases hu.symm.trans ht
  exact hsame.icache

end Sys2Proof.Machine
end

section
/-! SUPPORT. Data accesses that translation or protection refuses (R144, R161, R163, R165, R177, R616, R630, R631, R656). -/

namespace Sys2Proof.Machine

/-! ### The data interrupts (R631, R656) -/

/-- The vector of a refused data access (R630, R656). -/
def faultVector : DataFault → Word
  | .tlbMiss => 0x1100#32
  | .storage .. => 0x0300#32

theorem dataInterrupt_enters {s : State} (hq : quiet s = true) (hw : s.dbg.run ≠ .debugWait) (store : Bool) (ea : Word)
    (f : DataFault) :
    EntersNoncritical s (dataInterrupt store ea f s) (faultVector f) (wordAligned s.pc) ∧
      (dataInterrupt store ea f s).exc.dear = ea ∧ (dataInterrupt store ea f s).exc.esr = dataFaultEsr store f s ∧
      (dataInterrupt store ea f s).gpr = s.gpr := by
  have hquiet : dbEDE (setDear ea (setEsr (dataFaultEsr store f s) s)) = false := quiet_dbEDE hq
  have hrun : dataInterrupt store ea f s =
      takeInterrupt .noncritical (faultVector f) s.pc (setDear ea (setEsr (dataFaultEsr store f s) s)) := by cases f <;> rfl
  rw [hrun, takeInterrupt_plain hquiet, enter_noncritical _ _ (setDear ea (setEsr (dataFaultEsr store f s) s)) hw]
  exact ⟨⟨rfl, rfl, rfl, rfl, rfl, rfl, rfl, rfl⟩, rfl, rfl, rfl⟩

/-- The instruction takes a data interrupt with an address in DEAR and some ESR bits besides MCI. -/
def TakesData (s : State) (i : Instr) (off ea esr : Word) : Prop :=
  ∃ t, exec i s = .next t ∧ EntersNoncritical s t off (wordAligned s.pc) ∧ t.exc.dear = ea ∧
    t.exc.esr = (s.exc.esr &&& 0x80000000#32) ||| esr

theorem takesData_of {s : State} (hq : quiet s = true) (hw : s.dbg.run ≠ .debugWait) {i : Instr} {store : Bool} {ea esr : Word}
    {f : DataFault} (he : exec i s = .next (dataInterrupt store ea f s))
    (hesr : dataFaultEsr store f s = (s.exc.esr &&& 0x80000000#32) ||| esr) : TakesData s i (faultVector f) ea esr := by
  obtain ⟨henters, hdear, hbits, -⟩ := dataInterrupt_enters hq hw store ea f
  exact ⟨_, he, henters, hdear, hbits.trans hesr⟩

/-- ESR[DST] of a miss (C16). -/
def missBit (s : State) (store : Bool) : Word := if store && s.params.dtlbMissSetsDst then 0x00800000#32 else 0#32

/-! ### Protection, in the words of the rules (R161, R177) -/

/-- The zone refuses every access. -/
def zoneRefuses (s : State) (x : Xlate) : Bool := !x.real && !(!bit s.msr 17) && x.zone == 0#2

/-- Neither the entry nor the zone allows a write. -/
def writeRefuses (s : State) (x : Xlate) : Bool :=
  !x.real && !x.wr && x.zone != 3#2 && !(!bit s.msr 17 && x.zone == 2#2)

/-- A store to storage that U0 guards. -/
def u0Refuses (s : State) (x : Xlate) : Bool := bit s.attr.ccr0 14 && x.attrs.u0

theorem zoneDenied_eq (s : State) (x : Xlate) : zoneDenied s x = zoneRefuses s x := by
  simp [zoneDenied, zoneRefuses, msrPR, Bool.and_assoc]

theorem readOk_eq (s : State) (x : Xlate) : readOk s x = !zoneRefuses s x := by rw [readOk, zoneDenied_eq]

theorem u0Fault_eq (s : State) (x : Xlate) : u0Fault s x = u0Refuses s x := rfl

theorem writeOk_eq (s : State) (x : Xlate) : writeOk s x = !(zoneRefuses s x || writeRefuses s x) := by
  have hfull : zoneFull s x = !(x.zone != 3#2 && !(!bit s.msr 17 && x.zone == 2#2)) := by simp [zoneFull, msrPR, bne]
  rw [writeOk, readOk_eq, hfull, writeRefuses, zoneRefuses]
  cases x.real <;> cases x.wr <;> simp

theorem loadXlate_some {s : State} {ea : Word} {x : Xlate} (h : xlateData s ea = some x) :
    loadXlate s ea = if zoneRefuses s x then .error (.storage false true false) else .ok x := by
  rw [loadXlate, h]
  dsimp only
  rw [readOk_eq]
  cases zoneRefuses s x <;> rfl

/-- The check of an access by one instruction: a load, a store, or a store without the U0 test (R165, R514). -/
def accessCheck (s : State) (store u0 : Bool) (ea : Word) : Except DataFault Xlate :=
  if store then if u0 then storeXlate s ea else invalidateXlate s ea else loadXlate s ea

theorem accessCheck_miss {s : State} {ea : Word} (h : xlateData s ea = none) (store u0 : Bool) :
    accessCheck s store u0 ea = .error .tlbMiss := by
  cases store <;> cases u0 <;> simp [accessCheck, storeXlate, invalidateXlate, loadXlate, h]

/-- The store check refuses what the zone, the entry or the U0 test refuses, with every bit whose condition holds (R631). -/
theorem accessCheck_store {s : State} {ea : Word} {x : Xlate} (h : xlateData s ea = some x) (u0 : Bool) :
    accessCheck s true u0 ea =
      if zoneRefuses s x || writeRefuses s x || (u0 && u0Refuses s x)
      then .error (.storage true (zoneRefuses s x) (u0 && u0Refuses s x)) else .ok x := by
  have hwrite := writeOk_eq s x
  generalize (zoneRefuses s x || writeRefuses s x) = denied at hwrite ⊢
  cases u0
  · simp only [accessCheck, if_true, Bool.false_eq_true, if_false, invalidateXlate, h, hwrite, zoneDenied_eq, Bool.false_and]
    cases denied <;> rfl
  · simp only [accessCheck, if_true, storeXlate, h, hwrite, zoneDenied_eq, u0Fault_eq, Bool.true_and]
    cases denied <;> cases u0Refuses s x <;> rfl

/-! ### One access refused -/

/-- Where its check refuses its address, the instruction does nothing but take the data interrupt. -/
def Refuses (s : State) (i : Instr) (ea : Word) (store u0 : Bool) : Prop :=
  ∀ f, accessCheck s store u0 ea = .error f → exec i s = .next (dataInterrupt store ea f s)

/-- The interrupts of one access. -/
def AccessFaults (s : State) (i : Instr) (ea : Word) (store u0 : Bool) : Prop :=
  (xlateData s ea = none → TakesData s i 0x1100#32 ea (missBit s store)) ∧
    ∀ x, xlateData s ea = some x →
      (store = false → zoneRefuses s x = true → TakesData s i 0x0300#32 ea 0x00400000#32) ∧
      (store = true → (zoneRefuses s x || writeRefuses s x || (u0 && u0Refuses s x)) = true →
        TakesData s i 0x0300#32 ea
          (0x00800000#32 ||| (if zoneRefuses s x then 0x00400000#32 else 0#32) |||
            (if u0 && u0Refuses s x then 0x00008000#32 else 0#32)))

theorem accessFaults_of {s : State} (hq : quiet s = true) (hw : s.dbg.run ≠ .debugWait) {i : Instr} {ea : Word} {store u0 : Bool}
    (h : Refuses s i ea store u0) : AccessFaults s i ea store u0 := by
  refine ⟨fun hx => takesData_of hq hw (h _ (accessCheck_miss hx store u0)) rfl, fun x hx => ⟨fun hs hz => ?_, fun hs hr => ?_⟩⟩
  · subst hs
    have hcheck : accessCheck s false u0 ea = .error (.storage false true false) := (loadXlate_some hx).trans (if_pos hz)
    exact takesData_of hq hw (h _ hcheck) (by simp only [dataFaultEsr, Bool.false_eq_true, if_false, if_true, BitVec.or_zero]; rfl)
  · subst hs
    have hcheck := (accessCheck_store hx u0).trans (if_pos hr)
    exact takesData_of hq hw (h _ hcheck) (by simp only [dataFaultEsr, if_true, BitVec.or_assoc]; rfl)

/-- A cache operation after its check. -/
theorem afterCheck_refuses {s : State} {i : Instr} {ea : Word} {store u0 : Bool} {r : Except DataFault Xlate}
    {k : Xlate → State → State} (hr : accessCheck s store u0 ea = r) (he : exec i s = .next (afterCheck store ea r k s)) :
    Refuses s i ea store u0 := fun f hf => by
  rw [he, ← hr, hf]
  rfl

theorem dcbf_refuses (s : State) (ra rb : Reg) (x31 : Bool) : Refuses s (.dcbf ra rb x31) (eaX s ra rb) false false :=
  afterCheck_refuses (r := loadXlate s (eaX s ra rb)) rfl rfl

theorem dcbst_refuses (s : State) (ra rb : Reg) (x31 : Bool) : Refuses s (.dcbst ra rb x31) (eaX s ra rb) false false :=
  afterCheck_refuses (r := loadXlate s (eaX s ra rb)) rfl rfl

theorem dcbz_refuses (s : State) (ra rb : Reg) (x31 : Bool) : Refuses s (.dcbz ra rb x31) (eaX s ra rb) true true :=
  afterCheck_refuses (r := storeXlate s (eaX s ra rb)) rfl rfl

theorem icbi_refuses (s : State) (ra rb : Reg) (x31 : Bool) : Refuses s (.icbi ra rb x31) (eaX s ra rb) false false := fun f hf => by
  have hcheck : icbiXlate s (eaX s ra rb) = .error f := by
    change loadXlate s (eaX s ra rb) = .error f at hf
    unfold loadXlate at hf
    unfold icbiXlate
    rw [xlateData_eq] at hf
    rw [xlateIcacheOp_eq]
    cases hdr : bit s.msr 27 with
    | true =>
      rw [hdr] at hf
      exact hf
    | false =>
      -- in real mode no load is refused
      rw [hdr] at hf
      cases hf
  change Host.Outcome.next (afterCheck false _ (icbiXlate s (eaX s ra rb)) _ s) = _
  rw [hcheck]
  rfl

theorem lwarx_refuses (s : State) (rt ra rb : Reg) (x31 : Bool) : Refuses s (.lwarx rt ra rb x31) (eaX s ra rb) false false :=
  fun f hf => by
    change loadXlate s (eaX s ra rb) = .error f at hf
    change Host.Outcome.next (loadReserve rt (eaX s ra rb) x31 s) = _
    rw [loadReserve, hf]

theorem stwcxRc_refuses {s : State} (hr : s.reserve = true) (rs ra rb : Reg) :
    Refuses s (.stwcxRc rs ra rb) (eaX s ra rb) true true := fun f hf => by
  change storeXlate s (eaX s ra rb) = .error f at hf
  refine (show execStwcxRc rs ra rb s = _ from if_pos hr).trans ?_
  rw [storeConditional, hf]

/-! In the supervisor state a privileged instruction is refused by its check like another. -/

theorem dcbi_refuses {s : State} (hp : bit s.msr 17 = false) (ra rb : Reg) (x31 : Bool) :
    Refuses s (.dcbi ra rb x31) (eaX s ra rb) true false :=
  afterCheck_refuses (r := invalidateXlate s (eaX s ra rb)) rfl (congrArg Host.Outcome.next (privileged_supervisor hp _))

theorem dccci_refuses {s : State} (hp : bit s.msr 17 = false) (ra rb : Reg) (x31 : Bool) :
    Refuses s (.dccci ra rb x31) (eaX s ra rb) true false :=
  afterCheck_refuses (r := invalidateXlate s (eaX s ra rb)) rfl (congrArg Host.Outcome.next (privileged_supervisor hp _))

/-- `dcread`, `iccci` and `icread` are checked for a match alone (R163). -/
theorem match_misses {s : State} (hq : quiet s = true) (hw : s.dbg.run ≠ .debugWait) (hp : bit s.msr 17 = false) {i : Instr}
    {ea : Word} {k : Xlate → State → State} (hx : xlateData s ea = none)
    (he : exec i s = .next (privileged (fun s => afterCheck false ea (matchXlate s ea) k s) s)) : TakesData s i 0x1100#32 ea 0#32 := by
  have hcheck : matchXlate s ea = .error .tlbMiss := by
    rw [matchXlate, xlateIcacheOp_eq]
    rw [xlateData_eq] at hx
    cases hdr : bit s.msr 27 with
    | true =>
      rw [show xlate s true s.attr.iccr ea = none from (hdr ▸ hx : xlate s true s.attr.dccr ea = none)]
    | false =>
      rw [hdr] at hx
      cases hx
  refine takesData_of (store := false) (f := .tlbMiss) hq hw ?_ rfl
  rw [he, privileged_supervisor hp, hcheck]
  rfl

/-! ### Loads and stores refused at some part (R144, R616) -/

/-- The first of an operand's accesses is at its address. -/
theorem checkUnits_first {s : State} {store : Bool} {ea : Word} {n : Nat} (hn : 0 < n) {f : DataFault}
    (h : unitXlate s store ea = .error f) : checkUnits s store (units ea n) = ([], some (ea, f)) := by
  obtain ⟨k, rfl⟩ := Nat.exists_eq_succ_of_ne_zero (Nat.ne_of_gt hn)
  rw [units, splitUnits, if_neg (Nat.succ_ne_zero k)]
  simp only [checkUnits, h]

theorem loadBytes_faulted {s : State} (hq : quiet s = true) {ea fea : Word} {n : Nat} {us : List UnitAccess} {f : DataFault}
    (h : checkUnits s false (units ea n) = (us, some (fea, f))) (part done : List (Byte × Bool) → State → State) :
    loadBytes ea n part done s = faultedLoad us fea f part s := by
  rw [loadBytes, h]
  dsimp only
  rw [dacBits_quiet hq, beforeEvent_zero]

theorem storeBytes_faulted {s : State} (hq : quiet s = true) {ea fea : Word} {n : Nat} {us : List UnitAccess} {f : DataFault}
    (h : checkUnits s true (units ea n) = (us, some (fea, f))) (bytes : List Bool → List Byte) (done : State → State) :
    storeBytes ea n bytes done s = faultedStore us (bytes (unitOrders us)) fea f s := by
  rw [storeBytes, h]
  dsimp only
  rw [dacBits_quiet hq, beforeEvent_zero]

/-- At most general registers, storage, the inputs and the free values differ: where a fault cuts an instruction short. -/
def CutShort (s u : State) : Prop := u = { s with gpr := u.gpr, sto := u.sto, inp := u.inp, free := u.free }

theorem StorageWork.cutShort {s t : State} (h : StorageWork s t) : CutShort s t := by rw [CutShort, h.rest]

/-- Only general registers are written. -/
def WritesGprs (part : List (Byte × Bool) → State → State) : Prop := ∀ bs t, part bs t = { t with gpr := (part bs t).gpr }

theorem writesGprs_none : WritesGprs fun _ t => t := fun _ _ => rfl

theorem loadWords_gprs (fuel r : Nat) (skip : Nat → Bool) (bs : List (Byte × Bool)) (t : State) :
    loadWords fuel r skip bs t = { t with gpr := (loadWords fuel r skip bs t).gpr } := by
  induction fuel generalizing r bs t with
  | zero => rfl
  | succ fuel ih =>
    unfold loadWords
    split
    · rfl
    · split
      · exact ih ..
      · exact ih (r + 1) _ (setGpr _ _ t)

theorem loadString_gprs (fuel : Nat) (r : Reg) (skip : Reg → Bool) (bs : List Byte) (t : State) :
    loadString fuel r skip bs t = { t with gpr := (loadString fuel r skip bs t).gpr } := by
  induction fuel generalizing r bs t with
  | zero => rfl
  | succ fuel ih =>
    unfold loadString
    split
    · rfl
    · split
      · exact ih ..
      · exact ih (r + 1#5) _ (setGpr _ _ t)

theorem faultedLoad_cutShort {part : List (Byte × Bool) → State → State} (hp : WritesGprs part) (us : List UnitAccess) (ea : Word)
    (f : DataFault) (s : State) :
    ∃ u, faultedLoad us ea f part s = dataInterrupt false ea f u ∧ CutShort s u ∧
      ((∀ bs t, (part bs t).gpr = t.gpr) → u.gpr = s.gpr) := by
  unfold faultedLoad
  split
  · exact ⟨s, rfl, rfl, fun _ => rfl⟩
  · have hwork := (work_drawn 1 s).trans (work_loadUnits (us.take (partialCount s us)) (drawn 1 s))
    refine ⟨_, rfl, ?_, fun h => ?_⟩
    · rw [CutShort, hp, hwork.rest]
    · rw [h, hwork.rest]

theorem faultedStore_cutShort (us : List UnitAccess) (bs : List Byte) (ea : Word) (f : DataFault) (s : State) :
    ∃ u, faultedStore us bs ea f s = dataInterrupt true ea f u ∧ CutShort s u ∧ u.gpr = s.gpr := by
  unfold faultedStore
  split
  · exact ⟨s, rfl, rfl, rfl⟩
  · have hwork := (work_drawn 1 s).trans (work_storeUnits (us.take (partialCount s us)) bs (drawn 1 s))
    exact ⟨_, rfl, hwork.cutShort, by rw [hwork.rest]⟩

/-- The interrupts of the part of an operand that is refused; a scalar writes no register. -/
def PartFaults (s : State) (i : Instr) (ea : Word) (n : Nat) (scalar store : Bool) : Prop :=
  ∀ fea c, (checkUnits s store (units ea n)).2 = some (fea, c) →
    ∃ t, exec i s = .next t ∧ t.exc.srr0 = wordAligned s.pc ∧ t.exc.srr1 = s.msr ∧ t.exc.dear = fea ∧
      t.msr = s.msr &&& 0x00021200#32 ∧ (scalar = true → t.gpr = s.gpr) ∧
      (c = .tlbMiss → t.pc = (s.exc.evpr &&& 0xFFFF0000#32) ||| 0x1100#32 ∧
        t.exc.esr = (s.exc.esr &&& 0x80000000#32) ||| missBit s store) ∧
      (∀ dst diz u0f, c = .storage dst diz u0f → t.pc = (s.exc.evpr &&& 0xFFFF0000#32) ||| 0x0300#32 ∧
        t.exc.esr = (s.exc.esr &&& 0x80000000#32) ||| (if dst then 0x00800000#32 else 0#32) |||
          (if diz then 0x00400000#32 else 0#32) ||| (if u0f then 0x00008000#32 else 0#32))

theorem partFaults_of {s : State} (hq : quiet s = true) (hw : s.dbg.run ≠ .debugWait) {i : Instr} {ea : Word} {n : Nat}
    {scalar store : Bool}
    (h : ∀ us fea c, checkUnits s store (units ea n) = (us, some (fea, c)) →
      ∃ u, exec i s = .next (dataInterrupt store fea c u) ∧ CutShort s u ∧ (scalar = true → u.gpr = s.gpr)) :
    PartFaults s i ea n scalar store := by
  intro fea c hfault
  obtain ⟨u, he, hcut, hgpr⟩ := h _ fea c (Prod.ext rfl hfault)
  have hdbg : u.dbg = s.dbg := by rw [hcut]
  have hexc : u.exc = s.exc := by rw [hcut]
  have hmsr : u.msr = s.msr := by rw [hcut]
  have hpc : u.pc = s.pc := by rw [hcut]
  have hparams : u.params = s.params := by rw [hcut]
  obtain ⟨⟨hsrr0, hsrr1, -, -, -, hnew, hvector, -⟩, hdear, hesr, hsame⟩ :=
    dataInterrupt_enters (s := u) (by rw [quiet_congr hdbg]; exact hq) (by rw [hdbg]; exact hw) store fea c
  rw [hpc] at hsrr0
  rw [hmsr] at hsrr1 hnew
  rw [hexc] at hvector
  refine ⟨_, he, hsrr0, hsrr1, hdear, hnew, fun hs => hsame.trans (hgpr hs), ?_, ?_⟩
  · rintro rfl
    refine ⟨hvector, hesr.trans ?_⟩
    simp only [dataFaultEsr, missBit, hexc, hparams]
    rfl
  · rintro dst diz u0f rfl
    refine ⟨hvector, hesr.trans ?_⟩
    simp only [dataFaultEsr, hexc]
    rfl

/-- A load of some bytes from an address, which where a fault cuts it short writes registers alone, and none if it is scalar. -/
def LoadsFrom (s : State) (f : Instr × Word × Nat × Bool) : Prop :=
  0 < f.2.2.1 ∧ ∃ part done, exec f.1 s = .next (loadBytes f.2.1 f.2.2.1 part done s) ∧ WritesGprs part ∧
    (f.2.2.2 = true → ∀ bs t, (part bs t).gpr = t.gpr)

theorem loadsFrom_scalar {s : State} {i : Instr} {ea : Word} {n : Nat} {done : List (Byte × Bool) → State → State} (hn : 0 < n)
    (h : exec i s = .next (loadBytes ea n (fun _ t => t) done s)) : LoadsFrom s (i, ea, n, true) :=
  ⟨hn, _, _, h, writesGprs_none, fun _ _ _ => rfl⟩

theorem loadsFrom_string {s : State} {i : Instr} {rt : Reg} {ea : Word} {n : Nat} {base : Reg → Bool} {x31 : Bool} (hn : 0 < n)
    (h : exec i s = .next (loadStringBytes rt ea n base x31 s)) : LoadsFrom s (i, ea, n, false) :=
  ⟨hn, _, _, h, fun _ _ => loadString_gprs .., nofun⟩

theorem LoadsFrom.refuses {s : State} (hq : quiet s = true) {f : Instr × Word × Nat × Bool} (h : LoadsFrom s f) :
    Refuses s f.1 f.2.1 false false := fun c hc => by
  obtain ⟨hn, part, done, he, -⟩ := h
  rw [he, loadBytes_faulted hq (checkUnits_first hn hc)]
  rfl

theorem LoadsFrom.partFaults {s : State} (hq : quiet s = true) (hw : s.dbg.run ≠ .debugWait) {f : Instr × Word × Nat × Bool}
    (h : LoadsFrom s f) : PartFaults s f.1 f.2.1 f.2.2.1 f.2.2.2 false := by
  obtain ⟨-, part, done, he, hpart, hscalar⟩ := h
  refine partFaults_of hq hw fun us fea c hcheck => ?_
  obtain ⟨u, hu, hcut, hgpr⟩ := faultedLoad_cutShort hpart us fea c s
  exact ⟨u, he.trans (congrArg _ ((loadBytes_faulted hq hcheck part done).trans hu)), hcut, fun hs => hgpr (hscalar hs)⟩

/-- A store of some bytes at an address. -/
def StoresAt (s : State) (f : Instr × Word × Nat × Bool) : Prop :=
  0 < f.2.2.1 ∧ ∃ bytes done, exec f.1 s = .next (storeBytes f.2.1 f.2.2.1 bytes done s)

theorem StoresAt.refuses {s : State} (hq : quiet s = true) {f : Instr × Word × Nat × Bool} (h : StoresAt s f) :
    Refuses s f.1 f.2.1 true true := fun c hc => by
  obtain ⟨hn, bytes, done, he⟩ := h
  rw [he, storeBytes_faulted hq (checkUnits_first hn hc)]
  rfl

theorem StoresAt.partFaults {s : State} (hq : quiet s = true) (hw : s.dbg.run ≠ .debugWait) {f : Instr × Word × Nat × Bool}
    (h : StoresAt s f) : PartFaults s f.1 f.2.1 f.2.2.1 f.2.2.2 true := by
  obtain ⟨-, bytes, done, he⟩ := h
  refine partFaults_of hq hw fun us fea c hcheck => ?_
  obtain ⟨u, hu, hcut, hgpr⟩ := faultedStore_cutShort us (bytes (unitOrders us)) fea c s
  exact ⟨u, he.trans (congrArg _ ((storeBytes_faulted hq hcheck bytes done).trans hu)), hcut, fun _ => hgpr⟩

theorem checkUnits_none {s : State} {store : Bool} {us : List (Word × Nat)}
    (h : ∀ p ∈ us, ∃ x, unitXlate s store p.1 = .ok x) : (checkUnits s store us).2 = none := by
  induction us with
  | nil => rfl
  | cons p us ih =>
    obtain ⟨hp, hus⟩ := List.forall_mem_cons.mp h
    obtain ⟨x, hx⟩ := hp
    simp only [checkUnits, hx]
    exact ih hus

theorem stringCount_pos (nb : BitVec 5) : 0 < stringCount nb := by
  unfold stringCount
  split
  · decide
  · rename_i h
    exact Nat.pos_of_ne_zero fun e => h (BitVec.eq_of_toNat_eq e)

/-- Settles O57: each instruction refuses by its own check, and a later part by `partFaults_of`. -/
theorem dataFaults : Obligations.DataFaults := by
  intro s rt ra rb d nb x31 hq hw base ed ex ud ux super tbc count enters zone write u0 missBit loads stores single
  have htbc : (xerTBC s).toNat = tbc := xerTBC_toNat s
  have hsome (h : ¬ tbc = 0) : xerTBC s ≠ 0#7 := fun e => h (by rw [← htbc, e]; rfl)
  have hrest : 0 < 4 * (32 - rt.toNat) := by omega
  have hcount : 0 < count := stringCount_pos nb
  have hloads : ∀ f ∈ loads, LoadsFrom s f := by
    have scalar {i : Instr} {ea : Word} {n : Nat} {done : List (Byte × Bool) → State → State} :=
      loadsFrom_scalar (s := s) (i := i) (ea := ea) (n := n + 1) (done := done) n.succ_pos
    unfold loads
    rw [List.forall_mem_append]
    iterate 20 rw [List.forall_mem_cons]
    refine ⟨⟨scalar rfl, scalar rfl, scalar rfl, scalar rfl, scalar rfl, scalar rfl, scalar rfl, scalar rfl, scalar rfl, scalar rfl,
      scalar rfl, scalar rfl, scalar rfl, scalar rfl, scalar rfl, scalar rfl, scalar rfl, scalar rfl,
      ⟨hrest, _, _, rfl, fun _ _ => loadWords_gprs .., nofun⟩, loadsFrom_string hcount rfl, List.forall_mem_nil _⟩, ?_⟩
    split
    · exact List.forall_mem_nil _
    · rename_i h
      refine List.forall_mem_cons.mpr ⟨?_, List.forall_mem_nil _⟩
      rw [← htbc]
      exact loadsFrom_string (by omega) (if_neg (hsome h))
  have hstores : ∀ f ∈ stores, StoresAt s f := by
    have store {i : Instr} {ea : Word} {n : Nat} {scalar : Bool} {bytes : List Bool → List Byte} {done : State → State} (hn : 0 < n)
        (h : exec i s = .next (storeBytes ea n bytes done s)) : StoresAt s (i, ea, n, scalar) := ⟨hn, _, _, h⟩
    have scalar {i : Instr} {ea : Word} {n : Nat} {bytes : List Bool → List Byte} {done : State → State} :=
      store (i := i) (ea := ea) (n := n + 1) (scalar := true) (bytes := bytes) (done := done) n.succ_pos
    unfold stores
    rw [List.forall_mem_append]
    iterate 16 rw [List.forall_mem_cons]
    refine ⟨⟨scalar rfl, scalar rfl, scalar rfl, scalar rfl, scalar rfl, scalar rfl, scalar rfl, scalar rfl, scalar rfl, scalar rfl,
      scalar rfl, scalar rfl, scalar rfl, scalar rfl, store hrest rfl, store hcount rfl, List.forall_mem_nil _⟩, ?_⟩
    split
    · exact List.forall_mem_nil _
    · rename_i h
      refine List.forall_mem_cons.mpr ⟨?_, List.forall_mem_nil _⟩
      rw [← htbc]
      exact store (by omega) (if_neg (hsome h))
  have hsuper : super = true → bit s.msr 17 = false := fun h => by simpa [super] using h
  have hsingle : ∀ f ∈ single, Refuses s f.1 f.2.1 f.2.2.1 f.2.2.2 := by
    unfold single
    simp only [List.forall_mem_append, List.forall_mem_map]
    refine ⟨⟨⟨⟨fun f hf => (hloads f hf).refuses hq, fun f hf => (hstores f hf).refuses hq⟩, ?_⟩, ?_⟩, ?_⟩
    · iterate 5 rw [List.forall_mem_cons]
      exact ⟨lwarx_refuses s rt ra rb x31, dcbf_refuses s ra rb x31, dcbst_refuses s ra rb x31, icbi_refuses s ra rb x31,
        dcbz_refuses s ra rb x31, List.forall_mem_nil _⟩
    · split
      · rename_i hr
        exact List.forall_mem_cons.mpr ⟨stwcxRc_refuses hr rt ra rb, List.forall_mem_nil _⟩
      · exact List.forall_mem_nil _
    · split
      · rename_i hs
        rw [List.forall_mem_cons, List.forall_mem_cons]
        exact ⟨dcbi_refuses (hsuper hs) ra rb x31, dccci_refuses (hsuper hs) ra rb x31, List.forall_mem_nil _⟩
      · exact List.forall_mem_nil _
  refine ⟨fun f hf => accessFaults_of hq hw (hsingle f hf), fun hs hx => ?_, fun store => ?_, fun ea x hx => ⟨fun hz => ?_,
    fun hz hwr hu => ?_⟩, fun ea n store h => checkUnits_none h⟩
  · have misses {i : Instr} {k : Xlate → State → State} := match_misses (i := i) (k := k) hq hw (hsuper hs) hx
    iterate 3 rw [List.forall_mem_cons]
    exact ⟨misses rfl, misses rfl, misses rfl, List.forall_mem_nil _⟩
  · cases store
    · exact fun f hf => (hloads f hf).partFaults hq hw
    · exact fun f hf => (hstores f hf).partFaults hq hw
  · exact (loadXlate_some hx).trans (if_neg (by rw [show zoneRefuses s x = false from hz]; decide))
  · refine (accessCheck_store hx true).trans (if_neg ?_)
    rw [show zoneRefuses s x = false from hz, show writeRefuses s x = false from hwr, show u0Refuses s x = false from hu]
    decide

end Sys2Proof.Machine
end

section
/-! SUPPORT. The fields of a word side by side are the word (R15, R222), so an encoded word's fields read back as the operands it
was made of. -/

namespace Sys2Proof

open Machine

/-! ### Fields side by side -/

theorem field_append (w : Word) (a m n : Nat) (h : a + m + n ≤ 32) :
    field w a m ++ field w (a + m) n = field w a (m + n) := by
  unfold field
  rw [BitVec.extractLsb'_append_extractLsb'_eq_extractLsb' (by omega)]
  congr 1
  omega

theorem extractLsb'_field (w : Word) (a n j k : Nat) (h : j + k ≤ n) (h32 : a + n ≤ 32) :
    (field w a n).extractLsb' j k = field w (a + n - j - k) k := by
  ext i hi
  simp only [field, BitVec.getElem_extractLsb', BitVec.getLsbD_extractLsb']
  rw [decide_eq_true (by omega), Bool.true_and]
  congr 1
  omega

theorem ofBool_bit (w : Word) {i : Nat} (h : i < 32) : BitVec.ofBool (bit w i) = field w i 1 := by
  refine BitVec.eq_of_toNat_eq ?_
  rw [field_toNat, bit_toNat w h, BitVec.toNat_ofBool, show 32 - i - 1 = 31 - i by omega]
  obtain h | h := Nat.mod_two_eq_zero_or_one (w.toNat / 2 ^ (31 - i)) <;> simp [h]

theorem parts_of_append_eq {m n : Nat} {x x' : BitVec m} {y y' : BitVec n} (h : x ++ y = x' ++ y') : x = x' ∧ y = y' :=
  ⟨by rw [← BitVec.extractLsb'_append_eq_left (a := x) (b := y), h, BitVec.extractLsb'_append_eq_left],
    by rw [← BitVec.extractLsb'_append_eq_right (a := x) (b := y), h, BitVec.extractLsb'_append_eq_right]⟩

/-- A number cut in two at bit `k` from its right end. -/
theorem extractLsb'_append_low {n : Nat} (k : Nat) (x : BitVec (n + k)) : x.extractLsb' k n ++ x.extractLsb' 0 k = x :=
  (BitVec.extractLsb'_append_extractLsb'_eq_extractLsb' (Nat.zero_add k).symm).trans BitVec.extractLsb'_eq_self

/-! ### A word is its fields, form by form (R222, R224) -/

theorem head_fields (w : Word) : fOPCD w ++ fRT w ++ fRA w = field w 0 16 := by
  have h : fOPCD w ++ fRT w = field w 0 11 := field_append w 0 6 5 (by decide)
  rw [h]
  exact field_append w 0 11 5 (by decide)

theorem bit30_fields (w : Word) : field w 0 30 ++ BitVec.ofBool (fAA w) = field w 0 31 := by
  rw [fAA, ofBool_bit w (by decide)]
  exact field_append w 0 30 1 (by decide)

theorem bit31_fields (w : Word) : field w 0 31 ++ BitVec.ofBool (fBit31 w) = w := by
  rw [fBit31, ofBool_bit w (by decide)]
  exact (field_append w 0 31 1 (by decide)).trans BitVec.extractLsb'_eq_self

theorem encD_fields (w : Word) : encD (fOPCD w) (fRT w) (fRA w) (fIM w) = w := by
  rw [encD, head_fields]
  exact (field_append w 0 16 16 (by decide)).trans BitVec.extractLsb'_eq_self

theorem encX_fields (w : Word) : encX (fOPCD w) (fRT w) (fRA w) (fRB w) (fXO10 w) (fBit31 w) = w := by
  have hrb : field w 0 16 ++ fRB w = field w 0 21 := field_append w 0 16 5 (by decide)
  have hxo : field w 0 21 ++ fXO10 w = field w 0 31 := field_append w 0 21 10 (by decide)
  rw [encX, head_fields, hrb, hxo, bit31_fields]

theorem encM_fields (w : Word) : encM (fOPCD w) (fRT w) (fRA w) (fRB w) (fMB w) (fME w) (fBit31 w) = w := by
  have hrb : field w 0 16 ++ fRB w = field w 0 21 := field_append w 0 16 5 (by decide)
  have hmb : field w 0 21 ++ fMB w = field w 0 26 := field_append w 0 21 5 (by decide)
  have hme : field w 0 26 ++ fME w = field w 0 31 := field_append w 0 26 5 (by decide)
  rw [encM, head_fields, hrb, hmb, hme, bit31_fields]

theorem iForm_fields (w : Word) :
    fOPCD w ++ field w 6 24 ++ BitVec.ofBool (fAA w) ++ BitVec.ofBool (fBit31 w) = w := by
  have hli : fOPCD w ++ field w 6 24 = field w 0 30 := field_append w 0 6 24 (by decide)
  rw [hli, bit30_fields, bit31_fields]

theorem bForm_fields (w : Word) :
    fOPCD w ++ fRT w ++ fRA w ++ field w 16 14 ++ BitVec.ofBool (fAA w) ++ BitVec.ofBool (fBit31 w) = w := by
  have hbd : field w 0 16 ++ field w 16 14 = field w 0 30 := field_append w 0 16 14 (by decide)
  rw [head_fields, hbd, bit30_fields, bit31_fields]

theorem encI_fields {w : Word} (hop : fOPCD w = 18#6) : encI (fLI w) (fAA w) (fBit31 w) = w := by
  rw [encI, fLI, BitVec.extractLsb'_append_eq_left, ← hop, iForm_fields]

theorem encB_fields {w : Word} (hop : fOPCD w = 16#6) : encB (fRT w) (fRA w) (fBD w) (fAA w) (fBit31 w) = w := by
  rw [encB, fBD, BitVec.extractLsb'_append_eq_left, ← hop, bForm_fields]

/-! ### Forms written as the X form -/

theorem encXFX_eq_encX (rt : BitVec 5) (num xo : BitVec 10) :
    encXFX rt num xo = encX 31 rt (num.extractLsb' 0 5) (num.extractLsb' 5 5) xo false := rfl

theorem encXO_eq_encX (op : BitVec 6) (rt ra rb : BitVec 5) (oe : Bool) (xo : BitVec 9) (rc : Bool) :
    encXO op rt ra rb oe xo rc = encX op rt ra rb (BitVec.ofBool oe ++ xo) rc := by
  refine BitVec.eq_of_toNat_eq ?_
  rw [encXO_toNat, encX_toNat, toNat_append_mul]
  ring

/-! ### Fields that are part of a wider one -/

theorem fBF_eq (w : Word) : fBF w = (fRT w).extractLsb' 2 3 :=
  (extractLsb'_field w 6 5 2 3 (by decide) (by decide)).symm

theorem fBFA_eq (w : Word) : fBFA w = (fRA w).extractLsb' 2 3 :=
  (extractLsb'_field w 11 5 2 3 (by decide) (by decide)).symm

theorem ofBool_fE (w : Word) : BitVec.ofBool (fE w) = (fRB w).extractLsb' 4 1 :=
  (ofBool_bit w (by decide)).trans (extractLsb'_field w 16 5 4 1 (by decide) (by decide)).symm

theorem ofBool_fWS (w : Word) : BitVec.ofBool (fWS w) = (fRB w).extractLsb' 0 1 :=
  (ofBool_bit w (by decide)).trans (extractLsb'_field w 16 5 0 1 (by decide) (by decide)).symm

theorem fFXM_eq (w : Word) : fFXM w = (fRA w).extractLsb' 0 4 ++ (fRB w).extractLsb' 1 4 := by
  rw [fRA, fRB, extractLsb'_field w 11 5 0 4 (by decide) (by decide), extractLsb'_field w 16 5 1 4 (by decide) (by decide)]
  exact (field_append w 12 4 4 (by decide)).symm

theorem fXO10_eq (w : Word) : fXO10 w = BitVec.ofBool (fOE w) ++ fXO9 w := by
  rw [fOE, ofBool_bit w (by decide)]
  exact (field_append w 21 1 9 (by decide)).symm

@[simp] theorem fNum_low (w : Word) : (fNum w).extractLsb' 0 5 = fRA w := BitVec.extractLsb'_append_eq_right

@[simp] theorem fNum_high (w : Word) : (fNum w).extractLsb' 5 5 = fRB w := BitVec.extractLsb'_append_eq_left

@[simp] theorem fBF_encD (op : BitVec 6) (bf : BitVec 3) (ra : BitVec 5) (im : BitVec 16) :
    fBF (encD op (bf ++ 0#2) ra im) = bf := by
  rw [fBF_eq, fRT_encD]
  exact BitVec.extractLsb'_append_eq_left

@[simp] theorem fBF_encX (op : BitVec 6) (bf : BitVec 3) (ra rb : BitVec 5) (xo : BitVec 10) (b : Bool) :
    fBF (encX op (bf ++ 0#2) ra rb xo b) = bf := by
  rw [fBF_eq, fRT_encX]
  exact BitVec.extractLsb'_append_eq_left

@[simp] theorem fBFA_encX (op : BitVec 6) (rt : BitVec 5) (bfa : BitVec 3) (rb : BitVec 5) (xo : BitVec 10) (b : Bool) :
    fBFA (encX op rt (bfa ++ 0#2) rb xo b) = bfa := by
  rw [fBFA_eq, fRA_encX]
  exact BitVec.extractLsb'_append_eq_left

@[simp] theorem fE_encX (op : BitVec 6) (rt ra : BitVec 5) (e : Bool) (xo : BitVec 10) (b : Bool) :
    fE (encX op rt ra (BitVec.ofBool e ++ 0#4) xo b) = e := by
  rw [← BitVec.ofBool_eq_iff_eq, ofBool_fE, fRB_encX]
  exact BitVec.extractLsb'_append_eq_left

@[simp] theorem fWS_encX (op : BitVec 6) (rt ra : BitVec 5) (ws : Bool) (xo : BitVec 10) (b : Bool) :
    fWS (encX op rt ra (0#4 ++ BitVec.ofBool ws) xo b) = ws := by
  rw [← BitVec.ofBool_eq_iff_eq, ofBool_fWS, fRB_encX]
  exact BitVec.extractLsb'_append_eq_right

@[simp] theorem fFXM_encX (op : BitVec 6) (rt : BitVec 5) (fxm : BitVec 8) (xo : BitVec 10) (b : Bool) :
    fFXM (encX op rt (0#1 ++ fxm.extractLsb' 4 4) (fxm.extractLsb' 0 4 ++ 0#1) xo b) = fxm := by
  rw [fFXM_eq, fRA_encX, fRB_encX, BitVec.extractLsb'_append_eq_left, BitVec.extractLsb'_append_eq_right]
  exact extractLsb'_append_low 4 fxm

@[simp] theorem fXO10_encXO (op : BitVec 6) (rt ra rb : BitVec 5) (oe : Bool) (xo : BitVec 9) (rc : Bool) :
    fXO10 (encXO op rt ra rb oe xo rc) = BitVec.ofBool oe ++ xo := by
  rw [encXO_eq_encX, fXO10_encX]

end Sys2Proof
end

section
/-! SUPPORT. Decoding what the encoder writes (R222 to R230): by the primary and the extended opcode to the row, whose operands
are the fields that `encode` filled. -/

namespace Sys2Proof

open Machine

theorem decode_op4 {w : Word} (h : fOPCD w = 4) : decode w = decode4 w := by
  rw [decode, h]
  rfl

theorem decode_op19 {w : Word} (h : fOPCD w = 19) : decode w = decode19 w := by
  rw [decode, h]
  rfl

theorem decode_op31 {w : Word} (h : fOPCD w = 31) : decode w = decode31 w := by
  rw [decode, h]
  rfl

/-- A branch displacement that is a multiple of 4 is its field followed by 0b00 (R222). -/
theorem displacement_eq {n : Nat} {disp : BitVec (n + 2)} (h : disp.extractLsb' 0 2 = 0#2) :
    disp.extractLsb' 2 n ++ 0#2 = disp := by
  rw [← h]
  exact extractLsb'_append_low 2 disp

theorem decode_encI {disp : BitVec 26} (hd : disp.extractLsb' 0 2 = 0#2) (aa lk : Bool) :
    decode (encI disp aa lk) = .ok (.b disp aa lk) := by
  obtain ⟨h, hlk⟩ := parts_of_append_eq (iForm_fields (encI disp aa lk))
  obtain ⟨h, haa⟩ := parts_of_append_eq h
  obtain ⟨hop, hli⟩ := parts_of_append_eq h
  rw [decode, hop]
  change Except.ok _ = _
  rw [fLI, hli, displacement_eq hd, BitVec.ofBool_eq_iff_eq.mp haa, BitVec.ofBool_eq_iff_eq.mp hlk]

theorem decode_encB (bo bi : BitVec 5) {disp : BitVec 16} (hd : disp.extractLsb' 0 2 = 0#2) (aa lk : Bool) :
    decode (encB bo bi disp aa lk) = .ok (.bc bo bi disp aa lk) := by
  obtain ⟨h, hlk⟩ := parts_of_append_eq (bForm_fields (encB bo bi disp aa lk))
  obtain ⟨h, haa⟩ := parts_of_append_eq h
  obtain ⟨h, hbd⟩ := parts_of_append_eq h
  obtain ⟨h, hbi⟩ := parts_of_append_eq h
  obtain ⟨hop, hbo⟩ := parts_of_append_eq h
  rw [decode, hop]
  change Except.ok _ = _
  rw [hbo, hbi, fBD, hbd, displacement_eq hd, BitVec.ofBool_eq_iff_eq.mp haa, BitVec.ofBool_eq_iff_eq.mp hlk]

/-- Settles O1: in each form the opcodes select the instruction's row, and the fields of that row read back as its operands. -/
theorem encodeDecode : Obligations.EncodeDecode := by
  intro i hwf
  cases i
  case b disp aa lk => exact decode_encI (of_decide_eq_true hwf) aa lk
  case bc bo bi disp aa lk => exact decode_encB bo bi (of_decide_eq_true hwf) aa lk
  case sc => rfl
  case rlwimi | rlwinm | rlwnm =>
    rw [encode, decode, fOPCD_encM]
    change Except.ok _ = _
    simp only [fRT_encM, fRA_encM, fRB_encM, fMB_encM, fME_encM, fBit31_encM]
  case mfdcr | mtdcr | mfspr | mtspr | mftb =>
    rw [encode, decode_op31 (fOPCD_encXFX ..), decode31, fXO10_encXFX]
    change Except.ok _ = _
    simp only [fRT_encXFX, fNum_encXFX]
  -- X form under 4, XL form under 19
  case mulchw | mulchwu | mulhhw | mulhhwu | mullhw | mullhwu =>
    rw [encode, decode_op4 (fOPCD_encX ..), decode4, fXO10_encX]
    change Except.ok _ = _
    simp only [fRT_encX, fRA_encX, fRB_encX, fBit31_encX]
  case bcctr | bclr | crand | crandc | creqv | crnand | crnor | cror | crorc | crxor | mcrf | rfi | rfci | isync =>
    rw [encode, decode_op19 (fOPCD_encX ..), decode19, fXO10_encX]
    change Except.ok _ = _
    simp only [fRT_encX, fRA_encX, fRB_encX, fBit31_encX, fBF_encX, fBFA_encX]
  -- XO form: neither value of OE makes bits 21:30 the extended opcode of an X-form row
  case macchw oe _ | macchws oe _ | macchwsu oe _ | macchwu oe _ | machhw oe _ | machhws oe _ | machhwsu oe _ |
      machhwu oe _ | maclhw oe _ | maclhws oe _ | maclhwsu oe _ | maclhwu oe _ | nmacchw oe _ | nmacchws oe _ |
      nmachhw oe _ | nmachhws oe _ | nmaclhw oe _ | nmaclhws oe _ =>
    cases oe
    all_goals
      rw [encode, decode_op4 (fOPCD_encXO ..), decode4, fXO10_encXO]
      change decode4xo _ = _
      rw [decode4xo, fXO9_encXO]
      change Except.ok _ = _
      simp only [fRT_encXO, fRA_encXO, fRB_encXO, fOE_encXO, fBit31_encXO]
  case add oe _ | addc oe _ | adde oe _ | subf oe _ | subfc oe _ | subfe oe _ | mullw oe _ | divw oe _ | divwu oe _ |
      addme oe _ | addze oe _ | subfme oe _ | subfze oe _ | neg oe _ =>
    cases oe
    all_goals
      rw [encode, decode_op31 (fOPCD_encXO ..), decode31, fXO10_encXO]
      change decode31xo _ = _
      rw [decode31xo, fXO9_encXO]
      change Except.ok _ = _
      simp only [fRT_encXO, fRA_encXO, fRB_encXO, fOE_encXO, fBit31_encXO]
  case mulhw | mulhwu =>
    rw [encode, decode_op31 (fOPCD_encXO ..), decode31, fXO10_encXO]
    change decode31xo _ = _
    rw [decode31xo, fXO9_encXO]
    change Except.ok _ = _
    simp only [fRT_encXO, fRA_encXO, fRB_encXO, fBit31_encXO]
  case lbz | lbzu | lha | lhau | lhz | lhzu | lwz | lwzu | lmw | stb | stbu | sth | sthu | stw | stwu | stmw | addi |
      addic | addicRc | addis | subfic | mulli | andiRc | andisRc | ori | oris | xori | xoris | cmpi | cmpli | twi =>
    rw [encode, decode, fOPCD_encD]
    change Except.ok _ = _
    simp only [fRT_encD, fRA_encD, fIM_encD, fBF_encD]
  -- X form, and the XFX form of `mtcrf`, under 31
  all_goals
    rw [encode, decode_op31 (fOPCD_encX ..), decode31, fXO10_encX]
    change Except.ok _ = _
    simp only [fRT_encX, fRA_encX, fRB_encX, fBit31_encX, fBF_encX, fE_encX, fWS_encX, fFXM_encX]

end Sys2Proof
end

section
/-! SUPPORT. What a word has in common with the encoding of the instruction it decodes to (R226, R241): the opcodes, and every bit
that is 1 in the encoding, since the encoding only clears reserved bits. -/

namespace Sys2Proof

open Machine

/-! ### The bits that are 1 -/

/-- Every bit that is 1 in `v` is 1 in `w`. -/
def OnesIn {n : Nat} (v w : BitVec n) : Prop := v &&& w = v

@[simp] theorem OnesIn.refl {n : Nat} (v : BitVec n) : OnesIn v v := BitVec.and_self

@[simp] theorem OnesIn.zero {n : Nat} (w : BitVec n) : OnesIn 0#n w := BitVec.zero_and

theorem OnesIn.append {m n : Nat} {v w : BitVec m} {v' w' : BitVec n} (h : OnesIn v w) (h' : OnesIn v' w') :
    OnesIn (v ++ v') (w ++ w') :=
  BitVec.and_append.trans (congrArg₂ (· ++ ·) h h')

theorem OnesIn.ofBool {b c : Bool} (h : b = true → c = true) : OnesIn (BitVec.ofBool b) (BitVec.ofBool c) := by
  cases b
  · exact .zero _
  · rw [h rfl]
    exact .refl _

theorem OnesIn.bit {v w : Word} (h : OnesIn v w) {k : Nat} (hk : bit v k = true) : bit w k = true := by
  rw [← h, bit_and, Bool.and_eq_true] at hk
  exact hk.2

@[simp] theorem onesIn_bf (w : Word) : OnesIn (fBF w ++ 0#2) (fRT w) := by
  rw [show fRT w = fBF w ++ field w 9 2 from (field_append w 6 3 2 (by decide)).symm]
  exact .append (.refl _) (.zero _)

@[simp] theorem onesIn_bfa (w : Word) : OnesIn (fBFA w ++ 0#2) (fRA w) := by
  rw [show fRA w = fBFA w ++ field w 14 2 from (field_append w 11 3 2 (by decide)).symm]
  exact .append (.refl _) (.zero _)

@[simp] theorem onesIn_e (w : Word) : OnesIn (BitVec.ofBool (fE w) ++ 0#4) (fRB w) := by
  rw [fE, ofBool_bit w (by decide), show fRB w = field w 16 1 ++ field w 17 4 from (field_append w 16 1 4 (by decide)).symm]
  exact .append (.refl _) (.zero _)

@[simp] theorem onesIn_ws (w : Word) : OnesIn (0#4 ++ BitVec.ofBool (fWS w)) (fRB w) := by
  rw [fWS, ofBool_bit w (by decide), show fRB w = field w 16 4 ++ field w 20 1 from (field_append w 16 4 1 (by decide)).symm]
  exact .append (.zero _) (.refl _)

@[simp] theorem onesIn_fxm_high (w : Word) : OnesIn (0#1 ++ (fFXM w).extractLsb' 4 4) (fRA w) := by
  rw [fFXM_eq, BitVec.extractLsb'_append_eq_left, fRA, extractLsb'_field w 11 5 0 4 (by decide) (by decide),
    ← field_append w 11 1 4 (by decide)]
  exact .append (.zero _) (.refl _)

@[simp] theorem onesIn_fxm_low (w : Word) : OnesIn ((fFXM w).extractLsb' 0 4 ++ 0#1) (fRB w) := by
  rw [fFXM_eq, BitVec.extractLsb'_append_eq_right, fRB, extractLsb'_field w 16 5 1 4 (by decide) (by decide),
    ← field_append w 16 4 1 (by decide)]
  exact .append (.refl _) (.zero _)

theorem onesIn_encD {w : Word} {rt : BitVec 5} (hrt : OnesIn rt (fRT w)) :
    OnesIn (encD (fOPCD w) rt (fRA w) (fIM w)) w := by
  have h := (((OnesIn.refl (fOPCD w)).append hrt).append (.refl (fRA w))).append (.refl (fIM w))
  rwa [← encD, ← encD, encD_fields] at h

theorem onesIn_encX {w : Word} {rt ra rb : BitVec 5} {xo : BitVec 10} (hrt : OnesIn rt (fRT w))
    (hra : OnesIn ra (fRA w)) (hrb : OnesIn rb (fRB w)) (hxo : OnesIn xo (fXO10 w)) :
    OnesIn (encX (fOPCD w) rt ra rb xo (fBit31 w)) w := by
  have h := ((((OnesIn.refl (fOPCD w)).append hrt).append hra).append hrb).append hxo
  have h := h.append (.refl (BitVec.ofBool (fBit31 w)))
  rwa [← encX, ← encX, encX_fields] at h

theorem onesIn_sc {w : Word} (hop : fOPCD w = 17) (haa : fAA w = true) : OnesIn (encode .sc) w := by
  have h := ((OnesIn.refl (fOPCD w)).append (.zero (field w 6 24))).append (.refl (BitVec.ofBool (fAA w)))
  have h := h.append (.zero (BitVec.ofBool (fBit31 w)))
  rwa [iForm_fields, hop, haa] at h

theorem bit_append_ofBool (x : BitVec 31) (b : Bool) {k : Nat} (hk : k < 31) :
    bit (x ++ BitVec.ofBool b) k = x.getMsbD k := by
  rw [bit, BitVec.getMsbD_append, if_neg (by omega)]

theorem bit_encX_of_lt (op : BitVec 6) (rt ra rb : BitVec 5) (xo : BitVec 10) (b b' : Bool) {k : Nat} (hk : k < 31) :
    bit (encX op rt ra rb xo b) k = bit (encX op rt ra rb xo b') k :=
  (bit_append_ofBool _ b hk).trans (bit_append_ofBool _ b' hk).symm

/-! ### A word and the instruction it names -/

/-- What a word `w` that decodes to `i` has in common with `i`'s own encoding `v`: the opcodes, and the bits that are 1 in `v`
(R226, R241, R318). -/
structure Names (w : Word) (i : Instr) (v : Word) : Prop where
  wf : i.wellFormed = true
  opcd : fOPCD w = fOPCD v
  ext : fOPCD w ∈ [4#6, 19#6, 31#6] → fXO9 w = fXO9 v ∧
    ((∀ rt ra rb rc, i ≠ .mulhw rt ra rb rc ∧ i ≠ .mulhwu rt ra rb rc) → fOE w = fOE v)
  ones : ∀ k, k < 32 → bit v k = true → bit w k = true ∨ (k = 31 ∧ ∃ rs ra rb, i = .stwcxRc rs ra rb)

theorem names_self {w v : Word} {i : Instr} (hwf : i.wellFormed = true) (h : v = w) : Names w i v := by
  subst h
  exact ⟨hwf, rfl, fun _ => ⟨rfl, fun _ => rfl⟩, fun _ _ hk => .inl hk⟩

theorem names_primary {w v : Word} {i : Instr} {op : BitVec 6} (hop : fOPCD w = op) (hv : fOPCD v = op)
    (hne : op ∉ [4#6, 19#6, 31#6]) (hwf : i.wellFormed = true) (hones : OnesIn v w) : Names w i v :=
  ⟨hwf, hop.trans hv.symm, fun h => absurd (hop ▸ h) hne, fun _ _ hk => .inl (hones.bit hk)⟩

theorem names_encD {w : Word} {i : Instr} {op : BitVec 6} {rt : BitVec 5} (hop : fOPCD w = op)
    (hne : op ∉ [4#6, 19#6, 31#6]) (hwf : i.wellFormed = true) (hrt : OnesIn rt (fRT w) := by simp) :
    Names w i (encD op rt (fRA w) (fIM w)) := by
  subst hop
  exact names_primary rfl (fOPCD_encD ..) hne hwf (onesIn_encD hrt)

theorem names_encM {w : Word} {i : Instr} {op : BitVec 6} (hop : fOPCD w = op) (hwf : i.wellFormed = true) :
    Names w i (encM op (fRT w) (fRA w) (fRB w) (fMB w) (fME w) (fBit31 w)) := by
  subst hop
  exact names_self hwf (encM_fields w)

theorem names_encXO {w : Word} {i : Instr} {op : BitVec 6} {rt ra rb : BitVec 5} {oe : Bool} {xo : BitVec 9} {b : Bool}
    (hop : fOPCD w = op) (hxo : fXO9 w = xo) (hwf : i.wellFormed = true) (hrt : OnesIn rt (fRT w) := by simp)
    (hra : OnesIn ra (fRA w) := by simp) (hrb : OnesIn rb (fRB w) := by simp) (hones : oe = true → fOE w = true := by simp)
    (hoe : fOE w = oe ∨ ∃ rt ra rb rc, i = .mulhw rt ra rb rc ∨ i = .mulhwu rt ra rb rc := by simp)
    (hb : b = true → fBit31 w = true ∨ ∃ rs ra rb, i = .stwcxRc rs ra rb := by simp) :
    Names w i (encXO op rt ra rb oe xo b) := by
  subst hop hxo
  refine ⟨hwf, (fOPCD_encXO ..).symm, fun _ => ⟨(fXO9_encXO ..).symm, fun hne => ?_⟩, fun k hk hbit => ?_⟩
  · have hoe : fOE w = oe := hoe.resolve_right fun ⟨rt, ra, rb, rc, h⟩ => h.elim (hne rt ra rb rc).1 (hne rt ra rb rc).2
    exact hoe.trans (fOE_encXO ..).symm
  · obtain hk | rfl : k < 31 ∨ k = 31 := by omega
    · have hxo : OnesIn (BitVec.ofBool oe ++ fXO9 w) (fXO10 w) := by
        rw [fXO10_eq]
        exact .append (.ofBool hones) (.refl _)
      rw [encXO_eq_encX, bit_encX_of_lt _ _ _ _ _ b (fBit31 w) hk] at hbit
      exact .inl ((onesIn_encX hrt hra hrb hxo).bit hbit)
    · exact (hb ((fBit31_encXO ..).symm.trans hbit)).imp_right (⟨rfl, ·⟩)

theorem names_encX {w : Word} {i : Instr} {op : BitVec 6} {rt ra rb : BitVec 5} {xo : BitVec 10} {b : Bool}
    (hop : fOPCD w = op) (hxo : fXO10 w = xo) (hwf : i.wellFormed = true) (hrt : OnesIn rt (fRT w) := by simp)
    (hra : OnesIn ra (fRA w) := by simp) (hrb : OnesIn rb (fRB w) := by simp)
    (hb : b = true → fBit31 w = true ∨ ∃ rs ra rb, i = .stwcxRc rs ra rb := by simp) :
    Names w i (encX op rt ra rb xo b) := by
  rw [← hxo, fXO10_eq, ← encXO_eq_encX]
  exact names_encXO hop rfl hwf hrt hra hrb id (.inl rfl) hb

/-! ### Each decoder names what the word holds -/

theorem names_decode4xo {w : Word} {i : Instr} (hop : fOPCD w = 4) (h : decode4xo w = .ok i) : Names w i (encode i) := by
  unfold decode4xo at h
  split at h <;> cases h
  all_goals next hxo => exact names_encXO hop (BitVec.eq_of_toNat_eq hxo) rfl

theorem names_decode4 {w : Word} {i : Instr} (hop : fOPCD w = 4) (h : decode4 w = .ok i) : Names w i (encode i) := by
  unfold decode4 at h
  split at h
  on_goal -1 => exact names_decode4xo hop h
  all_goals
    next hxo =>
      cases h
      exact names_encX hop (BitVec.eq_of_toNat_eq hxo) rfl

theorem names_decode19 {w : Word} {i : Instr} (hop : fOPCD w = 19) (h : decode19 w = .ok i) : Names w i (encode i) := by
  unfold decode19 at h
  split at h <;> cases h
  all_goals next hxo => exact names_encX hop (BitVec.eq_of_toNat_eq hxo) rfl

theorem names_decode31xo {w : Word} {i : Instr} (hop : fOPCD w = 31) (h : decode31xo w = .ok i) :
    Names w i (encode i) := by
  unfold decode31xo at h
  split at h <;> cases h
  all_goals next hxo => exact names_encXO hop (BitVec.eq_of_toNat_eq hxo) rfl

theorem names_decode31 {w : Word} {i : Instr} (hop : fOPCD w = 31) (h : decode31 w = .ok i) : Names w i (encode i) := by
  unfold decode31 at h
  split at h
  on_goal -1 => exact names_decode31xo hop h
  all_goals
    next hxo =>
      cases h
      simp only [encode, encXFX_eq_encX]
      exact names_encX hop (BitVec.eq_of_toNat_eq hxo) rfl

theorem names_decode {w : Word} {i : Instr} (h : decode w = .ok i) : Names w i (encode i) := by
  unfold decode at h
  split at h
  -- primary opcodes 4, 19 and 31, with an extended opcode
  case h_2 hop => exact names_decode4 (BitVec.eq_of_toNat_eq hop) h
  case h_14 hop => exact names_decode19 (BitVec.eq_of_toNat_eq hop) h
  case h_24 hop => exact names_decode31 (BitVec.eq_of_toNat_eq hop) h
  -- the branches and `sc`
  case h_11 hop =>
    cases h
    exact names_self (decide_eq_true BitVec.extractLsb'_append_eq_right) (encB_fields (BitVec.eq_of_toNat_eq hop))
  case h_13 hop =>
    cases h
    exact names_self (decide_eq_true BitVec.extractLsb'_append_eq_right) (encI_fields (BitVec.eq_of_toNat_eq hop))
  case h_12 hop =>
    split at h <;> cases h
    next haa =>
      have hop : fOPCD w = 17 := BitVec.eq_of_toNat_eq hop
      exact names_primary hop rfl (by decide) rfl (onesIn_sc hop haa)
  -- the M form
  case h_15 hop | h_16 hop | h_17 hop =>
    cases h
    exact names_encM (BitVec.eq_of_toNat_eq hop) rfl
  -- no row, and the D form
  all_goals cases h
  all_goals next hop => exact names_encD (BitVec.eq_of_toNat_eq hop) (by decide) rfl

/-- Settles O2: the word names its instruction (`names_decode`), whose encoding decodes to it by O1. -/
theorem decodeWellFormed : Obligations.DecodeWellFormed := by
  intro w i h
  obtain ⟨hwf, hopcd, hext, hones⟩ := names_decode h
  exact ⟨hwf, encodeDecode i hwf, hopcd, hext, hones⟩

end Sys2Proof
end

section
/-! SUPPORT. The word that is no instruction (R226, R641). -/

namespace Sys2Proof.Machine

/-- Settles O7: running such a word is the program interrupt with ESR[PIL]. -/
theorem illegalWord : Obligations.IllegalWord := by
  intro s w e he hq hw
  have hrun : runWord w s = .next (programInterrupt esrPIL s) := by rw [runWord, he]
  exact ⟨_, hrun, takeInterrupt_enters hq hw _ _⟩

end Sys2Proof.Machine
end

section
/-! SUPPORT. Words of the spec decoded (R222 to R230), and the loads with update (R271 to R287). -/

namespace Sys2Proof.Machine

/-- Settles O3: each word is the encoding of its instruction, which decodes to it by O1. -/
theorem decodeWords : Obligations.DecodeWords := by
  have word {w : Word} {i : Instr} (hw : encode i = w) (hi : i.wellFormed = true) : decode w = .ok i := hw ▸ encodeDecode i hi
  exact ⟨word rfl rfl, word rfl rfl, word rfl rfl, word rfl rfl, word rfl rfl, word rfl rfl, word rfl rfl, word rfl rfl,
    word rfl rfl, word rfl rfl, word rfl rfl, word rfl rfl, word rfl rfl⟩

/-! ### The eight loads with update (R271 to R287) -/

/-- RT and RA after a load with update: where they are one register it holds the value or the address (R271, U13). -/
theorem gpr_loadUpdateWrite (rt ra : Reg) (ea v : Word) (t : State) :
    (rt ≠ ra → gpr (loadUpdateWrite rt ra ea v t) rt = v ∧ gpr (loadUpdateWrite rt ra ea v t) ra = ea) ∧
      (rt = ra → gpr (loadUpdateWrite rt ra ea v t) rt = v ∨ gpr (loadUpdateWrite rt ra ea v t) rt = ea) ∧
      ∀ q, q ≠ rt → q ≠ ra → gpr (loadUpdateWrite rt ra ea v t) q = gpr t q := by
  by_cases h : rt = ra
  · subst h
    have hw (w : Word) (q : Reg) : gpr (drawn 1 (setGpr rt w t)) q = if rt = q then w else gpr t q := gpr_setGpr rt q w t
    rw [loadUpdateWrite, if_pos rfl]
    refine ⟨(absurd rfl ·), fun _ => ?_, fun q hq _ => (hw _ q).trans (if_neg hq.symm)⟩
    rw [hw, if_pos rfl]
    exact (ite_eq_or_eq _ ea v).symm
  · rw [loadUpdateWrite, if_neg h]
    refine ⟨fun _ => ⟨?_, gpr_setGpr_self ..⟩, (absurd · h), fun q hq hqa => ?_⟩
    · rw [gpr_setGpr_ne (Ne.symm h), gpr_setGpr_self]
    · rw [gpr_setGpr_ne hqa.symm, gpr_setGpr_ne hq.symm]

/-- What a load with update does with its bytes. -/
def loadUpdateDone (rt ra : Reg) (ea : Word) (form : LoadForm) (x31 : Bool) (bs : List (Byte × Bool)) (t : State) : State :=
  undefinedCr0 x31 (loadUpdateWrite rt ra ea (form.apply (scalarOf bs)) t)

theorem writesUser_loadUpdateDone (rt ra : Reg) (ea : Word) (form : LoadForm) (x31 : Bool) (bs : List (Byte × Bool)) :
    WritesUser (loadUpdateDone rt ra ea form x31 bs) := fun t => by
  unfold loadUpdateDone loadUpdateWrite
  cases x31 <;> split <;> rfl

theorem loadUpdateWrite_cr (rt ra : Reg) (ea v : Word) (t : State) : (loadUpdateWrite rt ra ea v t).cr = t.cr := by
  unfold loadUpdateWrite
  split <;> rfl

/-- The number loaded in the byte order of the storage. -/
def straightWord (algebraic : Bool) (bs : List (Byte × Bool)) : Word :=
  let n := scalarNat (firstOrder bs) (bs.map (·.1))
  if algebraic then (BitVec.ofNat 16 n).signExtend 32 else BitVec.ofNat 32 n

theorem loadedWord_straight (algebraic : Bool) (bs : List (Byte × Bool)) : loadedWord algebraic false bs = straightWord algebraic bs := by
  rw [loadedWord, straightWord, Bool.bne_false]

/-- What one of the eight loads with update leaves. -/
def LoadsUpdate (s : State) (rt ra : Reg) (i : Instr) (ea : Word) (n : Nat) (algebraic x31 : Bool) : Prop :=
  let us := checkUnits s false (units ea n)
  let v := straightWord algebraic (viewUnits s us.1)
  us.2 = none → plain s us.1 = true →
  ∃ t, exec i s = .next t ∧ (rt ≠ ra → gpr t rt = v ∧ gpr t ra = ea) ∧ (rt = ra → gpr t rt = v ∨ gpr t rt = ea) ∧
    (∀ q, q ≠ rt → q ≠ ra → gpr t q = gpr s q) ∧ Bit31 s t x31 ∧ t.pc = s.pc + 4#32 ∧
    (∀ a, dataByte t a = dataByte s a) ∧ OnlyAccess s t

theorem loadsUpdate_of {s : State} (hq : quiet s = true) (hc : Cached s) {rt ra : Reg} {i : Instr} {ea : Word} {n : Nat}
    {form : LoadForm} {algebraic x31 : Bool} (hform : form.Leaves n algebraic false)
    (hrun : exec i s = .next (loadBytes ea n (fun _ t => t) (loadUpdateDone rt ra ea form x31) s)) :
    LoadsUpdate s rt ra i ea n algebraic x31 := by
  intro hok hp
  generalize hus : (checkUnits s false (units ea n)).1 = us at *
  generalize hv : straightWord algebraic (viewUnits s us) = v
  have hvalue : form.apply (scalarOf (viewUnits s us)) = v := by
    rw [hform _ ((length_viewUnits s us).trans (hus ▸ unitTotal_checked hok)), loadedWord_straight, hv]
  have hdone := writesUser_loadUpdateDone rt ra ea form x31
  obtain ⟨t, ht, -, hrest, hview⟩ :=
    loadBytes_spec ea n (fun _ t => t) (loadUpdateDone rt ra ea form x31) hq hc hok (hus ▸ hp) fun bs => (hdone bs).dbg
  rw [hus] at ht
  have hgpr (q : Reg) : gpr { loadUpdateDone rt ra ea form x31 (viewUnits s us) t with pc := s.pc + 4#32 } q =
      gpr (loadUpdateWrite rt ra ea v t) q := by
    rw [← hvalue]
    exact gpr_congr (undefinedCr0_gpr x31 _) q
  obtain ⟨hne, heq, hother⟩ := gpr_loadUpdateWrite rt ra ea v t
  refine ⟨_, hrun.trans (congrArg _ ht), ?_, ?_, fun q hq hqa => ?_, ?_, rfl, fun a => ?_, (hdone _).onlyAccess hrest _⟩
  · rw [hgpr, hgpr]; exact hne
  · rw [hgpr]; exact heq
  · rw [hgpr, hother q hq hqa, gpr_congr (show t.gpr = s.gpr by rw [hrest])]
  · exact bit31_undefinedCr0 ((loadUpdateWrite_cr ..).trans (by rw [hrest])) x31 _
  · exact (dataByte_of_sto ((hdone _).sto t) ((hdone _).params t) a).trans (hview a)

/-- Settles O33: each form leaves the number loaded as `loadedWord` says, and its address in RA. -/
theorem updateLoads : Obligations.UpdateLoads := by
  intro s rt ra rb d x31 hq hc ed ex
  have zeros {i : Instr} {ea : Word} {n : Nat} {x31 : Bool} :=
    loadsUpdate_of hq hc (rt := rt) (ra := ra) (i := i) (ea := ea) (x31 := x31) (LoadForm.zero_leaves n)
  have sign {i : Instr} {ea : Word} {n : Nat} {x31 : Bool} :=
    loadsUpdate_of hq hc (rt := rt) (ra := ra) (i := i) (ea := ea) (x31 := x31) (LoadForm.algebraic_leaves n)
  iterate 8 rw [List.forall_mem_cons]
  exact ⟨zeros rfl, zeros rfl, sign rfl, sign rfl, zeros rfl, zeros rfl, zeros rfl, zeros rfl, List.forall_mem_nil _⟩

end Sys2Proof.Machine
end

section
/-! SUPPORT. The multiple and string loads (R131, R291 to R294): what each register holds afterwards. -/

namespace Sys2Proof.Machine

/-- A multiple or string load whose accesses are plain: its registers hold what `done` writes from the bytes its addresses read as. -/
theorem loadBytes_plain {s : State} (hq : quiet s = true) (hc : Cached s) {ea : Word} {n : Nat}
    (hok : (checkUnits s false (units ea n)).2 = none) (hp : plain s (checkUnits s false (units ea n)).1 = true)
    {done : List (Byte × Bool) → State → State} (hdone : ∀ bs, WritesUser (done bs)) (part : List (Byte × Bool) → State → State) :
    ∃ t u, loadBytes ea n part done s = t ∧ u.gpr = s.gpr ∧ u.cr = s.cr ∧
      t.gpr = (done (viewUnits s (checkUnits s false (units ea n)).1) u).gpr ∧
      t.cr = (done (viewUnits s (checkUnits s false (units ea n)).1) u).cr ∧ t.pc = s.pc + 4#32 ∧
      (∀ a, dataByte t a = dataByte s a) ∧ OnlyAccess s t := by
  obtain ⟨u, hu, -, hrest, hview⟩ := loadBytes_spec ea n part done hq hc hok hp fun bs => (hdone bs).dbg
  exact ⟨_, u, hu, by rw [hrest], by rw [hrest], rfl, rfl, rfl,
    fun a => (dataByte_of_sto ((hdone _).sto u) ((hdone _).params u) a).trans (hview a), (hdone _).onlyAccess hrest _⟩

/-! ### `lmw` (R291) -/

/-- A register other than the one loaded next stays, whether or not that one is skipped. -/
theorem gpr_skipped {α : Type} (skip : α → Bool) {r : α} {c q : Reg} (h : c ≠ q) (v : Word) (t : State) :
    gpr (if skip r = true then t else setGpr c v t) q = gpr t q := by
  split
  · rfl
  · exact gpr_setGpr_ne h ..

/-- The registers from `r` on hold the words, each in its own byte order, but for one that is skipped (R131, R291). -/
theorem gpr_loadWords (skip : Nat → Bool) {fuel r : Nat} {bs : List (Byte × Bool)} (t : State) (hfuel : 32 - r ≤ fuel) (hr : r ≤ 32)
    (hlen : bs.length = 4 * (32 - r)) (q : Reg) :
    gpr (loadWords fuel r skip bs t) q =
      if r ≤ q.toNat ∧ skip q.toNat = false then scalarOf ((bs.drop (4 * (q.toNat - r))).take 4) else gpr t q := by
  have hq := q.isLt
  induction fuel generalizing r bs t with
  | zero => rw [loadWords, if_neg (by omega)]
  | succ fuel ih =>
    rw [loadWords]
    split
    · rw [if_neg (by omega)]
    · rename_i hbs
      rw [ih _ (by omega) (by omega) (by rw [List.length_drop]; omega), List.drop_drop]
      by_cases h : q.toNat = r
      · rw [if_neg (by omega), show BitVec.ofNat 5 r = q by rw [← h, BitVec.ofNat_toNat, BitVec.setWidth_eq], ← h]
        cases hs : skip q.toNat <;> simp
      · have hne : BitVec.ofNat 5 r ≠ q := fun e => h (by rw [← e, BitVec.toNat_ofNat]; omega)
        rw [gpr_skipped skip hne]
        by_cases hq : r < q.toNat
        · rw [show 4 + 4 * (q.toNat - (r + 1)) = 4 * (q.toNat - r) by omega]
          exact if_congr (and_congr_left' (by omega)) rfl rfl
        · rw [if_neg (by omega), if_neg (by omega)]

theorem writesUser_loadWords (r : Nat) (skip : Nat → Bool) (bs : List (Byte × Bool)) : WritesUser (loadWords 32 r skip bs) :=
  fun t => by rw [loadWords_gprs]

theorem skipMultiple_false (ra q : Reg) : skipMultiple ra q.toNat = false ↔ ¬(q = ra ∧ ra ≠ 0#5 ∧ q ≠ 31#5) := by
  have h (c : Reg) : q.toNat = c.toNat ↔ q = c := BitVec.toNat_inj
  have h31 : q.toNat = 31 ↔ q = 31#5 := h 31#5
  rw [← Bool.not_eq_true, not_iff_not]
  simp only [skipMultiple, Bool.and_eq_true, bne_iff_ne, beq_iff_eq, h, ne_eq, h31]
  tauto

/-- Settles O35: the words loaded by `gpr_loadWords`. -/
theorem loadMultiple : Obligations.LoadMultiple := by
  intro s rt ra d hq hc ea us bs hok hp
  have hrt := rt.isLt
  obtain ⟨t, u, ht, hugpr, hucr, hgpr, hcr, hpc, hview, honly⟩ := loadBytes_plain hq hc hok hp
    (writesUser_loadWords rt.toNat (skipMultiple ra)) (fun bs t => loadWords 32 rt.toNat (fun r => ra != 0#5 && r == ra.toNat) bs t)
  refine ⟨t, congrArg Host.Outcome.next ht, fun q => ?_, ?_, hpc, hview, honly⟩
  · have hlen : bs.length = 4 * (32 - rt.toNat) := (length_viewUnits s us.1).trans (unitTotal_checked hok)
    rw [gpr_congr hgpr, gpr_loadWords _ _ (by omega) (by omega) hlen, gpr_congr hugpr, scalarOf_eq]
    simp only [skipMultiple_false]
  · rw [hcr, loadWords_gprs, hucr]

/-! ### `lswi` and `lswx` (R292 to R294) -/

/-- The registers from `r` on, GPR0 after GPR31, hold the bytes, four to a register, but for those skipped (R294). -/
theorem gpr_loadString (skip : Reg → Bool) {fuel : Nat} (r : Reg) {bs : List Byte} (t : State) (hfuel : fuel ≤ 32)
    (hlen : bs.length ≤ 4 * fuel) (q : Reg) :
    gpr (loadString fuel r skip bs t) q =
      if 4 * (q - r).toNat < bs.length ∧ skip q = false then stackedWord ((bs.drop (4 * (q - r).toNat)).take 4) else gpr t q := by
  induction fuel generalizing r bs t with
  | zero => rw [loadString, if_neg (by omega)]
  | succ fuel ih =>
    rw [loadString]
    split
    · rename_i hbs
      rw [List.isEmpty_iff.mp hbs, if_neg (by simp)]
    · rename_i hbs
      have hpos : 0 < bs.length := List.length_pos_iff.mpr (by simpa using hbs)
      rw [ih _ _ (by omega) (by rw [List.length_drop]; omega), List.drop_drop, List.length_drop]
      by_cases h : q = r
      · subst h
        rw [if_neg (by bv_omega), BitVec.sub_self]
        cases hs : skip q <;> simp [hpos]
      · have hstep : (q - r).toNat = (q - (r + 1#5)).toNat + 1 := by bv_omega
        rw [hstep, Nat.mul_succ, Nat.add_comm _ 4]
        rw [gpr_skipped skip (Ne.symm h)]
        exact if_congr (and_congr_left' (by omega)) rfl rfl

theorem writesUser_loadString (r : Reg) (skip : Reg → Bool) (x31 : Bool) (bs : List Byte) :
    WritesUser (fun t => undefinedCr0 x31 (loadString 32 r skip bs t)) := fun t => by
  dsimp only
  rw [loadString_gprs]
  cases x31 <;> rfl

theorem stackedWord_eq (bs : List Byte) : stackedWord bs = BitVec.ofNat 32 (scalarNat false ((bs ++ [0#8, 0#8, 0#8]).take 4)) :=
  bytesWord_eq _

theorem stringFinal_eq (rt : Reg) {n : Nat} (hn : 0 < n) : stringFinal rt n = rt + BitVec.ofNat 5 ((n + 3) / 4 - 1) := by
  apply BitVec.eq_of_toNat_eq
  rw [stringFinal, BitVec.toNat_add, BitVec.toNat_ofNat, BitVec.toNat_ofNat]
  omega

/-- What a string load of `n` bytes leaves. -/
def LoadsString (s : State) (rt : Reg) (i : Instr) (ea : Word) (n : Nat) (base : Reg → Bool) (x31 : Bool) : Prop :=
  let us := checkUnits s false (units ea n)
  let bs := (viewUnits s us.1).map (·.1)
  let final : Reg := rt + BitVec.ofNat 5 ((n + 3) / 4 - 1)
  us.2 = none → plain s us.1 = true →
  ∃ t, exec i s = .next t ∧
    (∀ r : Reg,
      let k := 4 * (r - rt).toNat
      gpr t r = if k < n ∧ (base r = false ∨ r = final)
        then BitVec.ofNat 32 (scalarNat false (((bs.drop k).take 4 ++ [0#8, 0#8, 0#8]).take 4)) else gpr s r) ∧
    Bit31 s t x31 ∧ t.pc = s.pc + 4#32 ∧ (∀ a, dataByte t a = dataByte s a) ∧ OnlyAccess s t

theorem loadsString_of {s : State} (hq : quiet s = true) (hc : Cached s) {rt : Reg} {i : Instr} {ea : Word} {n : Nat}
    {base skip : Reg → Bool} {x31 : Bool} (hn : 0 < n) (hmax : n ≤ 128) (hbase : ∀ r, skip r = false ↔ base r = false)
    (hrun : exec i s = .next (loadStringBytes rt ea n skip x31 s)) : LoadsString s rt i ea n base x31 := by
  intro hok hp
  obtain ⟨t, u, ht, hugpr, hucr, hgpr, hcr, hpc, hview, honly⟩ := loadBytes_plain hq hc hok hp
    (fun bs => writesUser_loadString rt (fun r => skip r && r != stringFinal rt n) x31 (bs.map (·.1)))
    (fun bs t => loadString 32 rt skip (bs.map (·.1)) t)
  have hlen : ((viewUnits s (checkUnits s false (units ea n)).1).map (·.1)).length = n := by
    rw [List.length_map, length_viewUnits, unitTotal_checked hok]
  refine ⟨t, hrun.trans (congrArg _ ht), fun r => ?_, ?_, hpc, hview, honly⟩
  · rw [gpr_congr (hgpr.trans (undefinedCr0_gpr x31 _)), gpr_loadString _ rt u (by decide) (by omega), gpr_congr hugpr, hlen,
      stackedWord_eq, stringFinal_eq rt hn]
    refine if_congr (and_congr_right' ?_) rfl rfl
    rw [Bool.and_eq_false_iff, hbase, bne_eq_false_iff_eq]
  · have h := bit31_undefinedCr0 (s := s) (u := loadString 32 rt (fun r => skip r && r != stringFinal rt n)
      ((viewUnits s (checkUnits s false (units ea n)).1).map (·.1)) u) (by rw [loadString_gprs, hucr]) x31 t.pc
    simp only [Bit31] at h ⊢
    rw [hcr]
    exact h

/-- Settles O36: each form loads as `loadsString_of` says. -/
theorem loadStrings : Obligations.LoadStrings := by
  intro s rt ra rb nb x31 hq hc base tbc
  rw [List.forall_mem_append, List.forall_mem_cons]
  refine ⟨⟨?_, List.forall_mem_nil _⟩, ?_⟩
  · refine loadsString_of (n := stringCount nb) hq hc (stringCount_pos nb) (stringCount_le nb) (fun r => ?_) rfl
    simpa using not_imp_not
  · split
    · exact List.forall_mem_nil _
    · rename_i h
      have htbc : (xerTBC s).toNat = tbc := xerTBC_toNat s
      have hne : xerTBC s ≠ 0#7 := fun e => h (by rw [← htbc, e]; rfl)
      refine List.forall_mem_cons.mpr ⟨?_, List.forall_mem_nil _⟩
      refine loadsString_of (n := tbc) (skip := fun r => r == ra || r == rb) hq hc (Nat.pos_of_ne_zero h) (by omega) (fun r => ?_) ?_
      · simp
      · rw [← htbc]
        exact if_neg hne

end Sys2Proof.Machine
end

section
/-! SUPPORT. The debug registers as a part of the state that nothing but the debug events looks at: storage, the caches, the registers
and translation work the same whatever they hold (R130, R150, R180, R182, R184, R717, R718). -/

namespace Sys2Proof.Machine

/-- The state with other debug registers. -/
def withDbg (g : DebugRegs) (s : State) : State := { s with dbg := g }

/-- An operation that neither reads nor writes the debug registers. -/
def DbgBlind (f : State → State) : Prop := ∀ g s, f (withDbg g s) = withDbg g (f s)

/-- A read of something, with what it does to the state, that neither reads nor writes the debug registers. -/
def DbgBlindRead {α : Type} (f : State → α × State) : Prop := ∀ g s, f (withDbg g s) = ((f s).1, withDbg g (f s).2)

theorem DbgBlind.dbg {f : State → State} (h : DbgBlind f) (s : State) : (f s).dbg = s.dbg := by
  have hs : f s = withDbg s.dbg (f s) := h s.dbg s
  rw [hs]
  rfl

/-- The same for a state that stands there in another form. -/
theorem DbgBlind.apply {f : State → State} (h : DbgBlind f) {g : DebugRegs} {s t : State} (ht : t = withDbg g s) :
    f t = withDbg g (f s) := ht ▸ h g s

theorem DbgBlindRead.apply {α : Type} {f : State → α × State} (h : DbgBlindRead f) {g : DebugRegs} {s t : State}
    (ht : t = withDbg g s) : f t = ((f s).1, withDbg g (f s).2) := ht ▸ h g s

theorem DbgBlind.comp {f k : State → State} (hf : DbgBlind f) (hk : DbgBlind k) : DbgBlind fun s => f (k s) :=
  fun g s => (congrArg f (hk g s)).trans (hf g _)

theorem DbgBlind.ite {c : State → Bool} {f k : State → State} (hc : ∀ g s, c (withDbg g s) = c s) (hf : DbgBlind f)
    (hk : DbgBlind k) : DbgBlind fun s => if c s then f s else k s := fun g s => by
  dsimp only
  rw [hc]
  split
  · exact hf g s
  · exact hk g s

theorem DbgBlindRead.ite {α : Type} {c : State → Bool} {f k : State → α × State} (hc : ∀ g s, c (withDbg g s) = c s)
    (hf : DbgBlindRead f) (hk : DbgBlindRead k) : DbgBlindRead fun s => if c s then f s else k s := fun g s => by
  dsimp only
  rw [hc]
  split
  · exact hf g s
  · exact hk g s

/-- What a read gives, used by an operation that follows it. -/
theorem DbgBlindRead.bind {α : Type} {f : State → α × State} {k : α → State → State} (hf : DbgBlindRead f)
    (hk : ∀ a, DbgBlind (k a)) : DbgBlind fun s => k (f s).1 (f s).2 := fun g s => by
  dsimp only
  rw [hf]
  exact hk _ g _

/-! ### Storage behind the bus (R130, R190, R622) -/

theorem blind_drawn (n : Nat) : DbgBlind (drawn n) := fun _ _ => rfl

theorem blind_setMemBytes (ra : Word) (bs : List Byte) : DbgBlind (setMemBytes ra bs) := by
  induction bs generalizing ra with
  | nil => exact fun _ _ => rfl
  | cons b bs ih => exact fun g s => ih (ra + 1) g (setMemByte ra b s)

theorem blind_reportDataError : DbgBlind reportDataError := .ite (c := msrME) (fun _ _ => rfl) (fun _ _ => rfl) fun _ _ => rfl

theorem blind_busWrite (direct : Bool) (ra : Word) (bs : List Byte) : DbgBlind (busWrite direct ra bs) := by
  have hwrite : DbgBlind fun s => setMemBytes ra bs (noteLate direct ra bs.length s) :=
    (blind_setMemBytes ra bs).comp fun _ _ => rfl
  exact .ite (c := fun s => busErrorIn s .store ra bs.length) (fun _ _ => rfl) (blind_reportDataError.comp hwrite) hwrite

theorem blind_outsideBytes (bs : List (Word × Byte)) : DbgBlind (outsideBytes bs) := by
  induction bs with
  | nil => exact fun _ _ => rfl
  | cons b bs ih => exact fun g s => ih g (outsideByte b.1 b.2 s)

theorem blind_busTurn : DbgBlind busTurn := fun g s => by
  have hbus : (withDbg g s).inp.bus = s.inp.bus := rfl
  unfold busTurn
  rw [hbus]
  split
  · rfl
  · exact (blind_outsideBytes _).apply rfl

theorem blind_busRead (ra : Word) (n : Nat) : DbgBlindRead (busRead ra n) :=
  .ite (c := fun s => busErrorIn s .load ra n) (fun _ _ => rfl)
    (fun g s => Prod.ext rfl ((blind_reportDataError.comp (blind_drawn n)) g s)) fun _ _ => rfl

theorem blind_dropBuffer (ra : Word) : DbgBlind (dropBuffer ra) :=
  .ite (c := fun s => bufferHas s ra) (fun _ _ => rfl) (fun _ _ => rfl) fun _ _ => rfl

/-! ### The data cache (R182, R183, R185) -/

theorem blind_castOut (k : Nat) : DbgBlind (castOut k) :=
  .ite (c := fun s => ((dSet s k).get (dSet s k).lruB).valid && ((dSet s k).get (dSet s k).lruB).dirty) (fun _ _ => rfl)
    (fun g s => blind_busWrite false _ _ g s) fun _ _ => rfl

theorem blind_installLine (ra : Word) (data : Vector Byte 32) (dirty : Bool) : DbgBlind (installLine ra data dirty) := fun g s => by
  unfold installLine
  dsimp only
  rw [show castOut (dClass (withDbg g s) ra) (withDbg g s) = withDbg g (castOut (dClass s ra) s) from blind_castOut _ g s]
  rfl

theorem blind_fillLine (ra : Word) : DbgBlind (fillLine ra) :=
  DbgBlindRead.bind (f := fun s => busRead (lineBase (lineOf ra)) 32 (clearBuffer s))
    (fun g s => blind_busRead _ _ g (clearBuffer s)) fun bs => blind_installLine ra (lineOfBytes bs) false

/-- The line of an address read over the bus into the line buffer (R183). -/
theorem blind_bufferedRead (ra : Word) (n : Nat) {clear : State → State} (hclear : DbgBlind clear) :
    DbgBlindRead fun s =>
      let (bs, s1) := busRead (lineBase (lineOf ra)) 32 (clear s)
      (lineBytes (lineOfBytes bs) ra n,
        { s1 with sto := { s1.sto with buffer := some { line := lineOf ra, data := lineOfBytes bs } } }) := fun g s => by
  dsimp only
  rw [hclear, blind_busRead]
  rfl

theorem blind_uncachedRead (ra : Word) (x : Attrs) (n : Nat) : DbgBlindRead (uncachedRead ra x n) := by
  refine .ite (c := fun _ => x.g) (fun _ _ => rfl) (blind_busRead ra n) fun g s => ?_
  have hbuffer : (withDbg g s).sto.buffer = s.sto.buffer := rfl
  have hlwl (clear : State → State) (hclear : DbgBlind clear) :=
    DbgBlindRead.ite (c := ccrLWL) (fun _ _ => rfl) (blind_bufferedRead ra n hclear) (blind_busRead ra n) g s
  rw [hbuffer]
  split
  · split
    · rfl
    · exact hlwl clearBuffer fun _ _ => rfl
  · exact hlwl id fun _ _ => rfl

theorem blind_dataRead (ra : Word) (x : Attrs) (n : Nat) : DbgBlindRead (dataRead ra x n) := by
  refine .ite (c := fun _ => x.w && x.i) (fun _ _ => rfl) (fun _ _ => rfl) fun g s => ?_
  have hseen : dSeen (withDbg g s) x ra = dSeen s x ra := rfl
  have hmiss : (x.i || ccrLWOA (withDbg g s) || decide ((withDbg g s).params.dcacheSize.classes = 0)) =
      (x.i || ccrLWOA s || decide (s.params.dcacheSize.classes = 0)) := rfl
  rw [hseen]
  split
  · split
    · rw [show drawn 1 (withDbg g s) = withDbg g (drawn 1 s) from rfl, blind_uncachedRead]
      rfl
    · rfl
  · rw [hmiss]
    split
    · exact blind_uncachedRead ra x n g s
    · dsimp only
      rw [blind_fillLine, show dWay (withDbg g (fillLine ra s)) ra = dWay (fillLine ra s) ra from rfl]
      split
      · rfl
      · exact blind_uncachedRead ra x n g _

theorem blind_storeHit (ra : Word) (x : Attrs) (way : Bool) (bs : List Byte) : DbgBlind (storeHit ra x way bs) :=
  .ite (c := fun _ => x.w) (fun _ _ => rfl) (fun _ _ => (blind_busWrite true ra bs).apply rfl) fun _ _ => rfl

theorem blind_storeThrough (ra : Word) (x : Attrs) (bs : List Byte) : DbgBlind (storeThrough ra x bs) := by
  refine .ite (c := fun _ => x.w && x.i) (fun _ _ => rfl) (fun _ _ => (blind_busWrite true ra _).apply rfl) fun g s => ?_
  have hseen : dSeen (withDbg g s) x ra = dSeen s x ra := rfl
  have hmiss : (x.i || ccrSWOA (withDbg g s) || decide ((withDbg g s).params.dcacheSize.classes = 0)) =
      (x.i || ccrSWOA s || decide (s.params.dcacheSize.classes = 0)) := rfl
  have hfree : freeNow (withDbg g s) = freeNow s := rfl
  rw [hseen]
  split
  · rename_i way _
    rw [hfree]
    split
    · dsimp only
      split
      · split
        · exact (blind_busWrite true ra bs).apply rfl
        · rfl
      · exact (blind_busWrite true ra bs).apply rfl
    · exact blind_storeHit ra x way bs g s
  · rw [hmiss]
    split
    · exact blind_busWrite _ ra bs g s
    · dsimp only
      rw [blind_fillLine, show dWay (withDbg g (fillLine ra s)) ra = dWay (fillLine ra s) ra from rfl]
      split
      · exact blind_storeHit ra x _ bs g _
      · exact blind_busWrite _ ra bs g _

theorem blind_dataWrite (ra : Word) (x : Attrs) (bs : List Byte) : DbgBlind (dataWrite ra x bs) :=
  (blind_storeThrough ra x bs).comp (blind_dropBuffer ra)

theorem blind_cleanLine (ra : Word) : DbgBlind (cleanLine ra) := fun g s => by
  unfold cleanLine
  rw [show dWay (withDbg g s) ra = dWay s ra from rfl]
  split
  · rename_i way _
    refine DbgBlind.ite (c := fun s => ((dSet s (dClass s ra)).get way).dirty)
      (f := fun s =>
        let l := (dSet s (dClass s ra)).get way
        let s1 := busWrite false (lineBase l.line) l.data.toList s
        setDSet (dClass s ra) ((dSet s1 (dClass s ra)).put way { l with dirty := false }) s1)
      (k := id) (fun _ _ => rfl) (fun g s => ?_) (fun _ _ => rfl) g s
    dsimp only
    rw [blind_busWrite]
    rfl
  · rfl

theorem blind_dropLine (ra : Word) : DbgBlind (dropLine ra) := fun g s => by
  unfold dropLine
  rw [show dWay (withDbg g s) ra = dWay s ra from rfl]
  split <;> rfl

theorem blind_dropClass (ra : Word) : DbgBlind (dropClass ra) := fun g s => by
  unfold dropClass
  rw [show (withDbg g s).params.dcacheSize.classes = s.params.dcacheSize.classes from rfl]
  split <;> rfl

theorem blind_establishLine (ra : Word) (data : Vector Byte 32) : DbgBlind (establishLine ra data) := fun g s => by
  unfold establishLine
  rw [show dWay (withDbg g s) ra = dWay s ra from rfl]
  split
  · rfl
  · exact blind_installLine ra data true g s

/-! ### The instruction cache (R184, R203, R510 to R513) -/

theorem blind_dropInstrLine (ra : Word) : DbgBlind (dropInstrLine ra) := fun g s => by
  unfold dropInstrLine
  rw [show iWay (withDbg g s) ra = iWay s ra from rfl]
  split <;> rfl

theorem blind_pick {α : Type} [DecidableEq α] (d : α) (l : List α) : DbgBlindRead (pick d l) := fun g s => by
  unfold pick
  split <;> rfl

theorem blind_undo (w : LateWrite) : DbgBlind fun s => undo s w := by
  unfold undo
  generalize w.old = l
  induction l with
  | nil => exact fun _ _ => rfl
  | cons o l ih => exact fun g s => ih g (setMemByte o.1 o.2 s)

theorem undone_withDbg (ws : List LateWrite) (g : DebugRegs) (s : State) : undone ws (withDbg g s) = (undone ws s).map (withDbg g) := by
  induction ws generalizing s with
  | nil => rfl
  | cons w ws ih =>
    have hw : undo (withDbg g s) w = withDbg g (undo s w) := blind_undo w g s
    rw [undone, undone, hw, ih]
    rfl

theorem blind_fillInstrLine (ra : Word) (e : Bool) : DbgBlind (fillInstrLine ra e) := fun g s => by
  have hfills : (fetchImages (withDbg g s) ra false).map (fun m => instrFill m ra e) =
      (fetchImages s ra false).map (fun m => instrFill m ra e) := by
    rw [fetchImages, fetchImages, undone_withDbg, List.map_cons, List.map_cons, List.map_map]
    rfl
  unfold fillInstrLine
  rw [hfills, blind_pick]
  generalize pick none ((fetchImages s ra false).map (fun m => instrFill m ra e)) s = r
  obtain ⟨fill, t⟩ := r
  cases fill <;> rfl

theorem blind_readInstrArray (ra : Word) : DbgBlind (readInstrArray ra) := fun g s => by
  unfold readInstrArray
  rw [show (withDbg g s).params.icacheSize.classes = s.params.icacheSize.classes from rfl]
  split <;> rfl

/-! ### The accesses of an operand (R141, R165) -/

theorem checkUnits_withDbg (g : DebugRegs) (s : State) (store : Bool) (us : List (Word × Nat)) :
    checkUnits (withDbg g s) store us = checkUnits s store us := by
  induction us with
  | nil => rfl
  | cons u us ih =>
    rw [checkUnits, checkUnits, ih, show unitXlate (withDbg g s) store u.1 = unitXlate s store u.1 from rfl]

theorem blind_loadUnits (us : List UnitAccess) : DbgBlindRead (loadUnits us) := by
  induction us with
  | nil => exact fun _ _ => rfl
  | cons u us ih =>
    intro g s
    simp only [loadUnits, blind_busTurn g s, blind_dataRead u.x.ra u.x.attrs u.n g, ih g]

theorem blind_storeUnits (us : List UnitAccess) (bs : List Byte) : DbgBlind (storeUnits us bs) := by
  induction us generalizing bs with
  | nil => exact fun _ _ => rfl
  | cons u us ih => exact (ih _).comp ((blind_dataWrite _ _ _).comp blind_busTurn)

/-! ### Registers (R30 to R39) -/

theorem blind_setGpr (r : Reg) (v : Word) : DbgBlind (setGpr r v) := fun _ _ => rfl

theorem blind_undefinedCr0 (x31 : Bool) : DbgBlind (undefinedCr0 x31) :=
  .ite (c := fun _ => x31) (fun _ _ => rfl) (fun _ _ => rfl) fun _ _ => rfl

theorem blind_setOv (oe ov : Bool) : DbgBlind (setOv oe ov) :=
  .ite (c := fun _ => oe) (fun _ _ => rfl) (fun _ _ => rfl) fun _ _ => rfl

theorem blind_recordCr0 (rc : Bool) (v : Word) : DbgBlind (recordCr0 rc v) :=
  .ite (c := fun _ => rc) (fun _ _ => rfl) (fun _ _ => rfl) fun _ _ => rfl

theorem blind_recordCr0Free (rc : Bool) (v : Word) : DbgBlind (recordCr0Free rc v) :=
  .ite (c := fun _ => rc) (fun _ _ => rfl) (fun _ _ => rfl) fun _ _ => rfl

theorem blind_deliver (rt : Reg) (v : Word) (ca : Option Bool) (ov oe rc : Bool) : DbgBlind (deliver rt v ca ov oe rc) := by
  refine (blind_recordCr0 rc v).comp ((blind_setOv oe ov).comp ?_)
  cases ca <;> exact fun _ _ => rfl

theorem blind_deliverRa (ra : Reg) (v : Word) (rc : Bool) : DbgBlind (deliverRa ra v rc) :=
  (blind_recordCr0 rc v).comp (blind_setGpr ra v)

theorem blind_divideUndefined (rt : Reg) (oe rc : Bool) : DbgBlind (divideUndefined rt oe rc) := fun g s =>
  ((blind_recordCr0Free rc (Config.freeWord (s.free + 1))).comp (blind_setOv oe true)).apply (g := g)
    (s := setGpr rt (freeNow s) s) rfl |> congrArg (drawn 2)

theorem blind_loadUpdateWrite (rt ra : Reg) (ea v : Word) : DbgBlind (loadUpdateWrite rt ra ea v) := fun g s => by
  unfold loadUpdateWrite
  split <;> rfl

theorem blind_loadWords (fuel r : Nat) (skip : Nat → Bool) (bs : List (Byte × Bool)) : DbgBlind (loadWords fuel r skip bs) := by
  induction fuel generalizing r bs with
  | zero => exact fun _ _ => rfl
  | succ fuel ih =>
    intro g s
    unfold loadWords
    split
    · rfl
    · split <;> exact (ih _ _).apply rfl

theorem blind_loadString (fuel : Nat) (r : Reg) (skip : Reg → Bool) (bs : List Byte) : DbgBlind (loadString fuel r skip bs) := by
  induction fuel generalizing r bs with
  | zero => exact fun _ _ => rfl
  | succ fuel ih =>
    intro g s
    unfold loadString
    split
    · rfl
    · split <;> exact (ih _ _).apply rfl

end Sys2Proof.Machine
end

section
/-! SUPPORT. A debug event in the words of `afterEvent` (R660, R721 to R725), before an instruction and after it, and the exception event
after an entry (R604, R605, R728). -/

namespace Sys2Proof.Machine

/-! ### What an event does (R721 to R725) -/

/-- An event does more than set DBSR bits, in the order of the modes in R721 to R723. -/
def acting (s : State) : Bool :=
  bit s.dbg.dbcr0 0 || (bit s.dbg.dbcr0 1 && bit s.msr 22) ||
    (!bit s.dbg.dbcr0 0 && !bit s.dbg.dbcr0 1 && bit s.msr 21 && s.params.jtagDebugWait)

theorem eventActs_eq (s : State) : eventActs s = acting s := by
  simp only [eventActs, debugWaitMode, dbEDM, dbIDM, msrDE, msrDWE, acting]
  rw [Bool.and_comm (!bit s.dbg.dbcr0 0)]

/-- The debug registers with an event noted in the DBSR: its bits, and with IDM = 1 and MSR[DE] = 0 the imprecise bit. -/
def noted (mode : State) (bits : Word) (g : DebugRegs) : DebugRegs :=
  if bits = 0#32 then g
  else { g with dbsr := g.dbsr ||| bits ||| (if dbIDM mode && !msrDE mode then 0x00100000#32 else 0#32) }

theorem noted_zero (mode : State) (g : DebugRegs) : noted mode 0#32 g = g := if_pos rfl

theorem recordEvent_noted {bits : Word} (hb : bits ≠ 0#32) (mode t : State) :
    recordEvent mode bits t = withDbg (noted mode bits t.dbg) t := by
  unfold recordEvent noted
  rw [if_neg hb]
  cases dbIDM mode && !msrDE mode
  · simp only [Bool.false_eq_true, if_false, BitVec.or_zero]
    rfl
  · simp only [if_true, BitVec.or_assoc]
    rfl

/-- Out of debug wait a debug event does what R721 to R725 say. -/
theorem debugEvent_eq {t : State} (ht : t.dbg.run = .running) (mode : State) (bits a : Word) :
    debugEvent mode bits a t = afterEvent mode t bits a := by
  by_cases hb : bits = 0#32
  · subst hb
    exact debugEvent_zero mode a t
  have hwait : debugWaitMode mode = (!dbIDM mode && !dbEDM mode && (bit mode.msr 21 && mode.params.jtagDebugWait)) :=
    Bool.and_assoc ..
  have hnoted := recordEvent_noted hb mode t
  rw [noted, if_neg hb] at hnoted
  rcases debugEvent_cases mode bits a t with ⟨h, -⟩ | ⟨-, hedm, e⟩ | ⟨-, hedm, hidm, hde, e⟩ | ⟨-, hedm, hidm, hde, e⟩ |
    ⟨-, hedm, hidm, hdwe, e⟩ | ⟨-, hedm, hidm, hdwe, e⟩
  · exact absurd h hb
  all_goals rw [e, afterEvent, if_neg hb, hnoted]
  · exact (if_pos hedm).symm
  all_goals refine Eq.symm ((if_neg (Bool.eq_false_iff.mp hedm)).trans ?_)
  · rw [enter_critical _ _ _ (by rw [withDbg, ht]; decide)]
    refine (if_pos hidm).trans ((if_pos hde).trans ?_)
    simp only [hidm, hde, Bool.not_true, Bool.and_false, Bool.false_eq_true, if_false, BitVec.or_zero]
    rfl
  · exact (if_pos hidm).trans (if_neg (Bool.eq_false_iff.mp hde))
  all_goals refine (if_neg (Bool.eq_false_iff.mp hidm)).trans ?_
  all_goals rw [hwait, hidm, hedm, Bool.not_false, Bool.true_and, Bool.true_and] at hdwe
  · exact if_pos hdwe
  · exact if_neg (Bool.eq_false_iff.mp hdwe)

/-- The modes of an event are read from DBCR0, the MSR and the parameters alone. -/
theorem afterEvent_mode {m n : State} (hd : m.dbg.dbcr0 = n.dbg.dbcr0) (hm : m.msr = n.msr) (hp : m.params = n.params)
    (t : State) (bits a : Word) : afterEvent m t bits a = afterEvent n t bits a := by
  simp only [afterEvent, hd, hm, hp]

/-- An event that does not act is noted in the DBSR. -/
theorem afterEvent_noted {s : State} {bits : Word} (h : acting s = false ∨ bits = 0#32) (t : State) (a : Word) :
    afterEvent s t bits a = withDbg (noted s bits t.dbg) t := by
  by_cases hb : bits = 0#32
  · rw [afterEvent, noted, if_pos hb, if_pos hb]
    rfl
  · have ha := h.resolve_right hb
    simp only [acting, Bool.or_eq_false_iff] at ha
    obtain ⟨⟨hedm, hact⟩, hdwe⟩ := ha
    rw [afterEvent, noted, if_neg hb, if_neg hb, hedm]
    rw [hedm] at hdwe
    refine (if_neg (by decide)).trans ?_
    by_cases hidm : bit s.dbg.dbcr0 1 = true
    · rw [hidm, Bool.true_and] at hact
      exact (if_pos hidm).trans (if_neg (Bool.eq_false_iff.mp hact))
    · rw [Bool.eq_false_iff.mpr hidm, Bool.not_false, Bool.true_and, Bool.true_and] at hdwe
      exact (if_neg hidm).trans (if_neg (Bool.eq_false_iff.mp hdwe))

/-! ### Before an instruction, and at its end (R725, R726, R743) -/

theorem beforeEvent_acts {s : State} (hr : s.dbg.run = .running) {bits : Word} (ha : acting s = true) (hb : bits ≠ 0#32)
    (k : State → State) : beforeEvent bits k s = afterEvent s s bits s.pc := by
  rw [← debugEvent_eq hr]
  exact (if_neg hb).trans (if_pos ((eventActs_eq s).trans ha))

theorem beforeEvent_goesOn {s : State} {bits : Word} (h : acting s = false ∨ bits = 0#32) (k : State → State) :
    beforeEvent bits k s = k (withDbg (noted s bits s.dbg) s) := by
  by_cases hb : bits = 0#32
  · subst hb
    rw [beforeEvent_zero, noted_zero]
    rfl
  · rw [← recordEvent_noted hb]
    exact (if_neg hb).trans (if_neg (Bool.eq_false_iff.mp ((eventActs_eq s).trans (h.resolve_right hb))))

theorem noted_run (mode : State) (bits : Word) (g : DebugRegs) : (noted mode bits g).run = g.run := by
  unfold noted
  split <;> rfl

theorem noted_dbcr0 (mode : State) (bits : Word) (g : DebugRegs) : (noted mode bits g).dbcr0 = g.dbcr0 := by
  unfold noted
  split <;> rfl

/-- An instruction completes with the completion and data value events, raised under the modes it started in (R726, R739, R743). -/
theorem complete_eq {t : State} (ht : t.dbg.run = .running) (mode : State) (nia dvc : Word) :
    complete mode nia dvc t = afterEvent mode { t with pc := nia } (completionBits mode ||| dvc) nia :=
  debugEvent_eq (t := { t with pc := nia }) ht mode _ nia

/-- An instruction completes after an event that was noted: the completion and data value events are raised under the modes it
started in. -/
theorem complete_noted {s t : State} (hr : s.dbg.run = .running) (bits nia dvc : Word) :
    complete (withDbg (noted s bits s.dbg) s) nia dvc (withDbg (noted s bits s.dbg) t) =
      afterEvent s (withDbg (noted s bits s.dbg) { t with pc := nia }) (completionBits s ||| dvc) nia := by
  have hbits : completionBits (withDbg (noted s bits s.dbg) s) = completionBits s := by
    unfold completionBits debugMasked internalDebug dbIC dbIDM dbEDM
    rw [show (withDbg (noted s bits s.dbg) s).dbg.dbcr0 = s.dbg.dbcr0 from noted_dbcr0 ..]
    rfl
  rw [complete_eq ((noted_run ..).trans hr), hbits]
  exact afterEvent_mode (m := withDbg (noted s bits s.dbg) s) (noted_dbcr0 ..) rfl rfl _ _ _

end Sys2Proof.Machine
end

section
/-! SUPPORT. Instructions with the completion event, and those with an event before them (R725 to R727, R737, R743): in every debug mode
they do what they do without an event armed, and the event with it. -/

namespace Sys2Proof.Machine

/-! ### The machine with no event armed -/

/-- The state with internal debug mode alone and no event armed. -/
def calm (s : State) : State := withDbg { s.dbg with dbcr0 := 0x40000000#32, dbcr1 := 0#32 } s

/-- A state with the debug registers of an earlier one. -/
def armed (s u : State) : State := withDbg s.dbg u

theorem quiet_calm (s : State) : quiet (calm s) = true := by
  have hdbcr0 : ∀ i ∈ [4, 5, 6, 7], bit 0x40000000#32 i = false := by decide
  exact (quiet_iff _).mpr ⟨hdbcr0 4 (by decide), hdbcr0 5 (by decide), hdbcr0 6 (by decide), hdbcr0 7 (by decide),
    show field 0#32 0 4 = 0#4 by decide⟩

/-! ### The completion event (R726) -/

/-- With no data event and no branch event armed the instruction completes, whatever else the debug registers hold. -/
def Completes (s : State) (i : Instr) : Prop :=
  ∃ nia t, ∀ g : DebugRegs, g.dbcr1 = 0#32 → bit g.dbcr0 5 = false →
    exec i (withDbg g s) = .next (complete (withDbg g s) nia 0#32 (withDbg g t))

/-- The instruction does what it does with no event armed, and then the completion event is raised, but for IDM = 1, EDM = 0 and
MSR[DE] = 0 (R726). -/
def CompletionEvent (s : State) (i : Instr) : Prop :=
  ∃ u, exec i (calm s) = .next u ∧
    exec i s = .next (if debugMasked s then armed s u else afterEvent s (armed s u) 0x80000000#32 u.pc)

theorem completionBits_armed {s : State} (h : bit s.dbg.dbcr0 4 = true) :
    completionBits s = if debugMasked s then 0#32 else 0x80000000#32 := by
  rw [completionBits, show dbIC s = true from h]
  cases debugMasked s <;> rfl

theorem Completes.completionEvent {s : State} {i : Instr} (h : Completes s i) (hr : s.dbg.run = .running) (hic : bit s.dbg.dbcr0 4 = true)
    (hbt : bit s.dbg.dbcr0 5 = false) (hdac : s.dbg.dbcr1 = 0#32) : CompletionEvent s i := by
  obtain ⟨nia, t, hexec⟩ := h
  have hcalm := hexec (calm s).dbg rfl (quiet_dbBT (quiet_calm s))
  have hs : exec i s = .next (complete s nia 0#32 (withDbg s.dbg t)) := hexec s.dbg hdac hbt
  refine ⟨_, hcalm.trans (congrArg _ (complete_plain (quiet_dbIC (quiet_calm s)) nia _)), hs.trans (congrArg _ ?_)⟩
  refine (complete_eq (t := withDbg s.dbg t) hr s nia 0#32).trans ?_
  rw [BitVec.or_zero, completionBits_armed hic]
  split <;> rfl

/-- An instruction that only changes state and goes on to the next one. -/
theorem completes_advance {s : State} {i : Instr} {op : State → State} (hop : DbgBlind op)
    (h : ∀ g, exec i (withDbg g s) = .next (advance (withDbg g s) (op (withDbg g s)))) : Completes s i :=
  ⟨s.pc + 4#32, op s, fun g _ _ => by rw [h, hop]; rfl⟩

/-! ### An event before the instruction (R725, R743) -/

/-- The instruction raises events before it, and then completes. -/
def EventsFirst (s : State) (i : Instr) (events : State → Word) : Prop :=
  ∃ (nia : State → Word) (body : State → State), DbgBlind body ∧ (∀ g, nia (withDbg g s) = nia s) ∧
    ∀ g, exec i (withDbg g s) =
      .next (beforeEvent (events (withDbg g s)) (fun u => complete u (nia u) 0#32 (body u)) (withDbg g s))

/-- Events that act come in the instruction's place. -/
theorem EventsFirst.acts {s : State} {i : Instr} {events : State → Word} (h : EventsFirst s i events) (hr : s.dbg.run = .running)
    (ha : acting s = true) (he : events s ≠ 0#32) : exec i s = .next (afterEvent s s (events s) s.pc) := by
  obtain ⟨nia, body, -, -, hexec⟩ := h
  exact (hexec s.dbg).trans (congrArg _ (beforeEvent_acts hr ha he _))

/-- Events that do not act are noted, and the instruction does what it does with no event armed. -/
theorem EventsFirst.goesOn {s : State} {i : Instr} {events : State → Word} (h : EventsFirst s i events) (hr : s.dbg.run = .running)
    (ha : acting s = false ∨ events s = 0#32) (hic : bit s.dbg.dbcr0 4 = false) (hcalm : events (calm s) = 0#32) :
    ∃ u, exec i (calm s) = .next u ∧ exec i s = .next (afterEvent s (armed s u) (events s) u.pc) := by
  obtain ⟨nia, body, hbody, hnia, hexec⟩ := h
  have hc : exec i (calm s) = .next { withDbg (calm s).dbg (body s) with pc := nia s } := by
    refine (hexec (calm s).dbg).trans (congrArg _ ?_)
    rw [show events (withDbg (calm s).dbg s) = 0#32 from hcalm, beforeEvent_zero, hbody, hnia]
    exact complete_plain (quiet_dbIC (quiet_calm s)) _ _
  refine ⟨_, hc, (hexec s.dbg).trans (congrArg _ ?_)⟩
  have hbits : completionBits s = 0#32 := completionBits_of_dbIC hic
  rw [show events (withDbg s.dbg s) = events s from rfl, show withDbg s.dbg s = s from rfl, beforeEvent_goesOn ha, hbody, hnia,
    complete_noted hr, hbits, BitVec.or_zero, afterEvent_noted ha]
  rfl

theorem EventsFirst.completes {s : State} {i : Instr} {events : State → Word} (h : EventsFirst s i events)
    (he : ∀ g : DebugRegs, g.dbcr1 = 0#32 → bit g.dbcr0 5 = false → events (withDbg g s) = 0#32) : Completes s i := by
  obtain ⟨nia, body, hbody, hnia, hexec⟩ := h
  exact ⟨nia s, body s, fun g hdac hbt => by rw [hexec, he g hdac hbt, beforeEvent_zero, hbody, hnia]⟩

/-! ### Branches (R450 to R454, R727) -/

theorem eventsFirst_branchTo {s : State} {i : Instr} {taken : Bool} {target ctr : Word} {lk : Bool}
    (h : ∀ g, exec i (withDbg g s) = .next (branchTo taken target ctr lk (withDbg g s))) :
    EventsFirst s i fun u => if taken then branchBits u else 0#32 := by
  refine ⟨fun u => if taken then target else u.pc + 4#32, fun u =>
    let u1 : State := { u with ctr := ctr, lr := if lk then u.pc + 4#32 else u.lr }
    if taken then discardQueue u1 else u1, fun g u => ?_, fun _ => rfl, h⟩
  cases taken <;> rfl

theorem branchBits_off {s : State} (h : bit s.dbg.dbcr0 5 = false) : branchBits s = 0#32 := by simp [branchBits, dbBT, h]

theorem eventsFirst_b (s : State) (d : BitVec 26) (aa lk : Bool) :
    EventsFirst s (.b d aa lk) fun u => if true then branchBits u else 0#32 :=
  eventsFirst_branchTo (target := wordAligned ((if aa then 0#32 else s.pc) + d.signExtend 32)) (ctr := s.ctr) (lk := lk) fun _ => rfl

theorem eventsFirst_bc (s : State) (bo bi : BitVec 5) (d : BitVec 16) (aa lk : Bool) :
    EventsFirst s (.bc bo bi d aa lk) fun u => if branchTaken s bo bi then branchBits u else 0#32 :=
  eventsFirst_branchTo (target := wordAligned ((if aa then 0#32 else s.pc) + sext16 d)) (ctr := countAfter bo s.ctr) (lk := lk)
    fun _ => rfl

theorem eventsFirst_bclr (s : State) (bo bi : BitVec 5) (lk : Bool) :
    EventsFirst s (.bclr bo bi lk) fun u => if branchTaken s bo bi then branchBits u else 0#32 :=
  eventsFirst_branchTo (target := wordAligned s.lr) (ctr := countAfter bo s.ctr) (lk := lk) fun _ => rfl

theorem eventsFirst_bcctr (s : State) {bo : BitVec 5} (hbo : bo.getMsbD 2 = true) (bi : BitVec 5) (lk : Bool) :
    EventsFirst s (.bcctr bo bi lk) fun u => if branchTaken s bo bi then branchBits u else 0#32 :=
  eventsFirst_branchTo (target := wordAligned s.ctr) (ctr := s.ctr) (lk := lk) fun _ => if_pos hbo

theorem EventsFirst.completes_branch {s : State} {i : Instr} {taken : Bool}
    (h : EventsFirst s i fun u => if taken then branchBits u else 0#32) : Completes s i :=
  h.completes fun g _ hbt => by rw [branchBits_off (s := withDbg g s) hbt, ite_self]

/-- Where events act, internal debug mode does not mask them. -/
theorem debugMasked_of_acting {s : State} (h : acting s = true) : debugMasked s = false := by
  by_contra hmasked
  obtain ⟨hidm, hedm, hde⟩ : bit s.dbg.dbcr0 1 = true ∧ bit s.dbg.dbcr0 0 = false ∧ bit s.msr 22 = false := by
    simpa [debugMasked, internalDebug, dbIDM, dbEDM, msrDE] using hmasked
  simp [acting, hidm, hedm, hde] at h

/-- A taken branch with the branch taken event armed: the event comes in its place where it acts, else it is noted, or with IDM = 1,
EDM = 0 and MSR[DE] = 0 off (R727). -/
theorem EventsFirst.branchEvent {s : State} {i : Instr} {taken : Bool}
    (h : EventsFirst s i fun u => if taken then branchBits u else 0#32) (hr : s.dbg.run = .running) (hbt : bit s.dbg.dbcr0 5 = true)
    (htaken : taken = true) :
    (acting s = true → exec i s = .next (afterEvent s s 0x40000000#32 s.pc)) ∧
      (acting s = false → bit s.dbg.dbcr0 4 = false →
        ∃ u, exec i (calm s) = .next u ∧
          exec i s = .next (if debugMasked s then armed s u else afterEvent s (armed s u) 0x40000000#32 s.pc)) := by
  subst htaken
  have hbits : branchBits s = if debugMasked s then 0#32 else 0x40000000#32 := by
    rw [branchBits, show dbBT s = true from hbt]
    cases debugMasked s <;> rfl
  refine ⟨fun ha => ?_, fun ha hic => ?_⟩
  · rw [debugMasked_of_acting ha] at hbits
    have := h.acts hr ha (by simp [hbits])
    simpa [hbits] using this
  · obtain ⟨u, hc, hs⟩ := h.goesOn hr (.inl ha) hic (by simp [branchBits_off (quiet_dbBT (quiet_calm s))])
    refine ⟨u, hc, hs.trans (congrArg _ ?_)⟩
    rw [if_pos rfl, hbits]
    split
    · rfl
    · rw [afterEvent_noted (.inl ha), afterEvent_noted (.inl ha)]

end Sys2Proof.Machine
end

section
/-! SUPPORT. The data address and data value compares (R734, R736, R737, R739, R740), in the words of the rules. -/

namespace Sys2Proof.Machine

/-! ### Addresses (R734, R736) -/

/-- An address matches DAC1 or DAC2: inside or outside their range, or in the block of the size that DBCR1 gives. -/
def dacHit (s : State) (two : Bool) (a : Word) : Bool :=
  if bit s.dbg.dbcr1 8 then
    (if bit s.dbg.dbcr1 9 then decide (a.toNat < s.dbg.dac1.toNat ∨ s.dbg.dac2.toNat ≤ a.toNat)
     else decide (s.dbg.dac1.toNat ≤ a.toNat ∧ a.toNat < s.dbg.dac2.toNat))
  else
    let size := 2 ^ (match (field s.dbg.dbcr1 (if two then 6 else 4) 2).toNat with | 0 => 0 | 1 => 1 | 2 => 2 | _ => 5)
    a.toNat / size == (if two then s.dbg.dac2 else s.dbg.dac1).toNat / size

/-- Words agree above their lowest bits when they are in one block. -/
theorem and_shifted_eq_iff (a b : Word) (k : Nat) :
    a &&& (BitVec.allOnes 32 <<< k) = b &&& (BitVec.allOnes 32 <<< k) ↔ a.toNat / 2 ^ k = b.toNat / 2 ^ k := by
  have hclear (c : Word) : (c &&& (BitVec.allOnes 32 <<< k)).toNat = c.toNat / 2 ^ k * 2 ^ k := by
    have : c &&& (BitVec.allOnes 32 <<< k) = (c >>> k) <<< k := by
      ext i hi
      simp only [BitVec.getElem_and, BitVec.getElem_shiftLeft, BitVec.getElem_allOnes]
      by_cases h : i < k
      · simp [h]
      · simp [h, Nat.add_sub_cancel' (Nat.le_of_not_lt h), BitVec.getLsbD_eq_getElem hi]
    rw [this, BitVec.toNat_shiftLeft, BitVec.toNat_ushiftRight, Nat.shiftLeft_eq, Nat.shiftRight_eq_div_pow, Nat.mod_eq_of_lt]
    exact Nat.lt_of_le_of_lt (Nat.div_mul_le_self ..) c.isLt
  rw [← BitVec.toNat_inj, hclear, hclear]
  exact Nat.mul_left_inj (Nat.ne_of_gt (Nat.two_pow_pos k))

theorem dacMatches_eq (s : State) (two : Bool) (a : Word) : dacMatches s two a = dacHit s two a := by
  unfold dacMatches dacHit
  split
  · split
    · exact (Bool.decide_or _ _).symm
    · exact (Bool.decide_and _ _).symm
  · dsimp only
    rw [show (if two = true then field s.dbg.dbcr1 6 2 else field s.dbg.dbcr1 4 2) = field s.dbg.dbcr1 (if two then 6 else 4) 2 by
      cases two <;> rfl]
    generalize field s.dbg.dbcr1 (if two then 6 else 4) 2 = size
    rw [Bool.eq_iff_iff, beq_iff_eq, beq_iff_eq]
    have blocks := and_shifted_eq_iff a (if two then s.dbg.dac2 else s.dbg.dac1)
    have hsize : size = 0#2 ∨ size = 1#2 ∨ size = 2#2 ∨ size = 3#2 := by revert size; decide
    rcases hsize with rfl | rfl | rfl | rfl
    · exact blocks 0
    · exact blocks 1
    · exact blocks 2
    · exact blocks 5

/-- A value compare is on: for some direction and some byte (R739). -/
def valueOn (s : State) (two : Bool) : Bool :=
  (if two then bit s.dbg.dbcr1 1 || bit s.dbg.dbcr1 3 else bit s.dbg.dbcr1 0 || bit s.dbg.dbcr1 2) &&
    [0, 1, 2, 3].any fun k => bit s.dbg.dbcr1 ((if two then 20 else 16) + k)

/-- Bit `k` of a field of four bits is a bit of the word. -/
theorem getMsbD_field (w : Word) {a : Nat} (ha : a ≤ 28) {k : Nat} (hk : k < 4) : (field w a 4).getMsbD k = bit w (a + k) := by
  rw [bit_eq_getLsbD (by omega), BitVec.getMsbD, field, BitVec.getLsbD_extractLsb', show 32 - a - 4 + (4 - 1 - k) = 31 - (a + k) by omega]
  simp [hk]
  omega

theorem dvcEnables_getMsbD (s : State) (two : Bool) {k : Nat} (hk : k < 4) :
    (dvcEnables s two).getMsbD k = bit s.dbg.dbcr1 ((if two then 20 else 16) + k) := by
  cases two <;> exact getMsbD_field _ (by decide) hk

theorem dvcEnabled_eq (s : State) (two : Bool) : dvcEnabled s two = valueOn s two := by
  have hsome (v : BitVec 4) : (v != 0#4) = [0, 1, 2, 3].any fun k => v.getMsbD k := by revert v; decide
  unfold dvcEnabled valueOn
  rw [hsome]
  simp only [List.any_cons, dvcEnables_getMsbD s two (show 0 < 4 by decide), dvcEnables_getMsbD s two (show 1 < 4 by decide),
    dvcEnables_getMsbD s two (show 2 < 4 by decide), dvcEnables_getMsbD s two (show 3 < 4 by decide), List.any_nil]

/-- The DBSR bits of the pair for a direction (R734, R736). -/
def dacReports (s : State) (store : Bool) (hit : Bool → Bool) : Word :=
  (if hit false && bit s.dbg.dbcr1 (if store then 2 else 0) then (if store then 0x00800000#32 else 0x01000000#32) else 0#32) |||
    (if hit true && bit s.dbg.dbcr1 (if store then 3 else 1) then (if store then 0x00200000#32 else 0x00400000#32) else 0#32)

theorem dacReports_bits (s : State) (store : Bool) (hit : Bool → Bool) :
    ((if hit false then dacBit s store false else 0#32) ||| if hit true then dacBit s store true else 0#32) =
      dacReports s store hit := by
  unfold dacReports
  cases store <;> cases hit false <;> cases hit true <;> rfl

theorem dacBits_eq (s : State) (store : Bool) (us : List UnitAccess) :
    dacBits s store (us.map (·.ea)) = dacReports s store fun two => !valueOn s two && us.any fun u => dacHit s two u.ea := by
  simp only [dacBits, dacBitsOf, dvcEnabled_eq, List.any_map, funext (dacMatches_eq s _)]
  exact dacReports_bits s store fun two => !valueOn s two && us.any fun u => dacHit s two u.ea

theorem cacheDacBits_eq (s : State) (store : Bool) (ea : Word) :
    cacheDacBits s store ea = dacReports s store fun two => !valueOn s two && dacHit s two ea := by
  simp only [cacheDacBits, dvcEnabled_eq, dacMatches_eq, Bool.and_comm (dacHit s _ ea)]
  exact dacReports_bits s store fun two => !valueOn s two && dacHit s two ea

/-! ### Values (R739, R740) -/

/-- The byte of the data in lane `k` of an access, as it is found in `u`, equals that of DVC1 or DVC2. -/
def laneEqual (s u : State) (two : Bool) (x : UnitAccess) (k : Nat) : Bool :=
  decide (x.ea.toNat % 4 ≤ k ∧ k < x.ea.toNat % 4 + x.n) &&
    dataByte u (x.x.ra + BitVec.ofNat 32 (k - x.ea.toNat % 4)) == field (if two then s.dbg.dvc2 else s.dbg.dvc1) (8 * k) 8

/-- All selected bytes of some lanes are equal, and one is selected. -/
def lanesEqual (s u : State) (two : Bool) (x : UnitAccess) (ks : List Nat) : Bool :=
  ks.any (fun k => bit s.dbg.dbcr1 ((if two then 20 else 16) + k)) &&
    ks.all fun k => !bit s.dbg.dbcr1 ((if two then 20 else 16) + k) || laneEqual s u two x k

/-- The value compare of an access under the mode that DBCR1 gives, but for the reserved mode (R740). -/
def valueHit (s u : State) (two : Bool) (x : UnitAccess) : Bool :=
  match (field s.dbg.dbcr1 (if two then 14 else 12) 2).toNat with
  | 1 => lanesEqual s u two x [0, 1, 2, 3]
  | 2 => [0, 1, 2, 3].any fun k => bit s.dbg.dbcr1 ((if two then 20 else 16) + k) && laneEqual s u two x k
  | _ => lanesEqual s u two x [0, 1] || lanesEqual s u two x [2, 3]

/-- The bytes of an access as they are found in `u`. -/
def bytesAt (u : State) (x : UnitAccess) : List Byte := (List.range x.n).map fun j => dataByte u (x.x.ra + BitVec.ofNat 32 j)

theorem laneMatches_eq (s u t : State) (two : Bool) (x : UnitAccess) (k : Nat) :
    laneMatches (armed s t) two x.ea (bytesAt u x) k = laneEqual s u two x k := by
  unfold laneMatches laneByte laneEqual bytesAt armed withDbg
  dsimp only
  by_cases hlo : x.ea.toNat % 4 ≤ k
  · by_cases hhi : k - x.ea.toNat % 4 < x.n
    · simp [hlo, hhi, show k < x.ea.toNat % 4 + x.n by omega]
    · simp [hlo, hhi, show ¬ k < x.ea.toNat % 4 + x.n by omega]
  · simp [hlo]

theorem laneSelected_eq (s t : State) (two : Bool) {k : Nat} (hk : k < 4) :
    laneSelected (armed s t) two k = bit s.dbg.dbcr1 ((if two then 20 else 16) + k) := dvcEnables_getMsbD s two hk

theorem dvcValue_eq {s : State} {two : Bool} (hmode : (field s.dbg.dbcr1 (if two then 14 else 12) 2).toNat ≠ 0) (t u : State)
    (x : UnitAccess) : dvcValue (armed s t) two x.ea (bytesAt u x) = valueHit s u two x := by
  have hfield : (if two = true then field (armed s t).dbg.dbcr1 14 2 else field (armed s t).dbg.dbcr1 12 2) =
      field s.dbg.dbcr1 (if two then 14 else 12) 2 := by cases two <;> rfl
  unfold dvcValue valueHit lanesEqual
  simp only [hfield, List.any_cons, List.any_nil, List.all_cons, List.all_nil, laneMatches_eq,
    laneSelected_eq s t two (show 0 < 4 by decide), laneSelected_eq s t two (show 1 < 4 by decide),
    laneSelected_eq s t two (show 2 < 4 by decide), laneSelected_eq s t two (show 3 < 4 by decide)]
  generalize field s.dbg.dbcr1 (if two then 14 else 12) 2 = mode at hmode
  have hcases : mode = 1#2 ∨ mode = 2#2 ∨ mode = 3#2 := by revert mode; decide
  rcases hcases with rfl | rfl | rfl <;> rfl

/-- The data of an instruction's accesses, as it is found in `u`. -/
def foundData (u : State) (us : List UnitAccess) : List (Word × List Byte) := us.map fun x => (x.ea, bytesAt u x)

/-- No value compare that is on is in the reserved mode. -/
def ModesDefined (s : State) : Prop :=
  ∀ two, valueOn s two = true → (field s.dbg.dbcr1 (if two then 14 else 12) 2).toNat ≠ 0

theorem dvcBits_eq {s : State} (hmodes : ModesDefined s) (store : Bool) (t u : State) (us : List UnitAccess) :
    dvcBits (armed s t) store (foundData u us) =
      dacReports s store fun two => valueOn s two && us.any fun x => dacHit s two x.ea && valueHit s u two x := by
  have hany (two : Bool) :
      (dvcEnabled (armed s t) two &&
        (foundData u us).any fun d => dacMatches (armed s t) two d.1 && dvcValue (armed s t) two d.1 d.2) =
        (valueOn s two && us.any fun x => dacHit s two x.ea && valueHit s u two x) := by
    rw [show dvcEnabled (armed s t) two = valueOn s two from dvcEnabled_eq s two]
    cases hon : valueOn s two
    · rfl
    · have hdac (a : Word) : dacMatches (armed s t) two a = dacHit s two a := dacMatches_eq s two a
      simp only [foundData, List.any_map, Function.comp_def, dvcValue_eq (hmodes two hon), hdac]
  rw [dvcBits, dvcBitsOf, dvcBitsOf, hany, hany]
  exact dacReports_bits s store fun two => valueOn s two && us.any fun x => dacHit s two x.ea && valueHit s u two x

theorem dvcDraw_eq {s : State} (hmodes : ModesDefined s) (t : State) : dvcDraw (armed s t) = 0 := by
  have hdefined (two : Bool) :
      (dvcEnabled (armed s t) two && field s.dbg.dbcr1 (if two then 14 else 12) 2 == 0#2) = false := by
    rw [show dvcEnabled (armed s t) two = valueOn s two from dvcEnabled_eq s two]
    cases hon : valueOn s two
    · rfl
    · exact beq_eq_false_iff_ne.mpr fun h => hmodes two hon (by rw [h]; rfl)
  exact if_neg (Bool.eq_false_iff.mp (Bool.or_eq_false_iff.mpr ⟨hdefined false, hdefined true⟩))

end Sys2Proof.Machine
end

section
/-! SUPPORT. Loads and stores with data events (R320, R734 to R740): the address events before them, the value events after them, for
every form. -/

namespace Sys2Proof.Machine

/-! ### The bytes of each access -/

/-- The bytes loaded are dealt out to the accesses that found them. -/
theorem unitBytes_viewUnits (s : State) (us : List UnitAccess) : unitBytes us ((viewUnits s us).map (·.1)) = foundData s us := by
  induction us with
  | nil => rfl
  | cons u us ih =>
    have hcons : (viewUnits s (u :: us)).map (·.1) = bytesAt s u ++ (viewUnits s us).map (·.1) := by
      simp [viewUnits, bytesAt, Function.comp_def]
    have hlen : (bytesAt s u).length = u.n := by simp [bytesAt]
    rw [hcons, unitBytes, List.take_left' hlen, List.drop_left' hlen, ih]
    rfl

/-- The accesses of an operand start inside it and end there. -/
theorem splitUnits_within (fuel : Nat) (ea : Word) (n : Nat) :
    ∀ u ∈ splitUnits fuel ea n, ∃ k, k + u.2 ≤ n ∧ u.1 = ea + BitVec.ofNat 32 k := by
  induction fuel generalizing ea n with
  | zero => simp [splitUnits]
  | succ fuel ih =>
    intro u hu
    rw [splitUnits] at hu
    split at hu
    · cases hu
    · rcases List.mem_cons.mp hu with rfl | h
      · exact ⟨0, by dsimp only; omega, by simp⟩
      · obtain ⟨k, hk, he⟩ := ih _ _ u h
        exact ⟨min n (4 - ea.toNat % 4) + k, by omega, by rw [he, BitVec.ofNat_add, BitVec.add_assoc]⟩

/-- One access of an operand at `ea` of `n` bytes comes before another. -/
def ComesBefore (ea : Word) (n : Nat) (p q : Word × Nat) : Prop :=
  ∃ j k, p.1 = ea + BitVec.ofNat 32 j ∧ q.1 = ea + BitVec.ofNat 32 k ∧ j + p.2 ≤ k ∧ k + q.2 ≤ n

theorem splitUnits_rising (fuel : Nat) (ea : Word) (n : Nat) : (splitUnits fuel ea n).Pairwise (ComesBefore ea n) := by
  induction fuel generalizing ea n with
  | zero => exact .nil
  | succ fuel ih =>
    rw [splitUnits]
    split
    · exact .nil
    · refine List.pairwise_cons.mpr ⟨fun q hq => ?_, (ih _ _).imp ?_⟩
      · obtain ⟨k, hk, he⟩ := splitUnits_within _ _ _ q hq
        exact ⟨0, min n (4 - ea.toNat % 4) + k, by simp, by rw [he, BitVec.ofNat_add, BitVec.add_assoc], by dsimp only; omega,
          by omega⟩
      · rintro p q ⟨j, k, hp, hq, hjk, hk⟩
        exact ⟨min n (4 - ea.toNat % 4) + j, min n (4 - ea.toNat % 4) + k, by rw [hp, BitVec.ofNat_add, BitVec.add_assoc],
          by rw [hq, BitVec.ofNat_add, BitVec.add_assoc], by omega, by omega⟩

/-- Two accesses have no byte of real storage in common. -/
def Apart (u v : UnitAccess) : Prop :=
  ∀ i, i < u.n → ∀ j, j < v.n → u.x.ra + BitVec.ofNat 32 i ≠ v.x.ra + BitVec.ofNat 32 j

/-- The accesses of an operand of at most 128 bytes have no byte in common: translation keeps the place in a page. -/
theorem checkUnits_apart {s : State} {store : Bool} {ea : Word} {n : Nat} (hn : n ≤ 128)
    (hok : (checkUnits s store (units ea n)).2 = none) : (checkUnits s store (units ea n)).1.Pairwise Apart := by
  have hrise := splitUnits_rising n ea n
  rw [show splitUnits n ea n = units ea n from rfl, ← checkUnits_all hok, List.pairwise_map] at hrise
  refine hrise.imp_of_mem ?_
  rintro u v hu hv ⟨j, k, hj, hk, hjk, hkn⟩ a ha b hb heq
  have hru := unitXlate_mod (checkUnits_mem u hu).2
  have hrv := unitXlate_mod (checkUnits_mem v hv).2
  have heq := congrArg BitVec.toNat heq
  rw [show u.ea = _ from hj] at hru
  rw [show v.ea = _ from hk] at hrv
  dsimp only at hjk hkn
  simp only [BitVec.toNat_add, BitVec.toNat_ofNat] at hru hrv heq
  omega

/-- The bytes stored are found where each access stored them. -/
theorem unitBytes_stored {us : List UnitAccess} {bs : List Byte} (m : Word → Byte) (hlen : unitTotal us ≤ bs.length)
    (hin : ∀ u ∈ us, (lineOffset u.x.ra).toNat + u.n ≤ 32) (hapart : us.Pairwise Apart) {u : State}
    (hview : ∀ a, dataByte u a = storeUnitsView m us bs a) : unitBytes us bs = foundData u us := by
  induction us generalizing m bs with
  | nil => rfl
  | cons x us ih =>
    obtain ⟨hx, hus⟩ := List.pairwise_cons.mp hapart
    rw [unitTotal, List.map_cons, List.sum_cons] at hlen
    have hlen' : unitTotal us ≤ (bs.drop x.n).length := by rw [List.length_drop, unitTotal]; omega
    have hin' : ∀ v ∈ us, (lineOffset v.x.ra).toNat + v.n ≤ 32 := fun v hv => hin v (List.mem_cons_of_mem _ hv)
    have hn := hin x List.mem_cons_self
    have hhead : bs.take x.n = bytesAt u x := by
      refine List.ext_getElem (by simp [bytesAt]; omega) fun j hj hj' => ?_
      have hj : j < x.n := by simpa [bytesAt] using hj'
      have huntouched : touched us (x.x.ra + BitVec.ofNat 32 j) = false := by
        refine List.any_eq_false.mpr fun v hv h => ?_
        obtain ⟨i, hi, e⟩ := List.any_eq_true.mp h
        exact hx v hv j hj i (List.mem_range.mp hi) (beq_iff_eq.mp e)
      have hsub : (x.x.ra + BitVec.ofNat 32 j - x.x.ra).toNat = j := by
        rw [BitVec.add_comm, BitVec.add_sub_cancel, BitVec.toNat_ofNat]
        omega
      simp only [bytesAt, List.getElem_map, List.getElem_range, hview]
      rw [storeUnitsView, storeUnitsView_untouched hin' huntouched, storeView_eq _ _ _ _ (by rw [List.length_take]; omega),
        dif_pos (by rw [hsub, List.length_take]; omega)]
      simp only [hsub]
    rw [unitBytes, hhead, ih _ hlen' hin' hus hview]
    rfl

/-! ### An instruction by its accesses -/

/-- The instruction makes a load or store of `n` bytes at `ea`: data address events first, then, where no access is refused, `body`,
which neither looks at the debug registers nor leaves other bytes than the value compare is given. -/
structure Accesses (s : State) (i : Instr) (store : Bool) (ea : Word) (n : Nat) (body : State → State)
    (data : State → List (Word × List Byte)) : Prop where
  blind  : DbgBlind body
  dealt  : ∀ g, data (withDbg g s) = data s
  starts : (checkUnits s store (units ea n)).1 ≠ [] → ∀ g, ∃ k, exec i (withDbg g s) =
    .next (beforeEvent (dacBits (withDbg g s) store ((checkUnits s store (units ea n)).1.map (·.ea))) k (withDbg g s))
  runs   : (checkUnits s store (units ea n)).2 = none → ∀ g, exec i (withDbg g s) =
    .next (beforeEvent (dacBits (withDbg g s) store ((checkUnits s store (units ea n)).1.map (·.ea)))
      (fun u => complete u (u.pc + 4#32) (dvcBits (body u) store (data u)) (drawn (dvcDraw (body u)) (body u))) (withDbg g s))
  found  : (checkUnits s store (units ea n)).2 = none → Cached s → plain s (checkUnits s store (units ea n)).1 = true →
    data s = foundData (body s) (checkUnits s store (units ea n)).1

/-- The data address events of accesses, in the words of R734, R736 and R739. -/
def addressEvents (s : State) (store : Bool) (us : List UnitAccess) : Word :=
  dacReports s store fun two => !valueOn s two && us.any fun u => dacHit s two u.ea

/-- The data value events of accesses whose bytes are found in `u`, in the words of R739 and R740. -/
def valueEvents (s u : State) (store : Bool) (us : List UnitAccess) : Word :=
  dacReports s store fun two => valueOn s two && us.any fun x => dacHit s two x.ea && valueHit s u two x

/-- What a load or store does with data events, in every debug mode (R320, R734 to R740). -/
def DataEvents (s : State) (i : Instr) (store : Bool) (ea : Word) (n : Nat) : Prop :=
  let us := checkUnits s store (units ea n)
  let before := addressEvents s store us.1
  (acting s = true → before ≠ 0#32 → exec i s = .next (afterEvent s s before s.pc)) ∧
  (us.2 = none → bit s.dbg.dbcr0 4 = false → Cached s → plain s us.1 = true → (acting s = false ∨ before = 0#32) → ModesDefined s →
    ∃ u, exec i (calm s) = .next u ∧
      exec i s = .next (afterEvent s (afterEvent s (armed s u) before u.pc) (valueEvents s u store us.1) u.pc))

theorem addressEvents_nil (s : State) (store : Bool) : addressEvents s store [] = 0#32 := by
  unfold addressEvents dacReports
  simp

theorem Accesses.calmly {s : State} {i : Instr} {store : Bool} {ea : Word} {n : Nat} {body : State → State}
    {data : State → List (Word × List Byte)} (h : Accesses s i store ea n body data)
    (hok : (checkUnits s store (units ea n)).2 = none) {g : DebugRegs} (hq : quiet (withDbg g s) = true) :
    exec i (withDbg g s) = .next (complete (withDbg g s) (s.pc + 4#32) 0#32 (withDbg g (body s))) := by
  have hq' : quiet (withDbg g (body s)) = true := (quiet_congr rfl).trans hq
  rw [h.runs hok, dacBits_quiet hq, beforeEvent_zero, h.blind, dvcBits_quiet hq', dvcDraw_quiet hq']
  rfl

/-- An event noted leaves the compare registers as they are. -/
theorem dvcBits_noted (s t : State) (bits : Word) (store : Bool) (ds : List (Word × List Byte)) :
    dvcBits (withDbg (noted s bits s.dbg) t) store ds = dvcBits (armed s t) store ds := by
  unfold noted
  split <;> rfl

theorem dvcDraw_noted (s t : State) (bits : Word) : dvcDraw (withDbg (noted s bits s.dbg) t) = dvcDraw (armed s t) := by
  unfold noted
  split <;> rfl

theorem Accesses.dataEvents {s : State} {i : Instr} {store : Bool} {ea : Word} {n : Nat} {body : State → State}
    {data : State → List (Word × List Byte)} (h : Accesses s i store ea n body data) (hr : s.dbg.run = .running) :
    DataEvents s i store ea n := by
  have haddress : dacBits s store ((checkUnits s store (units ea n)).1.map (·.ea)) =
      addressEvents s store (checkUnits s store (units ea n)).1 := dacBits_eq s store _
  refine ⟨fun ha hb => ?_, fun hok hic hc hp ha hmodes => ?_⟩
  · have hne : (checkUnits s store (units ea n)).1 ≠ [] := fun e => hb (by rw [e]; exact addressEvents_nil s store)
    obtain ⟨k, hk⟩ := h.starts hne s.dbg
    have hk : exec i s = .next (beforeEvent (dacBits s store ((checkUnits s store (units ea n)).1.map (·.ea))) k s) := hk
    rw [hk, haddress, beforeEvent_acts hr ha hb]
  · have hcalm := (h.calmly hok (g := (calm s).dbg) (quiet_calm s)).trans
      (congrArg _ (complete_plain (quiet_dbIC (quiet_calm s)) _ _))
    have hs : exec i s = _ := h.runs hok s.dbg
    refine ⟨_, hcalm, hs.trans (congrArg _ ?_)⟩
    rw [show withDbg s.dbg s = s from rfl, haddress, beforeEvent_goesOn ha, h.blind, h.dealt,
      dvcBits_noted, dvcDraw_noted, dvcDraw_eq hmodes, h.found hok hc hp, dvcBits_eq hmodes, show ∀ t, drawn 0 t = t from fun _ => rfl]
    refine (complete_noted hr _ _ _).trans ?_
    rw [completionBits_of_dbIC hic, BitVec.zero_or, afterEvent_noted ha]
    rfl

end Sys2Proof.Machine
end

section
/-! SUPPORT. The loads and stores of every form by their accesses (R270 to R318, R734 to R740). -/

namespace Sys2Proof.Machine

/-- An operation that writes registers and the reservation alone. -/
structure WritesRegs (done : State → State) : Prop where
  blind  : DbgBlind done
  sto    : ∀ t, (done t).sto = t.sto
  params : ∀ t, (done t).params = t.params

theorem WritesUser.writesRegs {done : State → State} (h : WritesUser done) (hb : DbgBlind done) : WritesRegs done :=
  ⟨hb, h.sto, h.params⟩

theorem WritesRegs.dataByte {done : State → State} (h : WritesRegs done) (t : State) (a : Word) :
    dataByte (done t) a = Machine.dataByte t a := dataByte_of_sto (h.sto t) (h.params t) a

theorem foundData_congr {s t : State} (h : ∀ a, dataByte t a = dataByte s a) (us : List UnitAccess) :
    foundData t us = foundData s us := by simp only [foundData, bytesAt, h]

/-- Where an access passes its check, the first one does. -/
theorem checkUnits_starts {s : State} {store : Bool} {ea : Word} {n : Nat} (hn : 0 < n)
    (h : (checkUnits s store (units ea n)).1 ≠ [] ∨ (checkUnits s store (units ea n)).2 = none) :
    ∃ x, unitXlate s store ea = .ok x := by
  cases hx : unitXlate s store ea with
  | ok x => exact ⟨x, rfl⟩
  | error f =>
    rw [checkUnits_first hn hx] at h
    simp at h

/-- What a load does up to its end, and the bytes it gives to the value compare. -/
def loadedBody (us : List UnitAccess) (done : List (Byte × Bool) → State → State) (u : State) : State :=
  done (loadUnits us u).1 (loadUnits us u).2

def loadedData (us : List UnitAccess) (u : State) : List (Word × List Byte) := unitBytes us ((loadUnits us u).1.map (·.1))

theorem loadBytes_withDbg (g : DebugRegs) (s : State) (ea : Word) (n : Nat) (part done : List (Byte × Bool) → State → State) :
    ∃ k, loadBytes ea n part done (withDbg g s) =
        beforeEvent (dacBits (withDbg g s) false ((checkUnits s false (units ea n)).1.map (·.ea))) k (withDbg g s) ∧
      ((checkUnits s false (units ea n)).2 = none → k = fun u =>
        let v := loadedBody (checkUnits s false (units ea n)).1 done u
        complete u (u.pc + 4#32) (dvcBits v false (loadedData (checkUnits s false (units ea n)).1 u)) (drawn (dvcDraw v) v)) := by
  unfold loadBytes
  rw [checkUnits_withDbg]
  obtain ⟨us, f⟩ := checkUnits s false (units ea n)
  cases f with
  | none => exact ⟨_, rfl, fun _ => rfl⟩
  | some f => exact ⟨_, rfl, nofun⟩

theorem Accesses.of_load {s : State} {i : Instr} {ea : Word} {n : Nat} {part done : List (Byte × Bool) → State → State} (hn : 0 < n)
    (hd : ∀ bs, WritesRegs (done bs))
    (hexec : ∀ x, unitXlate s false ea = .ok x → ∀ g, exec i (withDbg g s) = .next (loadBytes ea n part done (withDbg g s))) :
    Accesses s i false ea n (loadedBody (checkUnits s false (units ea n)).1 done) (loadedData (checkUnits s false (units ea n)).1) where
  blind := (blind_loadUnits _).bind fun bs => (hd bs).blind
  dealt g := by rw [loadedData, blind_loadUnits]; rfl
  starts h g := by
    obtain ⟨x, hx⟩ := checkUnits_starts hn (.inl h)
    obtain ⟨k, hk, -⟩ := loadBytes_withDbg g s ea n part done
    exact ⟨k, (hexec x hx g).trans (congrArg _ hk)⟩
  runs h g := by
    obtain ⟨x, hx⟩ := checkUnits_starts hn (.inr h)
    obtain ⟨k, hk, hrun⟩ := loadBytes_withDbg g s ea n part done
    exact (hexec x hx g).trans (congrArg _ (hrun h ▸ hk))
  found _ hc hp := by
    obtain ⟨hbytes, -, -, hview⟩ := loadUnits_spec _ hc hp (units_inLine s false ea n)
    rw [loadedData, hbytes, unitBytes_viewUnits]
    exact (foundData_congr (fun a => ((hd _).dataByte _ a).trans (hview a)) _).symm

theorem storeBytes_withDbg (g : DebugRegs) (s : State) (ea : Word) (n : Nat) (bytes : List Bool → List Byte) (done : State → State) :
    let us := (checkUnits s true (units ea n)).1
    let bs := bytes (unitOrders us)
    ∃ k, storeBytes ea n bytes done (withDbg g s) =
        beforeEvent (dacBits (withDbg g s) true (us.map (·.ea))) k (withDbg g s) ∧
      ((checkUnits s true (units ea n)).2 = none → k = fun u =>
        let v := done (storeUnits us bs u)
        complete u (u.pc + 4#32) (dvcBits v true (unitBytes us bs)) (drawn (dvcDraw v) v)) := by
  unfold storeBytes
  rw [checkUnits_withDbg]
  obtain ⟨us, f⟩ := checkUnits s true (units ea n)
  cases f with
  | none => exact ⟨_, rfl, fun _ => rfl⟩
  | some f => exact ⟨_, rfl, nofun⟩

theorem Accesses.of_store {s : State} {i : Instr} {ea : Word} {n : Nat} {bytes : List Bool → List Byte} {done : State → State}
    (hn : 0 < n) (hmax : n ≤ 128) (hlen : ∀ os, n ≤ (bytes os).length) (hd : WritesRegs done)
    (hexec : ∀ x, unitXlate s true ea = .ok x → ∀ g, exec i (withDbg g s) = .next (storeBytes ea n bytes done (withDbg g s))) :
    let us := (checkUnits s true (units ea n)).1
    let bs := bytes (unitOrders us)
    Accesses s i true ea n (fun u => done (storeUnits us bs u)) fun _ => unitBytes us bs where
  blind := hd.blind.comp (blind_storeUnits _ _)
  dealt _ := rfl
  starts h g := by
    obtain ⟨x, hx⟩ := checkUnits_starts hn (.inl h)
    obtain ⟨k, hk, -⟩ := storeBytes_withDbg g s ea n bytes done
    exact ⟨k, (hexec x hx g).trans (congrArg _ hk)⟩
  runs h g := by
    obtain ⟨x, hx⟩ := checkUnits_starts hn (.inr h)
    obtain ⟨k, hk, hrun⟩ := storeBytes_withDbg g s ea n bytes done
    exact (hexec x hx g).trans (congrArg _ (hrun h ▸ hk))
  found hok hc hp := by
    have hin := units_inLine s true ea n
    obtain ⟨-, -, hview⟩ := storeUnits_spec _ (bytes (unitOrders (checkUnits s true (units ea n)).1)) hc hp hin
    refine unitBytes_stored (dataByte s) ?_ hin (checkUnits_apart hmax hok) fun a => (hd.dataByte _ a).trans (hview a)
    rw [unitTotal_checked hok]
    exact hlen _

/-! ### What each form does at its end -/

theorem writesRegs_load (rt : Reg) (v : Word) (x31 : Bool) : WritesRegs fun t => undefinedCr0 x31 (setGpr rt v t) :=
  (writesUser_setGpr rt v x31).writesRegs ((blind_undefinedCr0 x31).comp (blind_setGpr rt v))

theorem writesRegs_loadUpdate (rt ra : Reg) (ea v : Word) (x31 : Bool) :
    WritesRegs fun t => undefinedCr0 x31 (loadUpdateWrite rt ra ea v t) where
  blind := (blind_undefinedCr0 x31).comp (blind_loadUpdateWrite rt ra ea v)
  sto t := by
    rw [undefinedCr0_sto, loadUpdateWrite]
    split <;> rfl
  params t := by
    rw [undefinedCr0_params, loadUpdateWrite]
    split <;> rfl

theorem writesRegs_reserved (rt : Reg) (x31 : Bool) (bs : List (Byte × Bool)) : WritesRegs (reservedLoad rt x31 bs) where
  blind := (blind_undefinedCr0 x31).comp fun _ _ => rfl
  sto _ := undefinedCr0_sto x31 _
  params _ := undefinedCr0_params x31 _

theorem writesRegs_cr0 (x31 : Bool) : WritesRegs (undefinedCr0 x31) := (writesUser_undefinedCr0 x31).writesRegs (blind_undefinedCr0 x31)

theorem writesRegs_spent : WritesRegs reservationSpent := ⟨fun _ _ => rfl, fun _ => rfl, fun _ => rfl⟩

/-! ### Every form -/

/-- The form makes a load or store at its address. -/
def MakesAccess (s : State) (i : Instr) (store : Bool) (ea : Word) (n : Nat) : Prop := ∃ body data, Accesses s i store ea n body data

theorem makesAccess_load {s : State} {i : Instr} {rt : Reg} {ea : Word} {n : Nat} {form : LoadForm} {x31 : Bool}
    (h : ∀ g, exec i (withDbg g s) = .next (loadScalar rt ea (n + 1) form x31 (withDbg g s))) : MakesAccess s i false ea (n + 1) :=
  ⟨_, _, .of_load n.succ_pos (fun _ => writesRegs_load ..) fun _ _ => h⟩

theorem makesAccess_loadUpdate {s : State} {i : Instr} {rt ra : Reg} {ea : Word} {n : Nat} {form : LoadForm} {x31 : Bool}
    (h : ∀ g, exec i (withDbg g s) = .next (loadScalarUpdate rt ra ea (n + 1) form x31 (withDbg g s))) :
    MakesAccess s i false ea (n + 1) :=
  ⟨_, _, .of_load n.succ_pos (fun _ => writesRegs_loadUpdate ..) fun _ _ => h⟩

theorem makesAccess_lmw (s : State) (rt ra : Reg) (d : BitVec 16) :
    MakesAccess s (.lmw rt ra d) false (eaD s ra d) (4 * (32 - rt.toNat)) :=
  ⟨_, _, .of_load (by omega) (fun bs => WritesUser.writesRegs (writesUser_loadWords _ _ bs) (blind_loadWords 32 _ _ bs)) fun _ _ _ => rfl⟩

/-- What a string load does with its bytes. -/
def stringDone (rt : Reg) (n : Nat) (base : Reg → Bool) (x31 : Bool) (bs : List (Byte × Bool)) (t : State) : State :=
  undefinedCr0 x31 (loadString 32 rt (fun r => base r && r != stringFinal rt n) (bs.map (·.1)) t)

theorem writesRegs_string (rt : Reg) (n : Nat) (base : Reg → Bool) (x31 : Bool) (bs : List (Byte × Bool)) :
    WritesRegs (stringDone rt n base x31 bs) := by
  have h := writesUser_loadString rt (fun r => base r && r != stringFinal rt n) x31 (bs.map (·.1))
  have hblind := (blind_undefinedCr0 x31).comp (blind_loadString 32 rt (fun r => base r && r != stringFinal rt n) (bs.map (·.1)))
  exact WritesUser.writesRegs h hblind

theorem makesAccess_loadString {s : State} {i : Instr} {rt : Reg} {ea : Word} {n : Nat} {base : Reg → Bool} {x31 : Bool} (hn : 0 < n)
    (h : ∀ g, exec i (withDbg g s) = .next (loadStringBytes rt ea n base x31 (withDbg g s))) : MakesAccess s i false ea n :=
  ⟨_, _, .of_load hn (writesRegs_string rt n base x31) fun _ _ => h⟩

theorem makesAccess_store {s : State} {i : Instr} {ea : Word} (msb : List Byte) {n : Nat} {x31 : Bool} (hlen : msb.length = n + 1)
    (h : ∀ g, exec i (withDbg g s) = .next (storeScalar ea msb x31 (withDbg g s))) (hmax : decide (n < 4) = true := by rfl) :
    MakesAccess s i true ea (n + 1) := by
  have hsize : n < 4 := of_decide_eq_true hmax
  exact ⟨_, _, .of_store n.succ_pos (by omega) (fun _ => Nat.le_of_eq (hlen.symm.trans (length_scalarBytes ..).symm))
    (writesRegs_cr0 x31) fun _ _ g => by rw [h, storeScalar, hlen]⟩

theorem makesAccess_storeUpdate {s : State} {i : Instr} {ra : Reg} {ea : Word} (msb : List Byte) {n : Nat} {x31 : Bool}
    (hlen : msb.length = n + 1) (h : ∀ g, exec i (withDbg g s) = .next (storeScalarUpdate ra ea msb x31 (withDbg g s)))
    (hmax : decide (n < 4) = true := by rfl) : MakesAccess s i true ea (n + 1) := by
  have hsize : n < 4 := of_decide_eq_true hmax
  exact ⟨_, _, .of_store n.succ_pos (by omega) (fun _ => Nat.le_of_eq (hlen.symm.trans (length_scalarBytes ..).symm))
    (writesRegs_load ra ea x31) fun _ _ g => by rw [h, storeScalarUpdate, hlen]⟩

theorem makesAccess_stmw (s : State) (rs ra : Reg) (d : BitVec 16) :
    MakesAccess s (.stmw rs ra d) true (eaD s ra d) (4 * (32 - rs.toNat)) := by
  refine ⟨_, _, .of_store (bytes := multipleBytes s 32 rs.toNat) (done := id) (by omega) (by omega) (fun os => ?_)
    ⟨fun _ _ => rfl, fun _ => rfl, fun _ => rfl⟩ fun _ _ g => ?_⟩
  · rw [multipleBytes_eq s os (by omega)]
    exact Nat.le_of_eq (length_flatMap_four (fun _ => length_orderBytes _ _) _).symm
  · have hbytes : multipleBytes (withDbg g s) 32 rs.toNat = multipleBytes s 32 rs.toNat := funext fun os => by
      rw [multipleBytes_eq s os (by omega), multipleBytes_eq (withDbg g s) os (by omega)]
      rfl
    rw [← hbytes]
    rfl

theorem makesAccess_storeString {s : State} {i : Instr} {rs : Reg} {ea : Word} {n : Nat} {x31 : Bool} (hn : 0 < n) (hmax : n ≤ 128)
    (h : ∀ g, exec i (withDbg g s) =
      .next (storeBytes ea n (fun _ => stringBytes (withDbg g s) 32 rs n) (undefinedCr0 x31) (withDbg g s))) :
    MakesAccess s i true ea n := by
  refine ⟨_, _, .of_store (bytes := fun _ => stringBytes s 32 rs n) hn hmax (fun _ => ?_) (writesRegs_cr0 x31) fun _ _ g => ?_⟩
  · rw [stringBytes_eq, List.length_take, length_flatMap_four (fun _ => rfl)]
    omega
  · have hbytes : stringBytes (withDbg g s) 32 rs n = stringBytes s 32 rs n := by
      rw [stringBytes_eq, stringBytes_eq]
      rfl
    rw [h, hbytes]

theorem makesAccess_lwarx (s : State) (rt ra rb : Reg) (x31 : Bool) (ha : (eaX s ra rb).toNat % 4 = 0) :
    MakesAccess s (.lwarx rt ra rb x31) false (eaX s ra rb) 4 := by
  refine ⟨_, _, .of_load (part := fun _ t => t) (by decide) (writesRegs_reserved rt x31) fun x hx g =>
    congrArg Host.Outcome.next (show loadReserve rt (eaX s ra rb) x31 (withDbg g s) = _ from ?_)⟩
  have hx : loadXlate (withDbg g s) (eaX s ra rb) = .ok x := hx
  simp only [loadReserve, hx, lowBits_aligned ha, ne_eq, not_true_eq_false, if_false]
  rfl

theorem makesAccess_stwcxRc (s : State) (rs ra rb : Reg) (ha : (eaX s ra rb).toNat % 4 = 0) (hr : s.reserve = true) :
    MakesAccess s (.stwcxRc rs ra rb) true (eaX s ra rb) 4 := by
  refine ⟨_, _, .of_store (bytes := scalarBytes (wordBytes (gpr s rs))) (by decide) (by decide)
    (fun _ => Nat.le_of_eq (length_scalarBytes (wordBytes (gpr s rs)) _).symm) writesRegs_spent fun x hx g => ?_⟩
  refine (show execStwcxRc rs ra rb (withDbg g s) = _ from if_pos hr).trans (congrArg _ ?_)
  exact storeConditional_aligned (s := withDbg g s) (gpr s rs) ha hx

/-- Every form but those with a count in the XER or a reservation. -/
theorem makesAccess_forms (s : State) (rt ra rb : Reg) (d : BitVec 16) (sh : BitVec 5) (x31 : Bool) :
    let ea := eaD s ra d; let ex := eaX s ra rb; let ud := eaUpdateD s ra d; let ux := eaUpdateX s ra rb
    ∀ g ∈ ([(.lbz rt ra d, false, ea, 1), (.lbzx rt ra rb x31, false, ex, 1), (.lbzu rt ra d, false, ud, 1),
         (.lbzux rt ra rb x31, false, ux, 1), (.lhz rt ra d, false, ea, 2), (.lhzx rt ra rb x31, false, ex, 2),
         (.lhzu rt ra d, false, ud, 2), (.lhzux rt ra rb x31, false, ux, 2), (.lha rt ra d, false, ea, 2),
         (.lhax rt ra rb x31, false, ex, 2), (.lhau rt ra d, false, ud, 2), (.lhaux rt ra rb x31, false, ux, 2),
         (.lwz rt ra d, false, ea, 4), (.lwzx rt ra rb x31, false, ex, 4), (.lwzu rt ra d, false, ud, 4),
         (.lwzux rt ra rb x31, false, ux, 4), (.lhbrx rt ra rb x31, false, ex, 2), (.lwbrx rt ra rb x31, false, ex, 4),
         (.lmw rt ra d, false, ea, 4 * (32 - rt.toNat)), (.lswi rt ra sh x31, false, gprOr0 s ra, stringCount sh),
         (.stb rt ra d, true, ea, 1), (.stbx rt ra rb x31, true, ex, 1), (.stbu rt ra d, true, ud, 1),
         (.stbux rt ra rb x31, true, ux, 1), (.sth rt ra d, true, ea, 2), (.sthx rt ra rb x31, true, ex, 2),
         (.sthu rt ra d, true, ud, 2), (.sthux rt ra rb x31, true, ux, 2), (.stw rt ra d, true, ea, 4),
         (.stwx rt ra rb x31, true, ex, 4), (.stwu rt ra d, true, ud, 4), (.stwux rt ra rb x31, true, ux, 4),
         (.sthbrx rt ra rb x31, true, ex, 2), (.stwbrx rt ra rb x31, true, ex, 4), (.stmw rt ra d, true, ea, 4 * (32 - rt.toNat)),
         (.stswi rt ra sh x31, true, gprOr0 s ra, stringCount sh)] : List (Instr × Bool × Word × Nat)),
      MakesAccess s g.1 g.2.1 g.2.2.1 g.2.2.2 := by
  intro ea ex ud ux
  iterate 36 rw [List.forall_mem_cons]
  exact ⟨makesAccess_load fun _ => rfl, makesAccess_load fun _ => rfl, makesAccess_loadUpdate fun _ => rfl,
    makesAccess_loadUpdate fun _ => rfl, makesAccess_load fun _ => rfl, makesAccess_load fun _ => rfl,
    makesAccess_loadUpdate fun _ => rfl, makesAccess_loadUpdate fun _ => rfl, makesAccess_load fun _ => rfl,
    makesAccess_load fun _ => rfl, makesAccess_loadUpdate fun _ => rfl, makesAccess_loadUpdate fun _ => rfl,
    makesAccess_load fun _ => rfl, makesAccess_load fun _ => rfl, makesAccess_loadUpdate fun _ => rfl,
    makesAccess_loadUpdate fun _ => rfl, makesAccess_load fun _ => rfl, makesAccess_load fun _ => rfl, makesAccess_lmw s rt ra d,
    makesAccess_loadString (stringCount_pos sh) fun _ => rfl, makesAccess_store (byteOf (gpr s rt)) rfl fun _ => rfl,
    makesAccess_store (byteOf (gpr s rt)) rfl fun _ => rfl, makesAccess_storeUpdate (byteOf (gpr s rt)) rfl fun _ => rfl,
    makesAccess_storeUpdate (byteOf (gpr s rt)) rfl fun _ => rfl, makesAccess_store (halfBytes (gpr s rt)) rfl fun _ => rfl,
    makesAccess_store (halfBytes (gpr s rt)) rfl fun _ => rfl, makesAccess_storeUpdate (halfBytes (gpr s rt)) rfl fun _ => rfl,
    makesAccess_storeUpdate (halfBytes (gpr s rt)) rfl fun _ => rfl, makesAccess_store (wordBytes (gpr s rt)) rfl fun _ => rfl,
    makesAccess_store (wordBytes (gpr s rt)) rfl fun _ => rfl, makesAccess_storeUpdate (wordBytes (gpr s rt)) rfl fun _ => rfl,
    makesAccess_storeUpdate (wordBytes (gpr s rt)) rfl fun _ => rfl,
    makesAccess_store ((halfBytes (gpr s rt)).reverse) rfl fun _ => rfl,
    makesAccess_store ((wordBytes (gpr s rt)).reverse) rfl fun _ => rfl, makesAccess_stmw s rt ra d,
    makesAccess_storeString (stringCount_pos sh) (stringCount_le sh) fun _ => rfl, List.forall_mem_nil _⟩

theorem forall_dataEvents {s : State} (hr : s.dbg.run = .running) {l : List (Instr × Bool × Word × Nat)}
    (h : ∀ f ∈ l, MakesAccess s f.1 f.2.1 f.2.2.1 f.2.2.2) : ∀ f ∈ l, DataEvents s f.1 f.2.1 f.2.2.1 f.2.2.2 := fun f hf => by
  obtain ⟨_, _, ha⟩ := h f hf
  exact ha.dataEvents hr

theorem forall_mem_guarded {α : Type} {c : Prop} [Decidable c] {l : List α} {p : α → Prop} (h : c → ∀ x ∈ l, p x) :
    ∀ x ∈ (if c then l else []), p x := by
  split
  · exact h ‹_›
  · exact List.forall_mem_nil _

end Sys2Proof.Machine
end

section
/-! SUPPORT. Instructions that complete (R726): arithmetic, logic, the condition register, moves, synchronisation, loads and stores. -/

namespace Sys2Proof.Machine

/-! ### Operations that leave the debug registers alone -/

theorem blind_sumTo (rt : Reg) (a b : Word) (c ca oe rc : Bool) : DbgBlind (sumTo rt a b c ca oe rc) := blind_deliver rt _ _ _ oe rc

theorem blind_accumulateSigned (rt : Reg) (prod : Word) (saturate oe rc : Bool) : DbgBlind (accumulateSigned rt prod saturate oe rc) :=
  fun g s => blind_deliver rt _ none _ oe rc g s

theorem blind_setCrField (n : BitVec 3) (v : BitVec 4) : DbgBlind (setCrField n v) := fun _ _ => rfl

theorem blind_setCrBit (n : BitVec 5) (b : Bool) : DbgBlind (setCrBit n b) := fun _ _ => rfl

theorem blind_setCA (c : Bool) : DbgBlind (setCA c) := fun _ _ => rfl

theorem blind_storageBarrier : DbgBlind storageBarrier := fun _ _ => rfl

theorem blind_contextBarrier : DbgBlind contextBarrier := fun _ _ => rfl

/-! ### Loads and stores with no data event armed (R734, R739) -/

theorem dacBits_off {s : State} (h : s.dbg.dbcr1 = 0#32) (store : Bool) (eas : List Word) : dacBits s store eas = 0#32 := by
  cases store <;> simp [dacBits, dacBitsOf, dacBit, h, bit_zero]

theorem dvcEnabled_off {s : State} (h : s.dbg.dbcr1 = 0#32) (two : Bool) : dvcEnabled s two = false := by
  cases two <;> simp [dvcEnabled, h, bit_zero]

theorem Accesses.completes {s : State} {i : Instr} {store : Bool} {ea : Word} {n : Nat} {body : State → State}
    {data : State → List (Word × List Byte)} (h : Accesses s i store ea n body data)
    (hok : (checkUnits s store (units ea n)).2 = none) : Completes s i := by
  refine ⟨s.pc + 4#32, body s, fun g hdac _ => ?_⟩
  have hvalue := dvcEnabled_off (s := withDbg g (body s)) hdac
  rw [h.runs hok, dacBits_off (s := withDbg g s) hdac, beforeEvent_zero, h.blind]
  simp only [dvcBits, dvcBitsOf, dvcDraw, hvalue, Bool.false_and, Bool.or_self, Bool.false_eq_true, if_false, BitVec.or_zero]
  rfl

theorem MakesAccess.completes {s : State} {i : Instr} {store : Bool} {ea : Word} {n : Nat} (h : MakesAccess s i store ea n)
    (hok : (checkUnits s store (units ea n)).2 = none) : Completes s i := by
  obtain ⟨_, _, ha⟩ := h
  exact ha.completes hok

/-! ### The others -/

theorem completes_divw (s : State) (rt ra rb : Reg) (oe rc : Bool) : Completes s (.divw rt ra rb oe rc) := by
  by_cases h : (gpr s rb = 0#32 || (gpr s ra = 0x80000000#32 && gpr s rb = 0xFFFFFFFF#32)) = true
  · exact completes_advance (blind_divideUndefined rt oe rc) fun _ => if_pos h
  · exact completes_advance (blind_deliver rt ((gpr s ra).sdiv (gpr s rb)) none false oe rc) fun _ => if_neg h

theorem completes_mullw (s : State) (rt ra rb : Reg) (oe rc : Bool) : Completes s (.mullw rt ra rb oe rc) :=
  let p := signedProduct (gpr s ra) (gpr s rb)
  completes_advance (blind_deliver rt (BitVec.ofInt 32 p) none (decide (p < -2 ^ 31) || decide (2 ^ 31 ≤ p)) oe rc) fun _ => rfl

theorem completes_mfspr_ctr (s : State) (rt : Reg) : Completes s (.mfspr rt 0x009#10) :=
  completes_advance (blind_setGpr rt s.ctr) fun g =>
    if_neg (by rw [show userReadable 0x009#10 = true by decide, Bool.not_true, Bool.and_false]; decide)

theorem completes_mtspr_lr (s : State) (rs : Reg) : Completes s (.mtspr rs 0x008#10) :=
  completes_advance (op := fun t => { t with lr := gpr s rs }) (fun _ _ => rfl) fun g =>
    if_neg (by rw [show userWritable 0x008#10 = true by decide, Bool.not_true, Bool.and_false]; decide)

theorem completes_privileged {s : State} {i : Instr} {x31 : Bool} {op : State → State} (hs : msrPR s = false) (hop : DbgBlind op)
    (h : ∀ g, exec i (withDbg g s) = .next (privilegedStep x31 op (withDbg g s))) : Completes s i :=
  completes_advance ((blind_undefinedCr0 x31).comp hop) fun g =>
    (h g).trans (congrArg _ (privileged_supervisor (s := withDbg g s) hs _))

/-- In internal mode with MSR[DE] = 1 an event takes the debug interrupt. -/
theorem afterEvent_entered {s : State} (hedm : bit s.dbg.dbcr0 0 = false) (hidm : bit s.dbg.dbcr0 1 = true)
    (hde : bit s.msr 22 = true) {bits : Word} (hb : bits ≠ 0#32) (t : State) (a : Word) :
    afterEvent s t bits a = debugEntered t bits a := by
  simp only [afterEvent, if_neg hb, hedm, hidm, hde, Bool.false_eq_true, if_false, if_true]

/-- A move to the MSR remembers the fetch state with the events armed in it, which the debug interrupt discards (R113, R726). -/
theorem mtmsr_completionEvent {s : State} (rs : Reg) (x31 : Bool) (hr : s.dbg.run = .running) (hs : msrPR s = false)
    (hic : bit s.dbg.dbcr0 4 = true) (hedm : bit s.dbg.dbcr0 0 = false) (hidm : bit s.dbg.dbcr0 1 = true) (hde : bit s.msr 22 = true) :
    CompletionEvent s (.mtmsr rs x31) := by
  have hexec (t : State) (ht : msrPR t = false) : exec (.mtmsr rs x31) t =
      .next (advance t (undefinedCr0 x31 (rememberContext t (setMsr (gpr t rs) t)))) :=
    congrArg Host.Outcome.next (privileged_supervisor ht _)
  refine ⟨_, (hexec (calm s) hs).trans (congrArg _ (complete_plain (quiet_dbIC (quiet_calm s)) _ _)),
    (hexec s hs).trans (congrArg _ ?_)⟩
  have hmasked : debugMasked s = false := by simp [debugMasked, internalDebug, dbIDM, msrDE, hidm, hde]
  have hrun : (undefinedCr0 x31 (rememberContext s (setMsr (gpr s rs) s))).dbg.run = .running := by
    rw [undefinedCr0_dbg]
    exact hr
  refine (complete_eq hrun s _ _).trans ?_
  have hb : (0x80000000#32 : Word) ≠ 0#32 := by decide
  rw [completionBits_armed hic, hmasked, if_neg (by decide), BitVec.or_zero, if_neg (by decide), afterEvent_entered hedm hidm hde hb,
    afterEvent_entered hedm hidm hde hb]
  cases x31 <;> rfl

/-- Instructions of each kind that touch no debug register, no page and no privilege. -/
theorem completes_ordinary (s : State) (rt ra rb : Reg) (d : BitVec 16) (d26 : BitVec 26) (sh mb me bo bi : BitVec 5) (bf bfa : BitVec 3)
    (fxm : BitVec 8) (aa lk oe rc x31 : Bool) :
    ∀ i ∈ [Instr.addi rt ra d, .add rt ra rb oe rc, .adde rt ra rb oe rc, .subf rt ra rb oe rc, .neg rt ra oe rc,
        .mullw rt ra rb oe rc, .divw rt ra rb oe rc, .macchw rt ra rb oe rc, .and rt ra rb rc, .ori rt ra d,
        .cntlzw rt ra rc, .cmp bf ra rb x31, .cmpi bf ra d, .rlwinm rt ra sh mb me rc, .slw rt ra rb rc,
        .srawi rt ra sh rc, .crand sh mb me, .mcrf bf bfa, .mfcr rt x31, .mtcrf rt fxm, .mcrxr bf x31, .sync x31,
        .isync x31, .mfspr rt 0x009#10, .mtspr rt 0x008#10, .b d26 aa lk, .bc bo bi d aa lk, .bclr bo bi lk], Completes s i := by
  have alu {i : Instr} {op : State → State} := completes_advance (s := s) (i := i) (op := op)
  iterate 28 rw [List.forall_mem_cons]
  exact ⟨alu (blind_setGpr rt (gprOr0 s ra + sext16 d)) fun _ => rfl,
    alu (blind_sumTo rt (gpr s ra) (gpr s rb) false false oe rc) fun _ => rfl,
    alu (blind_sumTo rt (gpr s ra) (gpr s rb) (xerCA s) true oe rc) fun _ => rfl,
    alu (blind_sumTo rt (~~~(gpr s ra)) (gpr s rb) true false oe rc) fun _ => rfl,
    alu (blind_deliver rt (-(gpr s ra)) none (gpr s ra == 0x80000000#32) oe rc) fun _ => rfl,
    completes_mullw s rt ra rb oe rc,
    completes_divw s rt ra rb oe rc,
    alu (blind_accumulateSigned rt (halfProduct true (lowHalf (gpr s ra)) (highHalf (gpr s rb))) false oe rc) fun _ => rfl,
    alu (blind_deliverRa ra (gpr s rt &&& gpr s rb) rc) fun _ => rfl,
    alu (blind_deliverRa ra (gpr s rt ||| zext16 d) false) fun _ => rfl,
    alu (blind_deliverRa ra (BitVec.ofNat 32 (leadingZeros (gpr s rt) 32)) rc) fun _ => rfl,
    alu ((blind_undefinedCr0 x31).comp (blind_setCrField bf (compareSigned (gpr s ra) (gpr s rb) (xerSO s)))) fun _ => rfl,
    alu (blind_setCrField bf (compareSigned (gpr s ra) (sext16 d) (xerSO s))) fun _ => rfl,
    alu (blind_deliverRa ra (rotl (gpr s rt) sh.toNat &&& maskBits mb.toNat me.toNat) rc) fun _ => rfl,
    alu (blind_deliverRa ra (gpr s rt <<< shiftAmount (gpr s rb)) rc) fun _ => rfl,
    alu ((blind_deliverRa ra (shiftRightSigned (gpr s rt) sh.toNat) rc).comp
      (blind_setCA (shiftCarry (gpr s rt) sh.toNat))) fun _ => rfl,
    alu (blind_setCrBit sh (crBit s mb && crBit s me)) fun _ => rfl, alu (blind_setCrField bf (crField s.cr bfa)) fun _ => rfl,
    alu ((blind_undefinedCr0 x31).comp (blind_setGpr rt s.cr)) fun _ => rfl,
    alu (op := fun t => { t with cr := (gpr s rt &&& fieldMask fxm) ||| (s.cr &&& ~~~(fieldMask fxm)) }) (fun _ _ => rfl)
      fun _ => rfl,
    alu (op := fun t => undefinedCr0 x31 { setCrField bf (crBits (xerSO s) (bit s.xer 1) (xerCA s) false) t with
      xer := s.xer &&& 0x1FFFFFFF#32 }) ((blind_undefinedCr0 x31).comp fun _ _ => rfl) fun _ => rfl,
    alu ((blind_undefinedCr0 x31).comp blind_storageBarrier) fun _ => rfl,
    alu ((blind_undefinedCr0 x31).comp blind_contextBarrier) fun _ => rfl,
    completes_mfspr_ctr s rt, completes_mtspr_lr s rt, (eventsFirst_b s d26 aa lk).completes_branch,
    (eventsFirst_bc s bo bi d aa lk).completes_branch, (eventsFirst_bclr s bo bi lk).completes_branch, List.forall_mem_nil _⟩

end Sys2Proof.Machine
end

section
/-! SUPPORT. Entries to interrupts with the exception event after them (R604, R605, R728), traps (R574, R729), instruction address
events (R731 to R733) and the stop (R722, R723). -/

namespace Sys2Proof.Machine

/-! ### Entries (R604, R605, R728) -/

/-- The state at the vector of an interrupt. -/
def entered (u : State) (critical : Bool) (off a esr : Word) : State :=
  { u with exc := if critical then { u.exc with srr2 := wordAligned a, srr3 := u.msr, esr := esr }
                  else { u.exc with srr0 := wordAligned a, srr1 := u.msr, esr := esr }
           msr := u.msr &&& (if critical then 0x00001000#32 else 0x00021200#32)
           pc := (u.exc.evpr &&& 0xFFFF0000#32) ||| off, pipe := Pipe.empty }

/-- The exception event, where DBCR0 arms it. -/
def raised (s v : State) : State := if bit s.dbg.dbcr0 6 then afterEvent v v 0x20000000#32 v.pc else v

theorem enter_entered {u : State} (hr : u.dbg.run = .running) (critical : Bool) (off a esr : Word) :
    enter (tableClass critical) off a (setEsr esr u) = entered u critical off a esr := by
  rw [enter_tableClass critical off a (s := setEsr esr u) (by rw [show (setEsr esr u).dbg = u.dbg from rfl, hr]; decide)]
  cases critical <;> rfl

theorem takeInterrupt_noncritical {s u : State} (hr : u.dbg.run = .running) (hd : u.dbg.dbcr0 = s.dbg.dbcr0) (off a esr : Word) :
    takeInterrupt .noncritical off a (setEsr esr u) = raised s (entered u false off a esr) := by
  rw [takeInterrupt, show enter .noncritical off a (setEsr esr u) = entered u false off a esr from enter_entered hr false off a esr]
  have hr' : (entered u false off a esr).dbg.run = .running := hr
  have hede : dbEDE (entered u false off a esr) = bit s.dbg.dbcr0 6 := congrArg (bit · 6) hd
  rw [exceptionEvent, raised, hede, debugEvent_eq hr', beq_self_eq_true, Bool.true_or, Bool.and_true]
  rfl

theorem takeInterrupt_critical {s : State} (hr : s.dbg.run = .running) (off a : Word) :
    takeInterrupt .critical off a s =
      if bit s.dbg.dbcr0 1 && !bit s.dbg.dbcr0 0 then entered s true off a s.exc.esr else raised s (entered s true off a s.exc.esr) := by
  rw [takeInterrupt, show enter .critical off a s = entered s true off a s.exc.esr from enter_entered hr true off a s.exc.esr]
  have hr' : (entered s true off a s.exc.esr).dbg.run = .running := hr
  rw [exceptionEvent, raised, debugEvent_eq hr', show internalDebug (entered s true off a s.exc.esr) =
    (bit s.dbg.dbcr0 1 && !bit s.dbg.dbcr0 0) from rfl, show dbEDE (entered s true off a s.exc.esr) = bit s.dbg.dbcr0 6 from rfl]
  cases bit s.dbg.dbcr0 1 && !bit s.dbg.dbcr0 0 <;> simp
  rfl

theorem programInterrupt_eq {s u : State} (hr : u.dbg.run = .running) (hd : u.dbg.dbcr0 = s.dbg.dbcr0) (cause : Word) :
    programInterrupt cause u = raised s (entered u false 0x0700#32 u.pc ((u.exc.esr &&& 0x80000000#32) ||| cause)) :=
  takeInterrupt_noncritical hr hd 0x0700#32 u.pc _

theorem systemCall_eq {s : State} (hr : s.dbg.run = .running) (hic : bit s.dbg.dbcr0 4 = false) :
    systemCall s = raised s (entered s false 0x0C00#32 (s.pc + 4#32) s.exc.esr) := by
  rw [← takeInterrupt_noncritical (u := s) hr rfl, systemCall, takeInterrupt, exceptionEvent, completionBits_of_dbIC hic, BitVec.zero_or]
  have hesr : setEsr s.exc.esr s = s := rfl
  rw [hesr]
  cases dbEDE (enter .noncritical 0x0C00#32 (s.pc + 4#32) s) <;> simp

/-! ### Traps (R574, R729) -/

theorem trapCondition_iff (tos : BitVec 5) (a b : Word) :
    trapCondition tos a b = true ↔
      (tos.getMsbD 0 = true ∧ a.toInt < b.toInt) ∨ (tos.getMsbD 1 = true ∧ b.toInt < a.toInt) ∨
        (tos.getMsbD 2 = true ∧ a = b) ∨ (tos.getMsbD 3 = true ∧ a.toNat < b.toNat) ∨
        (tos.getMsbD 4 = true ∧ b.toNat < a.toNat) := by
  simp only [trapCondition, Bool.or_eq_true, Bool.and_eq_true, BitVec.slt_iff_toInt_lt, BitVec.ult_iff_toNat_lt, decide_eq_true_eq,
    or_assoc]

/-- A trap with its event armed where events act comes to that event; else it takes the program interrupt, the event noted first in
internal debug mode. -/
theorem trap_eq {s : State} (hr : s.dbg.run = .running) :
    trap s =
      if bit s.dbg.dbcr0 7 && acting s then afterEvent s s 0x10000000#32 s.pc
      else raised s (entered (if bit s.dbg.dbcr0 7 && bit s.dbg.dbcr0 1 then afterEvent s s 0x10000000#32 s.pc else s) false 0x0700#32
        s.pc ((s.exc.esr &&& 0x80000000#32) ||| 0x02000000#32)) := by
  have hb : (0x10000000#32 : Word) ≠ 0#32 := by decide
  rw [trap, eventActs_eq, show dbTDE s = bit s.dbg.dbcr0 7 from rfl, show dbIDM s = bit s.dbg.dbcr0 1 from rfl]
  by_cases hact : (bit s.dbg.dbcr0 7 && acting s) = true
  · rw [if_pos hact, if_pos hact]
    exact debugEvent_eq hr s _ _
  · rw [if_neg hact, if_neg hact]
    by_cases hidm : (bit s.dbg.dbcr0 7 && bit s.dbg.dbcr0 1) = true
    · obtain ⟨htde, -⟩ := (Bool.and_eq_true _ _).mp hidm
      have ha : acting s = false := by simpa [htde] using hact
      have hnote : recordEvent s dbsrTIE s = afterEvent s s 0x10000000#32 s.pc := by
        rw [afterEvent_noted (.inl ha)]
        exact recordEvent_noted hb s s
      rw [if_pos hidm, if_pos hidm, hnote, afterEvent_noted (.inl ha)]
      exact programInterrupt_eq ((noted_run ..).trans hr) (noted_dbcr0 ..) _
    · rw [if_neg hidm, if_neg hidm]
      exact programInterrupt_eq hr rfl _

theorem exec_trapped {s : State} (hr : s.dbg.run = .running) {i : Instr} (h : exec i s = .next (trap s)) :
    exec i s =
      if bit s.dbg.dbcr0 7 && acting s then .next (afterEvent s s 0x10000000#32 s.pc)
      else .next (raised s (entered (if bit s.dbg.dbcr0 7 && bit s.dbg.dbcr0 1 then afterEvent s s 0x10000000#32 s.pc else s) false
        0x0700#32 s.pc ((s.exc.esr &&& 0x80000000#32) ||| 0x02000000#32))) := by
  rw [h, trap_eq hr]
  exact apply_ite Host.Outcome.next _ _ _

/-! ### Instruction addresses (R731 to R733) -/

/-- An exact compare matches the word at the pc. -/
def iacEqual (s : State) (e range : Nat) (iac : Word) : Bool :=
  bit s.dbg.dbcr0 e && !bit s.dbg.dbcr0 range && s.pc.toNat / 4 == iac.toNat / 4

/-- A range of words, or what is outside it, matches the pc. -/
def iacWithin (s : State) (e f range excl toggle : Nat) (lo hi : Word) : Bool :=
  bit s.dbg.dbcr0 range && (bit s.dbg.dbcr0 e || bit s.dbg.dbcr0 f) && !(bit s.dbg.dbcr0 toggle && debugMasked s) &&
    (if bit s.dbg.dbcr0 excl then decide (s.pc.toNat / 4 < lo.toNat / 4 ∨ hi.toNat / 4 ≤ s.pc.toNat / 4)
     else decide (lo.toNat / 4 ≤ s.pc.toNat / 4 ∧ s.pc.toNat / 4 < hi.toNat / 4))

theorem iacExact_eq (s : State) (e range : Nat) (iac : Word) : iacExact s e range iac = iacEqual s e range iac := by
  have hword : (wordAligned s.pc == wordAligned iac) = (s.pc.toNat / 4 == iac.toNat / 4) := by
    rw [Bool.eq_iff_iff, beq_iff_eq, beq_iff_eq, ← BitVec.toNat_inj, wordAligned_toNat, wordAligned_toNat]
    omega
  rw [iacExact, iacEqual, hword]

theorem iacRange_eq (s : State) (e f range excl toggle : Nat) (lo hi : Word) :
    iacRange s e f range excl toggle lo hi = iacWithin s e f range excl toggle lo hi := by
  have hlt (a b : Word) : (wordAligned a).ult (wordAligned b) = decide (a.toNat / 4 < b.toNat / 4) := by
    rw [Bool.eq_iff_iff, BitVec.ult_iff_toNat_lt, wordAligned_toNat, wordAligned_toNat, decide_eq_true_eq]
    omega
  have hle (a b : Word) : (wordAligned a).ule (wordAligned b) = decide (a.toNat / 4 ≤ b.toNat / 4) := by
    rw [Bool.eq_iff_iff, BitVec.ule_iff_toNat_le, wordAligned_toNat, wordAligned_toNat, decide_eq_true_eq]
    omega
  rw [iacRange, iacWithin]
  simp only [hlt, hle, Bool.decide_or, Bool.decide_and]

/-- The events of the instruction address compares. -/
def iacReports (s : State) : Word :=
  let r12 := iacWithin s 8 9 10 11 16 s.dbg.iac1 s.dbg.iac2
  let r34 := iacWithin s 12 13 14 15 17 s.dbg.iac3 s.dbg.iac4
  (if iacEqual s 8 10 s.dbg.iac1 || (r12 && bit s.dbg.dbcr0 8) then 0x04000000#32 else 0#32) |||
    (if iacEqual s 9 10 s.dbg.iac2 || (r12 && bit s.dbg.dbcr0 9) then 0x02000000#32 else 0#32) |||
    (if iacEqual s 12 14 s.dbg.iac3 || (r34 && bit s.dbg.dbcr0 12) then 0x00080000#32 else 0#32) |||
    (if iacEqual s 13 14 s.dbg.iac4 || (r34 && bit s.dbg.dbcr0 13) then 0x00040000#32 else 0#32)

/-- DBCR0 with the ranges that match toggled. -/
def rangesToggled (s : State) : Word :=
  s.dbg.dbcr0 ^^^ (if iacWithin s 8 9 10 11 16 s.dbg.iac1 s.dbg.iac2 && bit s.dbg.dbcr0 16 then 0x00100000#32 else 0#32) ^^^
    (if iacWithin s 12 13 14 15 17 s.dbg.iac3 s.dbg.iac4 && bit s.dbg.dbcr0 17 then 0x00010000#32 else 0#32)

theorem iacBits_eq (s : State) : iacBits s = iacReports s := by
  rw [iacBits, iacRange12, iacRange34]
  simp only [iacExact_eq, iacRange_eq]
  rfl

theorem toggled_eq (s : State) : (iacEvents s).toggled s.dbg.dbcr0 = rangesToggled s := by
  rw [IacEvents.toggled, iacEvents, iacRange12, iacRange34, iacRange_eq, iacRange_eq, rangesToggled]
  cases iacWithin s 8 9 10 11 16 s.dbg.iac1 s.dbg.iac2 && bit s.dbg.dbcr0 16 <;>
    cases iacWithin s 12 13 14 15 17 s.dbg.iac3 s.dbg.iac4 && bit s.dbg.dbcr0 17 <;>
    simp [BitVec.xor_assoc, weight]

theorem toggleRanges_eq {s : State} (hc : s.pipe.contexts = []) :
    toggleRanges (iacEvents s) s = withDbg { s.dbg with dbcr0 := rangesToggled s } s := by
  have hpipe : ({ s.pipe with contexts := [] } : Pipe) = s.pipe := by rw [← hc]
  rw [toggleRanges, toggled_eq, hc, List.map_nil, hpipe]
  rfl

/-- The instruction address events come before the fetch, the ranges that match being toggled. -/
theorem runInstruction_iac {s : State} (hr : s.dbg.run = .running) (hc : s.pipe.contexts = []) :
    let t := afterEvent s (if iacReports s = 0#32 then s else withDbg { s.dbg with dbcr0 := rangesToggled s } s) (iacReports s) s.pc
    runInstruction s = if acting s = true ∧ iacReports s ≠ 0#32 then .next t else runAtPc t := by
  intro t
  have hbits : (iacEvents s).bits = iacReports s := iacBits_eq s
  unfold runInstruction
  rw [fetchViews_nil hc, List.map_singleton, pick_single]
  dsimp only
  rw [hbits]
  by_cases hb : iacReports s = 0#32
  · have ht : t = s := by simp [t, hb, afterEvent]
    rw [ht, if_pos hb, if_neg (by simp [hb])]
  · have ht : t = afterEvent s (toggleRanges (iacEvents s) s) (iacReports s) s.pc := by
      rw [toggleRanges_eq hc]
      simp [t, hb]
    have hrun : (toggleRanges (iacEvents s) s).dbg.run = .running := hr
    rw [ht, if_neg hb, eventActs_eq]
    by_cases ha : acting s = true
    · rw [if_pos ha, if_pos ⟨ha, hb⟩, debugEvent_eq hrun]
    · rw [if_neg ha, if_neg (fun h => ha h.1), recordEvent_noted hb, afterEvent_noted (.inl (Bool.eq_false_iff.mpr ha))]

/-! ### The step (R611, R722, R723) -/

theorem step_stays {s : State} (he : s.env = []) (hb : s.inp.bus = [])
    (h : s.dbg.run = .stopped ∨ (s.dbg.run = .debugWait ∧ asyncInterrupt s = none)) : step s = .fault .debugStop := by
  rw [step_noInput he hb, runCore]
  rcases h with h | ⟨h, ha⟩
  · rw [if_pos h]
    rfl
  · rw [if_neg (by rw [h]; decide), ha]
    simp [h]

/-- With no machine check and no debug interrupt due the critical input comes first. -/
theorem step_critical {s : State} (he : s.env = []) (hb : s.inp.bus = []) (hr : s.dbg.run = .running)
    (hcheck : dataCheckDue s = false) (hdebug : debugDue s = false) (hc : criticalDue s = true) :
    step s = .next (takeInterrupt .critical 0x0100#32 s.pc s) :=
  step_async he hb hr (by simp [asyncInterrupt, hcheck, hdebug, hc])

/-- With nothing critical due the external input comes first. -/
theorem step_external {s : State} (he : s.env = []) (hb : s.inp.bus = []) (hr : s.dbg.run = .running)
    (hcheck : dataCheckDue s = false) (hdebug : debugDue s = false) (hc : criticalDue s = false) (hw : watchdogDue s = false)
    (hx : externalDue s = true) : step s = .next (takeInterrupt .noncritical 0x0500#32 s.pc s) :=
  step_async he hb hr (by simp [asyncInterrupt, hcheck, hdebug, hc, hw, hx])

theorem dataCheckDue_none {s : State} (h : s.inp.dataMachineCheck = false) : dataCheckDue s = false := by simp [dataCheckDue, h]

theorem debugDue_none {s : State} (h : s.dbg.dbsr &&& 0xFFEC0000#32 = 0#32) : debugDue s = false := by
  simp [debugDue, show s.dbg.dbsr &&& dbsrEvents = 0#32 from h]

theorem step_runs {s : State} (he : s.env = []) (hb : s.inp.bus = []) (hr : s.dbg.run = .running) (ha : asyncInterrupt s = none)
    (hw : msrWE s = false) : step s = runInstruction s := by
  simp [step_noInput he hb, runCore, hr, ha, hw]

end Sys2Proof.Machine
end

section
/-! SUPPORT. The cache instructions with their data address event (R514, R737). -/

namespace Sys2Proof.Machine

/-! ### Operations that leave the debug registers alone -/

theorem blind_touchLine (x : Xlate) : DbgBlind (touchLine x) :=
  .ite (c := fun s => x.attrs.i || s.params.dcacheSize.classes == 0 || (dWay s x.ra).isSome) (fun _ _ => rfl) (fun _ _ => rfl)
    (blind_fillLine x.ra)

theorem blind_allocateLine (x : Xlate) : DbgBlind (allocateLine x) :=
  .ite (c := fun s => x.attrs.i || x.attrs.w || s.params.dcacheSize.classes == 0 || (dWay s x.ra).isSome) (fun _ _ => rfl)
    (fun _ _ => rfl) (.ite (c := fun s => bit (freeNow s) 31) (fun _ _ => rfl)
      (fun _ s => (blind_installLine x.ra (lineOfBytes (freeBytes (drawn 1 s) 32)) (bit (freeNow s) 30)).apply rfl)
      (blind_drawn 1))

theorem blind_readDataArray (rt : Reg) (ra : Word) : DbgBlind (readDataArray rt ra) := fun g s => by
  unfold readDataArray
  rw [show (withDbg g s).params.dcacheSize.classes = s.params.dcacheSize.classes from rfl]
  split <;> rfl

theorem blind_touchInstr (x : Xlate) :
    DbgBlind fun s => if x.attrs.i || (iWay s x.ra).isSome then s else fillInstrLine x.ra x.attrs.e s :=
  .ite (c := fun s => x.attrs.i || (iWay s x.ra).isSome) (fun _ _ => rfl) (fun _ _ => rfl) (blind_fillInstrLine x.ra x.attrs.e)

theorem blind_dropInstrCache : DbgBlind dropInstrCache := fun _ _ => rfl

/-! ### The event and the operation -/

/-- The DBSR bits that a cache instruction raises, in the direction of its event if it has one. -/
def cacheEvents (direction : Option Bool) (ea : Word) (u : State) : Word :=
  match direction with
  | some store => cacheDacBits u store ea
  | none => 0#32

theorem eventsFirst_cacheStep {s : State} {i : Instr} {x31 : Bool} (direction : Option Bool) {ea : Word} {op : State → State}
    (hop : DbgBlind op)
    (h : ∀ g, exec i (withDbg g s) = .next (cacheStep (cacheEvents direction ea (withDbg g s)) x31 op (withDbg g s))) :
    EventsFirst s i (cacheEvents direction ea) :=
  ⟨fun u => u.pc + 4#32, fun u => undefinedCr0 x31 (op (busTurn u)), (blind_undefinedCr0 x31).comp (hop.comp blind_busTurn),
    fun _ => rfl, h⟩

/-- The same in the words of R734, R736, R737 and R739. -/
def cacheReports (s : State) (direction : Option Bool) (ea : Word) : Word :=
  match direction with
  | some store => dacReports s store fun two => !valueOn s two && dacHit s two ea
  | none => 0#32

/-- What a cache instruction that passes its checks does with its event, in every debug mode. -/
def CacheEvent (s : State) (i : Instr) (direction : Option Bool) (ea : Word) : Prop :=
  let event := cacheReports s direction ea
  (acting s = true → event ≠ 0#32 → exec i s = .next (afterEvent s s event s.pc)) ∧
  (acting s = false ∨ event = 0#32 → bit s.dbg.dbcr0 4 = false →
    ∃ u, exec i (calm s) = .next u ∧ exec i s = .next (afterEvent s (armed s u) event u.pc))

theorem EventsFirst.cacheEvent {s : State} {i : Instr} {direction : Option Bool} {ea : Word}
    (h : EventsFirst s i (cacheEvents direction ea)) (hr : s.dbg.run = .running) : CacheEvent s i direction ea := by
  have hevent : cacheEvents direction ea s = cacheReports s direction ea := by
    cases direction with
    | none => rfl
    | some store => exact cacheDacBits_eq s store ea
  have hcalm : cacheEvents direction ea (calm s) = 0#32 := by
    cases direction with
    | none => rfl
    | some store => exact cacheDacBits_quiet (quiet_calm s) store ea
  unfold CacheEvent
  rw [← hevent]
  exact ⟨h.acts hr, fun ha hic => h.goesOn hr ha hic hcalm⟩

/-! ### The checks -/

theorem afterCheck_ok {store : Bool} {ea : Word} {r : Except DataFault Xlate} {x : Xlate} (h : r = .ok x) (k : Xlate → State → State)
    (s : State) : afterCheck store ea r k s = k x s := by
  rw [h]
  rfl

theorem invalidateXlate_ok {s : State} {ea : Word} {x : Xlate} (h : xlateData s ea = some x) (hw : writeOk s x = true) :
    invalidateXlate s ea = .ok x := by
  rw [invalidateXlate, h]
  exact if_pos hw

theorem matchXlate_ok {s : State} {ea : Word} {x : Xlate} (h : xlateIcacheOp s ea = some x) : matchXlate s ea = .ok x := by
  rw [matchXlate, h]

theorem icbiXlate_ok {s : State} {ea : Word} {x : Xlate} (h : xlateIcacheOp s ea = some x) (hr : readOk s x = true) :
    icbiXlate s ea = .ok x := by
  rw [icbiXlate, h]
  exact if_pos hr

/-! ### Each instruction -/

theorem eventsFirst_dcba {s : State} {ra rb : Reg} {x31 : Bool} {x : Xlate} (h : invalidateXlate s (eaX s ra rb) = .ok x) :
    EventsFirst s (.dcba ra rb x31) (cacheEvents (some true) (eaX s ra rb)) :=
  eventsFirst_cacheStep (x31 := x31) (some true) (blind_allocateLine x) fun g => congrArg Host.Outcome.next <| by
    have h : invalidateXlate (withDbg g s) (eaX s ra rb) = .ok x := h
    exact (show allocateData (eaX s ra rb) x31 (withDbg g s) = _ by rw [allocateData, h]; rfl)

theorem eventsFirst_dcbf {s : State} {ra rb : Reg} {x31 : Bool} {x : Xlate} (h : loadXlate s (eaX s ra rb) = .ok x) :
    EventsFirst s (.dcbf ra rb x31) (cacheEvents (some true) (eaX s ra rb)) :=
  eventsFirst_cacheStep (some true) ((blind_dropLine x.ra).comp (blind_cleanLine x.ra)) fun g =>
    congrArg Host.Outcome.next (afterCheck_ok (s := withDbg g s) h _)

theorem eventsFirst_dcbi {s : State} (hs : msrPR s = false) {ra rb : Reg} {x31 : Bool} {x : Xlate}
    (h : invalidateXlate s (eaX s ra rb) = .ok x) : EventsFirst s (.dcbi ra rb x31) (cacheEvents (some true) (eaX s ra rb)) :=
  eventsFirst_cacheStep (some true) ((blind_dropLine x.ra).comp (blind_dropBuffer x.ra)) fun g =>
    congrArg Host.Outcome.next ((privileged_supervisor (s := withDbg g s) hs _).trans (afterCheck_ok (s := withDbg g s) h _))

theorem eventsFirst_dcbst {s : State} {ra rb : Reg} {x31 : Bool} {x : Xlate} (h : loadXlate s (eaX s ra rb) = .ok x) :
    EventsFirst s (.dcbst ra rb x31) (cacheEvents (some true) (eaX s ra rb)) :=
  eventsFirst_cacheStep (some true) (blind_cleanLine x.ra) fun g =>
    congrArg Host.Outcome.next (afterCheck_ok (s := withDbg g s) h _)

theorem eventsFirst_touch {s : State} {i : Instr} {ea : Word} {x31 : Bool} {x : Xlate} (h : loadXlate s ea = .ok x)
    (hexec : ∀ g, exec i (withDbg g s) = .next (touchData ea x31 (withDbg g s))) : EventsFirst s i (cacheEvents (some false) ea) :=
  eventsFirst_cacheStep (x31 := x31) (some false) (blind_touchLine x) fun g => (hexec g).trans <| congrArg _ <| by
    have h : loadXlate (withDbg g s) ea = .ok x := h
    rw [touchData, h]
    rfl

theorem eventsFirst_dcbz {s : State} {ra rb : Reg} {x31 : Bool} {x : Xlate} (h : storeXlate s (eaX s ra rb) = .ok x)
    (hi : x.attrs.i = false) (hw : x.attrs.w = false) (hc : s.params.dcacheSize.classes ≠ 0) :
    EventsFirst s (.dcbz ra rb x31) (cacheEvents (some true) (eaX s ra rb)) :=
  eventsFirst_cacheStep (some true) ((blind_establishLine x.ra (Vector.replicate 32 0#8)).comp (blind_dropBuffer x.ra)) fun g =>
    congrArg Host.Outcome.next ((afterCheck_ok (s := withDbg g s) h _).trans
      (if_neg (by rw [hi, hw, show (withDbg g s).params = s.params from rfl]; simpa using hc)))

theorem eventsFirst_icbi {s : State} {ra rb : Reg} {x31 : Bool} {x : Xlate} (h : icbiXlate s (eaX s ra rb) = .ok x) :
    EventsFirst s (.icbi ra rb x31) (cacheEvents (some false) (eaX s ra rb)) :=
  eventsFirst_cacheStep (some false) (blind_dropInstrLine x.ra) fun g =>
    congrArg Host.Outcome.next (afterCheck_ok (s := withDbg g s) h _)

theorem eventsFirst_icbt {s : State} (hs : msrPR s = false) {ra rb : Reg} {x31 : Bool} {x : Xlate}
    (h : xlateIcacheOp s (eaX s ra rb) = some x) : EventsFirst s (.icbt ra rb x31) (cacheEvents (some false) (eaX s ra rb)) :=
  eventsFirst_cacheStep (x31 := x31) (some false) (blind_touchInstr x) fun g =>
    (congrArg Host.Outcome.next (privileged_supervisor (s := withDbg g s) hs _)).trans <| congrArg _ <| by
      have h : xlateIcacheOp (withDbg g s) (eaX s ra rb) = some x := h
      exact (show touchInstr (eaX s ra rb) x31 (withDbg g s) = _ by rw [touchInstr, h]; rfl)

theorem eventsFirst_dccci {s : State} (hs : msrPR s = false) {ra rb : Reg} {x31 : Bool} {x : Xlate}
    (h : invalidateXlate s (eaX s ra rb) = .ok x) : EventsFirst s (.dccci ra rb x31) (cacheEvents none (eaX s ra rb)) :=
  eventsFirst_cacheStep none ((blind_dropClass x.ra).comp (blind_dropBuffer x.ra)) fun g =>
    congrArg Host.Outcome.next ((privileged_supervisor (s := withDbg g s) hs _).trans (afterCheck_ok (s := withDbg g s) h _))

theorem eventsFirst_dcread {s : State} (hs : msrPR s = false) {rt ra rb : Reg} {x31 : Bool} {x : Xlate}
    (h : matchXlate s (eaX s ra rb) = .ok x) (ha : (eaX s ra rb).toNat % 4 = 0) :
    EventsFirst s (.dcread rt ra rb x31) (cacheEvents none (eaX s ra rb)) :=
  eventsFirst_cacheStep none (blind_readDataArray rt x.ra) fun g =>
    congrArg Host.Outcome.next ((privileged_supervisor (s := withDbg g s) hs _).trans
      ((afterCheck_ok (s := withDbg g s) h _).trans (if_neg fun hn => hn (lowBits_aligned ha))))

theorem eventsFirst_iccci {s : State} (hs : msrPR s = false) {ra rb : Reg} {x31 : Bool} {x : Xlate}
    (h : matchXlate s (eaX s ra rb) = .ok x) : EventsFirst s (.iccci ra rb x31) (cacheEvents none (eaX s ra rb)) :=
  eventsFirst_cacheStep none blind_dropInstrCache fun g =>
    congrArg Host.Outcome.next ((privileged_supervisor (s := withDbg g s) hs _).trans (afterCheck_ok (s := withDbg g s) h _))

theorem eventsFirst_icread {s : State} (hs : msrPR s = false) {ra rb : Reg} {x31 : Bool} {x : Xlate}
    (h : matchXlate s (eaX s ra rb) = .ok x) : EventsFirst s (.icread ra rb x31) (cacheEvents none (eaX s ra rb)) :=
  eventsFirst_cacheStep none (blind_readInstrArray x.ra) fun g =>
    congrArg Host.Outcome.next ((privileged_supervisor (s := withDbg g s) hs _).trans (afterCheck_ok (s := withDbg g s) h _))

theorem forall_cacheEvent {s : State} (hr : s.dbg.run = .running) {ea : Word} {l : List (Instr × Prop × Option Bool)}
    (h : ∀ f ∈ l, f.2.1 → EventsFirst s f.1 (cacheEvents f.2.2 ea)) : ∀ f ∈ l, f.2.1 → CacheEvent s f.1 f.2.2 ea :=
  fun f hf hp => (h f hf hp).cacheEvent hr

end Sys2Proof.Machine
end

section
/-! The debug events in every mode (R320, R660, R721 to R740). -/

namespace Sys2Proof.Machine

/-- Settles O60: an event that acts comes in the instruction's place or after it, and one that does not is noted in the DBSR, for each
kind of event by the lemma of its kind. -/
theorem debugEvents : Obligations.DebugEvents := by
  intro s rt ra rb d d26 sh mb me bo bi bf bfa fxm aa lk oe rc x31 tos w
  refine ⟨step_stays, fun hr => ?_⟩
  intro c0 c1 edm idm de acts masked ea count holds traps calm armed
  refine ⟨fun hic hbt hdac => ?_, ?_, ?_⟩
  · -- completion (R726)
    have event {i : Instr} (h : Completes s i) : CompletionEvent s i := h.completionEvent hr hic hbt hdac
    suffices h : ∀ i ∈ _, CompletionEvent s i from h
    iterate 5 rw [List.forall_mem_append]
    refine ⟨⟨⟨⟨⟨fun i hi => event ?_, forall_mem_guarded fun hbo => ?_⟩, forall_mem_guarded fun hok => ?_⟩,
      forall_mem_guarded fun hok => ?_⟩, ?_⟩, forall_mem_guarded fun h => ?_⟩
    · exact completes_ordinary s rt ra rb d d26 sh mb me bo bi bf bfa fxm aa lk oe rc x31 i hi
    · exact List.forall_mem_singleton.mpr (event (eventsFirst_bcctr s hbo bi lk).completes_branch)
    · have lwz : MakesAccess s (.lwz rt ra d) false ea 4 := makesAccess_load fun _ => rfl
      exact List.forall_mem_singleton.mpr (event (lwz.completes hok))
    · have stw : MakesAccess s (.stw rt ra d) true ea 4 := makesAccess_store (wordBytes (gpr s rt)) rfl fun _ => rfl
      exact List.forall_mem_singleton.mpr (event (stw.completes hok))
    · split
      · exact List.forall_mem_nil _
      · rename_i h
        have hs : msrPR s = false := Bool.eq_false_iff.mpr h
        rw [List.forall_mem_cons]
        exact ⟨event (completes_privileged (op := setGpr rt s.msr) hs (blind_setGpr rt s.msr) fun _ => rfl),
          List.forall_mem_singleton.mpr (event (completes_privileged (op := setEE lk) hs (fun _ _ => rfl) fun _ => rfl))⟩
    · simp only [Bool.and_eq_true, Bool.not_eq_true'] at h
      obtain ⟨⟨⟨hs, hidm⟩, hde⟩, hedm⟩ := h
      exact List.forall_mem_singleton.mpr (mtmsr_completionEvent rt x31 hr hs hic hedm hidm hde)
  · -- branch taken (R727)
    intro hbt
    have htaken (h : holds) : branchTaken s bo bi = true := (branchTaken_iff s bo bi).mpr h
    rw [List.forall_mem_append]
    iterate 3 rw [List.forall_mem_cons]
    exact ⟨⟨fun _ => (eventsFirst_b s d26 aa lk).branchEvent hr hbt rfl,
      fun h => (eventsFirst_bc s bo bi d aa lk).branchEvent hr hbt (htaken h),
      fun h => (eventsFirst_bclr s bo bi lk).branchEvent hr hbt (htaken h), List.forall_mem_nil _⟩,
      forall_mem_guarded fun hbo =>
        List.forall_mem_singleton.mpr fun h => (eventsFirst_bcctr s hbo bi lk).branchEvent hr hbt (htaken h)⟩
  intro entered raised program
  refine ⟨?_, fun hic => congrArg Host.Outcome.next (systemCall_eq hr hic), fun hpr => ?_, fun e he => ?_,
    fun henv hbus hcheck hdbsr => ⟨fun hcrit hce => ?_, fun hcrit htsr hext hee => ?_⟩, fun henv hbus ha hwait hc => ?_, ?_⟩
  · -- traps (R729)
    rw [List.forall_mem_cons, List.forall_mem_singleton]
    exact ⟨fun h => exec_trapped hr (if_pos ((trapCondition_iff ..).mpr h)),
      fun h => exec_trapped hr (if_pos ((trapCondition_iff ..).mpr h))⟩
  · exact congrArg Host.Outcome.next ((privileged_user hpr _).trans (programInterrupt_eq hr rfl _))
  · rw [runWord, he]
    exact congrArg Host.Outcome.next (programInterrupt_eq hr rfl _)
  · have hdue : criticalDue s = true := by simp [criticalDue, hcrit, msrCE, hce]
    rw [step_critical henv hbus hr (dataCheckDue_none hcheck) (debugDue_none hdbsr) hdue]
    exact congrArg Host.Outcome.next (takeInterrupt_critical hr _ _)
  · have hnone : criticalDue s = false := by simp [criticalDue, hcrit]
    have hquiet : watchdogDue s = false := by simp [watchdogDue, htsr]
    have hdue : externalDue s = true := by simp [externalDue, hext, msrEE, hee]
    rw [step_external henv hbus hr (dataCheckDue_none hcheck) (debugDue_none hdbsr) hnone hquiet hdue]
    exact congrArg Host.Outcome.next (takeInterrupt_noncritical hr rfl _ _ s.exc.esr)
  · -- instruction addresses (R731 to R733)
    exact (step_runs henv hbus hr ha hwait).trans (runInstruction_iac hr hc)
  intro matchesDac enables mode valued reports base ex ud ux tbc words count
  refine ⟨?_, ?_⟩
  · -- loads and stores (R734 to R740)
    refine forall_dataEvents hr ?_
    rw [List.forall_mem_append, List.forall_mem_append, List.forall_mem_append]
    refine ⟨⟨⟨makesAccess_forms s rt ra rb d sh x31, ?_⟩, forall_mem_guarded fun ha => ?_⟩, forall_mem_guarded fun ⟨ha, hres⟩ => ?_⟩
    · split
      · exact List.forall_mem_nil _
      · rename_i h
        rw [List.forall_mem_cons, List.forall_mem_cons]
        rw [show tbc = (xerTBC s).toNat from (xerTBC_toNat s).symm] at h ⊢
        have hne : xerTBC s ≠ 0#7 := fun e => h (by rw [e]; rfl)
        have hpos : 0 < (xerTBC s).toNat := Nat.pos_of_ne_zero h
        have hmax : (xerTBC s).toNat ≤ 128 := Nat.le_of_lt (xerTBC s).isLt
        exact ⟨makesAccess_loadString hpos fun _ => if_neg hne,
          makesAccess_storeString hpos hmax fun _ => if_neg hne, List.forall_mem_nil _⟩
    · exact List.forall_mem_singleton.mpr (makesAccess_lwarx s rt ra rb x31 ha)
    · exact List.forall_mem_singleton.mpr (makesAccess_stwcxRc s rt ra rb ha hres)
  · -- cache instructions (R737)
    intro passes data instr super
    refine forall_cacheEvent hr ?_
    iterate 13 rw [List.forall_mem_cons]
    exact ⟨fun ⟨x, hx, hw⟩ => eventsFirst_dcba (invalidateXlate_ok hx hw), fun ⟨_, hx⟩ => eventsFirst_dcbf hx,
      fun ⟨hs, x, hx, hw⟩ => eventsFirst_dcbi hs (invalidateXlate_ok hx hw), fun ⟨_, hx⟩ => eventsFirst_dcbst hx,
      fun ⟨_, hx⟩ => eventsFirst_touch hx fun _ => rfl, fun ⟨_, hx⟩ => eventsFirst_touch hx fun _ => rfl,
      fun ⟨⟨_, hx, hi, hw⟩, hcl⟩ => eventsFirst_dcbz hx hi hw hcl, fun ⟨_, hx, hread⟩ => eventsFirst_icbi (icbiXlate_ok hx hread),
      fun ⟨hs, _, hx, _⟩ => eventsFirst_icbt hs hx, fun ⟨hs, _, hx, hw⟩ => eventsFirst_dccci hs (invalidateXlate_ok hx hw),
      fun ⟨hs, ⟨_, hx, _⟩, hal⟩ => eventsFirst_dcread hs (matchXlate_ok hx) hal,
      fun ⟨hs, _, hx, _⟩ => eventsFirst_iccci hs (matchXlate_ok hx), fun ⟨hs, _, hx, _⟩ => eventsFirst_icread hs (matchXlate_ok hx),
      List.forall_mem_nil _⟩

end Sys2Proof.Machine
end

section
/-! SUPPORT. How an arithmetic result is delivered (R35, R37, R330), and that sums, differences, products and quotients are exact
(R331 to R353). -/

namespace Sys2Proof.Machine

/-! ### What the delivery leaves unchanged -/

theorem OnlyUser.trans {s t u : State} (hst : OnlyUser s t) (htu : OnlyUser t u) : OnlyUser s u := by
  obtain ⟨ht, htd⟩ := hst
  obtain ⟨hu, hud⟩ := htu
  refine ⟨?_, fun a => (hud a).trans (htd a)⟩
  rw [hu, ht]

theorem onlyUser_pc (a : Word) (s : State) : OnlyUser s { s with pc := a } := ⟨rfl, fun _ => rfl⟩

theorem onlyUser_drawn (n : Nat) (s : State) : OnlyUser s (drawn n s) := ⟨rfl, fun _ => rfl⟩

theorem onlyUser_setGpr (r : Reg) (v : Word) (s : State) : OnlyUser s (setGpr r v s) := ⟨rfl, fun _ => rfl⟩

theorem onlyUser_setCA (c : Bool) (s : State) : OnlyUser s (setCA c s) := ⟨rfl, fun _ => rfl⟩

theorem onlyUser_setOv (oe ov : Bool) (s : State) : OnlyUser s (setOv oe ov s) := by
  cases oe <;> exact ⟨rfl, fun _ => rfl⟩

theorem onlyUser_recordCr0 (rc : Bool) (v : Word) (s : State) : OnlyUser s (recordCr0 rc v s) := by
  cases rc <;> exact ⟨rfl, fun _ => rfl⟩

theorem onlyUser_recordCr0Free (rc : Bool) (v : Word) (s : State) : OnlyUser s (recordCr0Free rc v s) := by
  cases rc <;> exact ⟨rfl, fun _ => rfl⟩

theorem onlyUser_deliver (rt : Reg) (v : Word) (ca : Option Bool) (ov oe rc : Bool) (s : State) :
    OnlyUser s (deliver rt v ca ov oe rc s) := by
  have hflags (u : State) : OnlyUser u (recordCr0 rc v (setOv oe ov u)) :=
    (onlyUser_setOv oe ov u).trans (onlyUser_recordCr0 rc v _)
  cases ca with
  | none => exact (onlyUser_setGpr rt v s).trans (hflags _)
  | some c => exact ((onlyUser_setGpr rt v s).trans (onlyUser_setCA c _)).trans (hflags _)

theorem deliver_gpr (rt : Reg) (v : Word) (ca : Option Bool) (ov oe rc : Bool) (s : State) :
    (deliver rt v ca ov oe rc s).gpr = (setGpr rt v s).gpr := by
  cases ca <;> simp [deliver]

/-! ### XER (R37 to R39) -/

theorem bit_setOv_xer (oe ov : Bool) (s : State) {k : Nat} (hk : k < 32) :
    bit (setOv oe ov s).xer k =
      if k = 0 then bit s.xer 0 || (oe && ov) else if k = 1 then (if oe then ov else bit s.xer 1) else bit s.xer k := by
  cases oe with
  | false =>
    change bit s.xer k = _
    split_ifs with h0 h1 <;> simp_all
  | true =>
    change bit (setBit (setBit s.xer 1 ov) 0 (bit s.xer 0 || ov)) k = _
    rw [bit_setBit _ _ (by decide) hk, bit_setBit _ _ (by decide) hk]
    simp only [Bool.true_and, if_true, eq_comm]

/-- OV and SO written after a step that wrote at most CA. -/
theorem writesXer_setOv {s u t : State} {ca : Option Bool} {oe ov : Bool} (hca : bit u.xer 2 = ca.getD (bit s.xer 2))
    (hrest : ∀ k, k < 32 → k ≠ 2 → bit u.xer k = bit s.xer k) (ht : t.xer = (setOv oe ov u).xer) :
    WritesXer s t ca oe ov := by
  have hbit {k : Nat} (hk : k < 32) := ht ▸ bit_setOv_xer oe ov u hk
  refine ⟨?_, ?_, (hbit (by decide)).trans hca, fun k h3 hk => ?_⟩
  · rw [hbit (by decide), if_pos rfl, hrest 0 (by decide) (by decide)]
  · rw [hbit (by decide), if_neg (by decide), if_pos rfl, hrest 1 (by decide) (by decide)]
  · rw [hbit hk, if_neg (by omega), if_neg (by omega), hrest k hk (by omega)]

theorem writesXer_deliver (rt : Reg) (v : Word) (ca : Option Bool) (ov oe rc : Bool) (s : State) :
    WritesXer s (deliver rt v ca ov oe rc s) ca oe ov := by
  cases ca with
  | none => exact writesXer_setOv (u := setGpr rt v s) rfl (fun _ _ _ => rfl) (recordCr0_xer rc v _)
  | some c =>
    have hbit {k : Nat} (hk : k < 32) : bit (setCA c (setGpr rt v s)).xer k = if 2 = k then c else bit s.xer k :=
      bit_setBit s.xer c (by decide) hk
    exact writesXer_setOv (hbit (by decide)) (fun k hk hne => (hbit hk).trans (if_neg hne.symm)) (recordCr0_xer rc v _)

/-! ### CR0 (R35) -/

/-- CR0 written: its four bits, and the other fields as before. -/
theorem bit_setCrField_zero (lt gt eq so : Bool) (s : State) :
    bit (setCrField 0#3 (crBits lt gt eq so) s).cr 0 = lt ∧ bit (setCrField 0#3 (crBits lt gt eq so) s).cr 1 = gt ∧
      bit (setCrField 0#3 (crBits lt gt eq so) s).cr 2 = eq ∧ bit (setCrField 0#3 (crBits lt gt eq so) s).cr 3 = so ∧
      ∀ k, 4 ≤ k → k < 32 → bit (setCrField 0#3 (crBits lt gt eq so) s).cr k = bit s.cr k := by
  have hbit {k : Nat} (hk : k < 32) := bit_putCrField s.cr 0#3 (crBits lt gt eq so) hk
  obtain ⟨hlt, hgt, heq, hso⟩ := crBits_getMsbD lt gt eq so
  exact ⟨(hbit (by decide)).trans hlt, (hbit (by decide)).trans hgt, (hbit (by decide)).trans heq,
    (hbit (by decide)).trans hso, fun k h4 hk => (hbit hk).trans (if_neg (by simp; omega))⟩

/-- The bits by the result, in terms of its sign. -/
theorem resultBits_eq (v : Word) (so : Bool) :
    resultBits v so = crBits (decide (v.toInt < 0)) (decide (0 < v.toInt)) (decide (v.toInt = 0)) so := by
  have hzero : v = 0#32 ↔ v.toInt = 0 := by rw [← BitVec.toInt_inj]; rfl
  have hpos : (v ≠ 0#32 && !v.msb) = decide (0 < v.toInt) := by
    rw [BitVec.msb_eq_toInt, Bool.eq_iff_iff]
    simp only [ne_eq, hzero, Bool.and_eq_true, Bool.not_eq_true', decide_eq_true_eq, decide_eq_false_iff_not]
    omega
  rw [resultBits, hpos, BitVec.msb_eq_toInt]
  simp only [hzero]

/-- CR0 recorded on a state whose CR is still the one before. -/
theorem writesCr0_recordCr0 {s u : State} (hu : u.cr = s.cr) (rc : Bool) (v : Word) :
    WritesCr0 s (recordCr0 rc v u) rc v := by
  cases rc with
  | false => exact ⟨nofun, fun _ => hu, fun _ _ _ => congrArg (bit · _) hu⟩
  | true =>
    rw [recordCr0, if_pos rfl, resultBits_eq]
    obtain ⟨hlt, hgt, heq, hso, hrest⟩ := bit_setCrField_zero (decide (v.toInt < 0)) (decide (0 < v.toInt))
      (decide (v.toInt = 0)) (xerSO u) u
    exact ⟨fun _ => ⟨hlt, hgt, heq, hso⟩, nofun, fun k h4 hk => (hrest k h4 hk).trans (congrArg (bit · k) hu)⟩

/-- CR0 left open but for SO, and the other fields as before (U17). -/
theorem recordCr0Free_cr (rc : Bool) (v : Word) (s : State) :
    (rc = true → bit (recordCr0Free rc v s).cr 3 = bit (recordCr0Free rc v s).xer 0) ∧
      (rc = false → (recordCr0Free rc v s).cr = s.cr) ∧
      ∀ k, 4 ≤ k → k < 32 → bit (recordCr0Free rc v s).cr k = bit s.cr k := by
  cases rc with
  | false => exact ⟨nofun, fun _ => rfl, fun _ _ _ => rfl⟩
  | true =>
    obtain ⟨_, _, _, hso, hrest⟩ := bit_setCrField_zero (bit v 0) (bit v 1) (bit v 2) (xerSO s) s
    exact ⟨fun _ => hso, nofun, hrest⟩

theorem writesCr0_deliver (rt : Reg) (v : Word) (ca : Option Bool) (ov oe rc : Bool) (s : State) :
    WritesCr0 s (deliver rt v ca ov oe rc s) rc v := by
  cases ca <;> exact writesCr0_recordCr0 (setOv_cr oe ov _) rc v

/-! ### A whole instruction -/

/-- An instruction of a quiet state that delivers a result computes it, and does nothing else (R330). -/
theorem computes_deliver {s : State} (hq : quiet s = true) {i : Instr} {rt : Reg} {v : Word} {ca : Option Bool}
    {ov oe rc : Bool} (he : exec i s = .next (advance s (deliver rt v ca ov oe rc s))) :
    ∃ t, exec i s = .next t ∧ Computes s t rt v ca ov oe rc := by
  rw [advance_quiet hq] at he
  exact ⟨_, he, writesGpr_of_gpr rfl (deliver_gpr ..), writesXer_deliver .., writesCr0_deliver .., rfl,
    (onlyUser_deliver ..).trans (onlyUser_pc _ _)⟩

/-! ### Sums (R353) -/

theorem sumOf_eq_ofNat (a b : Word) (c : Bool) : sumOf a b c = BitVec.ofNat 32 (a.toNat + b.toNat + c.toNat) := by
  cases c <;> simp [sumOf, bitWord, BitVec.ofNat_add]

theorem sumOf_eq_ofInt (a b : Word) (c : Bool) : sumOf a b c = BitVec.ofInt 32 (a.toInt + b.toInt + c.toNat) := by
  rw [BitVec.ofInt_add, BitVec.ofInt_add, BitVec.ofInt_toInt, BitVec.ofInt_toInt]
  cases c <;> rfl

/-- Two addends of one sign and a sum of the other: that is a signed sum outside 32 bits. -/
theorem overflowOf_eq (a b : Word) (c : Bool) :
    overflowOf a b c =
      decide (a.toInt + b.toInt + c.toNat < -2 ^ 31 ∨ 2 ^ 31 ≤ a.toInt + b.toInt + c.toNat) := by
  have hc : c.toNat ≤ 1 := Bool.toNat_le c
  have hsum : (sumOf a b c).toNat = (a.toNat + b.toNat + c.toNat) % 2 ^ 32 := by
    rw [sumOf_eq_ofNat, BitVec.toNat_ofNat]
  have ha := a.isLt
  have hb := b.isLt
  rw [overflowOf, Bool.eq_iff_iff]
  simp only [Bool.and_eq_true, beq_iff_eq, bne_iff_ne, ne_eq, BitVec.msb_eq_decide, hsum, decide_eq_decide,
    decide_eq_true_eq, BitVec.toInt_eq_toNat_cond]
  split_ifs <;> omega

/-- An add-like instruction gives the exact sum, whatever the number is written as. -/
theorem computes_sum {s : State} (hq : quiet s = true) {i : Instr} {rt : Reg} {a b : Word} {c ca oe rc : Bool}
    (he : exec i s = .next (advance s (sumTo rt a b c ca oe rc s))) {n : Nat} {z : Int}
    (hn : a.toNat + b.toNat + c.toNat = n) (hz : a.toInt + b.toInt + c.toNat = z) :
    ∃ t, exec i s = .next t ∧
      Computes s t rt (BitVec.ofNat 32 n) (if ca then some (decide (2 ^ 32 ≤ n)) else none)
        (decide (z < -2 ^ 31 ∨ 2 ^ 31 ≤ z)) oe rc := by
  rw [← hn, ← hz, ← sumOf_eq_ofNat, ← overflowOf_eq]
  exact computes_deliver hq he

/-- Settles O15: each form is `computes_sum` at its addends and carry in. -/
theorem sums : Obligations.Sums := by
  intro s rt ra rb im oe rc hq a b m c
  iterate 7 rw [List.forall_mem_cons]
  refine ⟨computes_sum hq (c := false) rfl rfl (Int.add_zero _), computes_sum hq (c := false) rfl rfl (Int.add_zero _),
    computes_sum hq rfl rfl rfl, computes_sum hq rfl ?_ ?_, computes_sum hq rfl rfl ?_,
    computes_sum hq (c := false) rfl rfl (Int.add_zero _), computes_sum hq (c := false) rfl rfl (Int.add_zero _),
    List.forall_mem_nil _⟩
  · exact Nat.add_right_comm ..
  · change a.toInt + -1 + (c : Int) = a.toInt + c - 1
    omega
  · change a.toInt + 0 + (c : Int) = a.toInt + c
    omega

/-! ### Differences (R340 to R345) -/

theorem toInt_complement (a : Word) : (~~~a).toInt = -1 - a.toInt := by
  have ha := a.isLt
  rw [BitVec.toInt_eq_toNat_cond, BitVec.toInt_eq_toNat_cond, BitVec.toNat_not]
  split_ifs <;> omega

/-- The carry out of `¬a + b + c` says that nothing is borrowed from `b - a - 1 + c`. -/
theorem carryOf_not (a b : Word) (c : Bool) :
    carryOf (~~~a) b c = decide ((a.toNat : Int) + 1 ≤ b.toNat + c.toNat) := by
  have ha := a.isLt
  rw [carryOf, BitVec.toNat_not, decide_eq_decide]
  omega

/-- A subtract-like instruction gives the exact difference, whatever the number is written as. -/
theorem computes_difference {s : State} (hq : quiet s = true) {i : Instr} {rt : Reg} {a b : Word} {c ca oe rc : Bool}
    (he : exec i s = .next (advance s (sumTo rt (~~~a) b c ca oe rc s))) {z : Int} {noBorrow : Option Bool}
    (hz : b.toInt - a.toInt - 1 + c.toNat = z)
    (hca : (if ca then some (decide ((a.toNat : Int) + 1 ≤ b.toNat + c.toNat)) else none) = noBorrow) :
    ∃ t, exec i s = .next t ∧
      Computes s t rt (BitVec.ofInt 32 z) noBorrow (decide (z < -2 ^ 31 ∨ 2 ^ 31 ≤ z)) oe rc := by
  have hexact : (~~~a).toInt + b.toInt + c.toNat = z := by rw [toInt_complement, ← hz]; omega
  rw [← hca, ← hexact, ← sumOf_eq_ofInt, ← overflowOf_eq, ← carryOf_not]
  exact computes_deliver hq he

/-- Settles O16: each form is `computes_difference` at its operands and carry in. -/
theorem differences : Obligations.Differences := by
  intro s rt ra rb im oe rc hq a b m c
  have carryIn (x : Int) : x - 1 + (true.toNat : Int) = x := Int.sub_add_cancel x 1
  have noBorrow (y : Word) :
      (if true then some (decide ((a.toNat : Int) + 1 ≤ y.toNat + true.toNat)) else none) =
        some (decide (a.toNat ≤ y.toNat)) := by
    simp
  iterate 6 rw [List.forall_mem_cons]
  refine ⟨computes_difference hq (c := true) rfl (carryIn _) rfl,
    computes_difference hq (c := true) rfl (carryIn _) (noBorrow b), computes_difference hq rfl rfl rfl,
    computes_difference hq rfl rfl ?_, computes_difference hq rfl rfl ?_,
    computes_difference hq (c := true) rfl (carryIn _) (noBorrow m), List.forall_mem_nil _⟩
  · refine congrArg some (decide_eq_decide.mpr ?_)
    change (a.toNat : Int) + 1 ≤ (2 ^ 32 - 1) + c ↔ (a.toNat : Int) ≤ 2 ^ 32 - 2 + c
    omega
  · refine congrArg some (decide_eq_decide.mpr ?_)
    change (a.toNat : Int) + 1 ≤ 0 + c ↔ (a.toNat : Int) + 1 ≤ c
    omega

/-! ### Immediates (R334, R337, R347) -/

theorem ofInt_gprOr0 (s : State) (ra : Reg) :
    BitVec.ofInt 32 (if ra = 0#5 then 0 else (gpr s ra).toInt) = gprOr0 s ra := by
  rw [gprOr0]
  split
  · rfl
  · exact BitVec.ofInt_toInt

theorem ofInt_immediate (im : BitVec 16) : BitVec.ofInt 32 im.toInt = sext16 im := rfl

/-- The immediate moved to the high halfword is its number times 2^16: its sign bits are shifted out. -/
theorem ofInt_shiftedImmediate (im : BitVec 16) : BitVec.ofInt 32 (im.toInt * 2 ^ 16) = zext16 im <<< 16 := by
  have him := im.isLt
  apply BitVec.eq_of_toNat_eq
  rw [BitVec.toNat_shiftLeft, toNat_zext16, Nat.shiftLeft_eq, BitVec.toNat_ofInt, BitVec.toInt_eq_toNat_cond]
  split_ifs <;> omega

/-- Settles O17: with neither OE nor Rc nor a carry the delivery is the write of RT. -/
theorem immediateArithmetic : Obligations.ImmediateArithmetic := by
  intro s rt ra im hq z
  have writes {i : Instr} {x : Int} (he : exec i s = .next (advance s (setGpr rt (BitVec.ofInt 32 x) s))) :
      ∃ t, exec i s = .next t ∧ Computes s t rt (BitVec.ofInt 32 x) none false false false := computes_deliver hq he
  iterate 3 rw [List.forall_mem_cons]
  refine ⟨writes ?_, writes ?_, writes ?_, List.forall_mem_nil _⟩
  · rw [BitVec.ofInt_add, ofInt_gprOr0, ofInt_immediate]
    rfl
  · rw [BitVec.ofInt_add, ofInt_gprOr0, ofInt_shiftedImmediate]
    rfl
  · rw [← toInt_sext16]
    rfl

/-! ### Products (R346, R348 to R350) -/

theorem eq_mostNegative_iff (a : Word) : a = 0x80000000#32 ↔ a.toInt = -2 ^ 31 := by
  rw [← BitVec.toInt_inj]
  rfl

/-- Settles O18: each form delivers its word of the exact result. -/
theorem products : Obligations.Products := by
  intro s rt ra rb oe rc hq p
  iterate 4 rw [List.forall_mem_cons]
  refine ⟨computes_deliver hq ?_, computes_deliver hq ?_, computes_deliver hq rfl, computes_deliver hq rfl,
    List.forall_mem_nil _⟩
  · have hov : decide ((gpr s ra).toInt = -2 ^ 31) = (gpr s ra == 0x80000000#32) := by
      rw [Bool.eq_iff_iff, decide_eq_true_eq, beq_iff_eq, eq_mostNegative_iff]
    rw [hov, BitVec.ofInt_neg, BitVec.ofInt_toInt]
    rfl
  · rw [Bool.decide_or]
    rfl

/-! ### Quotients (R351, R352) -/

theorem sdiv_eq_ofInt (a b : Word) : a.sdiv b = BitVec.ofInt 32 (a.toInt.tdiv b.toInt) := by
  apply BitVec.eq_of_toInt_eq
  rw [BitVec.toInt_sdiv, BitVec.toInt_ofInt]

/-- The signed divides without a quotient: by 0, and -2^31 by -1 (R351). -/
theorem divwUndefined_iff (a b : Word) :
    (b = 0#32 || (a = 0x80000000#32 && b = 0xFFFFFFFF#32)) = true ↔ b = 0#32 ∨ (a.toInt = -2 ^ 31 ∧ b.toInt = -1) := by
  have hone : b = 0xFFFFFFFF#32 ↔ b.toInt = -1 := by rw [← BitVec.toInt_inj]; rfl
  simp only [Bool.or_eq_true, Bool.and_eq_true, decide_eq_true_eq, eq_mostNegative_iff, hone]

/-- Settles O19: off the undefined cases a divide delivers the truncated quotient. -/
theorem quotients : Obligations.Quotients := by
  intro s rt ra rb oe rc hq hb
  refine ⟨fun hdef => computes_deliver hq ?_, computes_deliver hq ?_⟩
  · rw [← sdiv_eq_ofInt]
    exact if_neg fun h => ((divwUndefined_iff _ _).mp h).elim hb hdef
  · rw [← BitVec.udiv_def]
    exact if_neg hb

/-- What a divide without a quotient leaves: RT and CR0[LT, GT, EQ] are open, and nothing else changes but OV, SO and
CR0[SO] (U17). -/
theorem divideUndefined_completes {s : State} (hq : quiet s = true) {i : Instr} {rt : Reg} {oe rc : Bool}
    (he : exec i s = .next (advance s (divideUndefined rt oe rc s))) :
    ∃ t, exec i s = .next t ∧ (∀ q, q ≠ rt → gpr t q = gpr s q) ∧ WritesXer s t none oe true ∧
      (rc = true → bit t.cr 3 = bit t.xer 0) ∧ (rc = false → t.cr = s.cr) ∧
      (∀ k, 4 ≤ k → k < 32 → bit t.cr k = bit s.cr k) ∧ t.pc = s.pc + 4#32 ∧ OnlyUser s t := by
  rw [advance_quiet hq] at he
  obtain ⟨hso, hkept, hrest⟩ :=
    recordCr0Free_cr rc (Config.freeWord (s.free + 1)) (setOv oe true (setGpr rt (freeNow s) s))
  rw [setOv_cr, setGpr_cr] at hkept hrest
  obtain ⟨-, hothers⟩ : WritesGpr s (divideUndefined rt oe rc s) rt (freeNow s) :=
    writesGpr_of_gpr rfl (by simp [divideUndefined])
  have hxer : WritesXer s (divideUndefined rt oe rc s) none oe true :=
    writesXer_setOv (u := setGpr rt (freeNow s) s) rfl (fun _ _ _ => rfl) (recordCr0Free_xer rc _ _)
  have honly : OnlyUser s (divideUndefined rt oe rc s) :=
    (((onlyUser_setGpr rt _ s).trans (onlyUser_setOv oe true _)).trans (onlyUser_recordCr0Free rc _ _)).trans (onlyUser_drawn 2 _)
  exact ⟨_, he, hothers, hxer, hso, hkept, hrest, rfl, honly.trans (onlyUser_pc _ _)⟩

/-- Settles O20: both forms are `divideUndefined` in exactly the cases named. -/
theorem undefinedQuotients : Obligations.UndefinedQuotients := by
  intro s rt ra rb oe rc hq
  rw [List.forall_mem_cons, List.forall_mem_singleton]
  exact ⟨fun h => divideUndefined_completes hq (if_pos ((divwUndefined_iff _ _).mpr (of_decide_eq_true h))),
    fun h => divideUndefined_completes hq (if_pos (of_decide_eq_true h))⟩

end Sys2Proof.Machine
end

section
/-! SUPPORT. The multiply-accumulates and the halfword multiplies (R370 to R395): the product of two halfwords is exact in a word,
and an accumulate of it is the exact sum, cut to a word or saturated. -/

namespace Sys2Proof.Machine

/-! ### Products of halfwords (R370) -/

theorem halfProduct_signed (a b : BitVec 16) : halfProduct true a b = BitVec.ofInt 32 (a.toInt * b.toInt) := rfl

theorem halfProduct_unsigned (a b : BitVec 16) : halfProduct false a b = BitVec.ofInt 32 (a.toNat * b.toNat : Nat) :=
  (BitVec.ofInt_natCast ..).symm

theorem toInt_halfProduct (a b : BitVec 16) : (halfProduct true a b).toInt = a.toInt * b.toInt := by
  have hle : a.toInt * b.toInt ≤ 2 ^ 30 := BitVec.toInt_mul_toInt_le
  have hge : -(2 ^ 30) ≤ a.toInt * b.toInt := BitVec.le_toInt_mul_toInt
  exact BitVec.toInt_ofInt_eq_self (by decide) (by omega) (by omega)

/-- The negated product fits a word as well: no product is -2^31. -/
theorem toInt_neg_halfProduct (a b : BitVec 16) : (-halfProduct true a b).toInt = -(a.toInt * b.toInt) := by
  have hle : a.toInt * b.toInt ≤ 2 ^ 30 := BitVec.toInt_mul_toInt_le
  have hge : -(2 ^ 30) ≤ a.toInt * b.toInt := BitVec.le_toInt_mul_toInt
  rw [halfProduct_signed, ← BitVec.ofInt_neg]
  exact BitVec.toInt_ofInt_eq_self (by decide) (by omega) (by omega)

theorem toNat_halfProduct (a b : BitVec 16) : (halfProduct false a b).toNat = a.toNat * b.toNat :=
  Nat.mod_eq_of_lt (BitVec.toNat_mul_toNat_lt (x := a) (y := b))

/-! ### Accumulates, modulo or saturated (R395) -/

theorem overflowOf_false (prod acc : Word) :
    overflowOf prod acc false = decide (acc.toInt + prod.toInt < -2 ^ 31 ∨ 2 ^ 31 ≤ acc.toInt + prod.toInt) := by
  rw [overflowOf_eq, Bool.toNat_false, Int.natCast_zero, Int.add_zero, Int.add_comm]

theorem carryOf_false (prod acc : Word) : carryOf prod acc false = decide (2 ^ 32 ≤ acc.toNat + prod.toNat) := by
  rw [carryOf, Bool.toNat_false, Nat.add_zero, Nat.add_comm]

/-- Where a signed sum does not fit, the accumulator's sign says on which side, so that the value taken is the nearest one. -/
theorem saturatedSum_signed (prod acc : Word) (saturate : Bool) :
    (if saturate && overflowOf prod acc false then saturatedSigned acc else prod + acc) =
      if saturate then BitVec.ofInt 32 (max (-2 ^ 31) (min (2 ^ 31 - 1) (acc.toInt + prod.toInt)))
      else BitVec.ofInt 32 (acc.toInt + prod.toInt) := by
  have hsum : prod + acc = BitVec.ofInt 32 (acc.toInt + prod.toInt) := by
    rw [BitVec.ofInt_add, BitVec.ofInt_toInt, BitVec.ofInt_toInt, BitVec.add_comm]
  have hlt : prod.toInt < 2 ^ 31 := BitVec.toInt_lt
  have hge : -2 ^ 31 ≤ prod.toInt := BitVec.le_toInt prod
  cases saturate with
  | false => exact hsum
  | true =>
    rw [Bool.true_and, overflowOf_false, if_pos rfl, hsum, saturatedSigned, BitVec.msb_eq_toInt]
    simp only [decide_eq_true_eq]
    by_cases hlow : acc.toInt + prod.toInt < -2 ^ 31
    · rw [if_pos (.inl hlow), if_pos (by omega), max_eq_left (by omega)]
      rfl
    by_cases hhigh : 2 ^ 31 ≤ acc.toInt + prod.toInt
    · rw [if_pos (.inr hhigh), if_neg (by omega), min_eq_left (by omega)]
      rfl
    · rw [if_neg (by omega), min_eq_right (by omega), max_eq_right (by omega)]

/-- A carry out is a sum that does not fit, and 2^32 - 1 is then the nearest value. -/
theorem saturatedSum_unsigned (prod acc : Word) (saturate : Bool) :
    (if saturate && carryOf prod acc false then 0xFFFFFFFF#32 else prod + acc) =
      if saturate then BitVec.ofNat 32 (min (2 ^ 32 - 1) (acc.toNat + prod.toNat))
      else BitVec.ofNat 32 (acc.toNat + prod.toNat) := by
  have hsum : prod + acc = BitVec.ofNat 32 (acc.toNat + prod.toNat) := by
    rw [Nat.add_comm]
    exact BitVec.add_def ..
  cases saturate with
  | false => exact hsum
  | true =>
    rw [Bool.true_and, carryOf_false, if_pos rfl, hsum]
    simp only [decide_eq_true_eq]
    by_cases hhigh : 2 ^ 32 ≤ acc.toNat + prod.toNat
    · rw [if_pos hhigh, min_eq_left (by omega)]
      rfl
    · rw [if_neg hhigh, min_eq_right (by omega)]

/-! ### Whole instructions -/

/-- A signed accumulate of a quiet state gives the exact sum `r`, modulo 2^32 or saturated. -/
theorem computes_accumulateSigned {s : State} (hq : quiet s = true) {i : Instr} {rt : Reg} {prod : Word}
    {saturate oe rc : Bool} (he : exec i s = .next (advance s (accumulateSigned rt prod saturate oe rc s))) {r : Int}
    (hr : (gpr s rt).toInt + prod.toInt = r) :
    ∃ t, exec i s = .next t ∧
      Computes s t rt
        (if saturate then BitVec.ofInt 32 (max (-2 ^ 31) (min (2 ^ 31 - 1) r)) else BitVec.ofInt 32 r) none
        (decide (r < -2 ^ 31 ∨ 2 ^ 31 ≤ r)) oe rc := by
  rw [← hr, ← overflowOf_false, ← saturatedSum_signed]
  exact computes_deliver hq he

/-- An unsigned accumulate of a quiet state gives the exact sum `r`, modulo 2^32 or saturated. -/
theorem computes_accumulateUnsigned {s : State} (hq : quiet s = true) {i : Instr} {rt : Reg} {prod : Word}
    {saturate oe rc : Bool} (he : exec i s = .next (advance s (accumulateUnsigned rt prod saturate oe rc s))) {r : Nat}
    (hr : (gpr s rt).toNat + prod.toNat = r) :
    ∃ t, exec i s = .next t ∧
      Computes s t rt (if saturate then BitVec.ofNat 32 (min (2 ^ 32 - 1) r) else BitVec.ofNat 32 r) none
        (decide (2 ^ 32 ≤ r)) oe rc := by
  rw [← hr, ← carryOf_false, ← saturatedSum_unsigned]
  exact computes_deliver hq he

/-- Settles O21: each form is `computes_accumulateSigned` at its product or the negation of it. -/
theorem signedAccumulates : Obligations.SignedAccumulates := by
  intro s rt ra rb oe rc hq acc ah al bh bl
  have plus (a b : BitVec 16) : acc + (halfProduct true a b).toInt = acc + a.toInt * b.toInt :=
    congrArg (acc + ·) (toInt_halfProduct a b)
  have minus (a b : BitVec 16) : acc + (-halfProduct true a b).toInt = acc - a.toInt * b.toInt :=
    congrArg (acc + ·) (toInt_neg_halfProduct a b)
  iterate 12 rw [List.forall_mem_cons]
  exact ⟨computes_accumulateSigned hq rfl (plus _ _), computes_accumulateSigned hq rfl (plus _ _),
    computes_accumulateSigned hq rfl (plus _ _), computes_accumulateSigned hq rfl (plus _ _),
    computes_accumulateSigned hq rfl (plus _ _), computes_accumulateSigned hq rfl (plus _ _),
    computes_accumulateSigned hq rfl (minus _ _), computes_accumulateSigned hq rfl (minus _ _),
    computes_accumulateSigned hq rfl (minus _ _), computes_accumulateSigned hq rfl (minus _ _),
    computes_accumulateSigned hq rfl (minus _ _), computes_accumulateSigned hq rfl (minus _ _), List.forall_mem_nil _⟩

/-- Settles O22: each form is `computes_accumulateUnsigned` at its product. -/
theorem unsignedAccumulates : Obligations.UnsignedAccumulates := by
  intro s rt ra rb oe rc hq acc ah al bh bl
  have plus (a b : BitVec 16) : acc + (halfProduct false a b).toNat = acc + a.toNat * b.toNat :=
    congrArg (acc + ·) (toNat_halfProduct a b)
  iterate 6 rw [List.forall_mem_cons]
  exact ⟨computes_accumulateUnsigned hq rfl (plus _ _), computes_accumulateUnsigned hq rfl (plus _ _),
    computes_accumulateUnsigned hq rfl (plus _ _), computes_accumulateUnsigned hq rfl (plus _ _),
    computes_accumulateUnsigned hq rfl (plus _ _), computes_accumulateUnsigned hq rfl (plus _ _), List.forall_mem_nil _⟩

/-- Settles O23: each form delivers its product and writes no flag but CR0. -/
theorem halfwordProducts : Obligations.HalfwordProducts := by
  intro s rt ra rb rc hq ah al bh bl
  have signed {i : Instr} (a b : BitVec 16)
      (he : exec i s = .next (advance s (deliver rt (halfProduct true a b) none false false rc s))) :
      ∃ t, exec i s = .next t ∧ Computes s t rt (BitVec.ofInt 32 (a.toInt * b.toInt)) none false false rc :=
    computes_deliver hq he
  have unsigned {i : Instr} (a b : BitVec 16)
      (he : exec i s = .next (advance s (deliver rt (halfProduct false a b) none false false rc s))) :
      ∃ t, exec i s = .next t ∧ Computes s t rt (BitVec.ofInt 32 (a.toNat * b.toNat)) none false false rc := by
    rw [halfProduct_unsigned] at he
    exact computes_deliver hq he
  iterate 6 rw [List.forall_mem_cons]
  exact ⟨signed al bh rfl, unsigned al bh rfl, signed ah bh rfl, unsigned ah bh rfl, signed al bl rfl, unsigned al bl rfl,
    List.forall_mem_nil _⟩

end Sys2Proof.Machine
end

section
/-! SUPPORT. The logical instructions (R410 to R427): what each bit of their results is, and the count of leading zeros. -/

namespace Sys2Proof.Machine

/-! ### Bits of the results -/

/-- Exclusive or, written as the inequality of the bits. -/
theorem bit_xor (a b : Word) (k : Nat) : bit (a ^^^ b) k = (bit a k != bit b k) := BitVec.getMsbD_xor

/-- The immediate in the high halfword is its value times 2^16 (R414, R424, R427). -/
theorem zext16_shiftLeft (im : BitVec 16) : zext16 im <<< 16 = im.setWidth 32 * 65536#32 :=
  BitVec.shiftLeft_eq_mul_twoPow ..

/-- The low `n` bits of a word sign extended: on their left, copies of bit `32 - n` (R417, R418). -/
theorem bit_signExtend_low (w : Word) {n k : Nat} (hn : 0 < n) (hn32 : n ≤ 32) (hk : k < 32) :
    bit ((w.extractLsb' 0 n).signExtend 32) k = bit w (max (32 - n) k) := by
  have hpos : 31 - k < 32 := by omega
  rw [bit_eq_getLsbD hk, bit_eq_getLsbD (by omega), BitVec.getLsbD_signExtend]
  by_cases hlow : 31 - k < n
  · simp [hlow, hpos, show max (32 - n) k = k by omega]
  · simp [hlow, hpos, hn, BitVec.msb_eq_getLsbD_last, show max (32 - n) k = 32 - n by omega,
      show 31 - (32 - n) = n - 1 by omega]

/-- The count of zero bits before the first one, going down from bit `n - 1` (R415). -/
theorem leadingZeros_spec (w : Word) (n : Nat) :
    leadingZeros w n ≤ n ∧ (∀ j, j < leadingZeros w n → w.getLsbD (n - 1 - j) = false) ∧
      (leadingZeros w n < n → w.getLsbD (n - 1 - leadingZeros w n) = true) := by
  induction n with
  | zero => simp [leadingZeros]
  | succ n ih =>
    obtain ⟨hle, hzeros, hone⟩ := ih
    rw [leadingZeros]
    split
    next htop => simpa using htop
    next htop =>
      have below (j : Nat) : n + 1 - 1 - (j + 1) = n - 1 - j := by omega
      rw [Nat.add_comm 1]
      refine ⟨Nat.succ_le_succ hle, fun j hj => ?_, fun hlt => ?_⟩
      · cases j with
        | zero => simpa using htop
        | succ j =>
          rw [below]
          exact hzeros j (Nat.lt_of_succ_lt_succ hj)
      · rw [below]
        exact hone (Nat.lt_of_succ_lt_succ hlt)

/-! ### Whole instructions -/

/-- An instruction of a quiet state that delivers a result to RA computes it there and touches no XER bit (R410). -/
theorem computes_deliverRa {s : State} (hq : quiet s = true) {i : Instr} {ra : Reg} {v : Word} {rc : Bool}
    (he : exec i s = .next (advance s (deliverRa ra v rc s))) :
    ∃ t, exec i s = .next t ∧ Computes s t ra v none false false rc :=
  computes_deliver hq he

/-- `computes_deliverRa` with the result described bit by bit. -/
theorem computes_bits {s : State} (hq : quiet s = true) {i : Instr} {ra : Reg} {v : Word} {rc : Bool}
    (he : exec i s = .next (advance s (deliverRa ra v rc s))) {f : Nat → Bool} (hf : ∀ k, k < 32 → bit v k = f k) :
    ∃ t, exec i s = .next t ∧ (∀ k, k < 32 → bit (gpr t ra) k = f k) ∧
      Computes s t ra (gpr t ra) none false false rc := by
  obtain ⟨t, ht, hc⟩ := computes_deliverRa hq he
  obtain ⟨⟨rfl, -⟩, -⟩ := id hc
  exact ⟨t, ht, hf, hc⟩

/-- Settles O24: each form delivers its combination of bits, and `cntlzw` the count of `leadingZeros_spec`. -/
theorem logicals : Obligations.Logicals := by
  intro s ra rs rb im rc hq lo hi
  constructor
  · iterate 14 rw [List.forall_mem_cons]
    refine ⟨computes_bits hq rfl fun k _ => bit_and _ _ k, computes_bits hq rfl fun k hk => ?andc,
      computes_bits hq rfl fun k hk => ?eqv, computes_bits hq rfl fun k hk => ?nand,
      computes_bits hq rfl fun k hk => ?nor, computes_bits hq rfl fun k _ => bit_or _ _ k,
      computes_bits hq rfl fun k hk => ?orc, computes_bits hq rfl fun k _ => bit_xor _ _ k,
      computes_bits hq rfl fun k _ => bit_and _ lo k, computes_bits hq rfl fun k _ => ?andis,
      computes_bits hq rfl fun k _ => bit_or _ lo k, computes_bits hq rfl fun k _ => ?oris,
      computes_bits hq rfl fun k _ => bit_xor _ lo k, computes_bits hq rfl fun k _ => ?xoris, List.forall_mem_nil _⟩
    case andc => rw [bit_and, bit_not _ hk]
    case eqv => rw [bit_not _ hk, bit_xor, bne, Bool.not_not]
    case nand => rw [bit_not _ hk, bit_and]
    case nor => rw [bit_not _ hk, bit_or]
    case orc => rw [bit_or, bit_not _ hk]
    case andis => rw [bit_and, zext16_shiftLeft]
    case oris => rw [bit_or, zext16_shiftLeft]
    case xoris => rw [bit_xor, zext16_shiftLeft]
  · obtain ⟨hle, hzeros, hone⟩ := leadingZeros_spec (gpr s rs) 32
    obtain ⟨t, ht, hc⟩ := computes_deliverRa hq (i := .cntlzw rs ra rc) rfl
    exact ⟨t, leadingZeros (gpr s rs) 32, ht, hle, fun k hk => (bit_eq_getLsbD (by omega)).trans (hzeros k hk),
      fun hlt => (bit_eq_getLsbD hlt).trans (hone hlt), hc⟩

/-- Settles O25: both forms are the sign extension of `bit_signExtend_low`, of 8 and of 16 bits. -/
theorem signExtensions : Obligations.SignExtensions := by
  intro s ra rs rc hq
  exact ⟨computes_bits hq rfl fun _ hk => bit_signExtend_low _ (by decide) (by decide) hk,
    computes_bits hq rfl fun _ hk => bit_signExtend_low _ (by decide) (by decide) hk⟩

end Sys2Proof.Machine
end

section
/-! SUPPORT. The CR-logical instructions and `mcrf` (R460 to R469), and `bcctr` with BO[2] = 0 (R453, U25). -/

namespace Sys2Proof.Machine

/-! ### CR bits and fields -/

/-- A bit of a CR field is that bit of the CR (R33). -/
theorem crField_getMsbD (cr : Word) (n : BitVec 3) {j : Nat} (hj : j < 4) :
    (crField cr n).getMsbD j = bit cr (4 * n.toNat + j) := by
  have hn : n.toNat < 8 := n.isLt
  exact getMsbD_field cr (by omega) hj

/-- A state whose CR is that of another with one field put writes that field (R33). -/
theorem writesCrField_putCrField {s t : State} {n : BitVec 3} {v : BitVec 4} (h : t.cr = putCrField s.cr n v) :
    WritesCrField s t n (v.getMsbD 0) (v.getMsbD 1) (v.getMsbD 2) (v.getMsbD 3) := by
  have hn : n.toNat < 8 := n.isLt
  have written (j : Nat) (hj : j < 4) : bit t.cr (4 * n.toNat + j) = v.getMsbD j := by
    rw [h, bit_putCrField _ _ _ (by omega), if_pos ⟨by omega, by omega⟩, Nat.add_sub_cancel_left]
  refine ⟨written 0 (by decide), written 1 (by decide), written 2 (by decide), written 3 (by decide), fun k hk hout => ?_⟩
  rw [h, bit_putCrField _ _ _ hk, if_neg (by omega)]

/-! ### Whole instructions -/

/-- An instruction of a quiet state that sets one CR bit leaves the other bits, and changes nothing else (R460). -/
theorem setsCrBit_of {s : State} (hq : quiet s = true) {i : Instr} {bt : BitVec 5} {b : Bool}
    (he : exec i s = .next (advance s (setCrBit bt b s))) :
    ∃ t, exec i s = .next t ∧ (∀ k, k < 32 → bit t.cr k = if k = bt.toNat then b else bit s.cr k) ∧
      t = { s with cr := t.cr, pc := s.pc + 4#32 } := by
  rw [advance_quiet hq] at he
  refine ⟨_, he, fun k hk => ?_, rfl⟩
  rw [setCrBit_cr, bit_setBit _ _ bt.isLt hk]
  simp only [eq_comm]

/-- Settles O31: each CR-logical form is `setsCrBit_of` at its combination of bits, and `mcrf` puts a field that reads as
the bits of BFA. -/
theorem crLogicals : Obligations.CrLogicals := by
  intro s bt ba bb bf bfa hq a b
  constructor
  · iterate 8 rw [List.forall_mem_cons]
    exact ⟨setsCrBit_of hq rfl, setsCrBit_of hq rfl, setsCrBit_of hq rfl, setsCrBit_of hq rfl, setsCrBit_of hq rfl,
      setsCrBit_of hq rfl, setsCrBit_of hq rfl, setsCrBit_of hq rfl, List.forall_mem_nil _⟩
  · have he : exec (.mcrf bf bfa) s = .next (advance s (setCrField bf (crField s.cr bfa) s)) := rfl
    rw [advance_quiet hq] at he
    have hw := writesCrField_putCrField (s := s) (t := { setCrField bf (crField s.cr bfa) s with pc := s.pc + 4#32 }) rfl
    rw [crField_getMsbD _ _ (by decide), crField_getMsbD _ _ (by decide), crField_getMsbD _ _ (by decide),
      crField_getMsbD _ _ (by decide)] at hw
    exact ⟨_, he, hw, rfl⟩

/-- `bcctr` with BO[2] = 0 in a quiet state draws the count and the next address, and writes LR with LK (R453, U25). -/
theorem branchCtrFree_quiet {s : State} (hq : quiet s = true) (lk : Bool) :
    branchCtrFree lk s =
      { s with ctr := freeNow s, lr := if lk then s.pc + 4#32 else s.lr,
               pc := wordAligned (Config.freeWord (s.free + 1)), free := s.free + 2 } :=
  complete_plain (quiet_dbIC hq) _ _

/-- Settles O30: the branch with BO[2] = 0 is `branchCtrFree`, whose next address is cut to a word. -/
theorem branchToDecrementedCount : Obligations.BranchToDecrementedCount := by
  intro s bo bi lk hq hbo
  have he : exec (.bcctr bo bi lk) s = .next (branchCtrFree lk s) := if_neg (by simp [hbo])
  rw [branchCtrFree_quiet hq] at he
  exact ⟨_, he, aligned_wordAligned _, rfl, rfl⟩

end Sys2Proof.Machine
end

section
/-! SUPPORT. The rotates under a mask, bit by bit (R16, R481 to R483), and the shifts as products and quotients (R484 to R487). -/

namespace Sys2Proof.Machine

/-! ### Rotates and masks (R16) -/

theorem bit_rotl (w : Word) (n : Nat) {k : Nat} (hk : k < 32) : bit (rotl w n) k = bit w ((k + n) % 32) := by
  rw [bit, rotl, BitVec.getMsbD_rotateLeft, decide_eq_true hk, Bool.true_and, Nat.mod_add_mod, Nat.add_comm n]
  rfl

/-- The ones from bit MB on and the ones up to bit ME meet, or where MB > ME together wrap past bit 31. -/
theorem bit_maskBits (mb me : BitVec 5) {k : Nat} (hk : k < 32) :
    bit (maskBits mb.toNat me.toNat) k = underMask mb.toNat me.toNat k := by
  have hme : me.toNat < 32 := me.isLt
  have hfrom : bit (BitVec.allOnes 32 >>> mb.toNat) k = decide (mb.toNat ≤ k) := by
    have hin : k - mb.toNat < 32 := by omega
    rw [bit_ushiftRight _ _ hk, bit, BitVec.getMsbD_allOnes, decide_eq_true hin, Bool.and_true]
  have hupto : bit (BitVec.allOnes 32 <<< (31 - me.toNat)) k = decide (k ≤ me.toNat) := by
    rw [bit, BitVec.getMsbD_shiftLeft, BitVec.getMsbD_allOnes, decide_eq_decide]
    omega
  rw [maskBits, underMask]
  split
  · rw [bit_and, hfrom, hupto, Bool.decide_and]
  · rw [bit_or, hfrom, hupto, Bool.decide_or]

/-- RS rotated, and 0 outside the mask (R482, R483). -/
theorem bit_rotl_masked (v : Word) (n : Nat) (mb me : BitVec 5) {k : Nat} (hk : k < 32) :
    bit (rotl v n &&& maskBits mb.toNat me.toNat) k =
      if underMask mb.toNat me.toNat k then bit v ((k + n) % 32) else bit 0#32 k := by
  rw [bit_and, bit_rotl v n hk, bit_maskBits mb me hk, bit_zero]
  cases underMask mb.toNat me.toNat k with
  | true => exact Bool.and_true _
  | false => exact Bool.and_false _

/-- RS rotated, and another word outside the mask (R481). -/
theorem bit_rotl_inserted (v w : Word) (n : Nat) (mb me : BitVec 5) {k : Nat} (hk : k < 32) :
    bit ((rotl v n &&& maskBits mb.toNat me.toNat) ||| (w &&& ~~~maskBits mb.toNat me.toNat)) k =
      if underMask mb.toNat me.toNat k then bit v ((k + n) % 32) else bit w k := by
  rw [bit_or, bit_rotl_masked v n mb me hk, bit_and, bit_not _ hk, bit_maskBits mb me hk, bit_zero]
  cases underMask mb.toNat me.toNat k <;> simp

/-- The five-bit rotate amount of `rlwnm`, RB[27:31] (R483). -/
theorem rotateAmount_toNat (w : Word) : (field w 27 5).toNat = w.toNat % 32 := by
  rw [field_toNat]
  exact congrArg (· % 32) (Nat.div_one _)

/-- Settles O27: each form delivers the rotated word under the mask, `rlwimi` with RA's old bits outside it. -/
theorem rotates : Obligations.Rotates := by
  intro s ra rs rb sh mb me rc hq
  iterate 3 rw [List.forall_mem_cons]
  refine ⟨computes_bits hq rfl fun _ hk => bit_rotl_inserted _ _ _ mb me hk,
    computes_bits hq rfl fun _ hk => bit_rotl_masked _ _ mb me hk, ?_, List.forall_mem_nil _⟩
  rw [← rotateAmount_toNat]
  exact computes_bits hq rfl fun _ hk => bit_rotl_masked _ _ mb me hk

/-! ### Shifts (R484 to R487) -/

theorem shiftAmount_eq (w : Word) : shiftAmount w = w.toNat % 64 := by
  rw [shiftAmount, field_toNat]
  exact congrArg (· % 64) (Nat.div_one _)

theorem shiftLeft_eq_ofNat (v : Word) (n : Nat) : v <<< n = BitVec.ofNat 32 (v.toNat * 2 ^ n) := by
  apply BitVec.eq_of_toNat_eq
  rw [BitVec.toNat_shiftLeft, BitVec.toNat_ofNat, Nat.shiftLeft_eq]

theorem ushiftRight_eq_ofNat (v : Word) (n : Nat) : v >>> n = BitVec.ofNat 32 (v.toNat / 2 ^ n) := by
  rw [← Nat.shiftRight_eq_div_pow, ← BitVec.toNat_ushiftRight, BitVec.ofNat_toNat, BitVec.setWidth_eq]

/-- From 31 places on only the sign is left: the quotient rounded down is 0 or -1. -/
theorem toInt_div_two_pow_min (v : Word) (n : Nat) : v.toInt / 2 ^ min n 31 = v.toInt / 2 ^ n := by
  have hlt : v.toInt < 2 ^ 31 := BitVec.toInt_lt
  have hge : -2 ^ 31 ≤ v.toInt := BitVec.le_toInt v
  rcases Nat.le_total n 31 with hn | hn
  · rw [Nat.min_eq_left hn]
  · have hpow : (2 : Int) ^ 31 ≤ 2 ^ n := by gcongr; decide
    rw [Nat.min_eq_right hn]
    by_cases hneg : v.toInt < 0
    · rw [Int.ediv_eq_neg_one_of_neg_of_le hneg (by omega), Int.ediv_eq_neg_one_of_neg_of_le hneg (by omega)]
    · rw [Int.ediv_eq_zero_of_lt (by omega) hlt, Int.ediv_eq_zero_of_lt (by omega) (by omega)]

theorem shiftRightSigned_eq_ofInt (v : Word) (n : Nat) : shiftRightSigned v n = BitVec.ofInt 32 (v.toInt / 2 ^ n) := by
  rw [shiftRightSigned, BitVec.sshiftRight_eq, Int.shiftRight_eq_div_pow, ← toInt_div_two_pow_min]
  norm_cast

/-- The low `n` bits of a word are 0 exactly when 2^n divides its signed number; past 32 places both say that the word is 0. -/
theorem two_pow_dvd_toInt_iff (v : Word) (n : Nat) : (2 : Int) ^ n ∣ v.toInt ↔ 2 ^ min n 32 ∣ v.toNat := by
  have hcong : (2 : Int) ^ 32 ∣ v.toInt - v.toNat := by
    rw [BitVec.toInt_eq_toNat_cond]
    split_ifs <;> omega
  have hlow (m : Nat) (hm : m ≤ 32) : (2 : Int) ^ m ∣ v.toInt ↔ 2 ^ m ∣ v.toNat := by
    rw [Int.dvd_iff_dvd_of_dvd_sub ((pow_dvd_pow 2 hm).trans hcong)]
    exact_mod_cast Iff.rfl
  rcases Nat.le_total n 32 with hn | hn
  · rw [Nat.min_eq_left hn, hlow n hn]
  · rw [Nat.min_eq_right hn]
    refine ⟨fun h => (hlow 32 le_rfl).mp ((pow_dvd_pow 2 hn).trans h), fun h => ?_⟩
    have hzero : v = 0#32 := BitVec.eq_of_toNat_eq (Nat.eq_zero_of_dvd_of_lt h v.isLt)
    rw [hzero]
    exact dvd_zero _

/-- The carry of an algebraic shift is a negative number that 2^n does not divide (R486, R487). -/
theorem shiftCarry_eq (v : Word) (n : Nat) : shiftCarry v n = decide (v.toInt < 0 ∧ v.toInt % 2 ^ n ≠ 0) := by
  have hlost : v.toNat % 2 ^ min n 32 ≠ 0 ↔ v.toInt % 2 ^ n ≠ 0 := by
    rw [Ne, Ne, ← Nat.dvd_iff_mod_eq_zero, ← Int.dvd_iff_emod_eq_zero, two_pow_dvd_toInt_iff]
  rw [shiftCarry, BitVec.msb_eq_toInt, Bool.decide_and, decide_eq_decide.mpr hlost]

/-- An algebraic shift of a quiet state gives the quotient by 2^n rounded down, and its carry (R486, R487). -/
theorem computes_algebraicShift {s : State} (hq : quiet s = true) {i : Instr} {ra : Reg} {v : Word} {n : Nat} {rc : Bool}
    (he : exec i s = .next (advance s (deliverRa ra (shiftRightSigned v n) rc (setCA (shiftCarry v n) s)))) :
    ∃ t, exec i s = .next t ∧
      Computes s t ra (BitVec.ofInt 32 (v.toInt / 2 ^ n)) (some (decide (v.toInt < 0 ∧ v.toInt % 2 ^ n ≠ 0))) false false
        rc := by
  rw [← shiftRightSigned_eq_ofInt, ← shiftCarry_eq]
  exact computes_deliver hq he

/-- Settles O28: the logical shifts deliver a product or a quotient, the algebraic ones are `computes_algebraicShift`. -/
theorem shifts : Obligations.Shifts := by
  intro s ra rs rb sh rc hq n v
  have hn : n = shiftAmount (gpr s rb) := (shiftAmount_eq _).symm
  iterate 4 rw [List.forall_mem_cons]
  rw [hn, ← shiftLeft_eq_ofNat, ← ushiftRight_eq_ofNat]
  exact ⟨computes_deliverRa hq rfl, computes_deliverRa hq rfl, computes_algebraicShift hq rfl,
    computes_algebraicShift hq rfl, List.forall_mem_nil _⟩

end Sys2Proof.Machine
end

section
/-! SUPPORT. The operations on data cache lines that write back or discard (R183, R185, R502 to R504, R508). -/

namespace Sys2Proof.Machine

/-- In a quiet state that no other bus master disturbs a cache operation without an event is its operation, and the next instruction. -/
theorem cacheStep_eventless {s : State} (hq : quiet s = true) (hu : undisturbed s = true) (x31 : Bool) (op : State → State) :
    cacheStep 0#32 x31 op s = { undefinedCr0 x31 (op s) with pc := s.pc + 4#32 } := by
  rw [cacheStep, beforeEvent_zero, advance_quiet hq, busTurn_undisturbed hu]

/-! ### Dropping and cleaning a line -/

theorem DSet.way_put_same (d : DSet) (w : Bool) {x : DLine} (hv : x.valid = (d.get w).valid) (hl : x.line = (d.get w).line)
    (l : BitVec 27) : (d.put w x).way l = d.way l := by
  cases w
  · simp only [DSet.get, Bool.false_eq_true, if_false] at hv hl
    simp only [DSet.way, DSet.put, Bool.false_eq_true, if_false, hv, hl]
  · simp only [DSet.get, if_true] at hv hl
    simp only [DSet.way, DSet.put, if_true, hv, hl]

/-- Where a class keeps its lines' places, every address hits the way it did. -/
theorem dWay_setDSet_congr {s : State} (h : dcacheOk s = true) {k : Nat} {d : DSet} (hd : ∀ l, d.way l = (dSet s k).way l) (a : Word) :
    dWay (setDSet k d s) a = dWay s a := by
  change (if s.params.dcacheSize.classes = 0 then none else (dSet (setDSet k d s) (dClass s a)).way (lineOf a)) = _
  rw [dSet_setDSet h, dWay]
  by_cases hk : dClass s a = k
  · rw [if_pos hk, hd, hk]
  · rw [if_neg hk]

/-- A line written back stays in its way (R504). -/
theorem dWay_cleanLine {s : State} (h : dcacheOk s = true) (he : s.params.busErrors = []) (ra a : Word) :
    dWay (cleanLine ra s) a = dWay s a := by
  unfold cleanLine
  split
  · rename_i way hway
    dsimp only
    split
    · have hdc := busWrite_dcache (s := s) (d := false) he
        (lineBase ((dSet s (dClass s ra)).get way).line) ((dSet s (dClass s ra)).get way).data.toList
      have hparams := (busWrite_step (s := s) (d := false) he
        (lineBase ((dSet s (dClass s ra)).get way).line) ((dSet s (dClass s ra)).get way).data.toList).params
      generalize busWrite false _ _ s = s1 at hdc hparams ⊢
      have hset : dSet s1 (dClass s ra) = dSet s (dClass s ra) := by rw [dSet, hdc, dSet]
      have hok : dcacheOk s1 = true := by
        rw [dcacheOk_congr hdc hparams]
        exact h
      rw [dWay_setDSet_congr hok (DSet.way_put_same _ _ (by rw [hset]) (by rw [hset])), dWay_congr hdc hparams]
    · rfl
  · rfl

theorem dropLine_onlyLines {s : State} (h : dcacheOk s = true) (ra : Word) : OnlyLines s (dropLine ra s) := by
  obtain ⟨-, hrest, -⟩ := dropLine_spec h ra
  rw [OnlyLines, hrest]

/-- An address whose line and whose byte of storage stay reads as before. -/
theorem dataByte_of_lineAt {s t : State} {a : Word} (hline : lineAt t a = lineAt s a) (hmem : memByte t a = memByte s a) :
    dataByte t a = dataByte s a := by
  rw [dataByte_eq, dataByte_eq, hline, hmem]

theorem memByte_undefinedCr0 (x31 : Bool) (t : State) (pc a : Word) :
    memByte { undefinedCr0 x31 t with pc := pc } a = memByte t a := memByte_of_sto (undefinedCr0_sto x31 t) a

/-! ### `dcbf` and `dcbst` (R502, R504) -/

theorem exec_dcbf_quiet {s : State} (hq : quiet s = true) (hu : undisturbed s = true) {ra rb : Reg} {x31 : Bool} {x : Xlate}
    (hx : loadXlate s (eaX s ra rb) = .ok x) : exec (.dcbf ra rb x31) s =
      .next { undefinedCr0 x31 (dropLine x.ra (cleanLine x.ra s)) with pc := s.pc + 4#32 } :=
  congrArg Host.Outcome.next ((afterCheck_ok hx _ s).trans
    (cacheStep_quiet hq hu true (eaX s ra rb) x31 fun s => dropLine x.ra (cleanLine x.ra s)))

theorem exec_dcbst_quiet {s : State} (hq : quiet s = true) (hu : undisturbed s = true) {ra rb : Reg} {x31 : Bool} {x : Xlate}
    (hx : loadXlate s (eaX s ra rb) = .ok x) : exec (.dcbst ra rb x31) s =
      .next { undefinedCr0 x31 (cleanLine x.ra s) with pc := s.pc + 4#32 } :=
  congrArg Host.Outcome.next ((afterCheck_ok hx _ s).trans (cacheStep_quiet hq hu true (eaX s ra rb) x31 (cleanLine x.ra)))

/-- A line written back changes what no address reads as. -/
theorem dataByte_cleanLine {s : State} (hc : Cached s) (he : s.params.busErrors = []) (ra a : Word) :
    dataByte (cleanLine ra s) a = dataByte s a := by
  obtain ⟨-, -, hline, hmem⟩ := cleanLine_spec hc he ra
  by_cases ha : lineOf a = lineOf ra
  · rw [dataByte_eq (cleanLine ra s), hline, hmem, if_pos ha, if_pos ha, dataByte_eq]
    cases lineAt s a <;> rfl
  · exact dataByte_of_lineAt ((hline a).trans (if_neg ha)) ((hmem a).trans (if_neg ha))

/-- A line written back and dropped leaves its bytes in storage, where its addresses find them (R502). -/
theorem flushLine_spec {s : State} (hc : Cached s) (he : s.params.busErrors = []) (ra : Word) :
    OnlyLines s (dropLine ra (cleanLine ra s)) ∧ dWay (dropLine ra (cleanLine ra s)) ra = none ∧
      (∀ a, memByte (dropLine ra (cleanLine ra s)) a = if lineOf a = lineOf ra then dataByte s a else memByte s a) ∧
      ∀ a, dataByte (dropLine ra (cleanLine ra s)) a = dataByte s a := by
  obtain ⟨hclean, hstep, -, hmem⟩ := cleanLine_spec hc he ra
  have hview := dataByte_cleanLine hc he ra
  have honly := hstep.onlyLines.trans (dropLine_onlyLines hclean.dc ra)
  obtain ⟨-, hrest, hline⟩ := dropLine_spec hclean.dc ra
  have hmem' (a : Word) : memByte (dropLine ra (cleanLine ra s)) a = memByte (cleanLine ra s) a := by rw [hrest]; rfl
  refine ⟨honly, (lineAt_none_iff _ _).mp ((hline ra).trans (if_pos rfl)), fun a => (hmem' a).trans (hmem a), fun a => ?_⟩
  by_cases ha : lineOf a = lineOf ra
  · rw [dataByte_of_none ((hline a).trans (if_pos ha)), hmem', hmem, if_pos ha]
  · rw [dataByte_of_lineAt ((hline a).trans (if_neg ha)) (hmem' a), hview]

/-- Settles O41: `dcbf` leaves the line as `flushLine_spec` says, `dcbst` as `cleanLine_spec` does. -/
theorem lineFlushes : Obligations.LineFlushes := by
  intro s ra rb x31 hq hu hc he ea x hx
  obtain ⟨-, hstep, -, hcleanMem⟩ := cleanLine_spec hc he x.ra
  obtain ⟨honly, hway, hmem, hview⟩ := flushLine_spec hc he x.ra
  refine List.forall_mem_cons.mpr ⟨⟨_, exec_dcbf_quiet hq hu hx, ?_⟩,
    List.forall_mem_singleton.mpr ⟨_, exec_dcbst_quiet hq hu hx, ?_⟩⟩
  · exact ⟨fun a => (dataByte_undefinedCr0 x31 _ _ a).trans (hview a), fun a => (memByte_undefinedCr0 x31 _ _ a).trans (hmem a),
      (dWay_undefinedCr0 x31 _ _ _).trans hway, honly.bit31 x31 _, rfl, honly.onlyStorage x31 _⟩
  · exact ⟨fun a => (dataByte_undefinedCr0 x31 _ _ a).trans (dataByte_cleanLine hc he x.ra a),
      fun a => (memByte_undefinedCr0 x31 _ _ a).trans (hcleanMem a),
      (dWay_undefinedCr0 x31 _ _ _).trans (dWay_cleanLine hc.dc he x.ra x.ra), hstep.onlyLines.bit31 x31 _, rfl,
      hstep.onlyLines.onlyStorage x31 _⟩

/-! ### `dcbi` and `dccci` (R503, R508) -/

/-- What a discard of some addresses' lines leaves: storage, the line buffer without the line, and every other line (R183, R503, R508). -/
structure Discards (s t : State) (ra : Word) (gone : Word → Bool) : Prop where
  only   : OnlyLines s t
  mem    : ∀ a, memByte t a = memByte s a
  absent : ∀ a, gone a = true → dWay t a = none
  others : ∀ a, gone a = false → dataByte t a = dataByte s a
  buffer : bufferHas t ra = false

/-- The line buffer drops the line first, which is no matter to the data cache. -/
theorem discards_of {s t : State} {ra : Word} {gone : Word → Bool}
    (hrest : t = { dropBuffer ra s with sto := { (dropBuffer ra s).sto with dcache := t.sto.dcache } })
    (hline : ∀ a, lineAt t a = if gone a = true then none else lineAt (dropBuffer ra s) a) : Discards s t ra gone := by
  have hdc : (dropBuffer ra s).sto.dcache = s.sto.dcache := by
    unfold dropBuffer
    split <;> rfl
  have hmem (a : Word) : memByte t a = memByte s a := by
    rw [hrest]
    show memByte (dropBuffer ra s) a = _
    rw [memByte, dropBuffer_mem, memByte]
  refine ⟨(onlyLines_dropBuffer ra s).trans ?_, hmem, fun a ha => (lineAt_none_iff t a).mp ((hline a).trans (if_pos ha)),
    fun a ha => ?_, ?_⟩
  · rw [OnlyLines, hrest]
  · refine dataByte_of_lineAt ((hline a).trans ?_) (hmem a)
    rw [if_neg (by simp [ha]), lineAt_congr hdc (dropBuffer_params ra s)]
  · rw [hrest]
    exact bufferHas_dropBuffer ra s

theorem Discards.ends {s t : State} {ra : Word} {gone : Word → Bool} (h : Discards s t ra gone) {i : Instr} {x31 : Bool}
    (he : exec i s = .next { undefinedCr0 x31 t with pc := s.pc + 4#32 }) :
    ∃ t, exec i s = .next t ∧ (∀ a, memByte t a = memByte s a) ∧ (∀ a, gone a = true → dWay t a = none) ∧
      (∀ a, gone a = false → dataByte t a = dataByte s a) ∧ bufferHas t ra = false ∧ Bit31 s t x31 ∧
      t.pc = s.pc + 4#32 ∧ OnlyStorage s t := by
  refine ⟨_, he, fun a => (memByte_undefinedCr0 x31 t _ a).trans (h.mem a),
    fun a ha => (dWay_undefinedCr0 x31 t _ a).trans (h.absent a ha), fun a ha => (dataByte_undefinedCr0 x31 t _ a).trans (h.others a ha),
    ?_, h.only.bit31 x31 _, rfl, h.only.onlyStorage x31 _⟩
  rw [bufferHas, undefinedCr0_sto]
  exact h.buffer

theorem dropLine_discards {s : State} (h : dcacheOk s = true) (ra : Word) :
    Discards s (dropLine ra (dropBuffer ra s)) ra fun a => decide (lineOf a = lineOf ra) := by
  obtain ⟨-, hrest, hline⟩ := dropLine_spec ((work_dropBuffer ra s).dcache h) ra
  exact discards_of hrest fun a => by simp only [hline, decide_eq_true_eq]

theorem dropClass_discards {s : State} (h : dcacheOk s = true) (ra : Word) :
    Discards s (dropClass ra (dropBuffer ra s)) ra fun a => decide (dClass s a = dClass s ra) := by
  obtain ⟨-, hrest, hline⟩ := dropClass_spec ((work_dropBuffer ra s).dcache h) ra
  have hclass (a : Word) : dClass (dropBuffer ra s) a = dClass s a := by rw [dClass, dropBuffer_params, dClass]
  exact discards_of hrest fun a => by simp only [hline, hclass, decide_eq_true_eq]

theorem exec_dcbi_quiet {s : State} (hq : quiet s = true) (hu : undisturbed s = true) (hp : bit s.msr 17 = false) {ra rb : Reg}
    {x31 : Bool} {x : Xlate} (hx : invalidateXlate s (eaX s ra rb) = .ok x) : exec (.dcbi ra rb x31) s =
      .next { undefinedCr0 x31 (dropLine x.ra (dropBuffer x.ra s)) with pc := s.pc + 4#32 } :=
  congrArg Host.Outcome.next ((privileged_supervisor hp _).trans ((afterCheck_ok hx _ s).trans
    (cacheStep_quiet hq hu true (eaX s ra rb) x31 fun s => dropLine x.ra (dropBuffer x.ra s))))

theorem exec_dccci_quiet {s : State} (hq : quiet s = true) (hu : undisturbed s = true) (hp : bit s.msr 17 = false) {ra rb : Reg}
    {x31 : Bool} {x : Xlate} (hx : invalidateXlate s (eaX s ra rb) = .ok x) : exec (.dccci ra rb x31) s =
      .next { undefinedCr0 x31 (dropClass x.ra (dropBuffer x.ra s)) with pc := s.pc + 4#32 } :=
  congrArg Host.Outcome.next ((privileged_supervisor hp _).trans ((afterCheck_ok hx _ s).trans
    (cacheStep_eventless hq hu x31 fun s => dropClass x.ra (dropBuffer x.ra s))))

/-- Settles O42: both drop the line buffer's copy, then `dcbi` the line and `dccci` the class. -/
theorem lineInvalidates : Obligations.LineInvalidates := by
  intro s ra rb x31 hq hu hc hp ea x hx hw
  have hcheck : invalidateXlate s (eaX s ra rb) = .ok x := invalidateXlate_ok hx hw
  exact List.forall_mem_cons.mpr ⟨(dropLine_discards hc x.ra).ends (exec_dcbi_quiet hq hu hp hcheck),
    List.forall_mem_singleton.mpr ((dropClass_discards hc x.ra).ends (exec_dccci_quiet hq hu hp hcheck))⟩

end Sys2Proof.Machine
end

section
/-! SUPPORT. The instruction cache operations (R184, R203, R510 to R512): a line dropped, every line dropped, a line filled. -/

namespace Sys2Proof.Machine

/-! ### What they change -/

/-- At most the instruction cache and the counter of free values differ. -/
def OnlyInstrCache (s t : State) : Prop := t = { s with free := t.free, sto := { s.sto with icache := t.sto.icache } }

theorem OnlyInstrCache.refl (s : State) : OnlyInstrCache s s := rfl

theorem OnlyInstrCache.frame {s t : State} (h : OnlyInstrCache s t) (x31 : Bool) :
    let u := { undefinedCr0 x31 t with pc := s.pc + 4#32 }
    Bit31 s u x31 ∧ u.pc = s.pc + 4#32 ∧
      u = { s with pc := u.pc, cr := u.cr, free := u.free, sto := { s.sto with icache := u.sto.icache } } := by
  refine ⟨bit31_undefinedCr0 (by rw [h]) x31 _, rfl, ?_⟩
  dsimp only
  rw [writesUser_undefinedCr0 x31 t, undefinedCr0_gpr, h]

theorem dropInstrLine_only (ra : Word) (s : State) : OnlyInstrCache s (dropInstrLine ra s) := by
  unfold dropInstrLine
  split <;> rfl

theorem fillInstrLine_only (ra : Word) (e : Bool) (s : State) : OnlyInstrCache s (fillInstrLine ra e s) := by
  obtain ⟨n, hn⟩ := pick_state none ((fetchImages s ra false).map (fun m => instrFill m ra e)) s
  unfold fillInstrLine
  split
  · rename_i heq
    rw [heq] at hn
    subst hn
    rfl
  · rename_i heq
    rw [heq] at hn
    subst hn
    rfl

/-- Bit 31 and the next pc leave the instruction cache alone. -/
theorem iWay_undefinedCr0 (x31 : Bool) (t : State) (pc a : Word) : iWay { undefinedCr0 x31 t with pc := pc } a = iWay t a := by
  cases x31 <;> rfl

theorem instrCopy_undefinedCr0 (x31 : Bool) (t : State) (pc a : Word) :
    instrCopy { undefinedCr0 x31 t with pc := pc } a = instrCopy t a := by
  cases x31 <;> rfl

/-! ### Lines dropped (R510, R512) -/

/-- A way invalidated: its line is found no more, the other's as before. -/
theorem ISet.way_invalidate {n k : Nat} {d : ISet} (hd : d.ok n k = true) (w : Bool) (l : BitVec 27) :
    (d.put w { d.get w with valid := false }).way l =
      if (d.get w).valid = true ∧ l = (d.get w).line then none else d.way l := by
  obtain ⟨-, -, hdup⟩ := (ISet.ok_iff n k d).mp hd
  cases w
  · simp only [ISet.way, ISet.put, ISet.get, Bool.false_eq_true, if_false, Bool.false_and, Bool.and_eq_true, beq_iff_eq]
    grind
  · simp only [ISet.way, ISet.put, ISet.get, if_true, Bool.false_eq_true, if_false, Bool.false_and, Bool.and_eq_true, beq_iff_eq]
    grind

theorem iWay_dropInstrLine {s : State} (hi : icacheOk s = true) (ra a : Word) :
    iWay (dropInstrLine ra s) a = if lineOf a = lineOf ra then none else iWay s a := by
  cases hw : iWay s ra with
  | none =>
    have hsame : dropInstrLine ra s = s := by simp [dropInstrLine, hw]
    rw [hsame]
    split
    · next hl => rw [iWay_line hl, hw]
    · rfl
  | some w =>
    obtain ⟨hn, hv, hl⟩ := iWay_get hw
    simp only [dropInstrLine, hw]
    change (if s.params.icacheSize.classes = 0 then none else (iSet (setISet _ _ s) (iClass s a)).way (lineOf a)) = _
    rw [if_neg hn, iSet_setISet hi, iWay, if_neg hn]
    by_cases hk : iClass s a = iClass s ra
    · rw [if_pos hk, ISet.way_invalidate (icacheOk_iSet hi _), hl, hk]
      simp only [hv, true_and]
    · rw [if_neg hk, if_neg fun h => hk (by rw [iClass_eq, iClass_eq, h])]

theorem dropInstrClasses_invalid (m : List (Nat × ISet)) :
    (dropInstrClasses m).all (fun kd => !kd.2.a.valid && !kd.2.b.valid) = true := by
  induction m with
  | nil => rfl
  | cons kd m ih => exact all_mapSet ih fun _ => rfl

theorem iWay_dropInstrCache (s : State) (a : Word) : iWay (dropInstrCache s) a = none := by
  have hgone := mapGet_all (d := ISet.empty) (k := iClass s a) (dropInstrClasses_invalid s.sto.icache) rfl
  change (if s.params.icacheSize.classes = 0 then none
    else (mapGet ISet.empty (dropInstrClasses s.sto.icache) (iClass s a)).way (lineOf a)) = none
  generalize mapGet ISet.empty (dropInstrClasses s.sto.icache) (iClass s a) = d at hgone ⊢
  obtain ⟨ha, hb⟩ : d.a.valid = false ∧ d.b.valid = false := by simpa using hgone
  simp [ISet.way, ha, hb]

/-! ### A line filled (R511) -/

/-- What `icbt` does to the cache. -/
def touchInstrLine (x : Xlate) (s : State) : State :=
  if x.attrs.i || (iWay s x.ra).isSome then s else fillInstrLine x.ra x.attrs.e s

theorem touchInstr_some {s : State} {ea : Word} {x : Xlate} (h : xlateIcacheOp s ea = some x) (x31 : Bool) :
    touchInstr ea x31 s = cacheStep (cacheDacBits s false ea) x31 (touchInstrLine x) s := by
  rw [touchInstr, h]
  rfl

theorem touchInstr_none {s : State} {ea : Word} (h : xlateIcacheOp s ea = none) (x31 : Bool) :
    touchInstr ea x31 s = advance s (undefinedCr0 x31 s) := by
  rw [touchInstr, h]

theorem touchInstrLine_only (x : Xlate) (s : State) : OnlyInstrCache s (touchInstrLine x s) := by
  unfold touchInstrLine
  split
  · exact .refl s
  · exact fillInstrLine_only ..

theorem touchInstrLine_idle {s : State} {x : Xlate} (h : x.attrs.i = true ∨ iWay s x.ra ≠ none) : touchInstrLine x s = s :=
  if_pos (by simpa [Option.isSome_iff_ne_none] using h)

/-- With every write performed the fetcher finds storage as it stands, and fills the line from there (R184, R196, R203). -/
theorem fillInstrLine_performed {s : State} (hb : s.params.busErrors = []) (hn : s.params.icacheSize.classes ≠ 0)
    (hl : s.sto.late = []) (ra : Word) (e : Bool) :
    fillInstrLine ra e s = installInstrLine ra (memLine s (lineOf ra) e) s := by
  have hfill : instrFill s ra e = some (memLine s (lineOf ra) e) := by simp [instrFill, hn, busErrorIn_nil hb]
  rw [fillInstrLine, fetchImages_nil (missable_performed hl _ _), List.map_singleton, pick_single, hfill]

/-- The words that the addresses of a line find are those of the way that holds it. -/
theorem lineWord_of_instrCopy {t : State} {ra : Word} {word : Word → Word}
    (h : ∀ a, lineOf a = lineOf ra → instrCopy t a = some (word a)) :
    ∃ way, iWay t ra = some way ∧
      ∀ a, lineOf a = lineOf ra → lineWord ((iSet t (iClass t ra)).get way).words a = word a := by
  have hsome := h ra rfl
  obtain ⟨way, hway, -⟩ := Option.map_eq_some_iff.mp hsome
  refine ⟨way, hway, fun a ha => ?_⟩
  have hcopy := h a ha
  rw [instrCopy, iWay_line ha, hway, iClass_eq, ha, ← iClass_eq] at hcopy
  exact Option.some.inj hcopy

theorem instrCopy_touchInstrLine {s : State} (hi : icacheOk s = true) (hb : s.params.busErrors = [])
    (hn : s.params.icacheSize.classes ≠ 0) (hl : s.sto.late = []) {x : Xlate} (hinh : x.attrs.i = false)
    (hw : iWay s x.ra = none) {a : Word} (ha : lineOf a = lineOf x.ra) :
    instrCopy (touchInstrLine x s) a = some (memWord s (wordAligned a) x.attrs.e) := by
  rw [touchInstrLine, if_neg (by simp [hinh, hw]), fillInstrLine_performed hb hn hl,
    (instrCopy_installInstrLine hi hn hw _ a).1 ha, lineWord_memLine ha]

/-- Settles O45: each operation changes the instruction cache alone, `icbi` by `iWay_dropInstrLine`, `iccci` by
`iWay_dropInstrCache`, and `icbt` by `instrCopy_touchInstrLine`. -/
theorem instructionLines : Obligations.InstructionLines := by
  intro s ra rb x31 hq hu hi hb ea frame
  refine ⟨fun x hx hr => ?_, fun x hx hp => ?_, fun hp => ?_⟩
  · refine ⟨_, congrArg Host.Outcome.next ((afterCheck_ok (icbiXlate_ok hx hr) _ s).trans
      (cacheStep_quiet hq hu false ea x31 (dropInstrLine x.ra))), fun a => ?_, (dropInstrLine_only x.ra s).frame x31⟩
    rw [iWay_undefinedCr0, iWay_dropInstrLine hi]
  · have honly : OnlyInstrCache s (dropInstrCache s) := rfl
    refine ⟨_, congrArg Host.Outcome.next ((privileged_supervisor hp _).trans ((afterCheck_ok (matchXlate_ok hx) _ s).trans
      (cacheStep_eventless hq hu x31 dropInstrCache))), fun a => ?_, honly.frame x31⟩
    rw [iWay_undefinedCr0, iWay_dropInstrCache]
  · refine ⟨_, show exec (.icbt ra rb x31) s = .next (touchInstr ea x31 s) from
      congrArg Host.Outcome.next (privileged_supervisor hp _), ?_⟩
    cases hx : xlateIcacheOp s ea with
    | none =>
      rw [touchInstr_none hx, advance_quiet hq]
      exact ⟨(OnlyInstrCache.refl s).frame x31, fun _ => onlyPc_undefinedCr0 rfl x31 _, nofun⟩
    | some x =>
      rw [touchInstr_some hx, cacheStep_quiet hq hu]
      refine ⟨(touchInstrLine_only x s).frame x31, nofun, fun y hy => ?_⟩
      cases hy
      refine ⟨fun hidle => ?_, fun hinh hn hw hl => lineWord_of_instrCopy fun a ha => ?_⟩
      · rw [touchInstrLine_idle hidle]
        exact onlyPc_undefinedCr0 rfl x31 _
      · rw [instrCopy_undefinedCr0, instrCopy_touchInstrLine hi hb hn hl hinh hw ha]

end Sys2Proof.Machine
end

section
/-! SUPPORT. The reads of the cache arrays (R74, R95, R509, R513): the bits of a tag, and the word of a line. -/

namespace Sys2Proof.Machine

/-! ### Tags -/

theorem bit_lineBase (l : BitVec 27) (k : Nat) : bit (lineBase l) k = l.getMsbD k := by
  rw [bit, lineBase, BitVec.getMsbD_append]
  split
  · next h => simp [BitVec.getMsbD_of_ge l k h]
  · rfl

theorem bit_ite_weight (b : Bool) {i k : Nat} (hi : i < 32) (hk : k < 32) :
    bit (if b then weight i else 0#32) k = (k == i && b) := by
  cases b
  · simp [bit_zero]
  · simp [bit_weight_beq hi hk]

theorem bit_dataTag (d : DSet) (way : Bool) {k : Nat} (hk : k < 32) :
    bit (dataTag d way) k =
      if k < 20 then (d.get way).line.getMsbD k else if k = 26 then (d.get way).dirty
      else if k = 27 then (d.get way).valid else (k == 31 && d.lruB) := by
  have hmask : ∀ j, j < 32 → bit 0xFFFFF000#32 j = decide (j < 20) := by decide
  simp only [dataTag, bit_or, bit_and, bit_lineBase, hmask k hk, bit_ite_weight _ (by decide : 26 < 32) hk,
    bit_ite_weight _ (by decide : 27 < 32) hk, bit_ite_weight _ (by decide : 31 < 32) hk]
  grind

theorem bit_instrTag (d : ISet) (way : Bool) {k : Nat} (hk : k < 32) :
    bit (instrTag d way) k =
      if k < 22 then (d.get way).line.getMsbD k else if k = 27 then (d.get way).valid else (k == 31 && d.lruB) := by
  have hmask : ∀ j, j < 32 → bit 0xFFFFFC00#32 j = decide (j < 22) := by decide
  simp only [instrTag, bit_or, bit_and, bit_lineBase, hmask k hk, bit_ite_weight _ (by decide : 27 < 32) hk,
    bit_ite_weight _ (by decide : 31 < 32) hk]
  grind

/-! ### Words -/

theorem wordAligned_of_aligned {a : Word} (h : a.toNat % 4 = 0) : wordAligned a = a := by
  apply BitVec.eq_of_toNat_eq
  rw [wordAligned_toNat]
  omega

/-- The data word at an aligned address is the number that its bytes of the line stand for (R509). -/
theorem dataWord_aligned (l : DLine) {ra : Word} (h : ra.toNat % 4 = 0) :
    dataWord l ra =
      BitVec.ofNat 32 (scalarNat false ((List.range 4).map fun j => lineByte l.data (ra.toNat % 32 + j))) := by
  rw [dataWord, wordAligned_of_aligned h, bytesWord_eq, lineBytes, lineOffset_toNat]
  rfl

theorem lineWord_eq_getElem (v : Vector Word 8) (ra : Word) : lineWord v ra = v[ra.toNat % 32 / 4]! := by
  have hlt : ra.toNat % 32 / 4 < 8 := by omega
  rw [getElem!_pos v _ hlt]
  simp only [lineWord, lineOffset_toNat, Nat.mod_eq_of_lt hlt]

/-! ### Whole instructions -/

/-- What `dcread` puts in RT on a core with a data cache array. -/
def arrayData (s : State) (ra : Word) : Word :=
  let d := dSet s (dClass s ra)
  if bit s.attr.ccr0 27 then dataTag d (bit s.attr.ccr0 31) else dataWord (d.get (bit s.attr.ccr0 31)) ra

theorem readDataArray_array {s : State} (hn : s.params.dcacheSize.classes ≠ 0) (rt : Reg) (ra : Word) :
    readDataArray rt ra s = setGpr rt (arrayData s ra) s := if_neg hn

theorem exec_dcread_quiet {s : State} (hq : quiet s = true) (hu : undisturbed s = true) (hp : bit s.msr 17 = false)
    {rt ra rb : Reg} {x31 : Bool} {x : Xlate} (hx : xlateIcacheOp s (eaX s ra rb) = some x)
    (ha : (eaX s ra rb).toNat % 4 = 0) (hn : s.params.dcacheSize.classes ≠ 0) :
    exec (.dcread rt ra rb x31) s =
      .next { undefinedCr0 x31 (setGpr rt (arrayData s x.ra) s) with pc := s.pc + 4#32 } := by
  refine congrArg Host.Outcome.next ((privileged_supervisor hp _).trans ((afterCheck_ok (matchXlate_ok hx) _ s).trans ?_))
  rw [readData, if_neg fun h => h (lowBits_aligned ha), cacheStep_eventless hq hu, readDataArray_array hn]

/-- What `icread` puts in ICDBDR on a core with an instruction cache array. -/
def arrayInstr (s : State) (ra : Word) : Word :=
  let d := iSet s (iClass s ra)
  if bit s.attr.ccr0 27 then instrTag d (bit s.attr.ccr0 31) else lineWord (d.get (bit s.attr.ccr0 31)).words ra

theorem readInstrArray_array {s : State} (hn : s.params.icacheSize.classes ≠ 0) (ra : Word) :
    readInstrArray ra s = { s with icdbdr := arrayInstr s ra, icdbdrOpen := true } := if_neg hn

theorem exec_icread_quiet {s : State} (hq : quiet s = true) (hu : undisturbed s = true) (hp : bit s.msr 17 = false)
    {ra rb : Reg} {x31 : Bool} {x : Xlate} (hx : xlateIcacheOp s (eaX s ra rb) = some x)
    (hn : s.params.icacheSize.classes ≠ 0) :
    exec (.icread ra rb x31) s =
      .next { undefinedCr0 x31 { s with icdbdr := arrayInstr s x.ra, icdbdrOpen := true } with pc := s.pc + 4#32 } := by
  refine congrArg Host.Outcome.next ((privileged_supervisor hp _).trans ((afterCheck_ok (matchXlate_ok hx) _ s).trans ?_))
  rw [cacheStep_eventless hq hu, readInstrArray_array hn]

/-- Settles O46: RT takes `arrayData` and ICDBDR `arrayInstr`, whose words and tag bits are those of the way that CCR0[CWS] names. -/
theorem arrayReads : Obligations.ArrayReads := by
  intro s rt ra rb x31 hq hu hp ea x hx d dl c cl tag
  refine ⟨fun ha hn => ?_, fun hn => ?_⟩
  · have haligned : x.ra.toNat % 4 = 0 := by
      have hmod : x.ra.toNat % 1024 = ea.toNat % 1024 := xlate_mod hx
      omega
    obtain ⟨hrt, hothers⟩ := writesGpr_of_gpr (s := s) (u := s) (r := rt) (v := arrayData s x.ra) rfl (undefinedCr0_gpr x31 _)
    refine ⟨_, exec_dcread_quiet hq hu hp hx ha hn, fun htag => ?_, fun htag k hk => ?_, hothers, bit31_undefinedCr0 rfl x31 _, rfl, ?_⟩
    · exact hrt.trans ((if_neg (by simpa using htag)).trans (dataWord_aligned dl haligned))
    · exact (congrArg (bit · k) (hrt.trans (if_pos htag))).trans (bit_dataTag d (bit s.attr.ccr0 31) hk)
    · rw [writesUser_undefinedCr0 x31 _]
      rfl
  · have hreg : (undefinedCr0 x31 { s with icdbdr := arrayInstr s x.ra, icdbdrOpen := true }).icdbdr = arrayInstr s x.ra :=
      undefinedCr0_icdbdr x31 _
    refine ⟨_, exec_icread_quiet hq hu hp hx hn, fun htag => ?_, fun htag k hk => ?_, bit31_undefinedCr0 rfl x31 _, rfl, ?_⟩
    · exact hreg.trans ((if_neg (by simpa using htag)).trans (lineWord_eq_getElem cl.words x.ra))
    · exact (congrArg (bit · k) (hreg.trans (if_pos htag))).trans (bit_instrTag c (bit s.attr.ccr0 31) hk)
    · cases x31 <;> rfl

end Sys2Proof.Machine
end

section
/-! SUPPORT. The alignment interrupt (R507, R509, R604, R645): where each of the four instructions that may take it does. -/

namespace Sys2Proof.Machine

/-- What an instruction does that is not aligned, or not allowed in its storage: the alignment interrupt, with DEAR alone written
(R645). -/
def TakesAlignment (s : State) (i : Instr) (ea : Word) : Prop :=
  ∃ t, exec i s = .next t ∧ EntersNoncritical s t 0x0600#32 (wordAligned s.pc) ∧ t.exc.dear = ea ∧ t.exc.esr = s.exc.esr

theorem takesAlignment_of_exec {s : State} (hq : quiet s = true) (hw : s.dbg.run ≠ .debugWait) {i : Instr} {ea : Word}
    (he : exec i s = .next (alignmentInterrupt ea s)) : TakesAlignment s i ea := by
  refine ⟨_, he, ?_⟩
  have hquiet : dbEDE (setDear ea s) = false := quiet_dbEDE hq
  rw [alignmentInterrupt, takeInterrupt_plain hquiet, enter_noncritical _ _ (setDear ea s) hw]
  exact ⟨⟨rfl, rfl, rfl, rfl, rfl, rfl, rfl, rfl⟩, rfl, rfl⟩

theorem lowBits_unaligned {ea : Word} (h : ea.toNat % 4 ≠ 0) : ea.extractLsb' 0 2 ≠ 0#2 := fun e => h <| by
  simpa using congrArg BitVec.toNat e

/-! ### Each instruction -/

theorem exec_lwarx_unaligned {s : State} {rt ra rb : Reg} {x31 : Bool} {x : Xlate} (hx : loadXlate s (eaX s ra rb) = .ok x)
    (ha : (eaX s ra rb).toNat % 4 ≠ 0) : exec (.lwarx rt ra rb x31) s = .next (alignmentInterrupt (eaX s ra rb) s) := by
  change Host.Outcome.next (loadReserve rt (eaX s ra rb) x31 s) = _
  rw [loadReserve, hx]
  exact congrArg _ (if_pos (lowBits_unaligned ha))

/-- Without the reservation `stwcx.` is checked for alignment alone, and with it for alignment once the store check has passed (R318,
D19). -/
theorem exec_stwcxRc_unaligned {s : State} {rs ra rb : Reg} (h : s.reserve = false ∨ ∃ x, storeXlate s (eaX s ra rb) = .ok x)
    (ha : (eaX s ra rb).toNat % 4 ≠ 0) : exec (.stwcxRc rs ra rb) s = .next (alignmentInterrupt (eaX s ra rb) s) := by
  change execStwcxRc rs ra rb s = _
  cases hr : s.reserve with
  | false =>
    rw [execStwcxRc, if_neg (by simp [hr]), storeRefused, if_pos (lowBits_unaligned ha)]
  | true =>
    obtain ⟨x, hx⟩ := h.resolve_left (by simp [hr])
    rw [execStwcxRc, if_pos hr, storeConditional, hx]
    exact congrArg _ (if_pos (lowBits_unaligned ha))

theorem exec_dcread_unaligned {s : State} (hp : bit s.msr 17 = false) {rt ra rb : Reg} {x31 : Bool} {x : Xlate}
    (hx : xlateIcacheOp s (eaX s ra rb) = some x) (ha : (eaX s ra rb).toNat % 4 ≠ 0) :
    exec (.dcread rt ra rb x31) s = .next (alignmentInterrupt (eaX s ra rb) s) :=
  congrArg Host.Outcome.next ((privileged_supervisor hp _).trans
    ((afterCheck_ok (matchXlate_ok hx) _ s).trans (if_pos (lowBits_unaligned ha))))

/-- `dcbz` establishes no line in storage that is not cachable or is write-through, and none without an array (R507, U29). -/
theorem exec_dcbz_refused {s : State} {ra rb : Reg} {x31 : Bool} {x : Xlate} (hx : storeXlate s (eaX s ra rb) = .ok x)
    (h : x.attrs.i = true ∨ x.attrs.w = true ∨ s.params.dcacheSize.classes = 0) :
    exec (.dcbz ra rb x31) s = .next (alignmentInterrupt (eaX s ra rb) s) :=
  congrArg Host.Outcome.next ((afterCheck_ok hx _ s).trans (if_pos (by simpa [or_assoc] using h)))

/-- Settles O56: each instruction comes to the alignment interrupt once its own check has passed. -/
theorem alignmentTraps : Obligations.AlignmentTraps := by
  intro s rt ra rb x31 hq hw ea traps
  have taken {i : Instr} (he : exec i s = .next (alignmentInterrupt ea s)) : traps i := takesAlignment_of_exec hq hw he
  refine ⟨fun ha => ⟨fun x hx => taken (exec_lwarx_unaligned hx ha), fun x hx => taken (exec_stwcxRc_unaligned (.inr ⟨x, hx⟩) ha),
    fun hr => taken (exec_stwcxRc_unaligned (.inl hr) ha), fun x hx hp => taken (exec_dcread_unaligned hp hx ha)⟩,
    fun x hx h => taken (exec_dcbz_refused hx h)⟩

end Sys2Proof.Machine
end

section
/-! SUPPORT. User mode is confined (R607, R680 to R682): what no instruction of the problem state writes, and what even the entry to an
interrupt leaves alone. -/

namespace Sys2Proof.Machine

/-! ### What is out of the problem state's reach -/

/-- What neither an instruction of the problem state nor the entry to an interrupt writes: the debug registers stand here without the
DBSR and the run state, and the interrupt registers by the EVPR alone (R604 to R607, R680). -/
structure Configuration where
  mmu    : MmuRegs
  attr   : AttrRegs
  tmr    : TimerRegs
  sprg   : Vector Word 8
  dcr    : DcrSpace
  icdbdr : Word
  dbg    : DebugRegs
  evpr   : Word

def configuration (s : State) : Configuration where
  mmu    := s.mmu
  attr   := s.attr
  tmr    := s.tmr
  sprg   := s.sprg
  dcr    := s.dcr
  icdbdr := s.icdbdr
  dbg    := { s.dbg with dbsr := 0#32, run := .running }
  evpr   := s.exc.evpr

/-- What no instruction of the problem state writes unless an interrupt is taken (R680). -/
structure Supervisor where
  configuration : Configuration
  msr           : Word
  exc           : ExcRegs

def supervisor (s : State) : Supervisor := { configuration := configuration s, msr := s.msr, exc := s.exc }

theorem configuration_of_supervisor {s t : State} (h : supervisor t = supervisor s) : configuration t = configuration s :=
  congrArg Supervisor.configuration h

theorem msr_of_supervisor {s t : State} (h : supervisor t = supervisor s) : t.msr = s.msr := congrArg Supervisor.msr h

/-- An interrupt has been taken since `s`: supervisor state, at a vector (R604 to R607). -/
structure Entered (s t : State) : Prop where
  configuration : configuration t = configuration s
  msr           : bit t.msr 17 = false
  pc            : ∃ off ∈ vectors, t.pc = vectorAddress s off

/-- Nothing is written that is out of the problem state's reach, or an interrupt has been taken. -/
def Confined (s t : State) : Prop := supervisor t = supervisor s ∨ Entered s t

theorem vectorAddress_congr {s t : State} (h : configuration t = configuration s) (off : Word) :
    vectorAddress t off = vectorAddress s off := by
  have hevpr : t.exc.evpr = s.exc.evpr := congrArg Configuration.evpr h
  rw [vectorAddress, vectorAddress, hevpr]

theorem Confined.after {s t u : State} (h : supervisor t = supervisor s) (g : Confined t u) : Confined s u := by
  have hconf := configuration_of_supervisor h
  refine g.imp (·.trans h) fun ⟨hc, hm, off, ho, hpc⟩ => ⟨hc.trans hconf, hm, off, ho, ?_⟩
  rw [hpc, vectorAddress_congr hconf]

theorem Confined.ite {s t u : State} {c : Prop} [Decidable c] (ht : Confined s t) (hu : Confined s u) :
    Confined s (if c then t else u) := by
  split <;> assumption

theorem supervisor_ite {s t u : State} {c : Prop} [Decidable c] (ht : supervisor t = supervisor s) (hu : supervisor u = supervisor s) :
    supervisor (if c then t else u) = supervisor s := by
  split <;> assumption

theorem StorageWork.supervisor {s t : State} (h : StorageWork s t) : supervisor t = supervisor s := by
  rw [h.rest]
  rfl

/-! ### Events and interrupts -/

theorem entered_enter {s t : State} (h : configuration t = configuration s) (c : IntClass) {off : Word} (ho : off ∈ vectors) (a : Word) :
    Entered s (enter c off a t) := by
  have hkept : bit c.msrKept 17 = false := by cases c <;> decide
  refine ⟨?_, ?_, off, ho, vectorAddress_congr h off⟩
  · rw [← h]
    cases c <;> rfl
  · rw [enter_msr, bit_and, hkept, Bool.and_false]

/-- A debug event leaves what is out of reach alone, the pc staying or taking the address saved, or takes the debug interrupt (R722 to
R725). -/
theorem debugEvent_supervisor_or_enter (mode : State) (bits a : Word) (t : State) :
    (supervisor (debugEvent mode bits a t) = supervisor t ∧
        ((debugEvent mode bits a t).pc = t.pc ∨ (debugEvent mode bits a t).pc = a)) ∨
      debugEvent mode bits a t = enter .critical 0x2000#32 a (recordEvent mode bits t) := by
  rcases debugEvent_cases mode bits a t with ⟨_, e⟩ | ⟨_, _, e⟩ | ⟨_, _, _, _, e⟩ | ⟨_, _, _, _, e⟩ | ⟨_, _, _, _, e⟩ |
      ⟨_, _, _, _, e⟩ <;> rw [e]
  · exact .inl ⟨rfl, .inl rfl⟩
  · exact .inl ⟨rfl, .inr rfl⟩
  · exact .inr rfl
  · exact .inl ⟨rfl, .inl rfl⟩
  · exact .inl ⟨rfl, .inr rfl⟩
  · exact .inl ⟨rfl, .inl rfl⟩

theorem entered_debugInterrupt {s t : State} (h : configuration t = configuration s) (mode : State) (bits a : Word) :
    Entered s (enter .critical 0x2000#32 a (recordEvent mode bits t)) :=
  entered_enter (t := recordEvent mode bits t) h .critical (by decide) a

/-- At a vector a debug event saves that vector's address, or enters at its own. -/
theorem Entered.debugEvent {s t : State} (h : Entered s t) (mode : State) (bits : Word) : Entered s (debugEvent mode bits t.pc t) := by
  rcases debugEvent_supervisor_or_enter mode bits t.pc t with ⟨hs, hpc⟩ | e
  · exact ⟨(configuration_of_supervisor hs).trans h.configuration, (msr_of_supervisor hs).symm ▸ h.msr, (hpc.elim id id).symm ▸ h.pc⟩
  · exact e ▸ entered_debugInterrupt h.configuration mode bits t.pc

theorem confined_debugEvent {s t : State} (h : supervisor t = supervisor s) (mode : State) (bits a : Word) :
    Confined s (debugEvent mode bits a t) := by
  rcases debugEvent_supervisor_or_enter mode bits a t with ⟨hs, -⟩ | e
  · exact .inl (hs.trans h)
  · exact .inr (e ▸ entered_debugInterrupt (configuration_of_supervisor h) mode bits a)

theorem confined_takeInterrupt {s t : State} (h : configuration t = configuration s) (c : IntClass) {off : Word} (ho : off ∈ vectors)
    (a : Word) : Confined s (takeInterrupt c off a t) := by
  have he := entered_enter h c ho a
  unfold takeInterrupt exceptionEvent
  exact .ite (.inr (he.debugEvent _ _)) (.inr he)

theorem confined_programInterrupt (cause : Word) (s : State) : Confined s (programInterrupt cause s) :=
  confined_takeInterrupt (s := s) (t := setEsr (s.exc.esr &&& esrMCI ||| cause) s) rfl .noncritical (off := 0x0700#32) (by decide) s.pc

theorem confined_alignmentInterrupt (ea : Word) (s : State) : Confined s (alignmentInterrupt ea s) :=
  confined_takeInterrupt (s := s) (t := setDear ea s) rfl .noncritical (off := 0x0600#32) (by decide) s.pc

theorem confined_dataInterrupt (store : Bool) (ea : Word) (f : DataFault) (s : State) : Confined s (dataInterrupt store ea f s) := by
  refine confined_takeInterrupt (s := s) (t := setDear ea (setEsr (dataFaultEsr store f s) s)) rfl .noncritical ?_ s.pc
  cases f
  · decide
  · exact (by decide : 0x0300#32 ∈ vectors)

theorem confined_beforeEvent {bits : Word} {k : State → State} {s : State} (hk : ∀ u, Confined u (k u)) :
    Confined s (beforeEvent bits k s) :=
  .ite (hk s) (.ite (confined_debugEvent rfl s bits s.pc) (.after (t := recordEvent s bits s) rfl (hk _)))

theorem confined_complete {s t : State} (h : supervisor t = supervisor s) (mode : State) (nia dvc : Word) :
    Confined s (complete mode nia dvc t) :=
  confined_debugEvent (t := { t with pc := nia }) h mode _ nia

theorem confined_advance {s t : State} (h : supervisor t = supervisor s) : Confined s (advance s t) := confined_complete h s _ _

/-! ### Writes of the user registers -/

theorem supervisor_undefinedCr0 (x31 : Bool) (s : State) : supervisor (undefinedCr0 x31 s) = supervisor s := supervisor_ite rfl rfl

theorem supervisor_recordCr0 (rc : Bool) (v : Word) (s : State) : supervisor (recordCr0 rc v s) = supervisor s := supervisor_ite rfl rfl

theorem supervisor_setOv (oe ov : Bool) (s : State) : supervisor (setOv oe ov s) = supervisor s := supervisor_ite rfl rfl

theorem supervisor_deliver (rt : Reg) (v : Word) (ca : Option Bool) (ov oe rc : Bool) (s : State) :
    supervisor (deliver rt v ca ov oe rc s) = supervisor s := by
  refine (supervisor_recordCr0 rc v _).trans ((supervisor_setOv oe ov _).trans ?_)
  cases ca <;> rfl

theorem supervisor_deliverRa (ra : Reg) (v : Word) (rc : Bool) (s : State) : supervisor (deliverRa ra v rc s) = supervisor s :=
  supervisor_recordCr0 rc v _

theorem supervisor_accumulateSigned (rt : Reg) (prod : Word) (saturate oe rc : Bool) (s : State) :
    supervisor (accumulateSigned rt prod saturate oe rc s) = supervisor s := by
  unfold accumulateSigned
  exact supervisor_deliver ..

theorem supervisor_accumulateUnsigned (rt : Reg) (prod : Word) (saturate oe rc : Bool) (s : State) :
    supervisor (accumulateUnsigned rt prod saturate oe rc s) = supervisor s := by
  unfold accumulateUnsigned
  exact supervisor_deliver ..

theorem supervisor_divideUndefined (rt : Reg) (oe rc : Bool) (s : State) : supervisor (divideUndefined rt oe rc s) = supervisor s :=
  have hfree (v : Word) (t : State) : supervisor (recordCr0Free rc v t) = supervisor t := supervisor_ite rfl rfl
  (hfree _ _).trans (supervisor_setOv oe true _)

theorem supervisor_loadUpdateWrite (rt ra : Reg) (ea v : Word) (s : State) :
    supervisor (loadUpdateWrite rt ra ea v s) = supervisor s := supervisor_ite rfl rfl

theorem supervisor_loadWords (fuel r : Nat) (skip : Nat → Bool) (bs : List (Byte × Bool)) (s : State) :
    supervisor (loadWords fuel r skip bs s) = supervisor s := by
  induction fuel generalizing r bs s with
  | zero => rfl
  | succ fuel ih => exact supervisor_ite rfl ((ih _ _ _).trans (supervisor_ite rfl rfl))

theorem supervisor_loadString (fuel : Nat) (r : Reg) (skip : Reg → Bool) (bs : List Byte) (s : State) :
    supervisor (loadString fuel r skip bs s) = supervisor s := by
  induction fuel generalizing r bs s with
  | zero => rfl
  | succ fuel ih => exact supervisor_ite rfl ((ih _ _ _).trans (supervisor_ite rfl rfl))

theorem supervisor_moveFromSpr (rt : Reg) (n : BitVec 10) (s : State) : supervisor (moveFromSpr rt n s) = supervisor s := by
  unfold moveFromSpr
  split <;> rfl

/-- The registers that `mtspr` may name in the problem state are the XER, LR, CTR and USPRG0 (R47, R569). -/
theorem confined_moveToSpr_user {n : BitVec 10} (hn : userWritable n = true) (v : Word) (s : State) :
    Confined s (moveToSpr n v s) := by
  have hmem := (userWritable_iff n).mp hn
  simp only [List.mem_cons, List.not_mem_nil, or_false] at hmem
  rcases hmem with rfl | rfl | rfl | rfl
  all_goals exact confined_advance rfl

/-! ### Loads and stores -/

theorem confined_loadBytes {ea : Word} {n : Nat} {part done : List (Byte × Bool) → State → State} {s : State}
    (hp : ∀ bs u, supervisor (part bs u) = supervisor u) (hd : ∀ bs u, supervisor (done bs u) = supervisor u) :
    Confined s (loadBytes ea n part done s) := by
  have hload (us : List UnitAccess) (u : State) : supervisor (loadUnits us u).2 = supervisor u := (work_loadUnits us u).supervisor
  unfold loadBytes
  split
  · exact confined_beforeEvent fun u => .ite (confined_dataInterrupt _ _ _ u)
      (.after ((hp _ _).trans (hload _ (drawn 1 u))) (confined_dataInterrupt _ _ _ _))
  · exact confined_beforeEvent fun u => confined_complete (t := drawn _ _) ((hd _ _).trans (hload _ u)) _ _ _

theorem confined_storeBytes {ea : Word} {n : Nat} {bytes : List Bool → List Byte} {done : State → State} {s : State}
    (hd : ∀ u, supervisor (done u) = supervisor u) : Confined s (storeBytes ea n bytes done s) := by
  have hstore (us : List UnitAccess) (bs : List Byte) (u : State) : supervisor (storeUnits us bs u) = supervisor u :=
    (work_storeUnits us bs u).supervisor
  unfold storeBytes
  split
  · exact confined_beforeEvent fun u => .ite (confined_dataInterrupt _ _ _ u)
      (.after (hstore _ _ (drawn 1 u)) (confined_dataInterrupt _ _ _ _))
  · exact confined_beforeEvent fun u => confined_complete (t := drawn _ _) ((hd _).trans (hstore _ _ u)) _ _ _

theorem confined_loadScalar (rt : Reg) (ea : Word) (n : Nat) (f : LoadForm) (x31 : Bool) (s : State) :
    Confined s (loadScalar rt ea n f x31 s) :=
  confined_loadBytes (fun _ _ => rfl) fun _ _ => supervisor_undefinedCr0 x31 _

theorem confined_loadScalarUpdate (rt ra : Reg) (ea : Word) (n : Nat) (f : LoadForm) (x31 : Bool) (s : State) :
    Confined s (loadScalarUpdate rt ra ea n f x31 s) :=
  confined_loadBytes (fun _ _ => rfl) fun _ _ => (supervisor_undefinedCr0 x31 _).trans (supervisor_loadUpdateWrite ..)

theorem confined_loadStringBytes (rt : Reg) (ea : Word) (n : Nat) (base : Reg → Bool) (x31 : Bool) (s : State) :
    Confined s (loadStringBytes rt ea n base x31 s) :=
  confined_loadBytes (fun _ _ => supervisor_loadString ..) fun _ _ => (supervisor_undefinedCr0 x31 _).trans (supervisor_loadString ..)

theorem supervisor_loadNothing (ea : Word) (s : State) : supervisor (loadNothing ea s) = supervisor s := by
  rcases loadNothing_cases ea s with e | ⟨-, e⟩
  · rw [e]
  · rw [e]
    exact (work_reportDataError s).supervisor

theorem confined_loadReserve (rt : Reg) (ea : Word) (x31 : Bool) (s : State) : Confined s (loadReserve rt ea x31 s) := by
  unfold loadReserve
  split
  · exact confined_dataInterrupt _ _ _ s
  · exact .ite (confined_alignmentInterrupt ea s) (confined_loadBytes (fun _ _ => rfl) fun _ _ => supervisor_undefinedCr0 x31 _)

theorem confined_storeConditional (ea v : Word) (s : State) : Confined s (storeConditional ea v s) := by
  unfold storeConditional
  split
  · exact confined_dataInterrupt _ _ _ s
  · exact .ite (confined_alignmentInterrupt ea s) (confined_storeBytes fun _ => rfl)

theorem confined_storeRefused (ea : Word) (s : State) : Confined s (storeRefused ea s) :=
  .ite (confined_alignmentInterrupt ea s) (confined_advance rfl)

/-! ### Cache control -/

theorem confined_afterCheck {store : Bool} {ea : Word} {r : Except DataFault Xlate} {k : Xlate → State → State} {s : State}
    (h : ∀ x, Confined s (k x s)) : Confined s (afterCheck store ea r k s) := by
  cases r with
  | error f => exact confined_dataInterrupt store ea f s
  | ok x => exact h x

theorem confined_cacheStep {events : Word} {x31 : Bool} {op : State → State} {s : State}
    (ho : ∀ u, supervisor (op u) = supervisor u) : Confined s (cacheStep events x31 op s) :=
  confined_beforeEvent fun u =>
    confined_advance ((supervisor_undefinedCr0 x31 _).trans ((ho _).trans (work_busTurn u).supervisor))

theorem supervisor_touchLine (x : Xlate) (s : State) : supervisor (touchLine x s) = supervisor s := by
  rcases touchLine_cases x s with ⟨e, -⟩ | ⟨e, hn, hway⟩
  · rw [e]
  · rw [e]
    exact ((work_clearBuffer s).trans (work_fillLine (s := clearBuffer s) hn hway)).supervisor

theorem supervisor_installLine (ra : Word) (data : Vector Byte 32) (dirty : Bool) (s : State) :
    supervisor (installLine ra data dirty s) = supervisor s := (work_castOut (dClass s ra) s).supervisor

theorem supervisor_establishLine (ra : Word) (data : Vector Byte 32) (s : State) :
    supervisor (establishLine ra data s) = supervisor s := by
  unfold establishLine
  split
  · rfl
  · exact supervisor_installLine ra data true s

theorem supervisor_allocateLine (x : Xlate) (s : State) : supervisor (allocateLine x s) = supervisor s := by
  rcases allocateLine_cases x s with e | ⟨-, -, -, -, e | ⟨data, dirty, e⟩⟩
  · rw [e]
  · rw [e]
    rfl
  · rw [e]
    exact supervisor_installLine x.ra data dirty (drawn 33 s)

theorem confined_touchData (ea : Word) (x31 : Bool) (s : State) : Confined s (touchData ea x31 s) := by
  unfold touchData
  split
  · exact confined_cacheStep (supervisor_touchLine _)
  · exact confined_advance (supervisor_undefinedCr0 x31 s)

theorem confined_allocateData (ea : Word) (x31 : Bool) (s : State) : Confined s (allocateData ea x31 s) := by
  unfold allocateData
  split
  · exact confined_cacheStep (supervisor_allocateLine _)
  · exact confined_advance (supervisor_undefinedCr0 x31 s)

theorem confined_zeroLine (ea : Word) (x31 : Bool) (x : Xlate) (s : State) : Confined s (zeroLine ea x31 x s) :=
  .ite (confined_alignmentInterrupt ea s)
    (confined_cacheStep fun u => (supervisor_establishLine x.ra _ _).trans (work_dropBuffer x.ra u).supervisor)

/-! ### Branches, system call and traps -/

theorem confined_branchTo (taken : Bool) (target ctr : Word) (lk : Bool) (s : State) : Confined s (branchTo taken target ctr lk s) := by
  refine confined_beforeEvent fun u => confined_complete (s := u) ?_ u _ _
  exact supervisor_ite rfl rfl

theorem confined_branchCtrFree (lk : Bool) (s : State) : Confined s (branchCtrFree lk s) :=
  confined_complete (s := s) (t := drawn 2 { s with ctr := _, lr := _ }) rfl s _ _

theorem confined_systemCall (s : State) : Confined s (systemCall s) :=
  .inr ((entered_enter rfl .noncritical (off := 0x0C00#32) (by decide) _).debugEvent _ _)

theorem confined_trap (s : State) : Confined s (trap s) :=
  .ite (confined_debugEvent rfl s _ _)
    (.ite (.after (t := recordEvent s dbsrTIE s) rfl (confined_programInterrupt _ _)) (confined_programInterrupt _ s))

/-! ### Instructions -/

/-- The instruction answers with a next state, and is confined. -/
def ExecConfined (i : Instr) (s : State) : Prop := ∃ t, exec i s = .next t ∧ Confined s t

theorem ExecConfined.of_ite {i : Instr} {s t u : State} {c : Prop} [Decidable c]
    (h : exec i s = if c then .next t else .next u) (ht : Confined s t) (hu : Confined s u) : ExecConfined i s := by
  split at h
  · exact ⟨t, h, ht⟩
  · exact ⟨u, h, hu⟩

/-- A privileged instruction is trapped (R681). -/
theorem ExecConfined.of_privileged {i : Instr} {s : State} {k : State → State} (hp : msrPR s = true)
    (h : exec i s = .next (privileged k s)) : ExecConfined i s :=
  ⟨_, h.trans (congrArg _ (privileged_user hp k)), confined_programInterrupt _ s⟩

/-- A TLB instruction is trapped, as a privileged one or as an illegal one (R189, R681). -/
theorem ExecConfined.of_tlbStep {i : Instr} {s : State} {x31 : Bool} {op : State → State} (hp : msrPR s = true)
    (h : exec i s = .next (tlbStep x31 op s)) : ExecConfined i s := by
  refine ⟨_, h, .ite ?_ (confined_programInterrupt _ s)⟩
  rw [privilegedStep, privileged_user hp]
  exact confined_programInterrupt _ s

/-- EVERY INSTRUCTION of the problem state is confined, group by group as the meanings share their operations. -/
theorem exec_confined {s : State} (hp : msrPR s = true) (i : Instr) : ExecConfined i s := by
  cases i
  -- loads and stores
  case lbz | lbzx | lha | lhax | lhz | lhzx | lwz | lwzx | lhbrx | lwbrx => exact ⟨_, rfl, confined_loadScalar ..⟩
  case lbzu | lbzux | lhau | lhaux | lhzu | lhzux | lwzu | lwzux => exact ⟨_, rfl, confined_loadScalarUpdate ..⟩
  case lmw => exact ⟨_, rfl, confined_loadBytes (fun _ _ => supervisor_loadWords ..) fun _ _ => supervisor_loadWords ..⟩
  case lswi => exact ⟨_, rfl, confined_loadStringBytes ..⟩
  case lswx =>
    exact .of_ite rfl (confined_advance ((supervisor_undefinedCr0 ..).trans (supervisor_loadNothing ..))) (confined_loadStringBytes ..)
  case stb | stbx | sth | sthx | stw | stwx | sthbrx | stwbrx => exact ⟨_, rfl, confined_storeBytes (supervisor_undefinedCr0 _)⟩
  case stbu | stbux | sthu | sthux | stwu | stwux => exact ⟨_, rfl, confined_storeBytes fun _ => supervisor_undefinedCr0 ..⟩
  case stmw => exact ⟨_, rfl, confined_storeBytes fun _ => rfl⟩
  case stswi => exact ⟨_, rfl, confined_storeBytes (supervisor_undefinedCr0 _)⟩
  case stswx => exact .of_ite rfl (confined_advance (supervisor_undefinedCr0 ..)) (confined_storeBytes (supervisor_undefinedCr0 _))
  case lwarx => exact ⟨_, rfl, confined_loadReserve ..⟩
  case stwcxRc => exact .of_ite rfl (confined_storeConditional ..) (confined_storeRefused ..)
  -- results in registers
  case add | addc | adde | subf | subfc | subfe | addme | addze | subfme | subfze | addic | addicRc | subfic | neg | mullw | mulhw |
      mulhwu | mulchw | mulchwu | mulhhw | mulhhwu | mullhw | mullhwu =>
    exact ⟨_, rfl, confined_advance (supervisor_deliver ..)⟩
  case macchw | macchws | machhw | machhws | maclhw | maclhws | nmacchw | nmacchws | nmachhw | nmachhws | nmaclhw | nmaclhws =>
    exact ⟨_, rfl, confined_advance (supervisor_accumulateSigned ..)⟩
  case macchwu | macchwsu | machhwu | machhwsu | maclhwu | maclhwsu =>
    exact ⟨_, rfl, confined_advance (supervisor_accumulateUnsigned ..)⟩
  case divw | divwu => exact .of_ite rfl (confined_advance (supervisor_divideUndefined ..)) (confined_advance (supervisor_deliver ..))
  case and | andc | eqv | nand | nor | or | orc | xor | cntlzw | extsb | extsh | andiRc | andisRc | ori | oris | xori | xoris |
      rlwimi | rlwinm | rlwnm | slw | srw | sraw | srawi =>
    exact ⟨_, rfl, confined_advance (supervisor_deliverRa ..)⟩
  case addi | addis | mulli | cmpi | cmpli | mcrf | crand | crandc | creqv | crnand | crnor | cror | crorc | crxor | mtcrf =>
    exact ⟨_, rfl, confined_advance rfl⟩
  -- moves and barriers with the bit 31 rule
  case cmp | cmpl | mcrxr | mfcr | isync | eieio | sync => exact ⟨_, rfl, confined_advance (supervisor_undefinedCr0 ..)⟩
  -- branches, system call and traps
  case b | bc | bclr => exact ⟨_, rfl, confined_branchTo ..⟩
  case bcctr => exact .of_ite rfl (confined_branchTo ..) (confined_branchCtrFree ..)
  case sc => exact ⟨_, rfl, confined_systemCall s⟩
  case tw => exact .of_ite rfl (confined_trap s) (confined_advance (supervisor_undefinedCr0 ..))
  case twi => exact .of_ite rfl (confined_trap s) (confined_advance rfl)
  -- cache control
  case dcba => exact ⟨_, rfl, confined_allocateData ..⟩
  case dcbf =>
    exact ⟨_, rfl, confined_afterCheck fun _ => confined_cacheStep fun u => ((work_cleanLine _ u).trans (work_dropLine _ _)).supervisor⟩
  case dcbst => exact ⟨_, rfl, confined_afterCheck fun _ => confined_cacheStep fun u => (work_cleanLine _ u).supervisor⟩
  case dcbt | dcbtst => exact ⟨_, rfl, confined_touchData ..⟩
  case dcbz => exact ⟨_, rfl, confined_afterCheck fun _ => confined_zeroLine ..⟩
  case icbi => exact ⟨_, rfl, confined_afterCheck fun _ => confined_cacheStep fun u => (work_dropInstrLine _ u).supervisor⟩
  -- privileged instructions
  case dcbi | dccci | dcread | icbt | iccci | icread | mfmsr | mtmsr | rfi | rfci | wrtee | wrteei | mfdcr | mtdcr =>
    exact .of_privileged hp rfl
  case tlbia | tlbre | tlbsx | tlbsync | tlbwe => exact .of_tlbStep hp rfl
  -- moves of special registers
  case mfspr => exact .of_ite rfl (confined_programInterrupt _ s) (confined_advance (supervisor_moveFromSpr ..))
  case mtspr rs n =>
    by_cases hn : userWritable n = true
    · exact ⟨_, exec_mtspr (.inr hn) rs, confined_moveToSpr_user hn _ s⟩
    · exact ⟨_, exec_mtspr_user hp hn rs, confined_programInterrupt _ s⟩
  case mftb => exact ⟨_, rfl, confined_advance (supervisor_ite rfl (supervisor_ite rfl rfl))⟩

/-- Settles O12: each instruction leaves what is out of reach alone or comes to a vector (`exec_confined`). -/
theorem userConfined : Obligations.UserConfined := by
  intro i s t hp he
  obtain ⟨u, hu, hc⟩ := exec_confined (s := s) hp i
  cases hu.symm.trans he
  have hconf : configuration t = configuration s := hc.elim configuration_of_supervisor (·.configuration)
  refine ⟨congrArg (·.mmu) hconf, congrArg (·.attr) hconf, congrArg (·.tmr) hconf, congrArg (·.sprg) hconf, congrArg (·.dcr) hconf,
    congrArg (·.icdbdr) hconf, congrArg (fun c => { c.dbg with dbsr := s.dbg.dbsr, run := s.dbg.run }) hconf, ?_⟩
  exact hc.imp (fun h => ⟨msr_of_supervisor h, congrArg (·.exc) h⟩) fun h => ⟨h.msr, h.pc⟩

end Sys2Proof.Machine
end

section
/-! SUPPORT. The MSR moves and the TLB instructions in the supervisor state, the system call and the traps (R186, R189, R530 to R535, R540
to R544, R571 to R574). -/

namespace Sys2Proof.Machine

/-! ### One step of a privileged instruction (R529) -/

theorem privilegedStep_quiet {s : State} (hq : quiet s = true) (hp : bit s.msr 17 = false) (x31 : Bool) (op : State → State) :
    privilegedStep x31 op s = { undefinedCr0 x31 (op s) with pc := s.pc + 4#32 } := by
  rw [privilegedStep, privileged_supervisor hp, advance_quiet hq]

theorem tlbStep_quiet {s : State} (hq : quiet s = true) (hp : bit s.msr 17 = false) (hm : s.params.mmuEnabled = true) (x31 : Bool)
    (op : State → State) : tlbStep x31 op s = { undefinedCr0 x31 (op s) with pc := s.pc + 4#32 } := by
  rw [tlbStep, if_pos hm, privilegedStep_quiet hq hp]

/-! ### The MSR moves (R530, R531, R534, R535) -/

/-- MSR[EE] written is the MSR with bit 16 cleared, and set again or not. -/
theorem setBit_sixteen (w : Word) (b : Bool) : setBit w 16 b = (w &&& 0xFFFF7FFF#32) ||| (if b then 0x00008000#32 else 0#32) := by
  refine word_ext fun k hk => ?_
  have hkept : bit 0xFFFF7FFF#32 k = !decide (16 = k) := (bit_not (weight 16) hk).trans (by rw [bit_weight (i := 16) (by decide) hk])
  have hset : bit (if b then 0x00008000#32 else 0#32) k = (b && decide (16 = k)) := by
    cases b
    · simp [bit]
    · exact (bit_weight (i := 16) (by decide) hk).trans (Bool.true_and _).symm
  rw [bit_setBit w b (by decide) hk, bit_or, bit_and, hkept, hset]
  by_cases h : 16 = k <;> simp [h]

/-- The bit that `wrtee` moves, taken alone out of RS. -/
theorem ite_bit_sixteen (w : Word) : (if bit w 16 then 0x00008000#32 else 0#32) = w &&& 0x00008000#32 := by
  refine word_ext fun k hk => ?_
  have hmask : bit 0x00008000#32 k = decide (16 = k) := bit_weight (i := 16) (by decide) hk
  rw [bit_and, hmask]
  by_cases h : 16 = k
  · subst h
    cases bit w 16 <;> decide
  · have hzero : bit 0#32 k = false := by simp [bit]
    split <;> simp [h, hmask, hzero]

theorem exec_mfmsr_quiet {s : State} (hq : quiet s = true) (hp : bit s.msr 17 = false) (rt : Reg) (x31 : Bool) :
    exec (.mfmsr rt x31) s = .next { undefinedCr0 x31 (setGpr rt s.msr s) with pc := s.pc + 4#32 } :=
  congrArg Host.Outcome.next (privilegedStep_quiet hq hp x31 _)

/-- A privileged instruction that writes the MSR and perhaps the fetch side. -/
theorem exec_writesMsr {s : State} (hq : quiet s = true) (hp : bit s.msr 17 = false) {i : Instr} {x31 : Bool} {op : State → State}
    {v : Word} {p : Pipe} (he : exec i s = .next (privilegedStep x31 op s)) (hop : op s = { s with msr := v, pipe := p }) :
    ∃ t, exec i s = .next t ∧ t.msr = v ∧ Bit31 s t x31 ∧ t.pc = s.pc + 4#32 ∧
      t = { s with msr := t.msr, pc := t.pc, cr := t.cr, free := t.free, pipe := p } := by
  refine ⟨_, he, ?_⟩
  rw [privilegedStep_quiet hq hp, hop]
  exact ⟨undefinedCr0_msr x31 _, bit31_undefinedCr0 rfl x31 _, rfl, by cases x31 <;> rfl⟩

/-- `mtmsr` makes the old fetch state one that later fetches may be made under (R186, R531). -/
theorem exec_mtmsr_quiet {s : State} (hq : quiet s = true) (hp : bit s.msr 17 = false) (rs : Reg) (x31 : Bool) :
    ∃ t, exec (.mtmsr rs x31) s = .next t ∧
      t.msr = (if s.params.mmuEnabled then gpr s rs else gpr s rs &&& 0xFFFFFFCF#32) ∧ Bit31 s t x31 ∧ t.pc = s.pc + 4#32 ∧
      t = { s with msr := t.msr, pc := t.pc, cr := t.cr, free := t.free, pipe := pipeRemembering s } :=
  exec_writesMsr hq hp rfl (rememberContext_eq (t := setMsr (gpr s rs) s) rfl)

theorem setEE_eq {s : State} {b : Bool} {w : Word} (h : (if b then 0x00008000#32 else 0#32) = w) :
    setEE b s = { s with msr := (s.msr &&& 0xFFFF7FFF#32) ||| w, pipe := s.pipe } := by
  rw [setEE, setBit_sixteen, h]

/-- Settles O47: each writer of the MSR is a privileged step whose effect is the MSR written (`exec_writesMsr`). -/
theorem msrMoves : Obligations.MsrMoves := by
  intro s r e x31 hq hp
  refine ⟨⟨_, exec_mfmsr_quiet hq hp r x31, ?_⟩, ?_⟩
  · exact ⟨writesGpr_of_gpr rfl (undefinedCr0_gpr x31 _), bit31_undefinedCr0 rfl x31 _, rfl, by cases x31 <;> rfl⟩
  · simp only [List.forall_mem_cons]
    exact ⟨exec_mtmsr_quiet hq hp r x31, exec_writesMsr hq hp rfl (setEE_eq (ite_bit_sixteen _)), exec_writesMsr hq hp rfl (setEE_eq rfl),
      List.forall_mem_nil _⟩

/-! ### The TLB instructions (R540, R541, R543, R544) -/

/-- The entry that a register names, its low six bits taken as a number. -/
theorem tlbIndex_toNat (w : Word) : (tlbIndex w).toNat = w.toNat % 64 := by
  simp [tlbIndex, field]

theorem tlbEntry_tlbIndex (s : State) (w : Word) (h : w.toNat % 64 < 64) : tlbEntry s (tlbIndex w) = s.mmu.tlb[w.toNat % 64] := by
  simp only [tlbEntry, tlbIndex_toNat]

/-- An entry with one half taken from a word (R544). -/
def writtenEntry (ws : Bool) (e : TlbEntry) (v pid : Word) : TlbEntry := if ws then tlbSetLo e v else tlbSetHi e v pid

/-- `tlbwe` writes the entry that a register names, and remembers the old fetch state (R186, R544). -/
theorem writeTlb_tlbIndex (s : State) (w v : Word) (ws : Bool) (h : w.toNat % 64 < 64) :
    writeTlb (tlbIndex w) v ws s =
      { s with mmu := { s.mmu with tlb := s.mmu.tlb.set (w.toNat % 64) (writtenEntry ws s.mmu.tlb[w.toNat % 64] v s.mmu.pid) h },
               pipe := pipeRemembering s } := by
  simp only [writeTlb, setTlbEntry, tlbEntry, tlbIndex_toNat]
  rfl

/-- A TLB instruction whose effect is the MMU changed, the old fetch state remembered. -/
theorem exec_writesMmu {s : State} (hq : quiet s = true) (hp : bit s.msr 17 = false) (hm : s.params.mmuEnabled = true) {i : Instr}
    {x31 : Bool} {op : State → State} {g : Vector Word 32} {m : MmuRegs} (he : exec i s = .next (tlbStep x31 op s))
    (hop : op s = { s with gpr := g, mmu := m, pipe := pipeRemembering s }) :
    ∃ t, exec i s = .next t ∧ t.gpr = g ∧ t.mmu = m ∧ Bit31 s t x31 ∧ t.pc = s.pc + 4#32 ∧
      t = { s with gpr := g, mmu := m, pc := t.pc, cr := t.cr, free := t.free, pipe := pipeRemembering s } := by
  refine ⟨_, he, ?_⟩
  rw [tlbStep_quiet hq hp hm, hop]
  exact ⟨undefinedCr0_gpr x31 _, undefinedCr0_mmu x31 _, bit31_undefinedCr0 rfl x31 _, rfl, by cases x31 <;> rfl⟩

/-- Settles O49: each is a step of its group whose effect is the entries, the PID or a general register written. -/
theorem tlbInstructions : Obligations.TlbInstructions := by
  intro s r ra x31 hq hp hm n e w
  have hentry : tlbEntry s (tlbIndex (gpr s ra)) = e := tlbEntry_tlbIndex s _ n.isLt
  refine ⟨?_, ?_, ?_, fun ws => ?_, ?_⟩
  · obtain ⟨t, he, -, hmmu, h31, hpc, hrest⟩ := exec_writesMmu (i := .tlbia x31) (g := s.gpr) hq hp hm rfl rfl
    refine ⟨t, he, fun m => ?_, h31, hpc, ?_⟩
    · simp [hmmu]
    · rw [hmmu]
      exact hrest
  · obtain ⟨t, he, hgpr, hmmu, h31, hpc, hrest⟩ := exec_writesMmu (i := .tlbre r ra false x31) hq hp hm rfl rfl
    refine ⟨t, he, ?_, ?_, h31, hpc, ?_⟩
    · rw [← hentry]
      exact writesGpr_of_gpr rfl hgpr
    · rw [hmmu, BitVec.ofNat_toNat, ← hentry]
    · rw [hmmu, hgpr]
      exact hrest
  · refine ⟨_, congrArg Host.Outcome.next (tlbStep_quiet hq hp hm x31 _), ?_, bit31_undefinedCr0 rfl x31 _, rfl, by cases x31 <;> rfl⟩
    rw [← hentry]
    exact writesGpr_of_gpr rfl (undefinedCr0_gpr x31 _)
  · obtain ⟨t, he, -, hmmu, h31, hpc, hrest⟩ := exec_writesMmu (i := .tlbwe r ra ws x31) (g := s.gpr) hq hp hm rfl
      (writeTlb_tlbIndex s (gpr s ra) w ws n.isLt)
    refine ⟨t, he, ?_, fun m hne => ?_, h31, hpc, ?_⟩
    · rw [hmmu]
      exact Vector.getElem_set_self n.isLt
    · have hne : n.val ≠ m.val := fun h => hne (Fin.ext h.symm)
      rw [hmmu]
      exact Vector.getElem_set_ne n.isLt m.isLt hne
    · rw [hmmu]
      exact hrest
  · exact ⟨_, congrArg Host.Outcome.next (tlbStep_quiet hq hp hm x31 _), bit31_undefinedCr0 rfl x31 _, rfl,
      onlyPc_undefinedCr0 rfl x31 _⟩

/-! ### The system call and the traps (R571 to R574, R647) -/

theorem systemCall_quiet {s : State} (hq : quiet s = true) : systemCall s = enter .noncritical 0x0C00#32 (s.pc + 4#32) s := by
  have hede : dbEDE (enter .noncritical 0x0C00#32 (s.pc + 4#32) s) = false := quiet_dbEDE hq
  rw [systemCall, completionBits_of_dbIC (quiet_dbIC hq), hede]
  exact debugEvent_zero _ _ _

theorem trap_quiet {s : State} (hq : quiet s = true) : trap s = programInterrupt esrPTR s := by simp [trap, quiet_dbTDE hq]

/-- An instruction that traps on a condition: the program interrupt, or the next instruction. -/
theorem trapsIf {s : State} (hq : quiet s = true) (hw : s.dbg.run ≠ .debugWait) {i : Instr} {tos : BitVec 5} {a b : Word} {x31 : Bool}
    (he : exec i s = if trapCondition tos a b then .next (trap s) else .next (advance s (undefinedCr0 x31 s))) :
    (trapCondition tos a b = true → Traps s i 0x02000000#32) ∧
      (¬ trapCondition tos a b = true → ∃ t, exec i s = .next t ∧ Bit31 s t x31 ∧ t.pc = s.pc + 4#32 ∧ OnlyPc s t) := by
  refine ⟨fun h => ?_, fun h => ?_⟩
  · rw [if_pos h, trap_quiet hq] at he
    exact traps_of_exec hq hw he
  · rw [if_neg h, advance_quiet hq] at he
    exact ⟨_, he, bit31_undefinedCr0 rfl x31 _, rfl, onlyPc_undefinedCr0 rfl x31 _⟩

/-- Settles O54: with no event armed the system call is its entry and a trap the program interrupt; the condition is
`trapCondition_iff`. -/
theorem systemCallAndTraps : Obligations.SystemCallAndTraps := by
  intro s tos ra rb im x31 hq hw
  refine ⟨⟨_, rfl, ?_⟩, ?_⟩
  · rw [systemCall_quiet hq, enter_noncritical _ _ s hw]
    exact ⟨⟨rfl, rfl, rfl, rfl, rfl, rfl, rfl, rfl⟩, rfl, rfl⟩
  · simp only [List.forall_mem_cons, ← trapCondition_iff]
    exact ⟨trapsIf hq hw rfl, trapsIf hq hw (x31 := false) rfl, List.forall_mem_nil _⟩

end Sys2Proof.Machine
end
